-- ==== Sys2Proof/Word.lean ====
section
/-! DEFINITION. The widths the spec gives bytes, words and addresses (00_scope.md R10, 30_encoding.md R106). -/

namespace Sys2Proof

/-- A byte: 8 bits in every address space (20_memory.md R60). -/
abbrev Byte := BitVec 8

/-- A data-bus word: two lanes, bits 7:0 the low lane and bits 15:8 the high lane (20_memory.md R64). -/
abbrev Word := BitVec 16

/-- A 32-bit port value carrying an address, a port number or an offset (30_encoding.md R106). -/
abbrev Addr := BitVec 32

end Sys2Proof
end

