-- ==== Sys2Proof/Syntax.lean ====
section
/-! DEFINITION. The names the spec gives operand values, the operation port, and one constructor of `Instr`
for every row of the operation map (30_encoding.md R108). -/

namespace Sys2Proof

/-- The decoded kind of a bus cycle (30_encoding.md R91, 40_bus_cycle.md R131). -/
inductive BusStatus where
  | irqAck | ioRead | ioWrite | halt | code | memRead | memWrite | passive
deriving DecidableEq, Repr, Inhabited

/-- One phase of a bus transfer (30_encoding.md R96). In the two-state variant Ts is `t1` and Tc is `t2`. -/
inductive TCycle where
  | idle | t1 | t2 | t3 | t4 | wait
deriving DecidableEq, Repr, Inhabited

/-- The three-bit T-cycle operand: a T-cycle, or one of the two codes that are none (R96). -/
inductive CycleCode where
  | cycle (c : TCycle)
  | code6
  | code7
deriving DecidableEq, Repr

/-- ActiveBusWidth: which lanes of the data bus a transfer uses (30_encoding.md R97, 20_memory.md R64). -/
inductive BusWidth where
  | eightLow | eightHigh | sixteen
deriving DecidableEq, Repr, Inhabited

/-- The two-bit width operand: a width, or code 3, which only the log uses, for the refresh
combination (30_encoding.md R97, R103). -/
inductive WidthCode where
  | width (w : BusWidth)
  | code3
deriving DecidableEq, Repr

/-- The tag of a queued byte (30_encoding.md R98). -/
inductive Tag where
  | program | programEnd
deriving DecidableEq, Repr, Inhabited

/-- Queue status (30_encoding.md R99). -/
inductive QueueStatus where
  | idle | first | flush | subsequent
deriving DecidableEq, Repr

/-- Logical levels of the five command lines sampled by XFER_DONE (30_encoding.md R106, 1 = asserted). -/
structure CmdLines where
  ale  : Bool
  mrdc : Bool
  mwtc : Bool
  iorc : Bool
  iowc : Bool
deriving DecidableEq, Repr

/-- The pin sample of one tick (10_state.md R43). `rawStatus` and `qs` are the bits the CPU presents. -/
structure Pins where
  rawStatus   : BitVec 4
  statusValid : Bool
  addr        : Addr
  bhe         : Bool
  dataIn      : Word
  ready       : Bool
  qs          : BitVec 2
  aleIn       : Bool
  mrdcIn      : Bool
  mwtcIn      : Bool
  iorcIn      : Bool
  iowcIn      : Bool
deriving DecidableEq, Repr

/-- Program labels: those of 46_phase_sequencer.md R332, the power-on label "none" (10_state.md R27), and any
other label IP_SELECT may carry, which no operation interprets (43_inline_program.md R211). -/
inductive ProgName where
  | noProgram
  | cpuid | cpusetup | jump
  | loadV1 | loadV2 | loadV3a | loadSmm
  | emuEnter | emuExit
  | nmiHandler | finalize
  | store | storeall | user
  | label (text : String)
deriving DecidableEq, Repr

/-- The operand ports, each at its width (30_encoding.md R106). `name` is the model's port for IP_SELECT's label, an
operand that 43_inline_program.md R211 lists and R106 gives no port. DESIGN CHOICE (notes/assumptions/23.md). -/
structure Ports where
  raw   : BitVec 4
  valid : Bool
  st    : BitVec 3
  lst   : BitVec 3
  cyc   : BitVec 3
  width : BitVec 2
  tag   : BitVec 1
  qs    : BitVec 2
  addr  : Addr
  base  : Addr
  data  : Word
  bhe   : Bool
  ready : Bool
  done  : Bool
  bus16 : Bool
  lines : BitVec 5
  sel   : BitVec 8
  seed  : BitVec 32
  bytes : List Byte
  pins  : Pins
  name  : ProgName
deriving DecidableEq, Repr

/-- One request on the operation port: the 8-bit code and the operand ports (30_encoding.md R105). -/
structure Request where
  op    : BitVec 8
  ports : Ports
deriving DecidableEq, Repr

/-- The operations, one constructor per row of the operation map (30_encoding.md R108), with the operands its
rule lists. -/
inductive Instr where
  /-- 0x00 BCS_RESET, 40_bus_cycle.md R144 -/
  | bcsReset
  /-- 0x01 DECODE_STATUS, R132 -/
  | decodeStatus (raw : BitVec 4) (valid : Bool)
  /-- 0x02 XFER_DONE, R135 -/
  | xferDone (lst : BusStatus) (lines : CmdLines) (ready : Bool)
  /-- 0x03 NEXT_CYCLE, R136, R139 -/
  | nextCycle (cyc : CycleCode) (st lst : BusStatus) (done : Bool)
  /-- 0x04 BUS_WIDTH, R141 -/
  | busWidth (addr : Addr) (bhe bus16 : Bool)
  /-- 0x05 CYCLE_TICK, R143 -/
  | cycleTick (pins : Pins) (lines : CmdLines)
  /-- 0x06 XCVR_SET, R142 -/
  | xcvrSet (sel : BitVec 8) (width : WidthCode) (data : Word)
  /-- 0x10 BC_RESET, 41_bus_controller.md R171 -/
  | bcReset
  /-- 0x11 BC_TICK, R163 -/
  | bcTick (st : BusStatus)
  /-- 0x12 BC_TICK2, R170 -/
  | bcTick2 (st : BusStatus) (ready : Bool)
  /-- 0x20 Q_RESET, 42_instruction_queue.md R191 -/
  | qReset (sel : BitVec 8)
  /-- 0x21 Q_HAS_ROOM, R192 -/
  | qHasRoom (width : WidthCode)
  /-- 0x22 Q_PUSH, R193 -/
  | qPush (data : Word) (tag : Tag) (width : WidthCode)
  /-- 0x23 Q_POP, R195 -/
  | qPop
  /-- 0x24 Q_FLUSH, R197 -/
  | qFlush
  /-- 0x25 Q_LEN, R196 -/
  | qLen
  /-- 0x26 Q_STATUS, R198 -/
  | qStatus (qs : QueueStatus)
  /-- 0x30 IP_SELECT, 43_inline_program.md R211 -/
  | ipSelect (name : ProgName) (bytes : List Byte) (data : Word) (addr : Addr)
  /-- 0x31 IP_RESET, R212 -/
  | ipReset
  /-- 0x32 IP_READ, R213 -/
  | ipRead (addr : Addr) (width : WidthCode)
  /-- 0x33 IP_READ_AT, R215 -/
  | ipReadAt (base addr : Addr) (width : WidthCode)
  /-- 0x34 IP_PATCH_VECTOR, R216 -/
  | ipPatchVector (data : Word)
  /-- 0x35 IP_PATCH_WORD, R217 -/
  | ipPatchWord (addr : Addr) (data : Word)
  /-- 0x40 MB_READ8, 44_memory_backend.md R250 -/
  | mbRead8 (addr : Addr)
  /-- 0x41 MB_WRITE8, R251 -/
  | mbWrite8 (addr : Addr) (data : Word)
  /-- 0x42 MB_READ16, R252 -/
  | mbRead16 (addr : Addr)
  /-- 0x43 MB_WRITE16, R253 -/
  | mbWrite16 (addr : Addr) (data : Word)
  /-- 0x44 MB_BUS_READ, R255 -/
  | mbBusRead (addr : Addr) (bhe bus16 : Bool)
  /-- 0x45 MB_BUS_WRITE, R256 -/
  | mbBusWrite (addr : Addr) (bhe bus16 : Bool) (data : Word)
  /-- 0x46 MB_IO_READ, R258 -/
  | mbIoRead (addr : Addr) (width : WidthCode)
  /-- 0x47 MB_IO_WRITE, R259 -/
  | mbIoWrite (addr : Addr) (width : WidthCode) (data : Word)
  /-- 0x48 MB_SET, R260 -/
  | mbSet (addr : Addr) (bytes : List Byte)
  /-- 0x49 MB_ERASE, R261 -/
  | mbErase
  /-- 0x4A MB_SET_DEFAULT, R262 -/
  | mbSetDefault (sel : BitVec 8) (seed : BitVec 32)
  /-- 0x4B MB_SELECT, R248 -/
  | mbSelect (sel : BitVec 8)
  /-- 0x50 LOG_CLEAR, 45_bus_log.md R292 -/
  | logClear
  /-- 0x51 LOG_APPEND, R291 -/
  | logAppend (st : BusStatus) (width : WidthCode) (addr : Addr) (data : Word)
  /-- 0x52 LOG_READ, R293 -/
  | logRead (addr : Addr)
  /-- 0x53 LOG_STATUS, R294 -/
  | logStatus
  /-- 0x54 BE_READ, R300 -/
  | beRead (st : BusStatus) (addr : Addr) (bhe bus16 : Bool)
  /-- 0x55 BE_WRITE, R301 -/
  | beWrite (st : BusStatus) (addr : Addr) (bhe bus16 : Bool) (data : Word)
  /-- 0x60 ENGINE_TICK, 46_phase_sequencer.md R310 -/
  | engineTick (pins : Pins) (data : Word) (tag : Tag)
  /-- 0x61 SRV_RESET, R340 -/
  | srvReset (bus16 : Bool) (sel : BitVec 8)
  /-- 0x62 SRV_LOAD, R342 -/
  | srvLoad (sel : BitVec 8) (bytes : List Byte) (data : Word)
  /-- 0x63 SRV_FINALIZE, R343 -/
  | srvFinalize
  /-- 0x64 SRV_STORE, R344 -/
  | srvStore
  /-- 0x65 SRV_STOREALL, R345 -/
  | srvStoreall
deriving DecidableEq, Repr

end Sys2Proof
end

