-- ==== Sys2Proof/Config.lean ====
section
/-! DEFINITION. The parameters of the block (00_scope.md R8) as one plain record, which State carries as `cfg`
(10_state.md R37, R38), the constants R8 fixes, and the free values, which are opaque. -/

namespace Sys2Proof

/-- STATUS_VARIANT (00_scope.md R8, 30_encoding.md R92 to R94). -/
inductive StatusVariant where
  | s3 | n4 | r3
deriving DecidableEq, Repr

/-- CYCLE_VARIANT (R8, 40_bus_cycle.md R130). -/
inductive CycleVariant where
  | fourState | twoState
deriving DecidableEq, Repr

/-- BC_VARIANT (R8). -/
inductive BcVariant where
  | bc8288 | bc82288
deriving DecidableEq, Repr

/-- ADDR_BITS (R8): 20, 24 or 32 address lines. -/
inductive AddrBits where
  | bits20 | bits24 | bits32
deriving DecidableEq, Repr

/-- The number of address lines. -/
def AddrBits.lines : AddrBits → Nat
  | .bits20 => 20
  | .bits24 => 24
  | .bits32 => 32

/-- END_STRATEGY (R8, 30_encoding.md R102). -/
inductive EndStrategy where
  | nmiVector | queueTag
deriving DecidableEq, Repr

/-- MB_VARIANT (R8, 30_encoding.md R101). -/
inductive MbVariant where
  | null | flat | hash
deriving DecidableEq, Repr

/-- EXEC_SOURCE (R8): who serves Prefetch and Execute (46_phase_sequencer.md R313). -/
inductive ExecSource where
  | inline | backend | host
deriving DecidableEq, Repr

/-- PATH_OPTS (R8): the optional phases of the path (46_phase_sequencer.md R330). -/
structure PathOpts where
  cpuid    : Bool
  cpusetup : Bool
  emu      : Bool
  prefetch : Bool
  storeall : Bool
deriving DecidableEq, Repr

/-- A stored program image (10_state.md R28); its length is the length of `buf`. -/
structure Image where
  buf          : List Byte
  fill         : Word
  vectorOffset : Nat
deriving DecidableEq, Repr

/-- Which body an open function parameter of R8 has in an instance: none that is known (an opaque constant), or
the body the spec suggests for executable models. -/
inductive OpenBody where
  | free | suggested
deriving DecidableEq, Repr

/-- The configuration record (00_scope.md R8). `bus16`, `qsAvail` and `endStrategy` change at a host reset
(10_state.md R37), everything else is a constant of the instance. -/
structure Config where
  statusVariant : StatusVariant
  cycleVariant  : CycleVariant
  bcEmulated    : Bool
  bcVariant     : BcVariant
  cmdLinesAvail : Bool
  bus16         : Bool
  qsAvail       : Bool
  endStrategy   : EndStrategy
  /-- the host's override of END_STRATEGY (10_state.md R37, 46_phase_sequencer.md R340 "unless overridden") -/
  endOverride   : Option EndStrategy
  addrBits      : AddrBits
  fillDefault   : Word
  ipMaxLen      : Nat
  nmiVectorAddr : Addr
  tReset        : Nat
  tLoad         : Nat
  tFinalize     : Nat
  tStore        : Nat
  tStoreAll     : Nat
  mbVariant     : MbVariant
  mbFlatBase    : Nat
  mbFlatSize    : Nat
  mbHashCap     : Nat
  avalanche     : OpenBody
  phaseDone     : OpenBody
  storeAddrOk   : OpenBody
  execSource    : ExecSource
  pathOpts      : PathOpts
  ipsetInit     : List (ProgName × Image)
  /-- DECODE_N4: `none` marks a Reserved code (30_encoding.md R93) -/
  decodeN4      : Vector (Option BusStatus) 16
  /-- DECODE_R3: `none` marks a Reserved code (30_encoding.md R94) -/
  decodeR3      : Vector (Option BusStatus) 8
deriving DecidableEq, Repr

namespace Config

/-- LOG_DEPTH (R8, fixed). -/
def logDepth : Nat := 256

/-- WRITE_RUN_THRESHOLD (R8, fixed). -/
def writeRunThreshold : Nat := 3

/-- CPUID_THRESHOLD (R8, fixed). -/
def cpuidThreshold : Nat := 5

/-- The value a data lane that is not valid holds at the `n`th draw: any byte
(93_implementation_defined.md U3). -/
opaque freeLane : Nat → Byte

/-- The byte result of a pop from an empty queue at the `n`th draw: any byte (93_implementation_defined.md U4). -/
opaque freePopByte : Nat → Byte

/-- The tag result of a pop from an empty queue at the `n`th draw: any tag (93_implementation_defined.md U4). -/
opaque freePopTag : Nat → Tag

/-- AVALANCHE of an instance whose body is not known: any function of seed and key
(44_memory_backend.md R243). -/
opaque freeAvalanche : BitVec 32 → BitVec 32 → Word

/-- STORE_ADDR_OK of an instance whose body is not known: any predicate of address and kind
(46_phase_sequencer.md R337). -/
opaque freeStoreAddrOk : Addr → BusStatus → Bool

/-- The default DECODE_N4 table (30_encoding.md R93). -/
def defaultN4 : Vector (Option BusStatus) 16 :=
  #v[some .irqAck, none, none, some .passive,
     some .halt, some .memRead, some .memWrite, some .passive,
     none, some .ioRead, some .ioWrite, some .passive,
     none, some .code, none, some .passive]

/-- The default DECODE_R3 table (30_encoding.md R94). -/
def defaultR3 : Vector (Option BusStatus) 8 :=
  #v[some .irqAck, none, some .ioRead, some .ioWrite,
     some .code, some .halt, some .memRead, some .memWrite]

/-- The instance State.reset is made of. DESIGN CHOICE (notes/assumptions/2.md): the values R8 leaves open are
those 95_test_vectors.md uses where it names one; the open function bodies stay free. -/
def defaultInstance : Config where
  statusVariant := .s3
  cycleVariant  := .fourState
  bcEmulated    := true
  bcVariant     := .bc8288
  cmdLinesAvail := true
  bus16         := false
  qsAvail       := false
  endStrategy   := .nmiVector
  endOverride   := none
  addrBits      := .bits20
  fillDefault   := 0x9090
  ipMaxLen      := 4096
  nmiVectorAddr := 0x00008
  tReset        := 100
  tLoad         := 100
  tFinalize     := 100
  tStore        := 100
  tStoreAll     := 100
  mbVariant     := .hash
  mbFlatBase    := 0
  mbFlatSize    := 4096
  mbHashCap     := 65536
  avalanche     := .free
  phaseDone     := .free
  storeAddrOk   := .free
  execSource    := .backend
  pathOpts      := { cpuid := false, cpusetup := false, emu := false, prefetch := false, storeall := false }
  ipsetInit     := []
  decodeN4      := defaultN4
  decodeR3      := defaultR3

end Config

end Sys2Proof
end

