-- ==== Sys2Proof/WellFormed.lean ====
section
/-! DEFINITION. Which operations have every operand inside its type's codes (30_encoding.md R109): the others are
decoded too, and refuse. And which configurations R8 admits. -/

namespace Sys2Proof

/-- A width operand that is an ActiveBusWidth (30_encoding.md R97). -/
def WidthCode.isWidth : WidthCode → Bool
  | .width _ => true
  | .code3 => false

/-- A T-cycle operand that is a TCycle (30_encoding.md R96). -/
def CycleCode.isCycle : CycleCode → Bool
  | .cycle _ => true
  | .code6 | .code7 => false

/-- Every operand of the operation lies inside its type's codes (30_encoding.md R96, R97, R101, R109; Q_RESET's
capacities by 42_instruction_queue.md R191, SRV_LOAD's formats by 46_phase_sequencer.md R342, LOG_APPEND's kind by
45_bus_log.md R291). -/
def Instr.wellFormed : Instr → Bool
  | .nextCycle cyc _ _ _ => cyc.isCycle
  | .xcvrSet _ w _ => w.isWidth
  | .qReset sel => sel == 4 || sel == 6
  | .qHasRoom w => w.isWidth
  | .qPush _ _ w => w.isWidth
  | .ipRead _ w => w.isWidth
  | .ipReadAt _ _ w => w.isWidth
  | .mbIoRead _ w => w.isWidth
  | .mbIoWrite _ w _ => w.isWidth
  | .mbSetDefault sel _ => decide (sel.toNat < 3)
  | .mbSelect sel => decide (sel.toNat < 3)
  | .logAppend st _ _ _ => st != .passive
  | .srvLoad sel _ _ => decide (sel.toNat < 4)
  | .bcsReset | .decodeStatus _ _ | .xferDone _ _ _ | .busWidth _ _ _ | .cycleTick _ _
  | .bcReset | .bcTick _ | .bcTick2 _ _
  | .qPop | .qFlush | .qLen | .qStatus _
  | .ipSelect _ _ _ _ | .ipReset | .ipPatchVector _ | .ipPatchWord _ _
  | .mbRead8 _ | .mbWrite8 _ _ | .mbRead16 _ | .mbWrite16 _ _ | .mbBusRead _ _ _ | .mbBusWrite _ _ _ _
  | .mbSet _ _ | .mbErase
  | .logClear | .logRead _ | .logStatus | .beRead _ _ _ _ | .beWrite _ _ _ _ _
  | .engineTick _ _ _ | .srvReset _ _ | .srvFinalize | .srvStore | .srvStoreall => true

/-- The ranges R8 gives the parameters: every budget positive, the hash capacity a power of two, NMI_VECTOR_ADDR of
ADDR_BITS bits. -/
def Config.wellFormed (c : Config) : Bool :=
  decide (0 < c.tReset) && decide (0 < c.tLoad) && decide (0 < c.tFinalize) && decide (0 < c.tStore) &&
  decide (0 < c.tStoreAll) && decide (2 ^ Nat.log2 c.mbHashCap = c.mbHashCap) &&
  decide (c.nmiVectorAddr.toNat < 2 ^ c.addrBits.lines)

end Sys2Proof
end

