-- ==== Sys2Proof/Decode.lean ====
section
/-! DEFINITION. The codes of the enumerations (30_encoding.md R91 to R99), the decoder of the operation port
(R105 to R109), the encoder after it, and the opcode table's own view of the decoder. -/

namespace Sys2Proof

/-! ### Codes of the enumerations -/

/-- BusStatus codes (30_encoding.md R91). -/
def BusStatus.bits : BusStatus → BitVec 3
  | .irqAck => 0 | .ioRead => 1 | .ioWrite => 2 | .halt => 3
  | .code => 4 | .memRead => 5 | .memWrite => 6 | .passive => 7

/-- The BusStatus of a three-bit code: every code is assigned (30_encoding.md R91, R92). -/
def BusStatus.ofBits (b : BitVec 3) : BusStatus :=
  match b.toNat with
  | 0 => .irqAck | 1 => .ioRead | 2 => .ioWrite | 3 => .halt
  | 4 => .code | 5 => .memRead | 6 => .memWrite | _ => .passive

/-- TCycle codes (30_encoding.md R96). -/
def TCycle.bits : TCycle → BitVec 3
  | .idle => 0 | .t1 => 1 | .t2 => 2 | .t3 => 3 | .t4 => 4 | .wait => 5

/-- Codes of the T-cycle operand (30_encoding.md R96). -/
def CycleCode.bits : CycleCode → BitVec 3
  | .cycle c => c.bits
  | .code6 => 6
  | .code7 => 7

/-- The T-cycle operand of a three-bit code (30_encoding.md R96). -/
def CycleCode.ofBits (b : BitVec 3) : CycleCode :=
  match b.toNat with
  | 0 => .cycle .idle | 1 => .cycle .t1 | 2 => .cycle .t2 | 3 => .cycle .t3
  | 4 => .cycle .t4 | 5 => .cycle .wait | 6 => .code6 | _ => .code7

/-- Codes of the width operand (30_encoding.md R97). -/
def WidthCode.bits : WidthCode → BitVec 2
  | .width .eightLow => 0 | .width .eightHigh => 1 | .width .sixteen => 2 | .code3 => 3

/-- The width operand of a two-bit code (30_encoding.md R97). -/
def WidthCode.ofBits (b : BitVec 2) : WidthCode :=
  match b.toNat with
  | 0 => .width .eightLow | 1 => .width .eightHigh | 2 => .width .sixteen | _ => .code3

/-- Tag codes (30_encoding.md R98). -/
def Tag.bits : Tag → BitVec 1
  | .program => 0 | .programEnd => 1

/-- The tag of a one-bit code (30_encoding.md R98). -/
def Tag.ofBits (b : BitVec 1) : Tag :=
  match b.toNat with
  | 0 => .program | _ => .programEnd

/-- Queue-status codes (30_encoding.md R99). -/
def QueueStatus.bits : QueueStatus → BitVec 2
  | .idle => 0 | .first => 1 | .flush => 2 | .subsequent => 3

/-- The queue status of a two-bit code (30_encoding.md R99). -/
def QueueStatus.ofBits (b : BitVec 2) : QueueStatus :=
  match b.toNat with
  | 0 => .idle | 1 => .first | 2 => .flush | _ => .subsequent

/-- The `lines` port: ale, mrdc, mwtc, iorc, iowc in bits 4 to 0 (30_encoding.md R106). -/
def CmdLines.bits (l : CmdLines) : BitVec 5 :=
  BitVec.ofBool l.ale ++ BitVec.ofBool l.mrdc ++ BitVec.ofBool l.mwtc ++ BitVec.ofBool l.iorc ++ BitVec.ofBool l.iowc

/-- The five lines of a `lines` port value (30_encoding.md R106). -/
def CmdLines.ofBits (b : BitVec 5) : CmdLines where
  ale  := b.getLsbD 4
  mrdc := b.getLsbD 3
  mwtc := b.getLsbD 2
  iorc := b.getLsbD 1
  iowc := b.getLsbD 0

/-! ### Ports at rest -/

/-- A pin sample with every pin 0. -/
def Pins.zero : Pins where
  rawStatus := 0
  statusValid := false
  addr := 0
  bhe := false
  dataIn := 0
  ready := false
  qs := 0
  aleIn := false
  mrdcIn := false
  mwtcIn := false
  iorcIn := false
  iowcIn := false

/-- Every operand port at 0, the byte list empty, the label "none". -/
def Ports.zero : Ports where
  raw := 0
  valid := false
  st := 0
  lst := 0
  cyc := 0
  width := 0
  tag := 0
  qs := 0
  addr := 0
  base := 0
  data := 0
  bhe := false
  ready := false
  done := false
  bus16 := false
  lines := 0
  sel := 0
  seed := 0
  bytes := []
  pins := Pins.zero
  name := .noProgram

/-! ### The decoder -/

/-- Why the decoder rejects a request. -/
inductive DecodeReject where
  /-- An operation code outside the map of R108 (30_encoding.md R109). `step` answers it with ok = 0, illegal = 1
  and no other change, as R109 says; it is no stop of the machine. Safe. -/
  | illegalOp (op : BitVec 8)
deriving DecidableEq, Repr

/-- The operation map (30_encoding.md R108): the code selects the operation, which takes the ports its rule
lists and ignores the others (R106). -/
def decode (r : Request) : Except DecodeReject Instr :=
  let p := r.ports
  match r.op.toNat with
  | 0x00 => .ok .bcsReset
  | 0x01 => .ok (.decodeStatus p.raw p.valid)
  | 0x02 => .ok (.xferDone (.ofBits p.lst) (.ofBits p.lines) p.ready)
  | 0x03 => .ok (.nextCycle (.ofBits p.cyc) (.ofBits p.st) (.ofBits p.lst) p.done)
  | 0x04 => .ok (.busWidth p.addr p.bhe p.bus16)
  | 0x05 => .ok (.cycleTick p.pins (.ofBits p.lines))
  | 0x06 => .ok (.xcvrSet p.sel (.ofBits p.width) p.data)
  | 0x10 => .ok .bcReset
  | 0x11 => .ok (.bcTick (.ofBits p.st))
  | 0x12 => .ok (.bcTick2 (.ofBits p.st) p.ready)
  | 0x20 => .ok (.qReset p.sel)
  | 0x21 => .ok (.qHasRoom (.ofBits p.width))
  | 0x22 => .ok (.qPush p.data (.ofBits p.tag) (.ofBits p.width))
  | 0x23 => .ok .qPop
  | 0x24 => .ok .qFlush
  | 0x25 => .ok .qLen
  | 0x26 => .ok (.qStatus (.ofBits p.qs))
  | 0x30 => .ok (.ipSelect p.name p.bytes p.data p.addr)
  | 0x31 => .ok .ipReset
  | 0x32 => .ok (.ipRead p.addr (.ofBits p.width))
  | 0x33 => .ok (.ipReadAt p.base p.addr (.ofBits p.width))
  | 0x34 => .ok (.ipPatchVector p.data)
  | 0x35 => .ok (.ipPatchWord p.addr p.data)
  | 0x40 => .ok (.mbRead8 p.addr)
  | 0x41 => .ok (.mbWrite8 p.addr p.data)
  | 0x42 => .ok (.mbRead16 p.addr)
  | 0x43 => .ok (.mbWrite16 p.addr p.data)
  | 0x44 => .ok (.mbBusRead p.addr p.bhe p.bus16)
  | 0x45 => .ok (.mbBusWrite p.addr p.bhe p.bus16 p.data)
  | 0x46 => .ok (.mbIoRead p.addr (.ofBits p.width))
  | 0x47 => .ok (.mbIoWrite p.addr (.ofBits p.width) p.data)
  | 0x48 => .ok (.mbSet p.addr p.bytes)
  | 0x49 => .ok .mbErase
  | 0x4A => .ok (.mbSetDefault p.sel p.seed)
  | 0x4B => .ok (.mbSelect p.sel)
  | 0x50 => .ok .logClear
  | 0x51 => .ok (.logAppend (.ofBits p.st) (.ofBits p.width) p.addr p.data)
  | 0x52 => .ok (.logRead p.addr)
  | 0x53 => .ok .logStatus
  | 0x54 => .ok (.beRead (.ofBits p.st) p.addr p.bhe p.bus16)
  | 0x55 => .ok (.beWrite (.ofBits p.st) p.addr p.bhe p.bus16 p.data)
  | 0x60 => .ok (.engineTick p.pins p.data (.ofBits p.tag))
  | 0x61 => .ok (.srvReset p.bus16 p.sel)
  | 0x62 => .ok (.srvLoad p.sel p.bytes p.data)
  | 0x63 => .ok .srvFinalize
  | 0x64 => .ok .srvStore
  | 0x65 => .ok .srvStoreall
  | _ => .error (.illegalOp r.op)

/-! ### The encoder -/

/-- The operation code of an operation (30_encoding.md R108). -/
def Instr.opCode : Instr → BitVec 8
  | .bcsReset => 0x00
  | .decodeStatus _ _ => 0x01
  | .xferDone _ _ _ => 0x02
  | .nextCycle _ _ _ _ => 0x03
  | .busWidth _ _ _ => 0x04
  | .cycleTick _ _ => 0x05
  | .xcvrSet _ _ _ => 0x06
  | .bcReset => 0x10
  | .bcTick _ => 0x11
  | .bcTick2 _ _ => 0x12
  | .qReset _ => 0x20
  | .qHasRoom _ => 0x21
  | .qPush _ _ _ => 0x22
  | .qPop => 0x23
  | .qFlush => 0x24
  | .qLen => 0x25
  | .qStatus _ => 0x26
  | .ipSelect _ _ _ _ => 0x30
  | .ipReset => 0x31
  | .ipRead _ _ => 0x32
  | .ipReadAt _ _ _ => 0x33
  | .ipPatchVector _ => 0x34
  | .ipPatchWord _ _ => 0x35
  | .mbRead8 _ => 0x40
  | .mbWrite8 _ _ => 0x41
  | .mbRead16 _ => 0x42
  | .mbWrite16 _ _ => 0x43
  | .mbBusRead _ _ _ => 0x44
  | .mbBusWrite _ _ _ _ => 0x45
  | .mbIoRead _ _ => 0x46
  | .mbIoWrite _ _ _ => 0x47
  | .mbSet _ _ => 0x48
  | .mbErase => 0x49
  | .mbSetDefault _ _ => 0x4A
  | .mbSelect _ => 0x4B
  | .logClear => 0x50
  | .logAppend _ _ _ _ => 0x51
  | .logRead _ => 0x52
  | .logStatus => 0x53
  | .beRead _ _ _ _ => 0x54
  | .beWrite _ _ _ _ _ => 0x55
  | .engineTick _ _ _ => 0x60
  | .srvReset _ _ => 0x61
  | .srvLoad _ _ _ => 0x62
  | .srvFinalize => 0x63
  | .srvStore => 0x64
  | .srvStoreall => 0x65

/-- The operand ports of an operation: the ports its rule lists carry its operands, the others are at 0
(30_encoding.md R106). -/
def Instr.operandPorts (i : Instr) : Ports :=
  let z := Ports.zero
  match i with
  | .decodeStatus raw valid => { z with raw := raw, valid := valid }
  | .xferDone lst lines ready => { z with lst := lst.bits, lines := lines.bits, ready := ready }
  | .nextCycle cyc st lst done => { z with cyc := cyc.bits, st := st.bits, lst := lst.bits, done := done }
  | .busWidth addr bhe bus16 => { z with addr := addr, bhe := bhe, bus16 := bus16 }
  | .cycleTick pins lines => { z with pins := pins, lines := lines.bits }
  | .xcvrSet sel width data => { z with sel := sel, width := width.bits, data := data }
  | .bcTick st => { z with st := st.bits }
  | .bcTick2 st ready => { z with st := st.bits, ready := ready }
  | .qReset sel => { z with sel := sel }
  | .qHasRoom width => { z with width := width.bits }
  | .qPush data tag width => { z with data := data, tag := tag.bits, width := width.bits }
  | .qStatus qs => { z with qs := qs.bits }
  | .ipSelect name bytes data addr => { z with name := name, bytes := bytes, data := data, addr := addr }
  | .ipRead addr width => { z with addr := addr, width := width.bits }
  | .ipReadAt base addr width => { z with base := base, addr := addr, width := width.bits }
  | .ipPatchVector data => { z with data := data }
  | .ipPatchWord addr data => { z with addr := addr, data := data }
  | .mbRead8 addr => { z with addr := addr }
  | .mbWrite8 addr data => { z with addr := addr, data := data }
  | .mbRead16 addr => { z with addr := addr }
  | .mbWrite16 addr data => { z with addr := addr, data := data }
  | .mbBusRead addr bhe bus16 => { z with addr := addr, bhe := bhe, bus16 := bus16 }
  | .mbBusWrite addr bhe bus16 data => { z with addr := addr, bhe := bhe, bus16 := bus16, data := data }
  | .mbIoRead addr width => { z with addr := addr, width := width.bits }
  | .mbIoWrite addr width data => { z with addr := addr, width := width.bits, data := data }
  | .mbSet addr bytes => { z with addr := addr, bytes := bytes }
  | .mbSetDefault sel seed => { z with sel := sel, seed := seed }
  | .mbSelect sel => { z with sel := sel }
  | .logAppend st width addr data => { z with st := st.bits, width := width.bits, addr := addr, data := data }
  | .logRead addr => { z with addr := addr }
  | .beRead st addr bhe bus16 => { z with st := st.bits, addr := addr, bhe := bhe, bus16 := bus16 }
  | .beWrite st addr bhe bus16 data =>
    { z with st := st.bits, addr := addr, bhe := bhe, bus16 := bus16, data := data }
  | .engineTick pins data tag => { z with pins := pins, data := data, tag := tag.bits }
  | .srvReset bus16 sel => { z with bus16 := bus16, sel := sel }
  | .srvLoad sel bytes data => { z with sel := sel, bytes := bytes, data := data }
  | .bcsReset | .bcReset | .qPop | .qFlush | .qLen | .ipReset | .mbErase | .logClear | .logStatus
  | .srvFinalize | .srvStore | .srvStoreall => z

/-- The request that asks for an operation (30_encoding.md R105, R106, R108). -/
def encode (i : Instr) : Request where
  op := i.opCode
  ports := i.operandPorts

/-! ### The opcode table's view -/

/-- The request whose operation byte is `w`'s low byte and whose operand ports are all at 0. -/
def Request.ofWord (w : Nat) : Request where
  op := BitVec.ofNat 8 w
  ports := Ports.zero

/-- What the decoder reads from a table row's word: the one operation byte (30_encoding.md R105), operands at 0. -/
def decodeTableWord (nbits w : Nat) : Option Instr :=
  if nbits = 8 ∧ w < 256 then
    match decode (Request.ofWord w) with
    | .ok i => some i
    | .error _ => none
  else none

end Sys2Proof
end

