-- ==== Sys2Proof/Machine/State.lean ====
section
/-! DEFINITION. The state of the block: the record `M` of 10_state.md R20 to R40 as plain data, the model's own
fields beside it, the reasons a step can stop, and the power-on state. -/

namespace Sys2Proof.Machine

open Sys2Proof

/-! ### Enumerations of the state -/

/-- Direction of the data-bus transceiver (10_state.md R25). -/
inductive Direction where
  | input | output
deriving DecidableEq, Repr

/-- A phase (10_state.md R33, 30_encoding.md R104). -/
inductive ServerState where
  | reset | cpuId | cpuSetup | jumpVector | load | loadSmm | loadDone | emuEnter | prefetch | execute
  | executeFinalize | executeDone | emuExit | store | storeDone | storeDoneSmm | done | storeAll | shutdown | error
deriving DecidableEq, Repr

/-- Result of CPU identification (10_state.md R34). -/
inductive CpuVendor where
  | unknown | intel | nec
deriving DecidableEq, Repr

/-- Register-load format (46_phase_sequencer.md R342). -/
inductive LoadFormat where
  | v1 | v2 | v3a | v3b
deriving DecidableEq, Repr

/-- The six error kinds (60_exceptions.md R380); None is the absence of one. -/
inductive ErrorKind where
  | protocolTimeout | phaseTimeout | invalidPhase | invalidRegisterFormat | memoryRange | resetFailure
deriving DecidableEq, Repr

/-- Default-value strategy of the backend (10_state.md R29, 30_encoding.md R101). -/
inductive Strategy where
  | zero | ones | random
deriving DecidableEq, Repr

/-- Queue capacity: 4 or 6 (10_state.md R26). -/
inductive QueueCap where
  | four | six
deriving DecidableEq, Repr

/-! ### Sub-records -/

/-- BusCycleStateMachine (10_state.md R23). -/
structure BusCycle where
  tcycle        : TCycle
  status        : BusStatus
  latchedStatus : BusStatus
  addressLatch  : Addr
  busWidth      : BusWidth
  widthValid    : Bool
  dataLatch     : Word
  fed           : Bool
  fedNprog      : Nat
deriving DecidableEq, Repr

/-- The seven outputs of the controller emulator (10_state.md R24). -/
structure ControllerLines where
  ale   : Bool
  mrdc  : Bool
  amwc  : Bool
  mwtc  : Bool
  iorc  : Bool
  aiowc : Bool
  iowc  : Bool
deriving DecidableEq, Repr

/-- BusControllerEmulator (10_state.md R24). -/
structure BusController where
  prevStatus    : BusStatus
  status        : BusStatus
  latchedStatus : BusStatus
  tcycle        : TCycle
  lines         : ControllerLines
deriving DecidableEq, Repr

/-- Data-bus transceiver (10_state.md R25). -/
structure Transceiver where
  dir        : Direction
  driveWidth : BusWidth
  driveData  : Word
deriving DecidableEq, Repr

/-- InstructionQueueEntry (30_encoding.md R100). -/
structure QueueEntry where
  byte : Byte
  tag  : Tag
deriving DecidableEq, Repr

/-- InstructionQueue: the circular buffer (10_state.md R26). With capacity 4 only the first four slots exist. -/
structure Queue where
  cap   : QueueCap
  slot  : Vector QueueEntry 6
  front : Nat
  len   : Nat
deriving DecidableEq, Repr

/-- The active InlineProgram (10_state.md R27); its `length` is the length of `buf`. -/
structure ActiveProgram where
  name         : ProgName
  buf          : List Byte
  cursor       : Nat
  fill         : Word
  vectorOffset : Nat
deriving DecidableEq, Repr

/-- MemoryBackend (10_state.md R29, R30). `flat` lists the written elements of the flat array by index, an index
that is not listed is unwritten; `hash` lists the allocated words by word index. Both lists rise strictly. -/
structure Memory where
  variant  : MbVariant
  strategy : Strategy
  seed     : BitVec 32
  flat     : List Host.Cell
  hash     : List (Nat × Word)
deriving DecidableEq, Repr

/-- BusOperation, a log entry and a capture event (10_state.md R31, 30_encoding.md R103). -/
structure BusOperation where
  kind    : BusStatus
  width   : WidthCode
  address : Addr
  data    : Word
deriving DecidableEq, Repr

/-- BusOperationLog and the BusEmulator heuristic (10_state.md R31, R32). -/
structure BusLog where
  entry       : Vector BusOperation 256
  wr          : BitVec 8
  count       : Nat
  overflow    : Bool
  writeRun    : Nat
  farCallHint : Bool
deriving DecidableEq, Repr

/-- CpuResetResult (10_state.md R35). -/
structure CpuResetResult where
  success : Bool
  bus16   : Bool
  qsAvail : Bool
deriving DecidableEq, Repr

/-- ServerStateMachine (10_state.md R33, R34). `stackArmed` is the state 46_phase_sequencer.md R335 implies with
"stack capture is armed" (notes/assumptions/9.md); `stalled` is the one R338 and 70_reset_and_hazards.md R453 imply with
a phase that rests where a PhaseTimeout left it, by which a retry is told from a first command
(notes/assumptions/24.md). -/
structure Server where
  state              : ServerState
  budget             : Nat
  tickCount          : Nat
  nmiOut             : Bool
  nmiFetchCount      : Nat
  smiFetchCount      : Nat
  stackCaptureCursor : Nat
  stackArmed         : Bool
  stalled            : Bool
  idCycles           : Nat
  cpuVendor          : CpuVendor
  resetResult        : CpuResetResult
  programEnded       : Bool
  loadFormat         : LoadFormat
deriving DecidableEq, Repr

/-- The sticky anomaly flags and the last error (10_state.md R39, R40). -/
structure Anomalies where
  queueUnderflow : Bool
  queueOverflow  : Bool
  mbRange        : Bool
  mbFull         : Bool
  storeAddr      : Bool
  statusReserved : Bool
  lastError      : Option ErrorKind
deriving DecidableEq, Repr

/-- The response record (30_encoding.md R111): `ok`, `illegal`, `err`, and the result fields, of which an
operation sets those its rule names; a field the rule does not set is `none`. -/
structure Response where
  ok        : Bool := true
  illegal   : Bool := false
  err       : Option ErrorKind := none
  status    : Option BusStatus := none
  reserved  : Option Bool := none
  done      : Option Bool := none
  cyc       : Option TCycle := none
  width     : Option BusWidth := none
  valid     : Option Bool := none
  enteredT1 : Option Bool := none
  ended     : Option Bool := none
  changed   : Option Bool := none
  lines     : Option ControllerLines := none
  room      : Option Bool := none
  empty     : Option Bool := none
  byte      : Option Byte := none
  tag       : Option Tag := none
  len       : Option Nat := none
  cap       : Option Nat := none
  popped    : Option Bool := none
  first     : Option Bool := none
  flushed   : Option Bool := none
  data      : Option Word := none
  nprog     : Option Nat := none
  entry     : Option BusOperation := none
  count     : Option Nat := none
  overflow  : Option Bool := none
  hint      : Option Bool := none
  state     : Option ServerState := none
  event     : Option BusOperation := none
deriving DecidableEq, Repr

/-- What the host's side can present next (47_host_interface.md R366): a request on the operation port, or the
transport's report that a command's parameter bytes came late (60_exceptions.md R383). -/
inductive HostEvent where
  | request (r : Request)
  | lateParameters
deriving DecidableEq, Repr

/-- The state of the machine: the ten sub-records of 10_state.md R20, and the model's own fields `host`, `resp`
and `freeCount` (notes/assumptions/1.md, 6.md, 4.md). -/
@[ext]
structure State where
  cfg       : Config
  bcs       : BusCycle
  bc        : BusController
  xcvr      : Transceiver
  q         : Queue
  ip        : ActiveProgram
  ipset     : List (ProgName × Image)
  mb        : Memory
  log       : BusLog
  srv       : Server
  flags     : Anomalies
  host      : List HostEvent
  resp      : Response
  freeCount : Nat
deriving DecidableEq, Repr

/-! ### Stops -/

/-- Why a step faults: never. Every error, anomaly and refusal of the spec is a next state (60_exceptions.md R381,
R384, R385), so the type has no constructor. Safe: no behaviour of the hardware is cut off. -/
inductive Fault where
deriving DecidableEq, Repr

/-- Why a step is refused. -/
inductive Refusal where
  /-- Raised by an arm of `exec` whose operation has no meaning yet, with the row's mnemonic; no arm is left that
  raises it. Safe: it stops where the hardware would go on. -/
  | notModelled (mnemonic : String)
deriving DecidableEq, Repr

/-! ### Power-on values -/

/-- 10_state.md R23. -/
def BusCycle.powerOn : BusCycle where
  tcycle := .idle
  status := .passive
  latchedStatus := .passive
  addressLatch := 0
  busWidth := .eightLow
  widthValid := true
  dataLatch := 0
  fed := false
  fedNprog := 0

/-- Every controller output 0 (10_state.md R24). -/
def ControllerLines.clear : ControllerLines where
  ale := false
  mrdc := false
  amwc := false
  mwtc := false
  iorc := false
  aiowc := false
  iowc := false

/-- 10_state.md R24. -/
def BusController.powerOn : BusController where
  prevStatus := .passive
  status := .passive
  latchedStatus := .passive
  tcycle := .idle
  lines := ControllerLines.clear

/-- 10_state.md R25. -/
def Transceiver.powerOn : Transceiver where
  dir := .input
  driveWidth := .eightLow
  driveData := 0

/-- 10_state.md R26: empty, every slot (0x00, Program). -/
def Queue.powerOn (cap : QueueCap) : Queue where
  cap := cap
  slot := Vector.replicate 6 { byte := 0, tag := .program }
  front := 0
  len := 0

/-- 10_state.md R27. -/
def ActiveProgram.powerOn (c : Config) : ActiveProgram where
  name := .noProgram
  buf := []
  cursor := 0
  fill := c.fillDefault
  vectorOffset := 0

/-- 10_state.md R29, R30: empty storage, strategy Zero, seed 0. -/
def Memory.powerOn (c : Config) : Memory where
  variant := c.mbVariant
  strategy := .zero
  seed := 0
  flat := []
  hash := []

/-- 10_state.md R31, R32. DESIGN CHOICE (notes/assumptions/12.md): the entries, which nothing can read, are 0. -/
def BusLog.powerOn : BusLog where
  entry := Vector.replicate 256 { kind := .irqAck, width := .width .eightLow, address := 0, data := 0 }
  wr := 0
  count := 0
  overflow := false
  writeRun := 0
  farCallHint := false

/-- 10_state.md R33, R34: at rest in phase Reset. -/
def Server.powerOn : Server where
  state := .reset
  budget := 0
  tickCount := 0
  nmiOut := false
  nmiFetchCount := 0
  smiFetchCount := 0
  stackCaptureCursor := 0
  stackArmed := false
  stalled := false
  idCycles := 0
  cpuVendor := .unknown
  resetResult := { success := false, bus16 := false, qsAvail := false }
  programEnded := false
  loadFormat := .v1

/-- 10_state.md R39, R40. -/
def Anomalies.powerOn : Anomalies where
  queueUnderflow := false
  queueOverflow := false
  mbRange := false
  mbFull := false
  storeAddr := false
  statusReserved := false
  lastError := none

/-- The state after power-on of the instance `c` (70_reset_and_hazards.md R420, 10_state.md R38, R45). -/
def State.powerOn (c : Config) : State where
  cfg := { c with bus16 := false, qsAvail := false, endStrategy := .nmiVector }
  bcs := BusCycle.powerOn
  bc := BusController.powerOn
  xcvr := Transceiver.powerOn
  q := Queue.powerOn .four
  ip := ActiveProgram.powerOn c
  ipset := c.ipsetInit
  mb := Memory.powerOn c
  log := BusLog.powerOn
  srv := Server.powerOn
  flags := Anomalies.powerOn
  host := []
  resp := {}
  freeCount := 0

/-- The machine right after power-on, for the default instance (notes/assumptions/2.md). -/
def State.reset : State := State.powerOn Config.defaultInstance

end Sys2Proof.Machine
end

