-- ==== Sys2Proof/Machine/Operands.lean ====
section
/-! DEFINITION. How operand values are read: selectors, addresses, lanes, the classes of bus status, the width of a
transfer, and the packed encodings of the records (30_encoding.md). -/

namespace Sys2Proof.Machine

open Sys2Proof

/-! ### Addresses -/

/-- The number of address lines (00_scope.md R8). -/
def addrLines (c : Config) : Nat := c.addrBits.lines

/-- The number of byte addresses, 2^ADDR_BITS (20_memory.md R61). -/
def addrSpace (c : Config) : Nat := 2 ^ addrLines c

/-- An address taken from a port or from the pins: the low ADDR_BITS bits are used (30_encoding.md R106). -/
def addrOf (c : Config) (a : Addr) : Nat := a.toNat % addrSpace c

/-- The same address, zero-extended to 32 bits. -/
def maskAddr (c : Config) (a : Addr) : Addr := BitVec.ofNat 32 (addrOf c a)

/-- The address of the second byte of a word (00_scope.md R15 f). -/
def nextAddr (c : Config) (a : Nat) : Nat := (a + 1) % addrSpace c

/-! ### Lanes -/

/-- A byte half of the data bus (20_memory.md R64). -/
inductive Lane where
  | low | high
deriving DecidableEq, Repr

/-- Bits 7:0 (20_memory.md R64). -/
def lowLane (d : Word) : Byte := d.extractLsb' 0 8

/-- Bits 15:8 (20_memory.md R64). -/
def highLane (d : Word) : Byte := d.extractLsb' 8 8

/-- The word with `hi` on the high lane and `lo` on the low lane (30_encoding.md R107). -/
def joinLanes (hi lo : Byte) : Word := hi ++ lo

/-- A byte zero-extended to a word: on the low lane, the high lane 0. -/
def byteWord (b : Byte) : Word := b.setWidth 16

/-- How many bytes a transfer of a width moves (20_memory.md R68). -/
def widthBytes : BusWidth → Nat
  | .eightLow => 1
  | .eightHigh => 1
  | .sixteen => 2

/-! ### Selectors -/

/-- The width of a width operand; code 3 is none (30_encoding.md R97). -/
def widthOf : WidthCode → Option BusWidth
  | .width w => some w
  | .code3 => none

/-- The width code a log entry records: code 3 for the refresh combination (30_encoding.md R103). -/
def loggedWidth (w : BusWidth) (valid : Bool) : WidthCode :=
  if valid then .width w else .code3

/-- Bit 0 of XCVR_SET's selector (40_bus_cycle.md R142). -/
def directionOf (sel : BitVec 8) : Direction :=
  if sel.getLsbD 0 then .output else .input

/-- MB_VARIANT codes (30_encoding.md R101); any other selector is outside them. -/
def variantOf (sel : BitVec 8) : Option MbVariant :=
  match sel.toNat with
  | 0 => some .null
  | 1 => some .flat
  | 2 => some .hash
  | _ => none

/-- MB_STRATEGY codes (30_encoding.md R101); any other selector is outside them. -/
def strategyOf (sel : BitVec 8) : Option Strategy :=
  match sel.toNat with
  | 0 => some .zero
  | 1 => some .ones
  | 2 => some .random
  | _ => none

/-- Queue capacities (42_instruction_queue.md R191); any other selector refuses. -/
def capacityOf (sel : BitVec 8) : Option QueueCap :=
  match sel.toNat with
  | 4 => some .four
  | 6 => some .six
  | _ => none

/-- Register-load formats (46_phase_sequencer.md R342); any other selector is an invalid format. -/
def formatOf (sel : BitVec 8) : Option LoadFormat :=
  match sel.toNat with
  | 0 => some .v1
  | 1 => some .v2
  | 2 => some .v3a
  | 3 => some .v3b
  | _ => none

/-- Number of slots of a capacity (10_state.md R26). -/
def capSize : QueueCap → Nat
  | .four => 4
  | .six => 6

/-- QUEUE_CAP by bus width (00_scope.md R8, 42_instruction_queue.md R190). -/
def queueCapOf (bus16 : Bool) : QueueCap := if bus16 then .six else .four

/-- The lines port value the controller emulator supplies (46_phase_sequencer.md R310, step 2). -/
def cmdLinesOf (l : ControllerLines) : CmdLines where
  ale := l.ale
  mrdc := l.mrdc
  mwtc := l.mwtc
  iorc := l.iorc
  iowc := l.iowc

/-- The lines of a physical controller, from the pins (46_phase_sequencer.md R310, step 2). -/
def pinLines (p : Pins) : CmdLines where
  ale := p.aleIn
  mrdc := p.mrdcIn
  mwtc := p.mwtcIn
  iorc := p.iorcIn
  iowc := p.iowcIn

/-! ### Classes of bus status -/

/-- The read kinds (40_bus_cycle.md R131). -/
def isRead : BusStatus → Bool
  | .code | .memRead | .ioRead | .irqAck => true
  | .ioWrite | .halt | .memWrite | .passive => false

/-- The write kinds (40_bus_cycle.md R131). -/
def isWrite : BusStatus → Bool
  | .memWrite | .ioWrite => true
  | .irqAck | .ioRead | .halt | .code | .memRead | .passive => false

/-- The kinds a memory store or program serves with data (44_memory_backend.md R255, 46_phase_sequencer.md R314). -/
def isMemoryRead : BusStatus → Bool
  | .code | .memRead => true
  | .irqAck | .ioRead | .ioWrite | .halt | .memWrite | .passive => false

/-! ### Width of a transfer -/

/-- BUS_WIDTH (40_bus_cycle.md R141): the width and whether any lane is valid. -/
def transferWidth (addr : Addr) (bhe bus16 : Bool) : BusWidth × Bool :=
  if bus16 then
    match addr.getLsbD 0, bhe with
    | false, true => (.sixteen, true)
    | true, true => (.eightHigh, true)
    | false, false => (.eightLow, true)
    | true, false => (.eightLow, false)
  else (.eightLow, true)

/-- The byte-high-enable value recovered from a latched width (46_phase_sequencer.md R314, `bhe_of`). -/
def bheOf (b : BusCycle) : Bool :=
  match b.busWidth with
  | .sixteen | .eightHigh => true
  | .eightLow => false

/-- How many bytes of the cycle in progress are valid (46_phase_sequencer.md R314, `nvalid`). -/
def validBytes (b : BusCycle) : Nat := if b.widthValid then widthBytes b.busWidth else 0

/-! ### Packed encodings of records and enumerations -/

/-- InstructionQueueEntry, 9 bits: tag in bit 8, byte in bits 7:0 (30_encoding.md R100). -/
def packQueueEntry (e : QueueEntry) : BitVec 9 := e.tag.bits ++ e.byte

/-- BusOperation, 53 bits: kind 52:50, width 49:48, address 47:16, data 15:0 (30_encoding.md R103). -/
def packBusOperation (o : BusOperation) : BitVec 53 := o.kind.bits ++ o.width.bits ++ o.address ++ o.data

/-- ServerState codes (30_encoding.md R104). -/
def serverStateBits : ServerState → BitVec 5
  | .reset => 0 | .cpuId => 1 | .cpuSetup => 2 | .jumpVector => 3 | .load => 4 | .loadSmm => 5 | .loadDone => 6
  | .emuEnter => 7 | .prefetch => 8 | .execute => 9 | .executeFinalize => 10 | .executeDone => 11 | .emuExit => 12
  | .store => 13 | .storeDone => 14 | .storeDoneSmm => 15 | .done => 16 | .storeAll => 17 | .shutdown => 18
  | .error => 19

/-- Error codes; None is 0 (60_exceptions.md R380). -/
def errorCode : Option ErrorKind → BitVec 3
  | none => 0
  | some .protocolTimeout => 1
  | some .phaseTimeout => 2
  | some .invalidPhase => 3
  | some .invalidRegisterFormat => 4
  | some .memoryRange => 5
  | some .resetFailure => 6

end Sys2Proof.Machine
end

