-- ==== Sys2Proof/Machine/Flags.lean ====
section
/-! DEFINITION. The flags of the block (10_state.md R36): the sticky anomaly flags (R39), the far-call hint
(45_bus_log.md R295), and the derived predicates of the queue. -/

namespace Sys2Proof.Machine

open Sys2Proof

/-- The six anomalies (10_state.md R39, 60_exceptions.md R385). -/
inductive Anomaly where
  | queueUnderflow | queueOverflow | mbRange | mbFull | storeAddr | statusReserved
deriving DecidableEq, Repr

/-- Whether an anomaly's flag is set. -/
def anomalySet (f : Anomalies) : Anomaly → Bool
  | .queueUnderflow => f.queueUnderflow
  | .queueOverflow => f.queueOverflow
  | .mbRange => f.mbRange
  | .mbFull => f.mbFull
  | .storeAddr => f.storeAddr
  | .statusReserved => f.statusReserved

/-- Sets an anomaly's flag; no rule but a reset clears one (10_state.md R39). -/
def setAnomaly (f : Anomalies) : Anomaly → Anomalies
  | .queueUnderflow => { f with queueUnderflow := true }
  | .queueOverflow => { f with queueOverflow := true }
  | .mbRange => { f with mbRange := true }
  | .mbFull => { f with mbFull := true }
  | .storeAddr => { f with storeAddr := true }
  | .statusReserved => { f with statusReserved := true }

/-- Sets the flag of anomaly `a` when `b` holds (60_exceptions.md R385: setting it is the whole of "logged"). -/
def State.flagIf (s : State) (b : Bool) (a : Anomaly) : State :=
  if b then { s with flags := setAnomaly s.flags a } else s

/-- The length of a write run after an operation of a kind (45_bus_log.md R291). -/
def nextWriteRun (kind : BusStatus) (run : Nat) : Nat := if isWrite kind then run + 1 else 0

/-- The far-call hint at a length of run (45_bus_log.md R295). -/
def hintAt (run : Nat) : Bool := decide (Config.writeRunThreshold ≤ run)

/-- Queue-empty (10_state.md R36). -/
def queueEmpty (q : Queue) : Bool := q.len == 0

/-- has_room (42_instruction_queue.md R192): room for every byte of a push of the width. -/
def hasRoom (q : Queue) (w : BusWidth) : Bool := decide (q.len + widthBytes w ≤ capSize q.cap)

end Sys2Proof.Machine
end

