-- ==== Sys2Proof/Machine/Open.lean ====
section
/-! DEFINITION. The open functions of 00_scope.md R8 as an instance has them: AVALANCHE, STORE_ADDR_OK and
PHASE_DONE, each either unknown (opaque) or the body the spec suggests. -/

namespace Sys2Proof.Machine

open Sys2Proof

/-- Result of CYCLE_TICK (40_bus_cycle.md R143). -/
structure CycleResult where
  cyc       : TCycle
  enteredT1 : Bool
  ended     : Bool
deriving DecidableEq, Repr

/-- PHASE_DONE of an instance whose body is not known: any predicate of the phase, the state, the pins and the
result of CYCLE_TICK (46_phase_sequencer.md R331). -/
opaque freePhaseDone : ServerState → State → Pins → CycleResult → Bool

/-- The body 44_memory_backend.md R243 suggests for AVALANCHE. -/
def suggestedAvalanche (seed key : BitVec 32) : Word :=
  let x := key ^^^ seed
  let x := x ^^^ (x >>> 16)
  let x := x * 0x7FEB352D
  let x := x ^^^ (x >>> 15)
  let x := x * 0x846CA68B
  let x := x ^^^ (x >>> 16)
  x.setWidth 16

/-- AVALANCHE of the instance (44_memory_backend.md R243). -/
def avalanche (c : Config) (seed key : BitVec 32) : Word :=
  match c.avalanche with
  | .free => Config.freeAvalanche seed key
  | .suggested => suggestedAvalanche seed key

/-- STORE_ADDR_OK of the instance; suggested: always true (46_phase_sequencer.md R337). -/
def storeAddrOk (c : Config) (a : Addr) (kind : BusStatus) : Bool :=
  match c.storeAddrOk with
  | .free => Config.freeStoreAddrOk a kind
  | .suggested => true

/-- The body 46_phase_sequencer.md R331 suggests for PHASE_DONE: in Prefetch the queue model is full, elsewhere the
whole program has been fed, each at a tick at which a bus cycle ends. -/
def suggestedPhaseDone (p : ServerState) (s : State) (r : CycleResult) : Bool :=
  r.ended && (if p = .prefetch then !hasRoom s.q .eightLow else s.ip.cursor == s.ip.buf.length)

/-- PHASE_DONE of the instance (46_phase_sequencer.md R331). -/
def phaseDone (p : ServerState) (s : State) (pins : Pins) (r : CycleResult) : Bool :=
  match s.cfg.phaseDone with
  | .free => freePhaseDone p s pins r
  | .suggested => suggestedPhaseDone p s r

end Sys2Proof.Machine
end

