-- ==== Sys2Proof/Machine/Ops.lean ====
section
/-! DEFINITION. The named operations over the parts of the state that several operations share: updates of State,
responses, raising an error, the queue, the inline program, the backend, the log, the transceiver, and entering a phase,
taking a timeout (the block's exception entry, 60_exceptions.md R389) and the host reset (its return, R390). -/

namespace Sys2Proof.Machine

open Sys2Proof

/-- What an operation answers. -/
abbrev Answer := Host.Outcome State Fault Refusal

/-! ### Updates of State -/

def State.withCfg (s : State) (x : Config) : State := { s with cfg := x }
def State.withBcs (s : State) (x : BusCycle) : State := { s with bcs := x }
def State.withBc (s : State) (x : BusController) : State := { s with bc := x }
def State.withXcvr (s : State) (x : Transceiver) : State := { s with xcvr := x }
def State.withQ (s : State) (x : Queue) : State := { s with q := x }
def State.withIp (s : State) (x : ActiveProgram) : State := { s with ip := x }
def State.withIpset (s : State) (x : List (ProgName × Image)) : State := { s with ipset := x }
def State.withMb (s : State) (x : Memory) : State := { s with mb := x }
def State.withLog (s : State) (x : BusLog) : State := { s with log := x }
def State.withSrv (s : State) (x : Server) : State := { s with srv := x }
def State.withFlags (s : State) (x : Anomalies) : State := { s with flags := x }
def State.withHost (s : State) (x : List HostEvent) : State := { s with host := x }
def State.withResp (s : State) (x : Response) : State := { s with resp := x }
/-- One unspecified value has been drawn (notes/assumptions/4.md). -/
def State.drawn (s : State) : State := { s with freeCount := s.freeCount + 1 }

/-! ### Responses and errors -/

/-- The operation ends with this response (30_encoding.md R111). -/
def State.answer (s : State) (r : Response) : Answer := .next (s.withResp r)

/-- A refusal: ok = 0, no error, nothing else changes (30_encoding.md R109, 60_exceptions.md R384). -/
def State.refuse (s : State) : Answer := s.answer { ok := false }

/-- `raise Err(kind)`, part (1): the last error is recorded (60_exceptions.md R381). -/
def State.recordError (s : State) (k : ErrorKind) : State := s.withFlags { s.flags with lastError := some k }

/-- `raise Err(kind)`: the last error is recorded and the operation answers FAIL (60_exceptions.md R381). -/
def State.raise (s : State) (k : ErrorKind) : Answer :=
  (s.recordError k).answer { ok := false, err := some k }

/-! ### The queue (10_state.md R26) -/

theorem capSize_pos (c : QueueCap) : 0 < capSize c := by cases c <;> decide

theorem capSize_le (c : QueueCap) : capSize c ≤ 6 := by cases c <;> decide

/-- The slot of queue position `k`: (front + k) mod cap (10_state.md R26). -/
def queueIndex (q : Queue) (k : Nat) : Fin 6 :=
  ⟨(q.front + k) % capSize q.cap, Nat.lt_of_lt_of_le (Nat.mod_lt _ (capSize_pos _)) (capSize_le _)⟩

/-- The entry at queue position `k`. -/
def queueAt (q : Queue) (k : Nat) : QueueEntry := q.slot.get (queueIndex q k)

/-- The abstract value: the entries, oldest first (10_state.md R26). -/
def queueList (q : Queue) : List QueueEntry := (List.range q.len).map (queueAt q)

/-- Appends one entry at the tail (42_instruction_queue.md R193, circular form). -/
def queueAppend (q : Queue) (e : QueueEntry) : Queue :=
  { q with slot := q.slot.set (queueIndex q q.len).val e (queueIndex q q.len).isLt, len := q.len + 1 }

/-- Q_PUSH (42_instruction_queue.md R193): none when there is no room, else the queue with the pushed bytes. -/
def queuePush (q : Queue) (d : Word) (t : Tag) (w : BusWidth) : Option Queue :=
  if hasRoom q w then
    match w with
    | .eightLow => some (queueAppend q { byte := lowLane d, tag := t })
    | .eightHigh => some (queueAppend q { byte := highLane d, tag := t })
    | .sixteen =>
      some (queueAppend (queueAppend q { byte := lowLane d, tag := t }) { byte := highLane d, tag := t })
  else none

/-- Q_POP (42_instruction_queue.md R195): none when the queue is empty, else the head and the rest. -/
def queuePop (q : Queue) : Option (QueueEntry × Queue) :=
  if q.len = 0 then none
  else some (queueAt q 0, { q with front := (q.front + 1) % capSize q.cap, len := q.len - 1 })

/-- Q_FLUSH (42_instruction_queue.md R197). -/
def queueFlush (q : Queue) : Queue := { q with front := 0, len := 0 }

/-- Q_RESET (42_instruction_queue.md R191): the capacity is set and the queue emptied. -/
def queueReset (q : Queue) (cap : QueueCap) : Queue := { q with cap := cap, front := 0, len := 0 }

/-- Q_PUSH_CHECKED (30_encoding.md R113): the push when there is room, else `queue_overflow`. -/
def State.pushChecked (s : State) (d : Word) (t : Tag) (w : BusWidth) : State :=
  match queuePush s.q d t w with
  | some q => s.withQ q
  | none => s.flagIf true .queueOverflow

/-- What Q_STATUS reports (42_instruction_queue.md R198); `entry` is the byte and tag of a First or Subsequent
status. -/
structure QueueReport where
  popped  : Bool
  first   : Bool
  entry   : Option QueueEntry
  flushed : Bool
deriving DecidableEq, Repr

/-- A report of nothing: no byte was popped and nothing flushed. -/
def quietReport : QueueReport := { popped := false, first := false, entry := none, flushed := false }

/-- Q_POP on the state: when the queue is empty, the byte and the tag are unspecified and are drawn
(93_implementation_defined.md U4). -/
def State.popQueue (s : State) : State × Bool × QueueEntry :=
  match queuePop s.q with
  | some (e, q) => (s.withQ q, true, e)
  | none => (s.drawn, false, { byte := Config.freePopByte s.freeCount, tag := Config.freePopTag s.freeCount })

/-- A First or Subsequent queue status: one byte is retired, or the underflow flag set (42_instruction_queue.md R198,
R199). -/
def State.retire (s : State) (first : Bool) : State × QueueReport :=
  match s.popQueue with
  | (s', popped, e) =>
    (s'.flagIf (!popped) .queueUnderflow, { popped := popped, first := first, entry := some e, flushed := false })

/-- Q_STATUS on the state (42_instruction_queue.md R198). -/
def State.queueStatus (s : State) (qs : QueueStatus) : State × QueueReport :=
  match qs with
  | .idle => (s, quietReport)
  | .first => s.retire true
  | .subsequent => s.retire false
  | .flush => (s.withQ (queueFlush s.q), { quietReport with flushed := true })

/-! ### The inline program (10_state.md R27) -/

/-- The byte of the fill word that belongs to a lane (43_inline_program.md R210). -/
def fillByte (p : ActiveProgram) (lane : Lane) : Byte :=
  match lane with
  | .low => lowLane p.fill
  | .high => highLane p.fill

/-- byte_or_fill (43_inline_program.md R210). -/
def byteOrFill (p : ActiveProgram) (i : Int) (lane : Lane) : Byte :=
  if 0 ≤ i ∧ i < p.buf.length then p.buf.getD i.toNat 0 else fillByte p lane

/-- Whether an offset lies inside the program. -/
def inProgram (p : ActiveProgram) (i : Int) : Bool := decide (0 ≤ i ∧ i < p.buf.length)

/-- What a program read answers (43_inline_program.md R213, R215). -/
structure ProgramRead where
  data  : Word
  nprog : Nat
  ended : Bool
deriving DecidableEq, Repr

/-- The word a program read of width `w` at offset `i` returns when at least one valid byte lies inside, `free` being
on the lane that is not valid (43_inline_program.md R213, R215; 93_implementation_defined.md U3). -/
def programWord (p : ActiveProgram) (i : Int) (w : BusWidth) (free : Byte) : Word :=
  match w with
  | .eightLow => joinLanes free (byteOrFill p i .low)
  | .eightHigh => joinLanes (byteOrFill p i .high) free
  | .sixteen => joinLanes (byteOrFill p (i + 1) .high) (byteOrFill p i .low)

/-- IP_READ's result (43_inline_program.md R213). -/
def programRead (p : ActiveProgram) (w : BusWidth) (free : Byte) : ProgramRead :=
  if p.buf.length ≤ p.cursor then { data := p.fill, nprog := 0, ended := true }
  else
    { data := programWord p p.cursor w free, nprog := min (widthBytes w) (p.buf.length - p.cursor), ended := false }

/-- IP_READ's effect: the cursor advances and stops at the length (43_inline_program.md R213, 00_scope.md R15 c). -/
def programAdvance (p : ActiveProgram) (w : BusWidth) : ActiveProgram :=
  { p with cursor := min (p.cursor + widthBytes w) p.buf.length }

/-- How many valid bytes of a read at offset `i` lie inside the program (43_inline_program.md R215). -/
def bytesInside (p : ActiveProgram) (i : Int) (w : BusWidth) : Nat :=
  match w with
  | .eightLow | .eightHigh => (inProgram p i).toNat
  | .sixteen => (inProgram p i).toNat + (inProgram p (i + 1)).toNat

/-- IP_READ_AT's result at offset `i` (43_inline_program.md R215). -/
def programReadAt (p : ActiveProgram) (i : Int) (w : BusWidth) (free : Byte) : ProgramRead :=
  { data := if bytesInside p i w = 0 then p.fill else programWord p i w free
    nprog := bytesInside p i w
    ended := false }

/-- IP_PATCH_WORD (43_inline_program.md R217): none when the word does not wholly fit. -/
def programPatch (p : ActiveProgram) (offset : Nat) (v : Word) : Option ActiveProgram :=
  if offset + 2 ≤ p.buf.length then
    some { p with buf := (p.buf.set offset (lowLane v)).set (offset + 1) (highLane v) }
  else none

/-- IP_RESET (43_inline_program.md R212). -/
def programReset (p : ActiveProgram) : ActiveProgram := { p with cursor := 0 }

/-- IP_SELECT (43_inline_program.md R211): none when the image is longer than IP_MAX_LEN. -/
def programSelect (c : Config) (name : ProgName) (i : Image) : Option ActiveProgram :=
  if c.ipMaxLen < i.buf.length then none
  else some { name := name, buf := i.buf, cursor := 0, fill := i.fill, vectorOffset := i.vectorOffset }

/-- IP_READ on the state: one unspecified lane value is drawn. -/
def State.readProgram (s : State) (w : BusWidth) : State × ProgramRead :=
  ((s.withIp (programAdvance s.ip w)).drawn, programRead s.ip w (Config.freeLane s.freeCount))

/-- The image of a name in the program set (10_state.md R28). -/
def imageOf (name : ProgName) : List (ProgName × Image) → Option Image
  | [] => none
  | (n, i) :: l => if n = name then some i else imageOf name l

/-- The program set with the image of a name replaced, or added when it is absent. -/
def setImage (name : ProgName) (i : Image) : List (ProgName × Image) → List (ProgName × Image)
  | [] => [(name, i)]
  | (n, j) :: l => if n = name then (n, i) :: l else (n, j) :: setImage name i l

/-! ### Sparse maps: lists of key and value, keys strictly rising -/

/-- The value of a key. -/
def cellLookup {α : Type} (k : Nat) : List (Nat × α) → Option α
  | [] => none
  | (j, v) :: l => if j = k then some v else cellLookup k l

/-- The map with the value of a key set. -/
def cellInsert {α : Type} (k : Nat) (v : α) : List (Nat × α) → List (Nat × α)
  | [] => [(k, v)]
  | (j, u) :: l => if k < j then (k, v) :: (j, u) :: l else if k = j then (k, v) :: l else (j, u) :: cellInsert k v l

/-- The keys rise strictly. -/
def cellsRising {α : Type} : List (Nat × α) → Bool
  | [] => true
  | [_] => true
  | a :: b :: l => decide (a.1 < b.1) && cellsRising (b :: l)

/-! ### The backend (10_state.md R29, R30) -/

/-- The canonical form of the backend's storage: keys rise strictly and lie inside the array and the word index
space, and the hash map holds at most MB_HASH_CAP entries (10_state.md R29, R30, R42 h). -/
def Memory.wf (c : Config) (m : Memory) : Bool :=
  cellsRising m.flat && m.flat.all (fun e => decide (e.1 < c.mbFlatSize)) &&
  cellsRising m.hash && m.hash.all (fun e => decide (2 * e.1 < addrSpace c)) &&
  decide (m.hash.length ≤ c.mbHashCap)

/-- default_word (44_memory_backend.md R242). -/
def defaultWord (c : Config) (m : Memory) (w : Nat) : Word :=
  match m.strategy with
  | .zero => 0x0000
  | .ones => 0xFFFF
  | .random => avalanche c m.seed (BitVec.ofNat 32 w)

/-- The byte of a stored word that an address selects by its parity (44_memory_backend.md R242, R247). -/
def byteOfWord (a : Nat) (d : Word) : Byte := if a % 2 = 0 then lowLane d else highLane d

/-- default_byte (44_memory_backend.md R242). -/
def defaultByte (c : Config) (m : Memory) (a : Nat) : Byte := byteOfWord a (defaultWord c m (a / 2))

/-- Whether an address is inside the backing bounds (44_memory_backend.md R245 to R247). -/
def inBounds (c : Config) (m : Memory) (a : Nat) : Bool :=
  match m.variant with
  | .flat => decide (c.mbFlatBase ≤ a ∧ a < c.mbFlatBase + c.mbFlatSize)
  | .null | .hash => true

/-- The word of a hash-table index, the default when it is not allocated (44_memory_backend.md R247). -/
def hashWord (c : Config) (m : Memory) (w : Nat) : Word := (cellLookup w m.hash).getD (defaultWord c m w)

/-- `get(a)` (44_memory_backend.md R244 to R247): the one read of a byte of the backend. -/
def memGet (c : Config) (m : Memory) (a : Nat) : Byte :=
  match m.variant with
  | .null => 0
  | .flat =>
    if inBounds c m a then (cellLookup (a - c.mbFlatBase) m.flat).getD (defaultByte c m a) else defaultByte c m a
  | .hash => byteOfWord a (hashWord c m (a / 2))

/-- The stored word with the byte an address selects replaced (44_memory_backend.md R247). -/
def setByteOfWord (a : Nat) (b : Byte) (d : Word) : Word :=
  if a % 2 = 0 then joinLanes (highLane d) b else joinLanes b (lowLane d)

/-- Whether a write to `a` needs a new entry of a full hash table (44_memory_backend.md R247). -/
def hashFull (c : Config) (m : Memory) (a : Nat) : Bool :=
  match m.variant with
  | .hash => (cellLookup (a / 2) m.hash).isNone && decide (c.mbHashCap ≤ m.hash.length)
  | .null | .flat => false

/-- `put(a, b)` (44_memory_backend.md R244 to R247): a write out of bounds or into a full table is dropped. -/
def memPut (c : Config) (m : Memory) (a : Nat) (b : Byte) : Memory :=
  match m.variant with
  | .null => m
  | .flat => if inBounds c m a then { m with flat := cellInsert (a - c.mbFlatBase) b m.flat } else m
  | .hash =>
    if hashFull c m a then m
    else { m with hash := cellInsert (a / 2) (setByteOfWord a b (hashWord c m (a / 2))) m.hash }

/-- The storage of the variant in use emptied (44_memory_backend.md R261). -/
def memErase (m : Memory) : Memory :=
  match m.variant with
  | .null => m
  | .flat => { m with flat := [] }
  | .hash => { m with hash := [] }

/-- A byte written by a bus cycle: never an error, `mb_range` or `mb_full` when it is dropped
(44_memory_backend.md R246, R247). -/
def State.busPut (s : State) (a : Nat) (b : Byte) : State :=
  ((s.withMb (memPut s.cfg s.mb a b)).flagIf (hashFull s.cfg s.mb a) .mbFull).flagIf
    (!inBounds s.cfg s.mb a) .mbRange

/-- A byte written by a command: false when it is out of bounds, and then nothing changes
(44_memory_backend.md R246, R247). -/
def State.commandPut (s : State) (a : Nat) (b : Byte) : State × Bool :=
  if inBounds s.cfg s.mb a then
    ((s.withMb (memPut s.cfg s.mb a b)).flagIf (hashFull s.cfg s.mb a) .mbFull, true)
  else (s, false)

/-- A run of bytes written by a command in ascending order, stopping at the first out of bounds
(44_memory_backend.md R253, R260). -/
def State.commandPuts (s : State) (a : Nat) : List Byte → State × Bool
  | [] => (s, true)
  | b :: l =>
    match s.commandPut a b with
    | (s', true) => s'.commandPuts (nextAddr s.cfg a) l
    | (s', false) => (s', false)

/-- What a bus read answers (44_memory_backend.md R255). -/
structure BusRead where
  data  : Word
  width : BusWidth
  valid : Bool
deriving DecidableEq, Repr

/-- The byte addresses a bus access touches (44_memory_backend.md R254). -/
def busAddresses (c : Config) (addr : Addr) (bhe bus16 : Bool) : List Nat :=
  match transferWidth addr bhe bus16 with
  | (_, false) => []
  | (.sixteen, true) => [addrOf c addr, nextAddr c (addrOf c addr)]
  | (.eightLow, true) => [addrOf c addr]
  | (.eightHigh, true) => [addrOf c addr]

/-- The word of a bus read, `free` being on a lane that is not valid (44_memory_backend.md R255, R257). -/
def busReadWord (c : Config) (m : Memory) (addr : Addr) (bhe bus16 : Bool) (free : Byte) : Word :=
  match transferWidth addr bhe bus16 with
  | (_, false) => 0xFFFF
  | (.sixteen, true) => joinLanes (memGet c m (nextAddr c (addrOf c addr))) (memGet c m (addrOf c addr))
  | (.eightHigh, true) => joinLanes (memGet c m (addrOf c addr)) free
  | (.eightLow, true) => joinLanes free (memGet c m (addrOf c addr))

/-- MB_BUS_READ on the state (44_memory_backend.md R255): one unspecified lane value is drawn. -/
def State.busRead (s : State) (addr : Addr) (bhe bus16 : Bool) : State × BusRead :=
  let w := transferWidth addr bhe bus16
  ((s.flagIf ((busAddresses s.cfg addr bhe bus16).any fun a => !inBounds s.cfg s.mb a) .mbRange).drawn,
    { data := busReadWord s.cfg s.mb addr bhe bus16 (Config.freeLane s.freeCount), width := w.1, valid := w.2 })

/-- MB_BUS_WRITE on the state (44_memory_backend.md R256). -/
def State.busWrite (s : State) (addr : Addr) (bhe bus16 : Bool) (d : Word) : State :=
  match transferWidth addr bhe bus16 with
  | (_, false) => s
  | (.sixteen, true) =>
    (s.busPut (addrOf s.cfg addr) (lowLane d)).busPut (nextAddr s.cfg (addrOf s.cfg addr)) (highLane d)
  | (.eightHigh, true) => s.busPut (addrOf s.cfg addr) (highLane d)
  | (.eightLow, true) => s.busPut (addrOf s.cfg addr) (lowLane d)

/-- MB_IO_READ (44_memory_backend.md R258). -/
def ioReadWord (m : Memory) : Word :=
  match m.variant with
  | .null => 0x0000
  | .flat | .hash => 0xFFFF

/-! ### The log (10_state.md R31, R32) -/

/-- LOG_APPEND's effect for an active kind (45_bus_log.md R291). -/
def logAppended (l : BusLog) (o : BusOperation) : BusLog where
  entry := l.entry.set l.wr.toNat o l.wr.isLt
  wr := l.wr + 1
  count := min (l.count + 1) Config.logDepth
  overflow := l.overflow || l.count == Config.logDepth
  writeRun := nextWriteRun o.kind l.writeRun
  farCallHint := hintAt (nextWriteRun o.kind l.writeRun)

/-- LOG_APPEND (45_bus_log.md R291): Passive is refused, so nothing changes. -/
def State.appendLog (s : State) (o : BusOperation) : State :=
  if o.kind = .passive then s else s.withLog (logAppended s.log o)

/-- LOG_CLEAR (45_bus_log.md R292); the entries stay, unreadable. -/
def logCleared (l : BusLog) : BusLog :=
  { l with wr := 0, count := 0, overflow := false, writeRun := 0, farCallHint := false }

/-- The ring index of log position `i`: (wr - count + i) mod 256 (45_bus_log.md R293). -/
def logIndex (l : BusLog) (i : Nat) : BitVec 8 := l.wr - BitVec.ofNat 8 l.count + BitVec.ofNat 8 i

/-- LOG_READ (45_bus_log.md R293): none at or beyond `count`. -/
def logEntry (l : BusLog) (i : Nat) : Option BusOperation :=
  if i < l.count then some (l.entry.get (logIndex l i).toFin) else none

/-! ### The transceiver (10_state.md R25) -/

/-- XCVR_SET's effect (40_bus_cycle.md R142): a redundant direction or width is suppressed. -/
def xcvrSetTo (x : Transceiver) (dir : Direction) (w : BusWidth) (d : Word) : Transceiver where
  dir := if x.dir = dir then x.dir else dir
  driveWidth := if x.driveWidth = w then x.driveWidth else w
  driveData := if dir = .output then d else x.driveData

/-- XCVR_SET's result `changed` (40_bus_cycle.md R142). -/
def xcvrChanged (x : Transceiver) (dir : Direction) (w : BusWidth) : Bool :=
  decide (x.dir ≠ dir) || decide (x.driveWidth ≠ w)

/-! ### Entering a phase (46_phase_sequencer.md R332, R333) -/

/-- PROGRAM_OF of a phase entered from another (46_phase_sequencer.md R332). -/
def programOf (c : Config) (fmt : LoadFormat) (source target : ServerState) : Option ProgName :=
  match target with
  | .cpuId => some .cpuid
  | .cpuSetup => some .cpusetup
  | .jumpVector => some .jump
  | .load => match fmt with
    | .v1 => some .loadV1
    | .v2 => some .loadV2
    | .v3a => some .loadV3a
    | .v3b => none
  | .loadSmm => some .loadSmm
  | .emuEnter => some .emuEnter
  | .emuExit => some .emuExit
  | .executeFinalize => match c.endStrategy with
    | .nmiVector => some .nmiHandler
    | .queueTag => some .finalize
  | .store => some .store
  | .storeAll => some .storeall
  | .prefetch | .execute => if c.execSource = .inline ∧ source ≠ .prefetch then some .user else none
  | .reset | .loadDone | .executeDone | .storeDone | .storeDoneSmm | .done | .shutdown | .error => none

/-- Whether PROGRAM_OF is defined for the phase being left, so that leaving it resets the cursor
(46_phase_sequencer.md R333 a; for Prefetch and Execute see notes/assumptions/14.md). -/
def ownsProgram (c : Config) (fmt : LoadFormat) (p : ServerState) : Bool := (programOf c fmt .loadDone p).isSome

/-- Exit actions of the phase being left (46_phase_sequencer.md R333). -/
def State.exitActions (s : State) (target : ServerState) : State :=
  let s := if ownsProgram s.cfg s.srv.loadFormat s.srv.state && !(s.srv.state == .prefetch && target == .execute)
    then s.withIp (programReset s.ip) else s
  if s.srv.state = .executeDone ∨ target = .reset then
    s.withSrv { s.srv with nmiFetchCount := 0, smiFetchCount := 0, stackCaptureCursor := 0 }
  else s

/-- The image a name selects: an absent name selects the empty program (46_phase_sequencer.md R332). -/
def selectedImage (s : State) (name : ProgName) : Image :=
  (imageOf name s.ipset).getD { buf := [], fill := s.cfg.fillDefault, vectorOffset := 0 }

/-- The program a phase selects on entry is made active (46_phase_sequencer.md R332, 43_inline_program.md R211). -/
def State.selectFor (s : State) (name : ProgName) : State :=
  match programSelect s.cfg name (selectedImage s name) with
  | some p => s.withIp p
  | none => s

/-- `enter(s')` (46_phase_sequencer.md R332); entering ExecuteDone disarms stack capture (R335), and a phase just
entered has not stalled. -/
def State.enter (s : State) (target : ServerState) : State :=
  let source := s.srv.state
  let s := s.exitActions target
  let s := s.withSrv { s.srv with
    state := target
    programEnded := if target = .execute then false else s.srv.programEnded
    stackArmed := if target = .executeDone then false else s.srv.stackArmed
    stalled := false }
  match programOf s.cfg s.srv.loadFormat source target with
  | some name => s.selectFor name
  | none => s

/-! ### The exception and the return from it -/

/-- The three phases whose timeout is a ResetFailure (46_phase_sequencer.md R338). -/
def isResetPhase : ServerState → Bool
  | .reset | .cpuId | .cpuSetup => true
  | .jumpVector | .load | .loadSmm | .loadDone | .emuEnter | .prefetch | .execute | .executeFinalize | .executeDone
  | .emuExit | .store | .storeDone | .storeDoneSmm | .done | .storeAll | .shutdown | .error => false

/-- Entry to phase Error (60_exceptions.md R389): ResetFailure is recorded, `success`, `budget` and `nmi_out` are 0,
and the exit action resets the active program. -/
def State.enterError (s : State) : State :=
  ((s.recordError .resetFailure).withSrv { s.srv with
    budget := 0
    nmiOut := false
    resetResult := { s.srv.resetResult with success := false } }).enter .error

/-- A timeout that leaves the phase where it stalled, at rest (46_phase_sequencer.md R338). -/
def State.stall (s : State) : State :=
  (s.recordError .phaseTimeout).withSrv { s.srv with nmiOut := false, stalled := true }

/-- What a retried command does where a PhaseTimeout left the phase at rest (70_reset_and_hazards.md R453): the
program's cursor is reset (43_inline_program.md R212), and the phase is no longer stalled; before a first command
nothing is. DEDUCED (notes/assumptions/24.md): the pseudocode of 46_phase_sequencer.md R343 does not write the reset
out. -/
def State.rewindStalled (s : State) : State :=
  (if s.srv.stalled then s.withIp (programReset s.ip) else s).withSrv { s.srv with stalled := false }

/-- `timeout(s)` (46_phase_sequencer.md R338) and the error kind it raises. -/
def State.timeout (s : State) : State × ErrorKind :=
  if isResetPhase s.srv.state then (s.enterError, .resetFailure) else (s.stall, .phaseTimeout)

/-- END_STRATEGY at a host reset (46_phase_sequencer.md R340, 10_state.md R37). -/
def endStrategyAtReset (c : Config) (qsAvail : Bool) : EndStrategy :=
  c.endOverride.getD (if qsAvail then .queueTag else .nmiVector)

/-- BCS_RESET (40_bus_cycle.md R144). -/
def State.resetBusCycle (s : State) : State :=
  (s.withBcs BusCycle.powerOn).withXcvr { s.xcvr with dir := .input }

/-- The host reset (46_phase_sequencer.md R340, 70_reset_and_hazards.md R421), the one exit from Error. -/
def State.hostReset (s : State) (bus16 qsAvail : Bool) : State :=
  { s.resetBusCycle with
    cfg := { s.cfg with bus16 := bus16, qsAvail := qsAvail, endStrategy := endStrategyAtReset s.cfg qsAvail }
    bc := BusController.powerOn
    q := Queue.powerOn (queueCapOf bus16)
    ip := ActiveProgram.powerOn s.cfg
    log := logCleared s.log
    flags := Anomalies.powerOn
    srv := { Server.powerOn with
      resetResult := { success := false, bus16 := bus16, qsAvail := qsAvail }
      budget := s.cfg.tReset } }

/-! ### The operation port -/

/-- The next thing the host's side presents, and the state that has taken it (47_host_interface.md R366). -/
def State.takeEvent (s : State) : Option (HostEvent × State) :=
  match s.host with
  | [] => none
  | e :: l => some (e, s.withHost l)

/-- An illegal operation code: no state changes, ok = 0, illegal = 1 (30_encoding.md R109). -/
def State.answerIllegal (s : State) : Answer := s.answer { ok := false, illegal := true }

/-- A command whose parameters came late: the last error is ProtocolTimeout, the answer FAIL, and nothing else
(60_exceptions.md R383, 47_host_interface.md R362). DESIGN CHOICE: the response names the kind as `err`, which no rule
says of a command that never became an operation (notes/assumptions/15.md). -/
def State.lateCommand (s : State) : Answer := s.raise .protocolTimeout

end Sys2Proof.Machine
end

