-- ==== Sys2Proof/Machine/BusCycle.lean ====
section
/-! DEFINITION. Family 40, the BusCycleStateMachine (40_bus_cycle.md R130 to R144): its functions, and the meaning of
each of its operations. -/

namespace Sys2Proof.Machine

open Sys2Proof

/-! ### Status decoding -/

/-- The table entry of a raw status in the variant's table; `none` is Reserved (40_bus_cycle.md R132, 30_encoding.md
R92 to R94). -/
def statusEntry (c : Config) (raw : BitVec 4) (valid : Bool) : Option BusStatus :=
  match c.statusVariant with
  | .s3 => some (BusStatus.ofBits (raw.extractLsb' 0 3))
  | .n4 => c.decodeN4.get raw.toFin
  | .r3 => if valid then c.decodeR3.get (raw.extractLsb' 0 3).toFin else some .passive

/-- DECODE_STATUS: the status and whether the code is reserved (40_bus_cycle.md R132, R134). -/
def decodeStatus (c : Config) (raw : BitVec 4) (valid : Bool) : BusStatus × Bool :=
  match statusEntry c raw valid with
  | some t => (t, false)
  | none => (.passive, true)

/-! ### Transfer completion and the transition functions -/

/-- XFER_DONE (40_bus_cycle.md R135). -/
def xferDone (c : Config) (lst : BusStatus) (l : CmdLines) (ready : Bool) : Bool :=
  if c.cmdLinesAvail then
    match lst with
    | .code | .memRead => !l.mrdc
    | .memWrite => !l.mwtc
    | .ioRead => !l.iorc
    | .ioWrite => !l.iowc
    | .irqAck | .halt | .passive => ready
  else ready

/-- NEXT_CYCLE, FOUR_STATE (40_bus_cycle.md R136, R137). -/
def nextCycleFour (cyc : CycleCode) (st lst : BusStatus) (done : Bool) : TCycle :=
  match cyc with
  | .cycle .idle => if st = .passive then .idle else .t1
  | .cycle .t1 => if st = .passive ∧ lst = .passive then .t1 else .t2
  | .cycle .t2 => .t3
  | .cycle .t3 => if done then .t4 else .wait
  | .cycle .wait => if done then .t4 else .wait
  | .cycle .t4 => if st = .passive then .idle else .t1
  | .code6 | .code7 => .idle

/-- NEXT_CYCLE, TWO_STATE (40_bus_cycle.md R139). -/
def nextCycleTwo (cyc : CycleCode) (st : BusStatus) (done : Bool) : TCycle :=
  match cyc with
  | .cycle .idle => if st = .passive then .idle else .t1
  | .cycle .t1 => .t2
  | .cycle .t2 => if done then (if st = .passive then .idle else .t1) else .t2
  | .cycle .t3 | .cycle .t4 | .cycle .wait | .code6 | .code7 => .idle

/-- NEXT_CYCLE (40_bus_cycle.md R130, 30_encoding.md R110). -/
def nextCycle (v : CycleVariant) (cyc : CycleCode) (st lst : BusStatus) (done : Bool) : TCycle :=
  match v with
  | .fourState => nextCycleFour cyc st lst done
  | .twoState => nextCycleTwo cyc st done

/-! ### The per-tick procedure -/

/-- The `done` value of a tick (40_bus_cycle.md R143). -/
def tickDone (c : Config) (b : BusCycle) (p : Pins) (l : CmdLines) : Bool :=
  match c.cycleVariant with
  | .twoState => p.ready
  | .fourState => xferDone c b.latchedStatus l p.ready

/-- The T-cycle after a tick (40_bus_cycle.md R143). -/
def tickNext (c : Config) (b : BusCycle) (p : Pins) (l : CmdLines) : TCycle :=
  nextCycle c.cycleVariant (.cycle b.tcycle) (decodeStatus c p.rawStatus p.statusValid).1 b.latchedStatus
    (tickDone c b p l)

/-- Whether the transfer completes when the T-cycle goes from `c` to `n` (40_bus_cycle.md R143, `ended`). -/
def cycleEnds (v : CycleVariant) (c n : TCycle) : Bool :=
  match v with
  | .fourState => n == .t4 && c != .t4
  | .twoState => c == .t2 && n != .t2

/-- CYCLE_TICK's result (40_bus_cycle.md R143). -/
def tickResult (c : Config) (b : BusCycle) (p : Pins) (l : CmdLines) : CycleResult where
  cyc := tickNext c b p l
  enteredT1 := tickNext c b p l == .t1 && b.tcycle != .t1
  ended := cycleEnds c.cycleVariant b.tcycle (tickNext c b p l)

/-- CYCLE_TICK's effect on the bus-cycle machine (40_bus_cycle.md R140, R143). -/
def tickBusCycle (c : Config) (b : BusCycle) (p : Pins) (l : CmdLines) : BusCycle :=
  let st := (decodeStatus c p.rawStatus p.statusValid).1
  let n := tickNext c b p l
  let b' : BusCycle :=
    if n = .t1 ∧ b.tcycle ≠ .t1 then
      { b with
        latchedStatus := st
        addressLatch := maskAddr c p.addr
        busWidth := (transferWidth p.addr p.bhe c.bus16).1
        widthValid := (transferWidth p.addr p.bhe c.bus16).2
        fed := false }
    else if n = .idle ∧ b.tcycle ≠ .idle then { b with latchedStatus := .passive }
    else b
  { b' with status := st, tcycle := n }

/-- CYCLE_TICK on the state (40_bus_cycle.md R143), with the reserved-code flag (R134). -/
def State.cycleTick (s : State) (p : Pins) (l : CmdLines) : State × CycleResult :=
  ((s.flagIf (decodeStatus s.cfg p.rawStatus p.statusValid).2 .statusReserved).withBcs (tickBusCycle s.cfg s.bcs p l),
    tickResult s.cfg s.bcs p l)

/-! ### Meanings -/

/-- BCS_RESET (40_bus_cycle.md R144). -/
def execBcsReset (s : State) : Answer := s.resetBusCycle.answer {}

/-- DECODE_STATUS (40_bus_cycle.md R132): pure. -/
def execDecodeStatus (raw : BitVec 4) (valid : Bool) (s : State) : Answer :=
  s.answer { status := some (decodeStatus s.cfg raw valid).1, reserved := some (decodeStatus s.cfg raw valid).2 }

/-- XFER_DONE (40_bus_cycle.md R135): pure. -/
def execXferDone (lst : BusStatus) (lines : CmdLines) (ready : Bool) (s : State) : Answer :=
  s.answer { done := some (xferDone s.cfg lst lines ready) }

/-- NEXT_CYCLE (40_bus_cycle.md R136, R139): pure. -/
def execNextCycle (cyc : CycleCode) (st lst : BusStatus) (done : Bool) (s : State) : Answer :=
  s.answer { cyc := some (nextCycle s.cfg.cycleVariant cyc st lst done) }

/-- BUS_WIDTH (40_bus_cycle.md R141): pure. -/
def execBusWidth (addr : Addr) (bhe bus16 : Bool) (s : State) : Answer :=
  s.answer { width := some (transferWidth addr bhe bus16).1, valid := some (transferWidth addr bhe bus16).2 }

/-- CYCLE_TICK (40_bus_cycle.md R143). -/
def execCycleTick (pins : Pins) (lines : CmdLines) (s : State) : Answer :=
  match s.cycleTick pins lines with
  | (s', r) => s'.answer { cyc := some r.cyc, enteredT1 := some r.enteredT1, ended := some r.ended }

/-- XCVR_SET (40_bus_cycle.md R142); width code 3 refuses. -/
def execXcvrSet (sel : BitVec 8) (width : WidthCode) (data : Word) (s : State) : Answer :=
  match widthOf width with
  | some w =>
    (s.withXcvr (xcvrSetTo s.xcvr (directionOf sel) w data)).answer
      { changed := some (xcvrChanged s.xcvr (directionOf sel) w) }
  | none => s.refuse

end Sys2Proof.Machine
end

