-- ==== Sys2Proof/Machine/BusController.lean ====
section
/-! DEFINITION. Family 41, the BusControllerEmulator (41_bus_controller.md R160 to R171): the two controllers, and the
meaning of each of its operations. -/

namespace Sys2Proof.Machine

open Sys2Proof

/-- clear_commands (41_bus_controller.md R163): the six command lines fall, `ale` stays. -/
def clearCommands (l : ControllerLines) : ControllerLines := { ControllerLines.clear with ale := l.ale }

/-- The immediate line of a latched status, BC8288 (41_bus_controller.md R161). -/
def assertImmediate (st : BusStatus) (l : ControllerLines) : ControllerLines :=
  match st with
  | .code | .memRead => { l with mrdc := true }
  | .memWrite => { l with amwc := true }
  | .ioRead => { l with iorc := true }
  | .ioWrite => { l with aiowc := true }
  | .irqAck | .halt | .passive => l

/-- The delayed line of a latched status, BC8288 (41_bus_controller.md R161). -/
def assertDelayed (st : BusStatus) (l : ControllerLines) : ControllerLines :=
  match st with
  | .memWrite => { l with mwtc := true }
  | .ioWrite => { l with iowc := true }
  | .irqAck | .ioRead | .halt | .code | .memRead | .passive => l

/-- The line of a latched status, BC82288 (41_bus_controller.md R161). -/
def assertPlain (st : BusStatus) (l : ControllerLines) : ControllerLines :=
  match st with
  | .code | .memRead => { l with mrdc := true }
  | .memWrite => { l with mwtc := true }
  | .ioRead => { l with iorc := true }
  | .ioWrite => { l with iowc := true }
  | .irqAck | .halt | .passive => l

/-- A start tick: Passive before, active now (41_bus_controller.md R162). -/
def isStartTick (b : BusController) (st : BusStatus) : Bool := b.status == .passive && st != .passive

/-- A start tick's effect, in whatever T-cycle it comes (41_bus_controller.md R163, R164). -/
def startCycle (b : BusController) (st : BusStatus) : BusController where
  prevStatus := b.status
  status := st
  latchedStatus := st
  tcycle := .t1
  lines := { clearCommands b.lines with ale := true }

/-- BC_TICK, the 8288-style controller (41_bus_controller.md R163, R166). -/
def controllerTick (b : BusController) (st : BusStatus) : BusController :=
  if isStartTick b st then startCycle b st
  else
    let b' := { b with prevStatus := b.status, status := st }
    match b.tcycle with
    | .idle => b'
    | .t1 => { b' with lines := assertImmediate b.latchedStatus { b.lines with ale := false }, tcycle := .t2 }
    | .t2 => { b' with lines := assertDelayed b.latchedStatus b.lines, tcycle := .t3 }
    | .t3 => { b' with lines := clearCommands b.lines, tcycle := .t4 }
    | .wait => { b' with lines := clearCommands b.lines, tcycle := .t4 }
    | .t4 => { b' with tcycle := .idle }

/-- BC_TICK2, the 82288-style controller (41_bus_controller.md R170). -/
def controllerTick2 (b : BusController) (st : BusStatus) (ready : Bool) : BusController :=
  if isStartTick b st then startCycle b st
  else
    let b' := { b with prevStatus := b.status, status := st }
    match b.tcycle with
    | .idle => b'
    | .t1 => { b' with lines := assertPlain b.latchedStatus { b.lines with ale := false }, tcycle := .t2 }
    | .t2 => if ready then { b' with lines := clearCommands b.lines, tcycle := .idle } else b'
    | .t3 | .t4 | .wait => { b' with lines := clearCommands b.lines, tcycle := .idle }

/-! ### Meanings -/

/-- BC_RESET (41_bus_controller.md R171). -/
def execBcReset (s : State) : Answer := (s.withBc BusController.powerOn).answer {}

/-- BC_TICK (41_bus_controller.md R163). -/
def execBcTick (st : BusStatus) (s : State) : Answer :=
  (s.withBc (controllerTick s.bc st)).answer
    { lines := some (controllerTick s.bc st).lines, cyc := some (controllerTick s.bc st).tcycle }

/-- BC_TICK2 (41_bus_controller.md R170). -/
def execBcTick2 (st : BusStatus) (ready : Bool) (s : State) : Answer :=
  (s.withBc (controllerTick2 s.bc st ready)).answer
    { lines := some (controllerTick2 s.bc st ready).lines, cyc := some (controllerTick2 s.bc st ready).tcycle }

end Sys2Proof.Machine
end

