-- ==== Sys2Proof/Machine/BusLog.lean ====
section
/-! DEFINITION. Family 45, the BusOperationLog and the BusEmulator (45_bus_log.md R290 to R301): the meaning of each
of its operations over the log and backend operations of Ops. -/

namespace Sys2Proof.Machine

open Sys2Proof

/-- LOG_CLEAR (45_bus_log.md R292). -/
def execLogClear (s : State) : Answer := (s.withLog (logCleared s.log)).answer {}

/-- LOG_APPEND (45_bus_log.md R291); the kind Passive refuses. -/
def execLogAppend (st : BusStatus) (width : WidthCode) (addr : Addr) (data : Word) (s : State) : Answer :=
  if st = .passive then s.refuse
  else (s.appendLog { kind := st, width := width, address := maskAddr s.cfg addr, data := data }).answer {}

/-- LOG_READ (45_bus_log.md R293): it does not consume; an index at or beyond `count` refuses. -/
def execLogRead (addr : Addr) (s : State) : Answer :=
  match logEntry s.log addr.toNat with
  | some e => s.answer { entry := some e }
  | none => s.refuse

/-- LOG_STATUS (45_bus_log.md R294): pure. -/
def execLogStatus (s : State) : Answer :=
  s.answer { count := some s.log.count, overflow := some s.log.overflow, hint := some s.log.farCallHint }

/-- The log entry of a bus access served by the backend (45_bus_log.md R300, R301). -/
def accessEntry (c : Config) (kind : BusStatus) (addr : Addr) (w : BusWidth × Bool) (d : Word) : BusOperation where
  kind := kind
  width := loggedWidth w.1 w.2
  address := maskAddr c addr
  data := d

/-- BE_READ (45_bus_log.md R300, R298): a kind that is no read refuses. -/
def execBeRead (st : BusStatus) (addr : Addr) (bhe bus16 : Bool) (s : State) : Answer :=
  let w := transferWidth addr bhe bus16
  match st with
  | .code | .memRead =>
    match s.busRead addr bhe bus16 with
    | (s', r) =>
      (s'.appendLog (accessEntry s.cfg st addr w r.data)).answer
        { data := some r.data, width := some w.1, valid := some w.2 }
  | .ioRead | .irqAck =>
    (s.appendLog (accessEntry s.cfg st addr w (ioReadWord s.mb))).answer
      { data := some (ioReadWord s.mb), width := some w.1, valid := some w.2 }
  | .ioWrite | .halt | .memWrite | .passive => s.refuse

/-- BE_WRITE (45_bus_log.md R301): a kind that is no write refuses. -/
def execBeWrite (st : BusStatus) (addr : Addr) (bhe bus16 : Bool) (data : Word) (s : State) : Answer :=
  let e := accessEntry s.cfg st addr (transferWidth addr bhe bus16) data
  match st with
  | .memWrite => ((s.busWrite addr bhe bus16 data).appendLog e).answer {}
  | .ioWrite => (s.appendLog e).answer {}
  | .irqAck | .ioRead | .halt | .code | .memRead | .passive => s.refuse

end Sys2Proof.Machine
end

