-- ==== Sys2Proof/Machine/InlineProgram.lean ====
section
/-! DEFINITION. Family 43, the InlineProgram (43_inline_program.md R210 to R217): the meaning of each of its operations
over the program operations of Ops. -/

namespace Sys2Proof.Machine

open Sys2Proof

/-- IP_SELECT (43_inline_program.md R211); an image longer than IP_MAX_LEN refuses. -/
def execIpSelect (name : ProgName) (bytes : List Byte) (data : Word) (addr : Addr) (s : State) : Answer :=
  match programSelect s.cfg name { buf := bytes, fill := data, vectorOffset := addr.toNat } with
  | some p => (s.withIp p).answer {}
  | none => s.refuse

/-- IP_RESET (43_inline_program.md R212). -/
def execIpReset (s : State) : Answer := (s.withIp (programReset s.ip)).answer {}

/-- IP_READ (43_inline_program.md R213): the `addr` operand selects nothing; width code 3 refuses. -/
def execIpRead (_addr : Addr) (width : WidthCode) (s : State) : Answer :=
  match widthOf width with
  | some w =>
    match s.readProgram w with
    | (s', r) => s'.answer { data := some r.data, nprog := some r.nprog, ended := some r.ended }
  | none => s.refuse

/-- The offset of IP_READ_AT, an integer that does not wrap (43_inline_program.md R215, 00_scope.md R15 g). -/
def readOffset (c : Config) (base addr : Addr) : Int := (addrOf c addr : Int) - (base.toNat : Int)

/-- IP_READ_AT (43_inline_program.md R215): no state of the block changes; width code 3 refuses. -/
def execIpReadAt (base addr : Addr) (width : WidthCode) (s : State) : Answer :=
  match widthOf width with
  | some w =>
    let r := programReadAt s.ip (readOffset s.cfg base addr) w (Config.freeLane s.freeCount)
    s.drawn.answer { data := some r.data, nprog := some r.nprog }
  | none => s.refuse

/-- IP_PATCH_VECTOR (43_inline_program.md R216). -/
def execIpPatchVector (data : Word) (s : State) : Answer :=
  match programPatch s.ip s.ip.vectorOffset data with
  | some p => (s.withIp p).answer {}
  | none => s.refuse

/-- IP_PATCH_WORD (43_inline_program.md R217). -/
def execIpPatchWord (addr : Addr) (data : Word) (s : State) : Answer :=
  match programPatch s.ip addr.toNat data with
  | some p => (s.withIp p).answer {}
  | none => s.refuse

end Sys2Proof.Machine
end

