-- ==== Sys2Proof/Machine/InstructionQueue.lean ====
section
/-! DEFINITION. Family 42, the InstructionQueue (42_instruction_queue.md R190 to R199): the meaning of each of its
operations over the queue operations of Ops. -/

namespace Sys2Proof.Machine

open Sys2Proof

/-- Q_RESET (42_instruction_queue.md R191); a capacity other than 4 and 6 refuses. -/
def execQReset (sel : BitVec 8) (s : State) : Answer :=
  match capacityOf sel with
  | some cap => (s.withQ (queueReset s.q cap)).answer {}
  | none => s.refuse

/-- Q_HAS_ROOM (42_instruction_queue.md R192): pure; width code 3 refuses. -/
def execQHasRoom (width : WidthCode) (s : State) : Answer :=
  match widthOf width with
  | some w => s.answer { room := some (hasRoom s.q w) }
  | none => s.refuse

/-- Q_PUSH (42_instruction_queue.md R193, R194): all or nothing; width code 3 refuses. -/
def execQPush (data : Word) (tag : Tag) (width : WidthCode) (s : State) : Answer :=
  match widthOf width with
  | some w =>
    match queuePush s.q data tag w with
    | some q => (s.withQ q).answer {}
    | none => s.refuse
  | none => s.refuse

/-- Q_POP (42_instruction_queue.md R195); a pop from an empty queue answers ok = 0 (60_exceptions.md R384), its byte
and tag unspecified. -/
def execQPop (s : State) : Answer :=
  match s.popQueue with
  | (s', popped, e) => s'.answer { ok := popped, empty := some (!popped), byte := some e.byte, tag := some e.tag }

/-- Q_FLUSH (42_instruction_queue.md R197). -/
def execQFlush (s : State) : Answer := (s.withQ (queueFlush s.q)).answer {}

/-- Q_LEN (42_instruction_queue.md R196): pure. -/
def execQLen (s : State) : Answer := s.answer { len := some s.q.len, cap := some (capSize s.q.cap) }

/-- The result fields R198 sets for each queue status. -/
def queueResponse (qs : QueueStatus) (r : QueueReport) : Response :=
  match qs with
  | .idle => { popped := some r.popped, flushed := some r.flushed }
  | .first | .subsequent =>
    { popped := some r.popped, first := some r.first, byte := r.entry.map (·.byte), tag := r.entry.map (·.tag) }
  | .flush => { flushed := some r.flushed, popped := some r.popped }

/-- Q_STATUS (42_instruction_queue.md R198, R199). -/
def execQStatus (qs : QueueStatus) (s : State) : Answer :=
  match s.queueStatus qs with
  | (s', r) => s'.answer (queueResponse qs r)

end Sys2Proof.Machine
end

