-- ==== Sys2Proof/Machine/MemoryBackend.lean ====
section
/-! DEFINITION. Family 44, the MemoryBackend (44_memory_backend.md R240 to R262): the meaning of each of its operations
over the backend operations of Ops. -/

namespace Sys2Proof.Machine

open Sys2Proof

/-- The end of a command that wrote bytes: MemoryRangeError when one was out of bounds (44_memory_backend.md R246). -/
def finishPuts : State × Bool → Answer
  | (s, true) => s.answer {}
  | (s, false) => s.raise .memoryRange

/-- MB_READ8 (44_memory_backend.md R250). -/
def execMbRead8 (addr : Addr) (s : State) : Answer :=
  let a := addrOf s.cfg addr
  if inBounds s.cfg s.mb a then s.answer { data := some (byteWord (memGet s.cfg s.mb a)) }
  else s.raise .memoryRange

/-- MB_WRITE8 (44_memory_backend.md R251). -/
def execMbWrite8 (addr : Addr) (data : Word) (s : State) : Answer :=
  finishPuts (s.commandPuts (addrOf s.cfg addr) [lowLane data])

/-- MB_READ16 (44_memory_backend.md R252). -/
def execMbRead16 (addr : Addr) (s : State) : Answer :=
  let a := addrOf s.cfg addr
  if inBounds s.cfg s.mb a && inBounds s.cfg s.mb (nextAddr s.cfg a) then
    s.answer { data := some (joinLanes (memGet s.cfg s.mb (nextAddr s.cfg a)) (memGet s.cfg s.mb a)) }
  else s.raise .memoryRange

/-- MB_WRITE16 (44_memory_backend.md R253). -/
def execMbWrite16 (addr : Addr) (data : Word) (s : State) : Answer :=
  finishPuts (s.commandPuts (addrOf s.cfg addr) [lowLane data, highLane data])

/-- MB_BUS_READ (44_memory_backend.md R255, R257): never an error. -/
def execMbBusRead (addr : Addr) (bhe bus16 : Bool) (s : State) : Answer :=
  match s.busRead addr bhe bus16 with
  | (s', r) => s'.answer { data := some r.data, width := some r.width, valid := some r.valid }

/-- MB_BUS_WRITE (44_memory_backend.md R256, R257): never an error. -/
def execMbBusWrite (addr : Addr) (bhe bus16 : Bool) (data : Word) (s : State) : Answer :=
  (s.busWrite addr bhe bus16 data).answer {}

/-- MB_IO_READ (44_memory_backend.md R258): the port and the width do not matter; width code 3 refuses. -/
def execMbIoRead (_addr : Addr) (width : WidthCode) (s : State) : Answer :=
  match widthOf width with
  | some _ => s.answer { data := some (ioReadWord s.mb) }
  | none => s.refuse

/-- MB_IO_WRITE (44_memory_backend.md R259): the data is discarded; width code 3 refuses. -/
def execMbIoWrite (_addr : Addr) (width : WidthCode) (_data : Word) (s : State) : Answer :=
  match widthOf width with
  | some _ => s.answer {}
  | none => s.refuse

/-- MB_SET (44_memory_backend.md R260). -/
def execMbSet (addr : Addr) (bytes : List Byte) (s : State) : Answer :=
  finishPuts (s.commandPuts (addrOf s.cfg addr) bytes)

/-- MB_ERASE (44_memory_backend.md R261). -/
def execMbErase (s : State) : Answer := (s.withMb (memErase s.mb)).answer {}

/-- MB_SET_DEFAULT (44_memory_backend.md R262); a code that is no strategy refuses. -/
def execMbSetDefault (sel : BitVec 8) (seed : BitVec 32) (s : State) : Answer :=
  match strategyOf sel with
  | some t => (s.withMb { s.mb with strategy := t, seed := seed }).answer {}
  | none => s.refuse

/-- MB_SELECT (44_memory_backend.md R248); a code that is no variant refuses. -/
def execMbSelect (sel : BitVec 8) (s : State) : Answer :=
  match variantOf sel with
  | some v => (s.withMb (memErase { s.mb with variant := v })).answer {}
  | none => s.refuse

end Sys2Proof.Machine
end

