-- ==== Sys2Proof/Machine/PhaseSequencer.lean ====
section
/-! DEFINITION. Family 46: the engine tick, the arbiter and the ServerStateMachine (46_phase_sequencer.md R310 to R346),
and the meaning of each of its operations. -/

namespace Sys2Proof.Machine

open Sys2Proof

/-! ### Step 2: advance (R312) -/

/-- The controller emulator's tick, when there is one, and the command lines the bus-cycle machine sees
(46_phase_sequencer.md R310, step 2). -/
def controllerAfter (c : Config) (b : BusController) (st : BusStatus) (ready : Bool) : BusController :=
  if c.bcEmulated then
    match c.bcVariant with
    | .bc8288 => controllerTick b st
    | .bc82288 => controllerTick2 b st ready
  else b

/-- The command lines of a tick: the emulator's as it has just set them, or the pins
(46_phase_sequencer.md R310, step 2, R312). -/
def tickLines (c : Config) (b : BusController) (p : Pins) : CmdLines :=
  if c.bcEmulated then
    cmdLinesOf (controllerAfter c b (decodeStatus c p.rawStatus p.statusValid).1 p.ready).lines
  else pinLines p

/-- Steps 1 and 2 of a tick: the tick is counted, the controller and then the bus-cycle machine advance
(46_phase_sequencer.md R310 to R312). -/
def State.advanceTick (s : State) (p : Pins) : State × CycleResult :=
  ((s.withSrv { s.srv with tickCount := s.srv.tickCount + 1 }).withBc
    (controllerAfter s.cfg s.bc (decodeStatus s.cfg p.rawStatus p.statusValid).1 p.ready)).cycleTick p
    (tickLines s.cfg s.bc p)

/-! ### Step 3: data feed and capture (R313 to R315, R319) -/

/-- Who serves a bus cycle (46_phase_sequencer.md R313). -/
inductive DataSource where
  | inline | backend | host | nobody
deriving DecidableEq, Repr

/-- ARBITER (46_phase_sequencer.md R313). -/
def arbiter (c : Config) (p : ServerState) : DataSource :=
  match p with
  | .cpuId | .cpuSetup | .jumpVector | .load | .loadSmm | .loadDone | .emuEnter | .emuExit | .executeFinalize
  | .store | .storeAll => .inline
  | .prefetch | .execute =>
    match c.execSource with
    | .inline => .inline
    | .backend => .backend
    | .host => .host
  | .reset | .executeDone | .storeDone | .storeDoneSmm | .done | .shutdown | .error => .nobody

/-- The word a source supplies for the cycle in progress and how many of its valid bytes are program content
(46_phase_sequencer.md R314). -/
def State.feedData (s : State) (src : DataSource) (p : Pins) (hdata : Word) (htag : Tag) : State × Word × Nat :=
  match src with
  | .inline =>
    if isMemoryRead s.bcs.latchedStatus && s.bcs.widthValid then
      match s.readProgram s.bcs.busWidth with
      | (s', r) => (s', r.data, r.nprog)
    else (s, 0xFFFF, 0)
  | .backend =>
    if isMemoryRead s.bcs.latchedStatus then
      match s.busRead s.bcs.addressLatch (bheOf s.bcs) s.cfg.bus16 with
      | (s', r) => (s', r.data, validBytes s.bcs)
    else (s, ioReadWord s.mb, validBytes s.bcs)
  | .host => (s, hdata, if htag = .program then validBytes s.bcs else 0)
  | .nobody => (s, p.dataIn, validBytes s.bcs)

/-- The fetch of the cycle in progress has been served with fill, in Prefetch or Execute
(46_phase_sequencer.md R314, 10_state.md R34 `program_ended`). -/
def servedFill (b : BusCycle) (np : Nat) (p : ServerState) : Bool :=
  b.latchedStatus == .code && decide (np < validBytes b) && (p == .prefetch || p == .execute)

/-- FEED (46_phase_sequencer.md R314). -/
def State.feed (s : State) (src : DataSource) (p : Pins) (hdata : Word) (htag : Tag) : State :=
  match s.feedData src p hdata htag with
  | (s', d, np) =>
    let s' := s'.withBcs { s'.bcs with dataLatch := d, fedNprog := np, fed := true }
    let s' := if src = .nobody then s' else s'.withXcvr (xcvrSetTo s'.xcvr .output s.bcs.busWidth d)
    if servedFill s.bcs np s.srv.state then s'.withSrv { s'.srv with programEnded := true } else s'

/-- The backend's part of CAPTURE_WRITE (46_phase_sequencer.md R315). -/
def State.storeWrite (s : State) (src : DataSource) (old : BusCycle) (din : Word) : State :=
  if src = .backend ∧ old.latchedStatus = .memWrite then
    s.busWrite old.addressLatch (bheOf old) s.cfg.bus16 din
  else s

/-- CAPTURE_WRITE (46_phase_sequencer.md R315, R335, R337); the captured word is the data pins' word. -/
def State.captureWrite (s : State) (src : DataSource) (old : BusCycle) (din : Word) : State :=
  let s := s.storeWrite src old din
  let s := s.flagIf (s.srv.state == .store && !storeAddrOk s.cfg old.addressLatch old.latchedStatus) .storeAddr
  if s.srv.stackArmed ∧ old.latchedStatus = .memWrite then
    s.withSrv { s.srv with stackCaptureCursor := s.srv.stackCaptureCursor + 1 }
  else s

/-- The tick at which the bus-cycle machine enters its data phase (46_phase_sequencer.md R310, `enter_data`). -/
def entersData (v : CycleVariant) (c n : TCycle) : Bool :=
  match v with
  | .fourState => c == .t2 && n == .t3
  | .twoState => c == .t1 && n == .t2

/-- The tick that returns the transceiver to Input (46_phase_sequencer.md R310, R319). -/
def releasesBus (v : CycleVariant) (c : TCycle) (ended : Bool) : Bool :=
  match v with
  | .fourState => c == .t4
  | .twoState => ended

/-- Whether this tick feeds the read cycle in progress (46_phase_sequencer.md R310, step 3). -/
def feedsNow (s : State) (old : BusCycle) (r : CycleResult) : Bool :=
  entersData s.cfg.cycleVariant old.tcycle r.cyc && !s.bcs.fed && isRead s.bcs.latchedStatus

/-- Step 3 of a tick (46_phase_sequencer.md R310). -/
def State.dataStep (s : State) (old : BusCycle) (r : CycleResult) (p : Pins) (hdata : Word) (htag : Tag) : State :=
  let src := arbiter s.cfg s.srv.state
  let s := if feedsNow s old r then s.feed src p hdata htag else s
  let s := if r.ended && isWrite old.latchedStatus then s.captureWrite src old p.dataIn else s
  if releasesBus s.cfg.cycleVariant old.tcycle r.ended then
    s.withXcvr (xcvrSetTo s.xcvr .input s.xcvr.driveWidth 0)
  else s

/-! ### Step 4: queue update (R316, R318) -/

/-- tag_of (46_phase_sequencer.md R316). -/
def tagOf (isProgram : Bool) : Tag := if isProgram then .program else .programEnd

/-- PUSH_FETCH (46_phase_sequencer.md R316, R318). -/
def State.pushFetch (s : State) (old : BusCycle) : State :=
  if !old.widthValid then s
  else if !hasRoom s.q old.busWidth then s.flagIf true .queueOverflow
  else
    match old.busWidth with
    | .eightLow => s.pushChecked old.dataLatch (tagOf (decide (1 ≤ old.fedNprog))) .eightLow
    | .eightHigh => s.pushChecked old.dataLatch (tagOf (decide (1 ≤ old.fedNprog))) .eightHigh
    | .sixteen =>
      if old.fedNprog = 1 then
        (s.pushChecked (byteWord (lowLane old.dataLatch)) .program .eightLow).pushChecked
          (byteWord (highLane old.dataLatch)) .programEnd .eightLow
      else s.pushChecked old.dataLatch (tagOf (decide (old.fedNprog = 2))) .sixteen

/-- Whether this tick pushes the bytes of a fetch that ended (46_phase_sequencer.md R310, step 4). -/
def pushesNow (old : BusCycle) (r : CycleResult) : Bool :=
  r.ended && old.latchedStatus == .code && old.fed

/-- Step 4 of a tick: the CPU's queue status first, the fetched bytes second (46_phase_sequencer.md R310, R316). -/
def State.queueStep (s : State) (old : BusCycle) (r : CycleResult) (p : Pins) : State × QueueReport :=
  let sq := if s.cfg.qsAvail then s.queueStatus (QueueStatus.ofBits p.qs) else (s, quietReport)
  (if pushesNow old r then sq.1.pushFetch old else sq.1, sq.2)

/-! ### Step 5: logging (R317) -/

/-- The record of a completed bus cycle (46_phase_sequencer.md R317). -/
def cycleRecord (old : BusCycle) (wdata : Word) : BusOperation where
  kind := old.latchedStatus
  width := loggedWidth old.busWidth old.widthValid
  address := old.addressLatch
  data := if isRead old.latchedStatus then old.dataLatch else if isWrite old.latchedStatus then wdata else 0x0000

/-- Step 5 of a tick: one log entry and one capture event for a cycle that ended (46_phase_sequencer.md R310,
R317). -/
def State.logStep (s : State) (old : BusCycle) (r : CycleResult) (p : Pins) : State × Option BusOperation :=
  if r.ended then (s.appendLog (cycleRecord old p.dataIn), some (cycleRecord old p.dataIn)) else (s, none)

/-! ### Step 6: phase (R320, R330) -/

/-- The successor of a phase of a running segment and whether it is a rest point (46_phase_sequencer.md R330). -/
def successor (c : Config) (fmt : LoadFormat) (p : ServerState) : Option (ServerState × Bool) :=
  match p with
  | .reset =>
    if c.pathOpts.cpuid then some (.cpuId, false)
    else if c.pathOpts.cpusetup then some (.cpuSetup, false)
    else some (.jumpVector, true)
  | .cpuId => if c.pathOpts.cpusetup then some (.cpuSetup, false) else some (.jumpVector, true)
  | .cpuSetup => some (.jumpVector, true)
  | .jumpVector => if fmt = .v3b then some (.loadSmm, false) else some (.load, false)
  | .load | .loadSmm => some (.loadDone, false)
  | .loadDone =>
    if c.pathOpts.emu then some (.emuEnter, false)
    else if c.pathOpts.prefetch then some (.prefetch, false)
    else some (.execute, true)
  | .emuEnter => if c.pathOpts.prefetch then some (.prefetch, false) else some (.execute, true)
  | .prefetch => some (.execute, true)
  | .executeFinalize => if c.pathOpts.emu then some (.emuExit, false) else some (.executeDone, true)
  | .emuExit => some (.executeDone, true)
  | .store => if fmt = .v3b then some (.storeDoneSmm, true) else some (.storeDone, true)
  | .storeAll => some (.shutdown, true)
  | .execute | .executeDone | .storeDone | .storeDoneSmm | .done | .shutdown | .error => none

/-- CPU identification (46_phase_sequencer.md R336). -/
def classify (c : Config) (v : Server) : CpuVendor :=
  if c.bus16 then v.cpuVendor
  else if Config.cpuidThreshold < v.idCycles then .nec else .intel

/-- `advance(s)`: the successor is entered; a rest point ends the segment (46_phase_sequencer.md R320); leaving CpuId
classifies the CPU (R336). -/
def State.advancePhase (s : State) (p : ServerState) : State :=
  match successor s.cfg s.srv.loadFormat p with
  | some (target, rest) =>
    (s.withSrv { s.srv with
      cpuVendor := if p = .cpuId then classify s.cfg s.srv else s.srv.cpuVendor
      budget := if rest then 0 else s.srv.budget }).enter target
  | none => s

/-- The edge of a running segment (46_phase_sequencer.md R320, R341). -/
def State.segmentEdge (s : State) (p : ServerState) (pins : Pins) (r : CycleResult) : State :=
  match p with
  | .reset =>
    if r.enteredT1 then
      (s.withSrv { s.srv with resetResult := { s.srv.resetResult with success := true } }).advancePhase p
    else s
  | .loadDone => s.advancePhase p
  | .cpuId | .cpuSetup | .jumpVector | .load | .loadSmm | .emuEnter | .prefetch | .executeFinalize | .emuExit
  | .store | .storeAll => if phaseDone p s pins r then s.advancePhase p else s
  | .execute | .executeDone | .storeDone | .storeDoneSmm | .done | .shutdown | .error => s

/-- One tick of a running budget, and the timeout when it runs out (46_phase_sequencer.md R320, R338). -/
def State.spendBudget (s : State) : State × Option ErrorKind :=
  if s.srv.budget = 0 then (s, none)
  else if s.srv.budget = 1 then
    (((s.withSrv { s.srv with budget := 0 }).timeout).1, some ((s.withSrv { s.srv with budget := 0 }).timeout).2)
  else (s.withSrv { s.srv with budget := s.srv.budget - 1 }, none)

/-- The part of PHASE_STEP a running segment takes (46_phase_sequencer.md R320). -/
def State.runSegment (s : State) (p : ServerState) (pins : Pins) (r : CycleResult) : State × Option ErrorKind :=
  if s.srv.budget = 0 then (s, none) else (s.segmentEdge p pins r).spendBudget

/-- The queue-tag end of execution: the first byte of an instruction retired carries ProgramEnd
(46_phase_sequencer.md R334). -/
def queueTagEdge (c : Config) (qr : QueueReport) : Bool :=
  c.endStrategy == .queueTag && qr.popped && qr.first && qr.entry.any (·.tag == .programEnd)

/-- The NMI-vector end of execution: a read enters T1 at the vector address while NMI is asserted
(46_phase_sequencer.md R335); of the parameter NMI_VECTOR_ADDR the ADDR_BITS bits count (00_scope.md R8). -/
def nmiEdge (s : State) (r : CycleResult) : Bool :=
  s.srv.nmiOut && r.enteredT1 && isRead s.bcs.latchedStatus && s.bcs.addressLatch == maskAddr s.cfg s.cfg.nmiVectorAddr

/-- The count of identification cycles (46_phase_sequencer.md R320, R336). -/
def State.countIdCycle (s : State) (r : CycleResult) : State :=
  if s.srv.state = .cpuId ∧ r.ended then s.withSrv { s.srv with idCycles := s.srv.idCycles + 1 } else s

/-- PHASE_STEP, step 6 of a tick (46_phase_sequencer.md R320). -/
def State.phaseStep (s : State) (pins : Pins) (r : CycleResult) (qr : QueueReport) : State × Option ErrorKind :=
  let s := s.countIdCycle r
  if s.srv.state = .storeDone then (s.enter .done, none)
  else if s.srv.state = .execute ∧ queueTagEdge s.cfg qr then (s.enter .executeFinalize, none)
  else if s.srv.state = .execute ∧ nmiEdge s r then
    ((s.withSrv { s.srv with nmiFetchCount := s.srv.nmiFetchCount + 1, nmiOut := false }).enter
      .executeFinalize).runSegment .executeFinalize pins r
  else s.runSegment s.srv.state pins r

/-! ### The tick (R310) -/

/-- What a tick leaves: the state, the error it raises if any, and the capture event if any. -/
structure TickOutcome where
  state : State
  err   : Option ErrorKind
  event : Option BusOperation

/-- Steps 1 to 6 of ENGINE_TICK (46_phase_sequencer.md R310). `s.bcs` is the pseudocode's copy `old`: nothing before
CYCLE_TICK writes it. -/
def engineTick (s : State) (p : Pins) (hdata : Word) (htag : Tag) : TickOutcome :=
  let advanced := s.advanceTick p
  let fed := advanced.1.dataStep s.bcs advanced.2 p hdata htag
  let queued := fed.queueStep s.bcs advanced.2 p
  let logged := queued.1.logStep s.bcs advanced.2 p
  let phased := logged.1.phaseStep p advanced.2 queued.2
  { state := phased.1, err := phased.2, event := logged.2 }

/-- The phases in which no tick is processed (46_phase_sequencer.md R339). -/
def isTerminal : ServerState → Bool
  | .error | .shutdown => true
  | .reset | .cpuId | .cpuSetup | .jumpVector | .load | .loadSmm | .loadDone | .emuEnter | .prefetch | .execute
  | .executeFinalize | .executeDone | .emuExit | .store | .storeDone | .storeDoneSmm | .done | .storeAll => false

/-! ### The commands (R340 to R345) -/

/-- The program a load format replaces (46_phase_sequencer.md R342, name_of). -/
def loadProgram : LoadFormat → ProgName
  | .v1 => .loadV1
  | .v2 => .loadV2
  | .v3a => .loadV3a
  | .v3b => .loadSmm

/-- The entry SRV_LOAD writes: the image is new, the fill word and vector offset of an entry that is there are kept;
an absent entry is created with the default fill and no vector (46_phase_sequencer.md R342, notes/assumptions/17.md). -/
def loadedImage (c : Config) (old : Option Image) (bytes : List Byte) : Image :=
  match old with
  | some i => { i with buf := bytes }
  | none => { buf := bytes, fill := c.fillDefault, vectorOffset := c.ipMaxLen }

/-- SRV_LOAD's effect before the phase is entered (46_phase_sequencer.md R342). -/
def State.startLoad (s : State) (fmt : LoadFormat) (bytes : List Byte) : State :=
  (s.withIpset (setImage (loadProgram fmt) (loadedImage s.cfg (imageOf (loadProgram fmt) s.ipset) bytes) s.ipset)).withSrv
    { s.srv with loadFormat := fmt, budget := s.cfg.tLoad }

/-- IP_PATCH_VECTOR as SRV_LOAD uses it: a program without a vector ignores it (43_inline_program.md R216). -/
def State.patchVector (s : State) (v : Word) : State :=
  match programPatch s.ip s.ip.vectorOffset v with
  | some p => s.withIp p
  | none => s

/-- A command that was accepted: ok = 1 and the phase after it (notes/assumptions/20.md). -/
def State.accept (s : State) : Answer := s.answer { state := some s.srv.state }

/-! ### Meanings -/

/-- ENGINE_TICK (46_phase_sequencer.md R310, R338, R339). -/
def execEngineTick (pins : Pins) (data : Word) (tag : Tag) (s : State) : Answer :=
  if isTerminal s.srv.state then s.raise .invalidPhase
  else
    let t := engineTick s pins data tag
    t.state.answer
      { ok := t.err.isNone, err := t.err, state := some t.state.srv.state, cyc := some t.state.bcs.tcycle,
        event := t.event }

/-- SRV_RESET (46_phase_sequencer.md R340); bit 0 of the selector is `qs_avail`. -/
def execSrvReset (bus16 : Bool) (sel : BitVec 8) (s : State) : Answer := (s.hostReset bus16 (sel.getLsbD 0)).accept

/-- SRV_LOAD (46_phase_sequencer.md R342): the format is checked before the phase. -/
def execSrvLoad (sel : BitVec 8) (bytes : List Byte) (data : Word) (s : State) : Answer :=
  match formatOf sel with
  | none => s.raise .invalidRegisterFormat
  | some fmt =>
    if s.cfg.ipMaxLen < bytes.length then s.raise .invalidRegisterFormat
    else if s.srv.state = .jumpVector ∧ s.srv.budget = 0 then
      (((s.startLoad fmt bytes).enter .jumpVector).patchVector data).accept
    else if s.srv.state = .storeDoneSmm ∧ fmt = .v3b then ((s.startLoad fmt bytes).enter .loadSmm).accept
    else s.raise .invalidPhase

/-- SRV_FINALIZE (46_phase_sequencer.md R343); in Execute it asserts NMI and arms stack capture (R335); a retry after a
PhaseTimeout resets the program's cursor in either phase (70_reset_and_hazards.md R453, notes/assumptions/24.md). -/
def execSrvFinalize (s : State) : Answer :=
  if s.srv.state = .executeFinalize ∧ s.srv.budget = 0 then
    (s.rewindStalled.withSrv { s.rewindStalled.srv with budget := s.cfg.tFinalize }).accept
  else if s.srv.state = .execute ∧ s.srv.budget = 0 ∧ s.cfg.endStrategy = .nmiVector then
    (s.rewindStalled.withSrv
      { s.rewindStalled.srv with nmiOut := true, stackArmed := true, budget := s.cfg.tFinalize }).accept
  else s.raise .invalidPhase

/-- SRV_STORE (46_phase_sequencer.md R344). -/
def execSrvStore (s : State) : Answer :=
  if s.srv.state = .executeDone ∧ s.srv.budget = 0 then
    ((s.withSrv { s.srv with budget := s.cfg.tStore }).enter .store).accept
  else s.raise .invalidPhase

/-- SRV_STOREALL (46_phase_sequencer.md R345). -/
def execSrvStoreall (s : State) : Answer :=
  if s.srv.state = .executeDone ∧ s.srv.budget = 0 ∧ s.cfg.pathOpts.storeall then
    ((s.withSrv { s.srv with budget := s.cfg.tStoreAll }).enter .storeAll).accept
  else s.raise .invalidPhase

end Sys2Proof.Machine
end

