-- ==== Sys2Proof/Machine/Dispatch.lean ====
section
/-! DEFINITION. One arm for every operation of the operation map (30_encoding.md R108). -/

namespace Sys2Proof.Machine

open Sys2Proof

/-- The operation `i` requested in state `s`. -/
def exec (i : Instr) (s : State) : Host.Outcome State Fault Refusal :=
  match i with
  | .bcsReset => Sys2Proof.Machine.execBcsReset s
  | .decodeStatus raw valid => Sys2Proof.Machine.execDecodeStatus raw valid s
  | .xferDone lst lines ready => Sys2Proof.Machine.execXferDone lst lines ready s
  | .nextCycle cyc st lst done => Sys2Proof.Machine.execNextCycle cyc st lst done s
  | .busWidth addr bhe bus16 => Sys2Proof.Machine.execBusWidth addr bhe bus16 s
  | .cycleTick pins lines => Sys2Proof.Machine.execCycleTick pins lines s
  | .xcvrSet sel width data => Sys2Proof.Machine.execXcvrSet sel width data s
  | .bcReset => Sys2Proof.Machine.execBcReset s
  | .bcTick st => Sys2Proof.Machine.execBcTick st s
  | .bcTick2 st ready => Sys2Proof.Machine.execBcTick2 st ready s
  | .qReset sel => Sys2Proof.Machine.execQReset sel s
  | .qHasRoom width => Sys2Proof.Machine.execQHasRoom width s
  | .qPush data tag width => Sys2Proof.Machine.execQPush data tag width s
  | .qPop => Sys2Proof.Machine.execQPop s
  | .qFlush => Sys2Proof.Machine.execQFlush s
  | .qLen => Sys2Proof.Machine.execQLen s
  | .qStatus qs => Sys2Proof.Machine.execQStatus qs s
  | .ipSelect name bytes data addr => Sys2Proof.Machine.execIpSelect name bytes data addr s
  | .ipReset => Sys2Proof.Machine.execIpReset s
  | .ipRead addr width => Sys2Proof.Machine.execIpRead addr width s
  | .ipReadAt base addr width => Sys2Proof.Machine.execIpReadAt base addr width s
  | .ipPatchVector data => Sys2Proof.Machine.execIpPatchVector data s
  | .ipPatchWord addr data => Sys2Proof.Machine.execIpPatchWord addr data s
  | .mbRead8 addr => Sys2Proof.Machine.execMbRead8 addr s
  | .mbWrite8 addr data => Sys2Proof.Machine.execMbWrite8 addr data s
  | .mbRead16 addr => Sys2Proof.Machine.execMbRead16 addr s
  | .mbWrite16 addr data => Sys2Proof.Machine.execMbWrite16 addr data s
  | .mbBusRead addr bhe bus16 => Sys2Proof.Machine.execMbBusRead addr bhe bus16 s
  | .mbBusWrite addr bhe bus16 data => Sys2Proof.Machine.execMbBusWrite addr bhe bus16 data s
  | .mbIoRead addr width => Sys2Proof.Machine.execMbIoRead addr width s
  | .mbIoWrite addr width data => Sys2Proof.Machine.execMbIoWrite addr width data s
  | .mbSet addr bytes => Sys2Proof.Machine.execMbSet addr bytes s
  | .mbErase => Sys2Proof.Machine.execMbErase s
  | .mbSetDefault sel seed => Sys2Proof.Machine.execMbSetDefault sel seed s
  | .mbSelect sel => Sys2Proof.Machine.execMbSelect sel s
  | .logClear => Sys2Proof.Machine.execLogClear s
  | .logAppend st width addr data => Sys2Proof.Machine.execLogAppend st width addr data s
  | .logRead addr => Sys2Proof.Machine.execLogRead addr s
  | .logStatus => Sys2Proof.Machine.execLogStatus s
  | .beRead st addr bhe bus16 => Sys2Proof.Machine.execBeRead st addr bhe bus16 s
  | .beWrite st addr bhe bus16 data => Sys2Proof.Machine.execBeWrite st addr bhe bus16 data s
  | .engineTick pins data tag => Sys2Proof.Machine.execEngineTick pins data tag s
  | .srvReset bus16 sel => Sys2Proof.Machine.execSrvReset bus16 sel s
  | .srvLoad sel bytes data => Sys2Proof.Machine.execSrvLoad sel bytes data s
  | .srvFinalize => Sys2Proof.Machine.execSrvFinalize s
  | .srvStore => Sys2Proof.Machine.execSrvStore s
  | .srvStoreall => Sys2Proof.Machine.execSrvStoreall s

end Sys2Proof.Machine
end

