-- ==== Sys2Proof/Machine/Step.lean ====
section
/-! DEFINITION. The step: one event of the host's side is taken whole (00_scope.md R14, 47_host_interface.md R366). -/

namespace Sys2Proof.Machine

open Sys2Proof

/-- One step. With nothing presented the machine is at rest and keeps its state (60_exceptions.md R397,
notes/assumptions/1.md). A request runs its operation, or is answered as an illegal code (30_encoding.md R105, R109). -/
def step (s : State) : Host.Outcome State Fault Refusal :=
  match s.takeEvent with
  | none => .next s
  | some (.lateParameters, t) => t.lateCommand
  | some (.request r, t) =>
    match decode r with
    | .ok i => exec i t
    | .error _ => t.answerIllegal

/-- The state in which the host's next request is the operation byte `w` with every operand port at 0. -/
def State.withFetchWord (s : State) (nbits w : Nat) : State :=
  s.withHost (.request (Request.ofWord (w % 2 ^ nbits)) :: s.host)

end Sys2Proof.Machine
end

