-- ==== Sys2Proof/Machine/HostInterface.lean ====
section
/-! DEFINITION. The block seen from the host and the platform: runs of operations, the pseudo-operations
(30_encoding.md R113), a blocking command (47_host_interface.md R363), the outputs (10_state.md R44) and the host's
queries (47_host_interface.md R361). -/

namespace Sys2Proof.Machine

open Sys2Proof

/-! ### Runs of operations -/

/-- Operations run one after the other: the state they leave and the response of each (00_scope.md R14). -/
def runOperations : List Instr → State → Option (State × List Response)
  | [], s => some (s, [])
  | i :: l, s =>
    match exec i s with
    | .next t => (runOperations l t).map fun r => (r.1, t.resp :: r.2)
    | .fault _ => none
    | .refused _ => none

/-- ENGINE_TICKs until the running segment has come to rest or no tick is left. -/
def runUntilRest : List (Pins × Word × Tag) → State → Answer
  | [], s => .next s
  | (p, d, t) :: l, s =>
    if s.srv.budget = 0 then .next s
    else
      match exec (.engineTick p d t) s with
      | .next u => runUntilRest l u
      | .fault f => .fault f
      | .refused r => .refused r

/-- A blocking host command: the operation that starts a segment, then ticks until the machine is at rest; a command
that is not accepted ends at once (47_host_interface.md R363). -/
def blockingCommand (i : Instr) (ticks : List (Pins × Word × Tag)) (s : State) : Answer :=
  match exec i s with
  | .next u => if u.resp.ok then runUntilRest ticks u else .next u
  | .fault f => .fault f
  | .refused r => .refused r

/-! ### Pseudo-operations (30_encoding.md R113; Q_PUSH_CHECKED is State.pushChecked) -/

/-- CLEAR. -/
def clearOperations : List Instr := [.mbErase]

/-- Q_PUSH16, legal only when two slots are free: none where it is not legal. -/
def qPush16Operations (s : State) (d : Word) (t : Tag) : Option (List Instr) :=
  if hasRoom s.q .sixteen then
    some [.qPush (byteWord (lowLane d)) t (.width .eightLow), .qPush (byteWord (highLane d)) t (.width .eightLow)]
  else none

/-- RUN: one tick for each sample. -/
def tickOperations (l : List (Pins × Word × Tag)) : List Instr := l.map fun x => .engineTick x.1 x.2.1 x.2.2

/-- The status pins of a sample present Passive and no reserved code: by the raw code, or in R3 by `status_valid` = 0
(40_bus_cycle.md R132). -/
def presentsPassive (c : Config) (p : Pins) : Bool := decodeStatus c p.rawStatus p.statusValid == (.passive, false)

/-- BUS_CYCLE: one tick with the raw status on its sample, then one tick for each sample of `rest`, which must present
Passive; a sample of its own for every tick, since the other pins move. None where a sample of `rest` presents another
status. -/
def busCycleOperations (c : Config) (raw : BitVec 4) (start : Pins × Word × Tag) (rest : List (Pins × Word × Tag)) :
    Option (List Instr) :=
  if rest.all fun x => presentsPassive c x.1 then
    some (.engineTick { start.1 with rawStatus := raw } start.2.1 start.2.2 :: tickOperations rest)
  else none

/-! ### Outputs and queries -/

/-- The levels the block puts out (10_state.md R44). -/
structure Outputs where
  /-- the controller lines, when the controller is emulated -/
  lines  : Option ControllerLines
  /-- the lanes and the word driven on the data bus, when it is driven -/
  driven : Option (BusWidth × Word)
  nmi    : Bool
deriving DecidableEq, Repr

/-- The outputs in a state (10_state.md R44, R25). -/
def outputsOf (s : State) : Outputs where
  lines := if s.cfg.bcEmulated then some s.bc.lines else none
  driven := match s.xcvr.dir with
    | .output => some (s.xcvr.driveWidth, s.xcvr.driveData)
    | .input => none
  nmi := s.srv.nmiOut

/-- What the host's address, status and data-bus queries read (47_host_interface.md R361). -/
structure BusQuery where
  address : Addr
  status  : BusStatus
  latched : BusStatus
  data    : Word
deriving DecidableEq, Repr

/-- The answer to the host's queries; no state changes (47_host_interface.md R361). -/
def busQuery (s : State) : BusQuery where
  address := s.bcs.addressLatch
  status := s.bcs.status
  latched := s.bcs.latchedStatus
  data := s.bcs.dataLatch

end Sys2Proof.Machine
end

