-- ==== Sys2Proof/Safety.lean ====
section
/-! DEFINITION. The terms in which claims about the machine are made: the conservative reading of a run (00_scope.md
R19), unchanged memory, the abstract log, what runs of queue and program operations move, and the invariants of
reachable states (10_state.md R42, 41_bus_controller.md R172, 46_phase_sequencer.md R347). -/

namespace Sys2Proof.Machine

open Sys2Proof

/-! ### Runs -/

/-- No anomaly flag is set: the run is not at fault in the conservative reading (00_scope.md R19). -/
def anomalyFree (s : State) : Prop := ∀ a : Anomaly, anomalySet s.flags a = false

/-! ### Frames -/

/-- Every byte of the backend reads as before. -/
def sameMemory (s t : State) : Prop := ∀ a : Nat, memGet t.cfg t.mb a = memGet s.cfg s.mb a

/-- Every byte of the backend outside the listed addresses reads as before. -/
def sameMemoryExcept (l : List Nat) (s t : State) : Prop :=
  ∀ a : Nat, a ∉ l → memGet t.cfg t.mb a = memGet s.cfg s.mb a

/-- The addresses a command's run of `n` bytes from `a` touches, in order (44_memory_backend.md R260). -/
def runAddresses (c : Config) (a : Nat) : Nat → List Nat
  | 0 => []
  | n + 1 => a :: runAddresses c (nextAddr c a) n

/-! ### Abstract values -/

/-- The log as a list, oldest first (45_bus_log.md R293). -/
def logList (l : BusLog) : List BusOperation := (List.range l.count).filterMap (logEntry l)

/-- The valid bytes of a word, in the order of their addresses (20_memory.md R64, 30_encoding.md R107). -/
def validLanes (w : BusWidth) (d : Word) : List Byte :=
  match w with
  | .eightLow => [lowLane d]
  | .eightHigh => [highLane d]
  | .sixteen => [lowLane d, highLane d]

/-- The entries a push of a word asks for (42_instruction_queue.md R193). -/
def pushedEntries (d : Word) (t : Tag) (w : BusWidth) : List QueueEntry :=
  (validLanes w d).map fun b => { byte := b, tag := t }

/-- The entries a queue operation has put in, judged by its response. -/
def acceptedEntries : Instr × Response → List QueueEntry
  | (.qPush d t (.width w), r) => if r.ok then pushedEntries d t w else []
  | _ => []

/-- The entry a queue operation has taken out, judged by its response. -/
def poppedEntries : Instr × Response → List QueueEntry
  | (.qPop, r) =>
    match r.ok, r.byte, r.tag with
    | true, some b, some t => [{ byte := b, tag := t }]
    | _, _, _ => []
  | _ => []

/-- A push, or a pop. -/
def isPushOrPop : Instr → Bool
  | .qPush _ _ _ => true
  | .qPop => true
  | _ => false

/-- The valid bytes an IP_READ of width `w` has answered. -/
def answeredBytes (w : BusWidth) (r : Response) : List Byte := (r.data.map (validLanes w)).getD []

/-- The program active in `t` is the one that entering a phase in `s` selects under a name: the image of the program set
with its cursor at 0, or the empty program where the name is absent (46_phase_sequencer.md R332). Nothing is said of an
image longer than IP_MAX_LEN (notes/assumptions/16.md). -/
def selectsProgram (s t : State) (n : ProgName) : Prop :=
  (∀ i, imageOf n s.ipset = some i → i.buf.length ≤ s.cfg.ipMaxLen → t.ip = ⟨n, i.buf, 0, i.fill, i.vectorOffset⟩) ∧
  (imageOf n s.ipset = none → t.ip = ⟨n, [], 0, s.cfg.fillDefault, 0⟩)

/-! ### Where PHASE_DONE is asked -/

/-- The read cycle in progress was fed in the tick from `s` to `t` (46_phase_sequencer.md R310, step 3). -/
def fedInTick (s t : State) : Bool := !s.bcs.fed && t.bcs.fed

/-- The active program after steps 1 to 5 of the tick from `s` to `t`: the program of `s`, its cursor moved on where it
served the cycle that was fed (46_phase_sequencer.md R314, 43_inline_program.md R213). -/
def programAfterFeed (s t : State) : ActiveProgram :=
  if fedInTick s t && arbiter s.cfg s.srv.state == .inline && isMemoryRead s.bcs.latchedStatus && s.bcs.widthValid then
    { s.ip with cursor := min (s.ip.cursor + widthBytes s.bcs.busWidth) s.ip.buf.length }
  else s.ip

/-- The state of which the tick from `s` to `t` asks PHASE_DONE (46_phase_sequencer.md R310, R320): steps 1 to 5 are
done and the identification cycle counted, while the phase, the rest of the sequencer, the active program, the last
error and the response are those before step 6. Written by what `s` and `t` hold. -/
def stateBeforeEdge (s t : State) : State :=
  { t with
    ip := programAfterFeed s t
    srv := { s.srv with
      tickCount := s.srv.tickCount + 1
      idCycles := t.srv.idCycles
      stackCaptureCursor := t.srv.stackCaptureCursor
      programEnded := s.srv.programEnded || fedInTick s t && servedFill s.bcs t.bcs.fedNprog s.srv.state }
    flags := { t.flags with lastError := s.flags.lastError }
    resp := s.resp }

/-- The same at the tick that sees the NMI vector: the fetch is counted, NMI released, ExecuteFinalize entered
(46_phase_sequencer.md R320, R335). -/
def stateAfterNmiEdge (s t : State) : State :=
  ((stateBeforeEdge s t).withSrv { (stateBeforeEdge s t).srv with
    nmiFetchCount := s.srv.nmiFetchCount + 1, nmiOut := false }).enter .executeFinalize

/-- The result of CYCLE_TICK in the tick from `s` to `t` (40_bus_cycle.md R143). -/
def cycleOfTick (s t : State) : CycleResult where
  cyc := t.bcs.tcycle
  enteredT1 := t.bcs.tcycle == .t1 && s.bcs.tcycle != .t1
  ended := t.resp.event.isSome

/-! ### Invariants -/

/-- The queue indices are in range (10_state.md R26, R42 a). -/
def QueueOk (q : Queue) : Prop := q.front < capSize q.cap ∧ q.len ≤ capSize q.cap

/-- The cursor is inside the program and the program fits (10_state.md R27, R42 d, 43_inline_program.md R211). -/
def ProgramOk (c : Config) (p : ActiveProgram) : Prop := p.cursor ≤ p.buf.length ∧ p.buf.length ≤ c.ipMaxLen

/-- The log's counters agree with one another, and no entry that can be read is Passive (10_state.md R42 e, R32,
30_encoding.md R103). -/
structure LogOk (l : BusLog) : Prop where
  count_le : l.count ≤ 256
  overflow : l.overflow = true → l.count = 256
  before_wrap : l.count < 256 → l.wr.toNat = l.count
  hint : l.farCallHint = decide (3 ≤ l.writeRun)
  active : ∀ o ∈ logList l, o.kind ≠ .passive

/-- The latches of the bus-cycle machine agree with its T-cycle, and the latched width is the one the latched address
and byte-high-enable give (10_state.md R42 f, 40_bus_cycle.md R140, R141, R143). -/
structure BusCycleOk (c : Config) (b : BusCycle) : Prop where
  idle : b.tcycle = .idle ↔ b.latchedStatus = .passive
  width : transferWidth b.addressLatch (bheOf b) c.bus16 = (b.busWidth, b.widthValid)
  address : b.addressLatch.toNat < addrSpace c
  fed : b.tcycle = .t1 → b.fed = false
  nprog : b.fedNprog ≤ 2

/-- The controller's lines by its T-cycle and latched status (41_bus_controller.md R172 a to c, 10_state.md R42 g). -/
structure ControllerOk (b : BusController) : Prop where
  ale : b.lines.ale = true ↔ b.tcycle = .t1
  mrdc : b.lines.mrdc = true →
    (b.tcycle = .t2 ∨ b.tcycle = .t3) ∧ (b.latchedStatus = .code ∨ b.latchedStatus = .memRead)
  memWrite : b.lines.amwc = true ∨ b.lines.mwtc = true →
    (b.tcycle = .t2 ∨ b.tcycle = .t3) ∧ b.latchedStatus = .memWrite
  iorc : b.lines.iorc = true → (b.tcycle = .t2 ∨ b.tcycle = .t3) ∧ b.latchedStatus = .ioRead
  ioWrite : b.lines.aiowc = true ∨ b.lines.iowc = true →
    (b.tcycle = .t2 ∨ b.tcycle = .t3) ∧ b.latchedStatus = .ioWrite

/-- The lines of the 82288-style controller by its T-cycle and latched status (41_bus_controller.md R172 a to c, R170):
its T-cycle is Idle, T1 (Ts) or T2 (Tc), a command line is asserted in T2 alone, AMWC and AIOWC never. -/
structure ControllerOk82288 (b : BusController) : Prop where
  tcycle : b.tcycle = .idle ∨ b.tcycle = .t1 ∨ b.tcycle = .t2
  ale : b.lines.ale = true ↔ b.tcycle = .t1
  mrdc : b.lines.mrdc = true → b.tcycle = .t2 ∧ (b.latchedStatus = .code ∨ b.latchedStatus = .memRead)
  mwtc : b.lines.mwtc = true → b.tcycle = .t2 ∧ b.latchedStatus = .memWrite
  iorc : b.lines.iorc = true → b.tcycle = .t2 ∧ b.latchedStatus = .ioRead
  iowc : b.lines.iowc = true → b.tcycle = .t2 ∧ b.latchedStatus = .ioWrite
  amwc : b.lines.amwc = false
  aiowc : b.lines.aiowc = false

/-- The phases in which a segment can run (46_phase_sequencer.md R330). -/
def isSegmentPhase : ServerState → Bool
  | .reset | .cpuId | .cpuSetup | .jumpVector | .load | .loadSmm | .loadDone | .emuEnter | .prefetch | .execute
  | .executeFinalize | .emuExit | .store | .storeAll => true
  | .executeDone | .storeDone | .storeDoneSmm | .done | .shutdown | .error => false

/-- What the sequencer's fields say of one another (46_phase_sequencer.md R333, R335, R336, R338, R341, R347 c;
10_state.md R35); a stalled phase is at rest (notes/assumptions/24.md). -/
structure ServerOk (c : Config) (v : Server) : Prop where
  budget : 0 < v.budget → isSegmentPhase v.state = true
  nmi : v.nmiOut = true → v.state = .execute ∧ 0 < v.budget ∧ c.endStrategy = .nmiVector
  armed : v.stackArmed = true → v.state = .execute ∨ v.state = .executeFinalize ∨ v.state = .emuExit
  success : v.resetResult.success = true ↔ v.state ≠ .reset ∧ v.state ≠ .error
  detected : v.resetResult.bus16 = c.bus16 ∧ v.resetResult.qsAvail = c.qsAvail
  vendor : c.bus16 = true → v.cpuVendor = .unknown
  smi : v.smiFetchCount = 0
  stalled : v.stalled = true → v.budget = 0

/-- The invariant of every reachable state of an instance whose parameters are in their ranges (10_state.md R42). -/
structure State.Inv (s : State) : Prop where
  config : s.cfg.wellFormed = true
  queue : QueueOk s.q
  program : ProgramOk s.cfg s.ip
  memory : s.mb.wf s.cfg = true
  log : LogOk s.log
  busCycle : BusCycleOk s.cfg s.bcs
  controller : ControllerOk s.bc
  server : ServerOk s.cfg s.srv

end Sys2Proof.Machine
end

