-- ==== Sys2Proof/Certificates/Slice0/Obligations.lean ====
section
/-! DEFINITION. The statements for the provers. `sameMemory` and `sameMemoryExcept` speak through `memGet`, the model's
read of one byte of the backend. A frame written `t = { s with q := t.q, resp := t.resp }` says that every field but the
ones named is as before. -/

open Sys2Proof Sys2Proof.Machine

/-! ### The operation port -/

/-- The operation map (30_encoding.md R108), all 47 codes, with the operand ports of each operation (R106): the request
of each code, whatever stands on the ports, is read as the operation of that code. (The port `name` of IP_SELECT is the
model's, notes/assumptions/23.md.) Rests on the spec's own decision D1 (92_eei_decisions.md). -/
def Obligations.OperationMapDecodes : Prop :=
  ∀ p : Ports,
    decode ⟨0x00, p⟩ = .ok .bcsReset ∧
    decode ⟨0x01, p⟩ = .ok (.decodeStatus p.raw p.valid) ∧
    decode ⟨0x02, p⟩ = .ok (.xferDone (.ofBits p.lst) (.ofBits p.lines) p.ready) ∧
    decode ⟨0x03, p⟩ = .ok (.nextCycle (.ofBits p.cyc) (.ofBits p.st) (.ofBits p.lst) p.done) ∧
    decode ⟨0x04, p⟩ = .ok (.busWidth p.addr p.bhe p.bus16) ∧
    decode ⟨0x05, p⟩ = .ok (.cycleTick p.pins (.ofBits p.lines)) ∧
    decode ⟨0x06, p⟩ = .ok (.xcvrSet p.sel (.ofBits p.width) p.data) ∧
    decode ⟨0x10, p⟩ = .ok .bcReset ∧
    decode ⟨0x11, p⟩ = .ok (.bcTick (.ofBits p.st)) ∧
    decode ⟨0x12, p⟩ = .ok (.bcTick2 (.ofBits p.st) p.ready) ∧
    decode ⟨0x20, p⟩ = .ok (.qReset p.sel) ∧
    decode ⟨0x21, p⟩ = .ok (.qHasRoom (.ofBits p.width)) ∧
    decode ⟨0x22, p⟩ = .ok (.qPush p.data (.ofBits p.tag) (.ofBits p.width)) ∧
    decode ⟨0x23, p⟩ = .ok .qPop ∧
    decode ⟨0x24, p⟩ = .ok .qFlush ∧
    decode ⟨0x25, p⟩ = .ok .qLen ∧
    decode ⟨0x26, p⟩ = .ok (.qStatus (.ofBits p.qs)) ∧
    decode ⟨0x30, p⟩ = .ok (.ipSelect p.name p.bytes p.data p.addr) ∧
    decode ⟨0x31, p⟩ = .ok .ipReset ∧
    decode ⟨0x32, p⟩ = .ok (.ipRead p.addr (.ofBits p.width)) ∧
    decode ⟨0x33, p⟩ = .ok (.ipReadAt p.base p.addr (.ofBits p.width)) ∧
    decode ⟨0x34, p⟩ = .ok (.ipPatchVector p.data) ∧
    decode ⟨0x35, p⟩ = .ok (.ipPatchWord p.addr p.data) ∧
    decode ⟨0x40, p⟩ = .ok (.mbRead8 p.addr) ∧
    decode ⟨0x41, p⟩ = .ok (.mbWrite8 p.addr p.data) ∧
    decode ⟨0x42, p⟩ = .ok (.mbRead16 p.addr) ∧
    decode ⟨0x43, p⟩ = .ok (.mbWrite16 p.addr p.data) ∧
    decode ⟨0x44, p⟩ = .ok (.mbBusRead p.addr p.bhe p.bus16) ∧
    decode ⟨0x45, p⟩ = .ok (.mbBusWrite p.addr p.bhe p.bus16 p.data) ∧
    decode ⟨0x46, p⟩ = .ok (.mbIoRead p.addr (.ofBits p.width)) ∧
    decode ⟨0x47, p⟩ = .ok (.mbIoWrite p.addr (.ofBits p.width) p.data) ∧
    decode ⟨0x48, p⟩ = .ok (.mbSet p.addr p.bytes) ∧
    decode ⟨0x49, p⟩ = .ok .mbErase ∧
    decode ⟨0x4A, p⟩ = .ok (.mbSetDefault p.sel p.seed) ∧
    decode ⟨0x4B, p⟩ = .ok (.mbSelect p.sel) ∧
    decode ⟨0x50, p⟩ = .ok .logClear ∧
    decode ⟨0x51, p⟩ = .ok (.logAppend (.ofBits p.st) (.ofBits p.width) p.addr p.data) ∧
    decode ⟨0x52, p⟩ = .ok (.logRead p.addr) ∧
    decode ⟨0x53, p⟩ = .ok .logStatus ∧
    decode ⟨0x54, p⟩ = .ok (.beRead (.ofBits p.st) p.addr p.bhe p.bus16) ∧
    decode ⟨0x55, p⟩ = .ok (.beWrite (.ofBits p.st) p.addr p.bhe p.bus16 p.data) ∧
    decode ⟨0x60, p⟩ = .ok (.engineTick p.pins p.data (.ofBits p.tag)) ∧
    decode ⟨0x61, p⟩ = .ok (.srvReset p.bus16 p.sel) ∧
    decode ⟨0x62, p⟩ = .ok (.srvLoad p.sel p.bytes p.data) ∧
    decode ⟨0x63, p⟩ = .ok .srvFinalize ∧
    decode ⟨0x64, p⟩ = .ok .srvStore ∧
    decode ⟨0x65, p⟩ = .ok .srvStoreall

/-- Decoding the request an operation is encoded to gives the operation back, with every operand at every value; and a
request is read as one operation alone, which its own code asks for and which depends on the ports its rule lists
alone (30_encoding.md R105, R106, R108). Rests on the spec's own decision D1 (92_eei_decisions.md). -/
def Obligations.DecodeAndEncodeAgree : Prop :=
  (∀ i : Instr, decode (encode i) = .ok i) ∧
  ∀ (r : Request) (i : Instr), decode r = .ok i → (encode i).op = r.op ∧ decode ⟨r.op, i.operandPorts⟩ = .ok i

/-- A request whose code is outside the map changes no state of the block and answers ok = 0, illegal = 1; an operand
outside its type's codes makes the operation refuse with illegal = 0 and nothing changed (30_encoding.md R109;
NEXT_CYCLE's codes 6 and 7 and SRV_LOAD's format have rules of their own, R138 and R342). Rests on the spec's own
decision D1 (92_eei_decisions.md). -/
def Obligations.ReservedCodesChangeNothing : Prop :=
  (∀ (s : State) (r : Request) (l : List HostEvent), s.host = .request r :: l →
    (0x07 ≤ r.op.toNat ∧ r.op.toNat ≤ 0x0F ∨ 0x13 ≤ r.op.toNat ∧ r.op.toNat ≤ 0x1F ∨
      0x27 ≤ r.op.toNat ∧ r.op.toNat ≤ 0x2F ∨ 0x36 ≤ r.op.toNat ∧ r.op.toNat ≤ 0x3F ∨
      0x4C ≤ r.op.toNat ∧ r.op.toNat ≤ 0x4F ∨ 0x56 ≤ r.op.toNat ∧ r.op.toNat ≤ 0x5F ∨ 0x66 ≤ r.op.toNat) →
    step s = .next { s with host := l, resp := { ok := false, illegal := true } }) ∧
  ∀ (i : Instr) (s : State), i.wellFormed = false → (∀ c st lst d, i ≠ .nextCycle c st lst d) →
    (∀ sel b d, i ≠ .srvLoad sel b d) → exec i s = .next { s with resp := { ok := false } }

/-- A step takes the host's next event: a request runs the operation its code and ports ask for (30_encoding.md R105,
00_scope.md R14); a command whose parameter bytes come late has one effect, the last error, and a FAIL response
(60_exceptions.md R383, 47_host_interface.md R362, R366); that this response names the kind as `err` is the model's
choice (notes/assumptions/15.md); with nothing presented the state is kept (60_exceptions.md R397;
the list of events is the model's, notes/assumptions/1.md). Rests on the spec's own decision D1 (92_eei_decisions.md).
-/
def Obligations.StepRunsTheDecodedOperation : Prop :=
  (∀ (s : State) (r : Request) (l : List HostEvent) (i : Instr),
    s.host = .request r :: l → decode r = .ok i → step s = exec i { s with host := l }) ∧
  (∀ (s : State) (l : List HostEvent), s.host = .lateParameters :: l →
    step s = .next { s with
      host := l
      flags := { s.flags with lastError := some .protocolTimeout }
      resp := { ok := false, err := some .protocolTimeout } }) ∧
  ∀ s : State, s.host = [] → step s = .next s

/-- Operations are total: in every state every operation with any operands answers a next state (00_scope.md R14), and
none of them takes, adds or drops a host event or changes a constant parameter (10_state.md R37). -/
def Obligations.OperationsAreTotal : Prop :=
  ∀ (i : Instr) (s : State), ∃ t : State, exec i s = .next t ∧ t.host = s.host ∧
    t.cfg = { s.cfg with bus16 := t.cfg.bus16, qsAvail := t.cfg.qsAvail, endStrategy := t.cfg.endStrategy } ∧
    ((∀ b sel, i ≠ .srvReset b sel) → t.cfg = s.cfg)

/-! ### Reset -/

/-- The state after power-on, for any instance, field by field (10_state.md R45, R23 to R40), but for what the model
adds or chooses (stack capture armed, a stalled phase, the queue slots and log entries that nothing can read:
notes/assumptions/9.md, 24.md and 12.md). Rests on the spec's own decision D27 (92_eei_decisions.md). -/
def Obligations.PowerOnValues : Prop :=
  ∀ c : Config, ∃ s : State, s = State.powerOn c ∧
    s.cfg = { c with bus16 := false, qsAvail := false, endStrategy := .nmiVector } ∧
    s.bcs = { tcycle := .idle, status := .passive, latchedStatus := .passive, addressLatch := 0, busWidth := .eightLow,
              widthValid := true, dataLatch := 0, fed := false, fedNprog := 0 } ∧
    s.bc = { prevStatus := .passive, status := .passive, latchedStatus := .passive, tcycle := .idle,
             lines := ⟨false, false, false, false, false, false, false⟩ } ∧
    s.xcvr = { dir := .input, driveWidth := .eightLow, driveData := 0 } ∧
    s.q.cap = .four ∧ capSize s.q.cap = 4 ∧ s.q.front = 0 ∧ s.q.len = 0 ∧ queueList s.q = [] ∧
    s.ip = { name := .noProgram, buf := [], cursor := 0, fill := c.fillDefault, vectorOffset := 0 } ∧
    (c = Config.defaultInstance → s.ip.fill = 0x9090) ∧ s.ipset = c.ipsetInit ∧
    s.mb = { variant := c.mbVariant, strategy := .zero, seed := 0, flat := [], hash := [] } ∧
    logList s.log = [] ∧
    s.log = { entry := s.log.entry, wr := 0, count := 0, overflow := false, writeRun := 0, farCallHint := false } ∧
    s.srv = { state := .reset, budget := 0, tickCount := 0, nmiOut := false, nmiFetchCount := 0, smiFetchCount := 0,
              stackCaptureCursor := 0, stackArmed := s.srv.stackArmed, stalled := s.srv.stalled, idCycles := 0,
              cpuVendor := .unknown,
              resetResult := ⟨false, false, false⟩, programEnded := false, loadFormat := .v1 } ∧
    s.flags = { queueUnderflow := false, queueOverflow := false, mbRange := false, mbFull := false, storeAddr := false,
                statusReserved := false, lastError := none }

/-- SRV_RESET in any state (46_phase_sequencer.md R340, 70_reset_and_hazards.md R421): the backend, the program set and
the transceiver's width and data are kept, the operands are applied, the reset segment runs, everything else is as after
power-on. The model's: that stack capture is not armed and no phase stalled (notes/assumptions/9.md, 24.md), the
override of END_STRATEGY (10.md), the phase in the response (20.md). Rests on the spec's own decision D27
(92_eei_decisions.md). -/
def Obligations.HostReset : Prop :=
  ∀ (b : Bool) (sel : BitVec 8) (s : State), ∃ t : State, exec (.srvReset b sel) s = .next t ∧
    t.mb = s.mb ∧ t.ipset = s.ipset ∧ t.xcvr = { s.xcvr with dir := .input } ∧
    t.cfg = { s.cfg with bus16 := b, qsAvail := sel.getLsbD 0, endStrategy := t.cfg.endStrategy } ∧
    (s.cfg.endOverride = none → t.cfg.endStrategy = if sel.getLsbD 0 then .queueTag else .nmiVector) ∧
    (∀ e, s.cfg.endOverride = some e → t.cfg.endStrategy = e) ∧
    t.q = Queue.powerOn (if b then .six else .four) ∧
    t.bcs = BusCycle.powerOn ∧ t.bc = BusController.powerOn ∧ t.ip = ActiveProgram.powerOn s.cfg ∧
    logList t.log = [] ∧ t.log = { BusLog.powerOn with entry := t.log.entry } ∧
    t.flags = Anomalies.powerOn ∧
    t.srv = { Server.powerOn with budget := s.cfg.tReset, resetResult := ⟨false, b, sel.getLsbD 0⟩ } ∧
    t.host = s.host ∧ t.freeCount = s.freeCount ∧ t.resp = { state := some .reset } ∧ sameMemory s t

/-- The invariant holds after power-on of every instance whose parameters are in their ranges (10_state.md R42, R45),
and of State.reset, whose instance is the model's choice (notes/assumptions/2.md). Rests on the spec's own decision D27
(92_eei_decisions.md). -/
def Obligations.PowerOnMeetsTheInvariant : Prop :=
  (∀ c : Config, c.wellFormed = true → (State.powerOn c).Inv) ∧ State.reset.Inv

/-- Every step keeps the invariant (10_state.md R42, 41_bus_controller.md R172, 46_phase_sequencer.md R347): queue
length and cursor in range, canonical memory, log counters, the latches of the bus-cycle machine, the lines of the
controller, the sequencer's fields. An inference the spec marks as derived from its rules. -/
def Obligations.EveryStepKeepsTheInvariant : Prop :=
  ∀ s t : State, s.Inv → step s = .next t → t.Inv

/-! ### BusCycleStateMachine -/

/-- DECODE_STATUS by variant (40_bus_cycle.md R132, 30_encoding.md R92 to R94): a pure answer. -/
def Obligations.DecodeStatusByVariant : Prop :=
  ∀ (raw : BitVec 4) (valid : Bool) (s : State), ∃ (st : BusStatus) (rsv : Bool),
    exec (.decodeStatus raw valid) s = .next { s with resp := { status := some st, reserved := some rsv } } ∧
    (s.cfg.statusVariant = .s3 → st.bits = raw.extractLsb' 0 3 ∧ rsv = false) ∧
    (s.cfg.statusVariant = .n4 →
      (∀ x, s.cfg.decodeN4.get raw.toFin = some x → st = x ∧ rsv = false) ∧
      (s.cfg.decodeN4.get raw.toFin = none → st = .passive ∧ rsv = true)) ∧
    (s.cfg.statusVariant = .r3 →
      (valid = false → st = .passive ∧ rsv = false) ∧
      (valid = true →
        (∀ x, s.cfg.decodeR3.get (raw.extractLsb' 0 3).toFin = some x → st = x ∧ rsv = false) ∧
        (s.cfg.decodeR3.get (raw.extractLsb' 0 3).toFin = none → st = .passive ∧ rsv = true)))

/-- XFER_DONE (40_bus_cycle.md R135): a pure answer. Rests on the spec's own decision D8 (92_eei_decisions.md). -/
def Obligations.TransferDone : Prop :=
  ∀ (lst : BusStatus) (l : CmdLines) (ready : Bool) (s : State), ∃ d : Bool,
    exec (.xferDone lst l ready) s = .next { s with resp := { done := some d } } ∧
    (s.cfg.cmdLinesAvail = false → d = ready) ∧
    (s.cfg.cmdLinesAvail = true →
      (lst = .code ∨ lst = .memRead → d = !l.mrdc) ∧ (lst = .memWrite → d = !l.mwtc) ∧
      (lst = .ioRead → d = !l.iorc) ∧ (lst = .ioWrite → d = !l.iowc) ∧
      (lst = .irqAck ∨ lst = .halt ∨ lst = .passive → d = ready))

/-- NEXT_CYCLE: the rows of the transition table of FOUR_STATE (40_bus_cycle.md R136, R137, R138) and of TWO_STATE
(R139), a pure answer. Rests on the spec's own decisions D6, D7, D9, D33 (92_eei_decisions.md). -/
def Obligations.NextCycleTables : Prop :=
  ∀ (cyc : CycleCode) (st lst : BusStatus) (done : Bool) (s : State),
    (s.cfg.cycleVariant = .fourState →
      ∃ n : TCycle, exec (.nextCycle cyc st lst done) s = .next { s with resp := { cyc := some n } } ∧
        (cyc = .cycle .idle → st = .passive → n = .idle) ∧ (cyc = .cycle .idle → st ≠ .passive → n = .t1) ∧
        (cyc = .cycle .t1 → st = .passive → lst = .passive → n = .t1) ∧
        (cyc = .cycle .t1 → ¬(st = .passive ∧ lst = .passive) → n = .t2) ∧
        (cyc = .cycle .t2 → n = .t3) ∧
        (cyc = .cycle .t3 → done = true → n = .t4) ∧ (cyc = .cycle .t3 → done = false → n = .wait) ∧
        (cyc = .cycle .wait → done = true → n = .t4) ∧ (cyc = .cycle .wait → done = false → n = .wait) ∧
        (cyc = .cycle .t4 → st = .passive → n = .idle) ∧ (cyc = .cycle .t4 → st ≠ .passive → n = .t1) ∧
        (cyc = .code6 ∨ cyc = .code7 → n = .idle)) ∧
    (s.cfg.cycleVariant = .twoState →
      ∃ n : TCycle, exec (.nextCycle cyc st lst done) s = .next { s with resp := { cyc := some n } } ∧
        (cyc = .cycle .idle → st = .passive → n = .idle) ∧ (cyc = .cycle .idle → st ≠ .passive → n = .t1) ∧
        (cyc = .cycle .t1 → n = .t2) ∧
        (cyc = .cycle .t2 → done = false → n = .t2) ∧
        (cyc = .cycle .t2 → done = true → st = .passive → n = .idle) ∧
        (cyc = .cycle .t2 → done = true → st ≠ .passive → n = .t1) ∧
        (cyc = .cycle .t3 ∨ cyc = .cycle .t4 ∨ cyc = .cycle .wait ∨ cyc = .code6 ∨ cyc = .code7 → n = .idle))

/-- BUS_WIDTH: the four parity and byte-high-enable combinations (40_bus_cycle.md R141), a pure answer. Rests on the
spec's own decision D10 (92_eei_decisions.md). -/
def Obligations.BusWidthTable : Prop :=
  ∀ (addr : Addr) (bhe bus16 : Bool) (s : State), ∃ (w : BusWidth) (v : Bool),
    exec (.busWidth addr bhe bus16) s = .next { s with resp := { width := some w, valid := some v } } ∧
    (bus16 = false → w = .eightLow ∧ v = true) ∧
    (bus16 = true → addr.toNat % 2 = 0 → bhe = true → w = .sixteen ∧ v = true) ∧
    (bus16 = true → addr.toNat % 2 = 1 → bhe = true → w = .eightHigh ∧ v = true) ∧
    (bus16 = true → addr.toNat % 2 = 0 → bhe = false → w = .eightLow ∧ v = true) ∧
    (bus16 = true → addr.toNat % 2 = 1 → bhe = false → w = .eightLow ∧ v = false)

/-- XCVR_SET (40_bus_cycle.md R142): direction, width and data, and `changed`; width code 3 refuses. -/
def Obligations.TransceiverSet : Prop :=
  ∀ (sel : BitVec 8) (data : Word) (s : State),
    (∀ w : BusWidth, ∃ t : State, exec (.xcvrSet sel (.width w) data) s = .next t ∧
      t = { s with xcvr := t.xcvr, resp := t.resp } ∧ sameMemory s t ∧
      (sel.getLsbD 0 = false → t.xcvr = { s.xcvr with dir := .input, driveWidth := w } ∧
        t.resp = { changed := some (decide (s.xcvr.dir ≠ .input ∨ s.xcvr.driveWidth ≠ w)) }) ∧
      (sel.getLsbD 0 = true → t.xcvr = { dir := .output, driveWidth := w, driveData := data } ∧
        t.resp = { changed := some (decide (s.xcvr.dir ≠ .output ∨ s.xcvr.driveWidth ≠ w)) })) ∧
    exec (.xcvrSet sel .code3 data) s = .next { s with resp := { ok := false } }

/-- CYCLE_TICK (40_bus_cycle.md R143, R140, R134): the next T-cycle, the latches at T1 entry and at the end of a cycle
without a successor, and at no other tick; a reserved code is taken as Passive and sets its flag. The address latched is
the pins' address modulo the address space (notes/assumptions/7.md). Rests on the spec's own decisions D4, D7
(92_eei_decisions.md). -/
def Obligations.CycleTick : Prop :=
  ∀ (p : Pins) (l : CmdLines) (s : State), ∃ (t : State) (st : BusStatus) (rsv d : Bool) (c n : TCycle),
    exec (.cycleTick p l) s = .next t ∧
    t = { s with bcs := t.bcs, flags := t.flags, resp := t.resp } ∧ sameMemory s t ∧
    (st, rsv) = decodeStatus s.cfg p.rawStatus p.statusValid ∧ c = s.bcs.tcycle ∧
    (s.cfg.cycleVariant = .twoState → d = p.ready) ∧
    (s.cfg.cycleVariant = .fourState → d = xferDone s.cfg s.bcs.latchedStatus l p.ready) ∧
    n = nextCycle s.cfg.cycleVariant (.cycle c) st s.bcs.latchedStatus d ∧
    t.flags = (if rsv then { s.flags with statusReserved := true } else s.flags) ∧
    (n = .t1 → c ≠ .t1 → t.bcs = { s.bcs with
      tcycle := n
      status := st
      latchedStatus := st
      addressLatch := BitVec.ofNat 32 (p.addr.toNat % addrSpace s.cfg)
      busWidth := (transferWidth p.addr p.bhe s.cfg.bus16).1
      widthValid := (transferWidth p.addr p.bhe s.cfg.bus16).2
      fed := false }) ∧
    (n = .idle → c ≠ .idle → t.bcs = { s.bcs with tcycle := n, status := st, latchedStatus := .passive }) ∧
    (¬(n = .t1 ∧ c ≠ .t1) → ¬(n = .idle ∧ c ≠ .idle) → t.bcs = { s.bcs with tcycle := n, status := st }) ∧
    t.resp = {
      cyc := some n
      enteredT1 := some (decide (n = .t1 ∧ c ≠ .t1))
      ended := some (decide (
        (s.cfg.cycleVariant = .fourState → n = .t4 ∧ c ≠ .t4) ∧
        (s.cfg.cycleVariant = .twoState → c = .t2 ∧ n ≠ .t2))) }

/-- The latched status is fixed for a bus cycle's whole duration (10_state.md R42 b): an operation that changes it is
a reset, or a tick that enters T1 or Idle. Rests on the spec's own decision D7 (92_eei_decisions.md). -/
def Obligations.LatchedStatusIsFixed : Prop :=
  ∀ (i : Instr) (s t : State), exec i s = .next t → t.bcs.latchedStatus ≠ s.bcs.latchedStatus →
    i = .bcsReset ∨ (∃ b sel, i = .srvReset b sel) ∨
    ((∃ p l, i = .cycleTick p l) ∨ ∃ p d g, i = .engineTick p d g) ∧
      t.bcs.tcycle ≠ s.bcs.tcycle ∧
      (t.bcs.tcycle = .t1 ∧ t.bcs.latchedStatus = t.bcs.status ∧ t.bcs.latchedStatus ≠ .passive ∨
        t.bcs.tcycle = .idle ∧ t.bcs.latchedStatus = .passive)

/-- BCS_RESET (40_bus_cycle.md R144) and BC_RESET (41_bus_controller.md R171). Rests on the spec's own decision D27
(92_eei_decisions.md). -/
def Obligations.ComponentResets : Prop :=
  ∀ s : State,
    exec .bcsReset s = .next { s with
      bcs := { tcycle := .idle, status := .passive, latchedStatus := .passive, addressLatch := 0, busWidth := .eightLow,
               widthValid := true, dataLatch := 0, fed := false, fedNprog := 0 }
      xcvr := { s.xcvr with dir := .input }
      resp := {} } ∧
    exec .bcReset s = .next { s with
      bc := { prevStatus := .passive, status := .passive, latchedStatus := .passive, tcycle := .idle,
              lines := ⟨false, false, false, false, false, false, false⟩ }
      resp := {} }

/-! ### BusControllerEmulator -/

/-- BC_TICK (41_bus_controller.md R163 with the lines of R161; the override of R164 in every T-cycle). Rests on the
spec's own decision D11 (92_eei_decisions.md). -/
def Obligations.ControllerTick8288 : Prop :=
  ∀ (st : BusStatus) (s : State), ∃ t : State, exec (.bcTick st) s = .next t ∧
    t = { s with bc := t.bc, resp := t.resp } ∧ sameMemory s t ∧
    t.bc.prevStatus = s.bc.status ∧ t.bc.status = st ∧
    t.resp = { lines := some t.bc.lines, cyc := some t.bc.tcycle } ∧
    (s.bc.status = .passive → st ≠ .passive → t.bc.latchedStatus = st ∧ t.bc.tcycle = .t1 ∧
      t.bc.lines = ⟨true, false, false, false, false, false, false⟩) ∧
    (¬(s.bc.status = .passive ∧ st ≠ .passive) → t.bc.latchedStatus = s.bc.latchedStatus ∧
      (s.bc.tcycle = .idle → t.bc.tcycle = .idle ∧ t.bc.lines = s.bc.lines) ∧
      (s.bc.tcycle = .t1 → t.bc.tcycle = .t2 ∧ t.bc.lines = { s.bc.lines with
        ale := false
        mrdc := s.bc.lines.mrdc || (s.bc.latchedStatus == .code || s.bc.latchedStatus == .memRead)
        amwc := s.bc.lines.amwc || s.bc.latchedStatus == .memWrite
        iorc := s.bc.lines.iorc || s.bc.latchedStatus == .ioRead
        aiowc := s.bc.lines.aiowc || s.bc.latchedStatus == .ioWrite }) ∧
      (s.bc.tcycle = .t2 → t.bc.tcycle = .t3 ∧ t.bc.lines = { s.bc.lines with
        mwtc := s.bc.lines.mwtc || s.bc.latchedStatus == .memWrite
        iowc := s.bc.lines.iowc || s.bc.latchedStatus == .ioWrite }) ∧
      (s.bc.tcycle = .t3 ∨ s.bc.tcycle = .wait → t.bc.tcycle = .t4 ∧
        t.bc.lines = ⟨s.bc.lines.ale, false, false, false, false, false, false⟩) ∧
      (s.bc.tcycle = .t4 → t.bc.tcycle = .idle ∧ t.bc.lines = s.bc.lines))

/-- BC_TICK2 (41_bus_controller.md R170 with the lines of R161; the override of R164 in every T-cycle). Rests on the
spec's own decision D12 (92_eei_decisions.md). -/
def Obligations.ControllerTick82288 : Prop :=
  ∀ (st : BusStatus) (ready : Bool) (s : State), ∃ t : State, exec (.bcTick2 st ready) s = .next t ∧
    t = { s with bc := t.bc, resp := t.resp } ∧ sameMemory s t ∧
    t.bc.prevStatus = s.bc.status ∧ t.bc.status = st ∧
    t.resp = { lines := some t.bc.lines, cyc := some t.bc.tcycle } ∧
    (s.bc.status = .passive → st ≠ .passive → t.bc.latchedStatus = st ∧ t.bc.tcycle = .t1 ∧
      t.bc.lines = ⟨true, false, false, false, false, false, false⟩) ∧
    (¬(s.bc.status = .passive ∧ st ≠ .passive) → t.bc.latchedStatus = s.bc.latchedStatus ∧
      (s.bc.tcycle = .idle → t.bc.tcycle = .idle ∧ t.bc.lines = s.bc.lines) ∧
      (s.bc.tcycle = .t1 → t.bc.tcycle = .t2 ∧ t.bc.lines = { s.bc.lines with
        ale := false
        mrdc := s.bc.lines.mrdc || (s.bc.latchedStatus == .code || s.bc.latchedStatus == .memRead)
        mwtc := s.bc.lines.mwtc || s.bc.latchedStatus == .memWrite
        iorc := s.bc.lines.iorc || s.bc.latchedStatus == .ioRead
        iowc := s.bc.lines.iowc || s.bc.latchedStatus == .ioWrite }) ∧
      (s.bc.tcycle = .t2 → ready = false → t.bc.tcycle = .t2 ∧ t.bc.lines = s.bc.lines) ∧
      (s.bc.tcycle = .t2 → ready = true → t.bc.tcycle = .idle ∧
        t.bc.lines = ⟨s.bc.lines.ale, false, false, false, false, false, false⟩) ∧
      (s.bc.tcycle = .t3 ∨ s.bc.tcycle = .t4 ∨ s.bc.tcycle = .wait → t.bc.tcycle = .idle ∧
        t.bc.lines = ⟨s.bc.lines.ale, false, false, false, false, false, false⟩))

/-- The properties of both controllers (41_bus_controller.md R172): ALE exactly in T1, command lines only in T2 and T3
and only those of the latched status, kept by every tick. The 82288 style is in Idle, T1 or T2, asserts command lines in
T2 alone and never AMWC or AIOWC (R170), from power-on and by every tick, BC_TICK2 and ENGINE_TICK both. Six Passive
ticks leave the controller in Idle with every line 0; for the 82288 style, when a ready tick finds it in T2, where it
is there or comes there from T1. Passive ticks from reset change nothing. An inference the spec marks as derived from
its rules. Rests on the spec's own decisions D11, D12 (92_eei_decisions.md). -/
def Obligations.ControllerLinesFollowTheCycle : Prop :=
  (∀ (i : Instr) (s t : State), (∃ st, i = .bcTick st) ∨ (∃ st r, i = .bcTick2 st r) → ControllerOk s.bc →
    exec i s = .next t → ControllerOk t.bc) ∧
  ControllerOk82288 BusController.powerOn ∧
  (∀ (i : Instr) (s t : State), (∃ st r, i = .bcTick2 st r) ∨
      (∃ p d g, i = .engineTick p d g) ∧ s.cfg.bcVariant = .bc82288 → ControllerOk82288 s.bc →
    exec i s = .next t → ControllerOk82288 t.bc) ∧
  (∀ s : State, ControllerOk s.bc → ∃ (t : State) (rs : List Response),
    runOperations (List.replicate 6 (.bcTick .passive)) s = some (t, rs) ∧
      t.bc.tcycle = .idle ∧ t.bc.lines = ⟨false, false, false, false, false, false, false⟩) ∧
  (∀ (s : State) (r0 : Bool) (rest : List Bool), rest.length = 5 → (s.bc.tcycle = .t1 → true ∈ rest) →
      (s.bc.tcycle = .t2 → true ∈ r0 :: rest) → ControllerOk s.bc →
    ∃ (t : State) (rs : List Response),
      runOperations ((r0 :: rest).map fun r => .bcTick2 .passive r) s = some (t, rs) ∧
        t.bc.tcycle = .idle ∧ t.bc.lines = ⟨false, false, false, false, false, false, false⟩) ∧
  ∀ (s : State) (r : Bool), s.bc = BusController.powerOn →
    (∀ t, exec (.bcTick .passive) s = .next t → t.bc = s.bc) ∧
    (∀ t, exec (.bcTick2 .passive r) s = .next t → t.bc = s.bc)

/-! ### InstructionQueue -/

/-- Q_PUSH (42_instruction_queue.md R193, R194): with room for every byte the entries are appended, low byte first,
else the push is refused whole; a Sixteen push with room for two is two eight-bit pushes, low byte first, and only then
are they legal (R200 d, 30_encoding.md R113); width code 3 refuses. Rests on the spec's own decisions D14, D32
(92_eei_decisions.md). -/
def Obligations.PushAppendsOrRefusesWhole : Prop :=
  ∀ (d : Word) (g : Tag) (s : State),
    (∀ w : BusWidth, s.q.len + widthBytes w ≤ capSize s.q.cap → ∃ t : State,
      exec (.qPush d g (.width w)) s = .next t ∧ t = { s with q := t.q, resp := {} } ∧ sameMemory s t ∧
      t.q.cap = s.q.cap ∧
      (w = .eightLow → queueList t.q = queueList s.q ++ [⟨lowLane d, g⟩]) ∧
      (w = .eightHigh → queueList t.q = queueList s.q ++ [⟨highLane d, g⟩]) ∧
      (w = .sixteen → queueList t.q = queueList s.q ++ [⟨lowLane d, g⟩, ⟨highLane d, g⟩])) ∧
    (∀ w : BusWidth, capSize s.q.cap < s.q.len + widthBytes w →
      exec (.qPush d g (.width w)) s = .next { s with resp := { ok := false } }) ∧
    (s.q.len + 2 ≤ capSize s.q.cap → ∃ (t : State) (ops : List Instr),
      exec (.qPush d g (.width .sixteen)) s = .next t ∧ qPush16Operations s d g = some ops ∧
      runOperations ops s = some (t, [{}, {}])) ∧
    (capSize s.q.cap < s.q.len + 2 → qPush16Operations s d g = none) ∧
    exec (.qPush d g .code3) s = .next { s with resp := { ok := false } }

/-- Q_POP (42_instruction_queue.md R195): the oldest entry is taken; a pop from an empty queue changes no state of the
block and answers ok = 0 (notes/assumptions/21.md; its byte and tag are any, 93_implementation_defined.md U4;
`freeCount` is the model's, notes/assumptions/4.md and 5.md). -/
def Obligations.PopTakesTheOldest : Prop :=
  ∀ s : State,
    (∀ (e : QueueEntry) (l : List QueueEntry), queueList s.q = e :: l → ∃ t : State,
      exec .qPop s = .next t ∧ t = { s with
        q := t.q
        resp := { empty := some false, byte := some e.byte, tag := some e.tag } } ∧
      sameMemory s t ∧ t.q.cap = s.q.cap ∧ queueList t.q = l) ∧
    (queueList s.q = [] → ∃ (b : Byte) (g : Tag), exec .qPop s = .next { s with
      freeCount := s.freeCount + 1
      resp := { ok := false, empty := some true, byte := some b, tag := some g } })

/-- The queue is first in, first out over every sequence of pushes and pops (42_instruction_queue.md R200): what was
there and what was accepted is, in order, what was popped and what is left; the length stays within the capacity.
Rests on the spec's own decision D14 (92_eei_decisions.md). -/
def Obligations.QueueIsFirstInFirstOut : Prop :=
  ∀ (ops : List Instr) (s : State), (∀ i ∈ ops, isPushOrPop i = true) → ∃ (t : State) (rs : List Response),
    runOperations ops s = some (t, rs) ∧ rs.length = ops.length ∧ t.q.cap = s.q.cap ∧
      queueList s.q ++ (ops.zip rs).flatMap acceptedEntries = (ops.zip rs).flatMap poppedEntries ++ queueList t.q ∧
      (s.q.len ≤ capSize s.q.cap → t.q.len ≤ capSize t.q.cap)

/-- Q_STATUS (42_instruction_queue.md R198, R199): First and Subsequent retire the oldest entry or set the underflow
flag and leave the queue empty, Flush empties the queue, Idle changes nothing. An underflow answers ok = 1
(notes/assumptions/21.md) with any byte and tag (93_implementation_defined.md U4; `freeCount` is the model's,
notes/assumptions/4.md and 5.md). Rests on the spec's own decision D26 (92_eei_decisions.md). -/
def Obligations.QueueStatusFollowsTheCpu : Prop :=
  ∀ s : State,
    exec (.qStatus .idle) s = .next { s with resp := { popped := some false, flushed := some false } } ∧
    (∃ t : State, exec (.qStatus .flush) s = .next t ∧
      t = { s with q := t.q, resp := { popped := some false, flushed := some true } } ∧ sameMemory s t ∧
      queueList t.q = [] ∧ t.q.cap = s.q.cap) ∧
    ∀ (qs : QueueStatus) (f : Bool), qs = .first ∧ f = true ∨ qs = .subsequent ∧ f = false →
      (∀ (e : QueueEntry) (l : List QueueEntry), queueList s.q = e :: l → ∃ t : State,
        exec (.qStatus qs) s = .next t ∧ t = { s with
          q := t.q
          resp := { popped := some true, first := some f, byte := some e.byte, tag := some e.tag } } ∧
        sameMemory s t ∧ queueList t.q = l ∧ t.q.cap = s.q.cap) ∧
      (queueList s.q = [] → ∃ (b : Byte) (g : Tag), exec (.qStatus qs) s = .next { s with
        flags := { s.flags with queueUnderflow := true }
        freeCount := s.freeCount + 1
        resp := { popped := some false, first := some f, byte := some b, tag := some g } })

/-- Q_RESET, Q_HAS_ROOM, Q_LEN and Q_FLUSH (42_instruction_queue.md R191, R192, R196, R197). Rests on the spec's own
decision D14 (92_eei_decisions.md). -/
def Obligations.QueueControl : Prop :=
  ∀ s : State,
    (∀ c : QueueCap, exec (.qReset (BitVec.ofNat 8 (capSize c))) s =
      .next { s with q := { s.q with cap := c, front := 0, len := 0 }, resp := {} }) ∧
    (∀ sel : BitVec 8, sel ≠ 4 → sel ≠ 6 → exec (.qReset sel) s = .next { s with resp := { ok := false } }) ∧
    (∀ w : BusWidth, exec (.qHasRoom (.width w)) s = .next { s with
      resp := { room := some (decide (s.q.len + (if w = .sixteen then 2 else 1) ≤ capSize s.q.cap)) } }) ∧
    exec (.qHasRoom .code3) s = .next { s with resp := { ok := false } } ∧
    exec .qLen s = .next { s with resp := { len := some (queueList s.q).length, cap := some (capSize s.q.cap) } } ∧
    exec .qFlush s = .next { s with q := { s.q with front := 0, len := 0 }, resp := {} } ∧
    queueList { s.q with front := 0, len := 0 } = []

/-! ### InlineProgram -/

/-- IP_SELECT (43_inline_program.md R211) and IP_RESET (R212). Rests on the spec's own decision D28
(92_eei_decisions.md). -/
def Obligations.ProgramSelectAndReset : Prop :=
  ∀ s : State,
    (∀ (name : ProgName) (bytes : List Byte) (fill : Word) (voff : Addr),
      (bytes.length ≤ s.cfg.ipMaxLen → exec (.ipSelect name bytes fill voff) s = .next { s with
        ip := { name := name, buf := bytes, cursor := 0, fill := fill, vectorOffset := voff.toNat }, resp := {} }) ∧
      (s.cfg.ipMaxLen < bytes.length →
        exec (.ipSelect name bytes fill voff) s = .next { s with resp := { ok := false } })) ∧
    exec .ipReset s = .next { s with ip := { s.ip with cursor := 0 }, resp := {} }

/-- IP_READ (43_inline_program.md R213): at or past the end exactly the fill word and a cursor that stays; before it
the bytes at the cursor on the valid lanes, and a cursor that advances and stops at the length. A lane that is not
valid is any byte (93_implementation_defined.md U3). Rests on the spec's own decision D16 (92_eei_decisions.md). -/
def Obligations.ProgramRead : Prop :=
  ∀ (addr : Addr) (s : State),
    (∀ w : BusWidth, ∃ (d : Word) (np : Nat), exec (.ipRead addr (.width w)) s = .next { s with
        ip := { s.ip with cursor := min (s.ip.cursor + widthBytes w) s.ip.buf.length }
        freeCount := s.freeCount + 1
        resp := {
          data := some d
          nprog := some np
          ended := some (decide (s.ip.buf.length ≤ s.ip.cursor)) } } ∧
      (s.ip.buf.length ≤ s.ip.cursor → d = s.ip.fill ∧ np = 0) ∧
      (∀ b : Byte, s.ip.buf[s.ip.cursor]? = some b →
        np = min (widthBytes w) (s.ip.buf.length - s.ip.cursor) ∧
        (w = .eightLow → lowLane d = b) ∧ (w = .eightHigh → highLane d = b) ∧
        (w = .sixteen → lowLane d = b ∧ highLane d = s.ip.buf[s.ip.cursor + 1]?.getD (highLane s.ip.fill)))) ∧
    exec (.ipRead addr .code3) s = .next { s with resp := { ok := false } }

/-- The stream of valid bytes of successive reads from a cursor inside the program is the program from there on, then
fill bytes for ever, whatever mix of widths is used, and the cursor is where so many bytes lead, at most the length
(43_inline_program.md R219 a, b, e). An inference the spec marks as derived from its rules. -/
def Obligations.ProgramReadsAreTheProgram : Prop :=
  ∀ (ws : List (Addr × BusWidth)) (s : State), s.ip.cursor ≤ s.ip.buf.length → ∃ (t : State) (rs : List Response),
    runOperations (ws.map fun x => .ipRead x.1 (.width x.2)) s = some (t, rs) ∧
      t.ip = { s.ip with cursor := min (s.ip.cursor + (ws.map fun x => widthBytes x.2).sum) s.ip.buf.length } ∧
      t.mb = s.mb ∧ t.q = s.q ∧ t.srv = s.srv ∧
      ∃ v : List Byte, v = ((ws.zip rs).flatMap fun x => answeredBytes x.1.2 x.2) ∧
        v.length = (ws.map fun x => widthBytes x.2).sum ∧
        ∀ (k : Nat) (b : Byte), v[k]? = some b →
          (∀ c, s.ip.buf[s.ip.cursor + k]? = some c → b = c) ∧
          (s.ip.buf.length ≤ s.ip.cursor + k → b = lowLane s.ip.fill ∨ b = highLane s.ip.fill)

/-- IP_READ_AT (43_inline_program.md R215): the offset is an integer, an index outside the program gives the fill byte
of its lane, and a read with no byte inside gives the fill word; nothing of the block changes (`freeCount` is the
model's, notes/assumptions/4.md). On its valid lanes it answers what IP_READ answers with the cursor at the offset
(R219 c). The base is used as the 32-bit number on its port (notes/assumptions/8.md). Rests on the spec's own decision
D17 (92_eei_decisions.md). -/
def Obligations.ProgramReadAt : Prop :=
  ∀ (base addr : Addr) (s : State),
    (∀ w : BusWidth, ∃ (d : Word) (np : Nat) (off : Int) (i0 i1 : Bool),
      exec (.ipReadAt base addr (.width w)) s =
        .next { s with freeCount := s.freeCount + 1, resp := { data := some d, nprog := some np } } ∧
      off = (addr.toNat % addrSpace s.cfg : Nat) - (base.toNat : Int) ∧
      i0 = decide (0 ≤ off ∧ off < s.ip.buf.length) ∧ i1 = decide (0 ≤ off + 1 ∧ off + 1 < s.ip.buf.length) ∧
      np = (if w = .sixteen then i0.toNat + i1.toNat else i0.toNat) ∧
      (np = 0 → d = s.ip.fill) ∧
      (w = .eightLow → i0 = true → some (lowLane d) = s.ip.buf[off.toNat]?) ∧
      (w = .eightHigh → i0 = true → some (highLane d) = s.ip.buf[off.toNat]?) ∧
      (w = .sixteen →
        (i0 = true → some (lowLane d) = s.ip.buf[off.toNat]?) ∧ (i0 = false → lowLane d = lowLane s.ip.fill) ∧
        (i1 = true → some (highLane d) = s.ip.buf[(off + 1).toNat]?) ∧
        (i1 = false → highLane d = highLane s.ip.fill)) ∧
      (off = s.ip.cursor → ∀ t e, exec (.ipRead addr (.width w)) s = .next t → t.resp.data = some e →
        validLanes w d = validLanes w e)) ∧
    exec (.ipReadAt base addr .code3) s = .next { s with resp := { ok := false } }

/-- IP_PATCH_WORD and IP_PATCH_VECTOR (43_inline_program.md R216, R217): all or nothing, low byte first, the cursor
stays. Rests on the spec's own decision D18 (92_eei_decisions.md). -/
def Obligations.ProgramPatches : Prop :=
  ∀ (v : Word) (s : State),
    (∀ addr : Addr, (addr.toNat + 2 ≤ s.ip.buf.length → ∃ t : State,
        exec (.ipPatchWord addr v) s = .next t ∧ t = { s with ip := { s.ip with buf := t.ip.buf }, resp := {} } ∧
        sameMemory s t ∧ t.ip.buf.length = s.ip.buf.length ∧
        t.ip.buf[addr.toNat]? = some (lowLane v) ∧ t.ip.buf[addr.toNat + 1]? = some (highLane v) ∧
        ∀ k, k ≠ addr.toNat → k ≠ addr.toNat + 1 → t.ip.buf[k]? = s.ip.buf[k]?) ∧
      (s.ip.buf.length < addr.toNat + 2 → exec (.ipPatchWord addr v) s = .next { s with resp := { ok := false } })) ∧
    (s.ip.vectorOffset + 2 ≤ s.ip.buf.length → ∃ t : State,
      exec (.ipPatchVector v) s = .next t ∧ t = { s with ip := { s.ip with buf := t.ip.buf }, resp := {} } ∧
      sameMemory s t ∧ t.ip.buf.length = s.ip.buf.length ∧
      t.ip.buf[s.ip.vectorOffset]? = some (lowLane v) ∧ t.ip.buf[s.ip.vectorOffset + 1]? = some (highLane v) ∧
      ∀ k, k ≠ s.ip.vectorOffset → k ≠ s.ip.vectorOffset + 1 → t.ip.buf[k]? = s.ip.buf[k]?) ∧
    (s.ip.buf.length < s.ip.vectorOffset + 2 → exec (.ipPatchVector v) s = .next { s with resp := { ok := false } })

/-! ### MemoryBackend -/

/-- MB_READ8 and MB_READ16 (44_memory_backend.md R250, R252): the byte, or the two bytes little-endian, the second at
the next address modulo the address space; a byte out of the flat array's bounds is a MemoryRangeError (R246). Nothing
else changes: a read does not allocate. Rests on the spec's own decisions D19, D21 (92_eei_decisions.md). -/
def Obligations.CommandReads : Prop :=
  ∀ (addr : Addr) (s : State), ∃ (a a1 : Nat), a = addr.toNat % addrSpace s.cfg ∧ a1 = (a + 1) % addrSpace s.cfg ∧
    (inBounds s.cfg s.mb a = true → exec (.mbRead8 addr) s =
      .next { s with resp := { data := some (joinLanes 0 (memGet s.cfg s.mb a)) } }) ∧
    (inBounds s.cfg s.mb a = false → exec (.mbRead8 addr) s = .next { s with
      flags := { s.flags with lastError := some .memoryRange }
      resp := { ok := false, err := some .memoryRange } }) ∧
    (inBounds s.cfg s.mb a = true → inBounds s.cfg s.mb a1 = true → exec (.mbRead16 addr) s =
      .next { s with resp := { data := some (joinLanes (memGet s.cfg s.mb a1) (memGet s.cfg s.mb a)) } }) ∧
    (inBounds s.cfg s.mb a = false ∨ inBounds s.cfg s.mb a1 = false → exec (.mbRead16 addr) s = .next { s with
      flags := { s.flags with lastError := some .memoryRange }
      resp := { ok := false, err := some .memoryRange } }) ∧
    (inBounds s.cfg s.mb a = false ↔ s.mb.variant = .flat ∧
      ¬(s.cfg.mbFlatBase ≤ a ∧ a < s.cfg.mbFlatBase + s.cfg.mbFlatSize))

/-- MB_WRITE8 (44_memory_backend.md R251, R244 to R247, R263): the byte is read back and every other byte stays; the
Null variant and a full hash table drop the write, the latter with `mb_full`; out of bounds is a MemoryRangeError with
nothing written. Rests on the spec's own decision D19 (92_eei_decisions.md). -/
def Obligations.CommandWriteByte : Prop :=
  ∀ (addr : Addr) (data : Word) (s : State), ∃ (t : State) (a : Nat), a = addr.toNat % addrSpace s.cfg ∧
    exec (.mbWrite8 addr data) s = .next t ∧ t = { s with mb := t.mb, flags := t.flags, resp := t.resp } ∧
    sameMemoryExcept [a] s t ∧
    t.mb.variant = s.mb.variant ∧ t.mb.strategy = s.mb.strategy ∧ t.mb.seed = s.mb.seed ∧
    (inBounds s.cfg s.mb a = false → t.mb = s.mb ∧
      t.flags = { s.flags with lastError := some .memoryRange } ∧
      t.resp = { ok := false, err := some .memoryRange }) ∧
    (inBounds s.cfg s.mb a = true → t.resp = {} ∧
      (s.mb.variant = .null → t.mb = s.mb ∧ t.flags = s.flags) ∧
      (hashFull s.cfg s.mb a = true → t.mb = s.mb ∧ t.flags = { s.flags with mbFull := true }) ∧
      (s.mb.variant ≠ .null → hashFull s.cfg s.mb a = false →
        memGet t.cfg t.mb a = lowLane data ∧ t.flags = s.flags)) ∧
    (hashFull s.cfg s.mb a = true ↔
      s.mb.variant = .hash ∧ cellLookup (a / 2) s.mb.hash = none ∧ s.cfg.mbHashCap ≤ s.mb.hash.length)

/-- MB_WRITE16 (44_memory_backend.md R253): the low byte at the address, then the high byte at the next address modulo
the address space; when only the second is out of bounds the first has been written (R246). Each byte is dropped or
stored on its own where the hash table is full (R247): a byte whose word is in the table is stored, whatever became of
the other. Rests on the spec's own decisions D19, D21 (92_eei_decisions.md). -/
def Obligations.CommandWriteWord : Prop :=
  ∀ (addr : Addr) (data : Word) (s : State), ∃ (t : State) (a a1 : Nat),
    a = addr.toNat % addrSpace s.cfg ∧ a1 = (a + 1) % addrSpace s.cfg ∧
    exec (.mbWrite16 addr data) s = .next t ∧ t = { s with mb := t.mb, flags := t.flags, resp := t.resp } ∧
    sameMemoryExcept [a, a1] s t ∧
    (inBounds s.cfg s.mb a = false → t.mb = s.mb ∧
      t.flags = { s.flags with lastError := some .memoryRange } ∧
      t.resp = { ok := false, err := some .memoryRange }) ∧
    (inBounds s.cfg s.mb a = true → inBounds s.cfg s.mb a1 = false →
      memGet t.cfg t.mb a = lowLane data ∧ memGet t.cfg t.mb a1 = memGet s.cfg s.mb a1 ∧
      t.flags = { s.flags with lastError := some .memoryRange } ∧
      t.resp = { ok := false, err := some .memoryRange }) ∧
    (inBounds s.cfg s.mb a = true → inBounds s.cfg s.mb a1 = true → t.resp = {} ∧
      (t.flags = s.flags ∨ t.flags = { s.flags with mbFull := true }) ∧
      (s.mb.variant = .null → t.mb = s.mb ∧ t.flags = s.flags) ∧
      (s.mb.variant ≠ .null → hashFull s.cfg s.mb a = false →
        memGet t.cfg t.mb a = lowLane data ∧
        (hashFull s.cfg (memPut s.cfg s.mb a (lowLane data)) a1 = false →
          memGet t.cfg t.mb a1 = highLane data ∧ t.flags = s.flags) ∧
        (hashFull s.cfg (memPut s.cfg s.mb a (lowLane data)) a1 = true →
          memGet t.cfg t.mb a1 = memGet s.cfg s.mb a1 ∧ t.flags = { s.flags with mbFull := true })) ∧
      (hashFull s.cfg s.mb a = true → t.flags = { s.flags with mbFull := true } ∧
        memGet t.cfg t.mb a = memGet s.cfg s.mb a ∧
        (hashFull s.cfg s.mb a1 = false → memGet t.cfg t.mb a1 = highLane data) ∧
        (hashFull s.cfg s.mb a1 = true → memGet t.cfg t.mb a1 = memGet s.cfg s.mb a1)))

/-- MB_SET (44_memory_backend.md R260, R246): the bytes are written in ascending order from the address; the first
byte out of bounds ends the operation with a MemoryRangeError and the bytes before it stay written. A run in bounds is
MB_WRITE8 at each address in turn, addresses wrapping at the end of the address space; its bytes are read back where
no write was dropped for a full table, in a variant that stores, for a run no longer than the address space. -/
def Obligations.BulkSet : Prop :=
  ∀ (addr : Addr) (bytes : List Byte) (s : State), ∃ (t : State) (a : Nat), a = addr.toNat % addrSpace s.cfg ∧
    exec (.mbSet addr bytes) s = .next t ∧ t = { s with mb := t.mb, flags := t.flags, resp := t.resp } ∧
    sameMemoryExcept (runAddresses s.cfg a bytes.length) s t ∧
    ((∀ x ∈ runAddresses s.cfg a bytes.length, inBounds s.cfg s.mb x = true) → t.resp = {} ∧
      t.flags.lastError = s.flags.lastError ∧
      (∃ (u : State) (rs : List Response), runOperations (((runAddresses s.cfg a bytes.length).zip bytes).map
        fun x => .mbWrite8 (BitVec.ofNat 32 x.1) (joinLanes 0 x.2)) s = some (u, rs) ∧
        t.mb = u.mb ∧ t.flags = u.flags) ∧
      (s.mb.variant ≠ .null → t.flags.mbFull = false → bytes.length ≤ addrSpace s.cfg →
        (runAddresses s.cfg a bytes.length).map (memGet t.cfg t.mb) = bytes)) ∧
    (∀ (pre post : List Byte) (b : Byte), bytes = pre ++ b :: post →
      (∀ x ∈ runAddresses s.cfg a pre.length, inBounds s.cfg s.mb x = true) →
      (∃ x, (runAddresses s.cfg a bytes.length)[pre.length]? = some x ∧ inBounds s.cfg s.mb x = false) →
        t.resp = { ok := false, err := some .memoryRange } ∧
        t.flags = { s.flags with lastError := some .memoryRange } ∧
        sameMemoryExcept (runAddresses s.cfg a pre.length) s t ∧
        (pre.length ≤ addrSpace s.cfg → (runAddresses s.cfg a pre.length).map (memGet t.cfg t.mb) = pre))

/-- MB_BUS_READ (44_memory_backend.md R254, R255, R257): the bytes at the address on the lanes the width names, all
ones in the refresh combination, never an error; a byte out of bounds sets `mb_range` and reads its default (R246). A
lane that is not valid is any byte (93_implementation_defined.md U3). Rests on the spec's own decisions D10, D19, D23
(92_eei_decisions.md). -/
def Obligations.BusRead : Prop :=
  ∀ (addr : Addr) (bhe bus16 : Bool) (s : State), ∃ (d : Word) (a : Nat) (w : BusWidth) (v : Bool),
    a = addr.toNat % addrSpace s.cfg ∧ (w, v) = transferWidth addr bhe bus16 ∧
    exec (.mbBusRead addr bhe bus16) s = .next { s with
      flags := if (busAddresses s.cfg addr bhe bus16).any (fun x => !inBounds s.cfg s.mb x) then
        { s.flags with mbRange := true } else s.flags
      freeCount := s.freeCount + 1
      resp := { data := some d, width := some w, valid := some v } } ∧
    (v = false → d = 0xFFFF ∧ busAddresses s.cfg addr bhe bus16 = []) ∧
    (v = true → w = .sixteen → a % 2 = 0 ∧ a + 1 < addrSpace s.cfg ∧
      d = joinLanes (memGet s.cfg s.mb (a + 1)) (memGet s.cfg s.mb a) ∧
      busAddresses s.cfg addr bhe bus16 = [a, a + 1]) ∧
    (v = true → w = .eightHigh → highLane d = memGet s.cfg s.mb a ∧ busAddresses s.cfg addr bhe bus16 = [a]) ∧
    (v = true → w = .eightLow → lowLane d = memGet s.cfg s.mb a ∧ busAddresses s.cfg addr bhe bus16 = [a])

/-- MB_BUS_WRITE (44_memory_backend.md R254, R256, R257): the bytes of the valid lanes are stored at the address,
every other byte stays, the refresh combination stores nothing, and there is never an error. A byte that is in bounds
is read back (R263) but for the Null variant and for a word that a full hash table has no room for, which sets
`mb_full`. Rests on the spec's own decisions D10, D19 (92_eei_decisions.md). -/
def Obligations.BusWrite : Prop :=
  ∀ (addr : Addr) (bhe bus16 : Bool) (data : Word) (s : State), ∃ (t : State) (a : Nat) (w : BusWidth) (v : Bool),
    a = addr.toNat % addrSpace s.cfg ∧ (w, v) = transferWidth addr bhe bus16 ∧
    exec (.mbBusWrite addr bhe bus16 data) s = .next t ∧ t = { s with mb := t.mb, flags := t.flags, resp := {} } ∧
    t.flags = { s.flags with mbRange := t.flags.mbRange, mbFull := t.flags.mbFull } ∧
    sameMemoryExcept (busAddresses s.cfg addr bhe bus16) s t ∧
    t.flags.mbRange =
      (s.flags.mbRange || (busAddresses s.cfg addr bhe bus16).any (fun x => !inBounds s.cfg s.mb x)) ∧
    (v = false → t.mb = s.mb ∧ t.flags = s.flags) ∧
    t.flags.mbFull = (s.flags.mbFull || (v && hashFull s.cfg s.mb a)) ∧
    (hashFull s.cfg s.mb a = true ↔
      s.mb.variant = .hash ∧ cellLookup (a / 2) s.mb.hash = none ∧ s.cfg.mbHashCap ≤ s.mb.hash.length) ∧
    (s.mb.variant = .null ∨ hashFull s.cfg s.mb a = true → t.mb = s.mb) ∧
    (s.mb.variant ≠ .null → hashFull s.cfg s.mb a = false →
      (v = true → w = .sixteen →
        (inBounds s.cfg s.mb a = true → memGet t.cfg t.mb a = lowLane data) ∧
        (inBounds s.cfg s.mb (a + 1) = true → memGet t.cfg t.mb (a + 1) = highLane data)) ∧
      (v = true → w = .eightHigh → inBounds s.cfg s.mb a = true → memGet t.cfg t.mb a = highLane data) ∧
      (v = true → w = .eightLow → inBounds s.cfg s.mb a = true → memGet t.cfg t.mb a = lowLane data))

/-- MB_IO_READ and MB_IO_WRITE (44_memory_backend.md R258, R259): reads give all ones, zero for the Null variant;
writes are discarded; width code 3 refuses. Rests on the spec's own decision D22 (92_eei_decisions.md). -/
def Obligations.IoPorts : Prop :=
  ∀ (addr : Addr) (data : Word) (s : State),
    (∀ w : BusWidth,
      (s.mb.variant = .null →
        exec (.mbIoRead addr (.width w)) s = .next { s with resp := { data := some 0x0000 } }) ∧
      (s.mb.variant ≠ .null →
        exec (.mbIoRead addr (.width w)) s = .next { s with resp := { data := some 0xFFFF } }) ∧
      exec (.mbIoWrite addr (.width w) data) s = .next { s with resp := {} }) ∧
    exec (.mbIoRead addr .code3) s = .next { s with resp := { ok := false } } ∧
    exec (.mbIoWrite addr .code3 data) s = .next { s with resp := { ok := false } }

/-- MB_ERASE, MB_SET_DEFAULT and MB_SELECT (44_memory_backend.md R261, R262, R248, R244 to R247): after an erase every
address reads the default of the strategy and seed in force (zero for Null); the strategy and seed leave stored contents
alone; the variant selected is erased. The default (R242) is zero, all ones, or a byte of AVALANCHE of the seed and the
word index, the low byte for an even address. Rests on the spec's own decisions D19, D20 (92_eei_decisions.md). -/
def Obligations.EraseDefaultAndSelect : Prop :=
  ∀ s : State,
    (∃ t : State, exec .mbErase s = .next t ∧ t = { s with mb := t.mb, resp := {} } ∧
      t.mb.variant = s.mb.variant ∧ t.mb.strategy = s.mb.strategy ∧ t.mb.seed = s.mb.seed ∧
      (s.mb.variant = .null → t.mb = s.mb) ∧ (s.mb.variant = .flat → t.mb = { s.mb with flat := [] }) ∧
      (s.mb.variant = .hash → t.mb = { s.mb with hash := [] }) ∧
      ∀ a, memGet t.cfg t.mb a = if s.mb.variant = .null then 0 else defaultByte s.cfg s.mb a) ∧
    (∀ (sel : BitVec 8) (seed : BitVec 32) (g : Strategy),
      sel = 0 ∧ g = .zero ∨ sel = 1 ∧ g = .ones ∨ sel = 2 ∧ g = .random →
        exec (.mbSetDefault sel seed) s = .next { s with mb := { s.mb with strategy := g, seed := seed }, resp := {} }) ∧
    (∀ (sel : BitVec 8) (seed : BitVec 32), 3 ≤ sel.toNat →
      exec (.mbSetDefault sel seed) s = .next { s with resp := { ok := false } }) ∧
    (∀ (sel : BitVec 8) (v : MbVariant), sel = 0 ∧ v = .null ∨ sel = 1 ∧ v = .flat ∨ sel = 2 ∧ v = .hash →
      ∃ t : State, exec (.mbSelect sel) s = .next t ∧ t = { s with mb := t.mb, resp := {} } ∧
        (v = .null → t.mb = { s.mb with variant := v }) ∧
        (v = .flat → t.mb = { s.mb with variant := v, flat := [] }) ∧
        (v = .hash → t.mb = { s.mb with variant := v, hash := [] }) ∧
        ∀ a, memGet t.cfg t.mb a = if v = .null then 0 else defaultByte s.cfg s.mb a) ∧
    (∀ sel : BitVec 8, 3 ≤ sel.toNat → exec (.mbSelect sel) s = .next { s with resp := { ok := false } }) ∧
    ∀ a : Nat,
      (s.mb.strategy = .zero → defaultByte s.cfg s.mb a = 0x00) ∧
      (s.mb.strategy = .ones → defaultByte s.cfg s.mb a = 0xFF) ∧
      (s.mb.strategy = .random → defaultByte s.cfg s.mb a =
        if a % 2 = 0 then lowLane (avalanche s.cfg s.mb.seed (BitVec.ofNat 32 (a / 2)))
        else highLane (avalanche s.cfg s.mb.seed (BitVec.ofNat 32 (a / 2)))) ∧
      (s.mb.variant = .hash → cellLookup (a / 2) s.mb.hash = none → memGet s.cfg s.mb a = defaultByte s.cfg s.mb a) ∧
      (s.mb.variant = .flat → (inBounds s.cfg s.mb a = true → cellLookup (a - s.cfg.mbFlatBase) s.mb.flat = none) →
        memGet s.cfg s.mb a = defaultByte s.cfg s.mb a) ∧
      (s.mb.variant = .null → memGet s.cfg s.mb a = 0)

/-! ### BusOperationLog and BusEmulator -/

/-- LOG_APPEND (45_bus_log.md R291): the ring keeps the last 256 entries, `overflow` is set when the oldest is lost,
the run of writes and the hint follow the kind; Passive refuses. The address is kept modulo the address space
(notes/assumptions/7.md). Rests on the spec's own decision D24
(92_eei_decisions.md). -/
def Obligations.LogAppend : Prop :=
  ∀ (k : BusStatus) (w : WidthCode) (addr : Addr) (d : Word) (s : State),
    (k = .passive → exec (.logAppend k w addr d) s = .next { s with resp := { ok := false } }) ∧
    (k ≠ .passive → LogOk s.log → ∃ t : State,
      exec (.logAppend k w addr d) s = .next t ∧ t = { s with log := t.log, resp := {} } ∧ sameMemory s t ∧
      logList t.log = (if s.log.count = 256 then (logList s.log).tail else logList s.log) ++
        [⟨k, w, BitVec.ofNat 32 (addr.toNat % addrSpace s.cfg), d⟩] ∧
      t.log.count = min (s.log.count + 1) 256 ∧
      t.log.wr.toNat = (s.log.wr.toNat + 1) % 256 ∧
      t.log.overflow = (s.log.overflow || decide (s.log.count = 256)) ∧
      t.log.writeRun = (if k = .memWrite ∨ k = .ioWrite then s.log.writeRun + 1 else 0) ∧
      t.log.farCallHint = decide (3 ≤ t.log.writeRun))

/-- LOG_READ, LOG_STATUS and LOG_CLEAR (45_bus_log.md R293, R294, R292): reads do not consume, index 0 is the oldest
entry, an index at or beyond the count refuses; clearing empties the log and its flags. Rests on the spec's own
decision D24 (92_eei_decisions.md). -/
def Obligations.LogReadStatusClear : Prop :=
  ∀ (addr : Addr) (s : State),
    (logList s.log).length = s.log.count ∧
    (∀ i : Nat, i < s.log.count → (logList s.log)[i]? =
      s.log.entry[(256 - s.log.count % 256 + s.log.wr.toNat + i) % 256]?) ∧
    (∀ e : BusOperation, (logList s.log)[addr.toNat]? = some e →
      exec (.logRead addr) s = .next { s with resp := { entry := some e } }) ∧
    (s.log.count ≤ addr.toNat → exec (.logRead addr) s = .next { s with resp := { ok := false } }) ∧
    exec .logStatus s = .next { s with
      resp := { count := some s.log.count, overflow := some s.log.overflow, hint := some s.log.farCallHint } } ∧
    ∃ t : State, exec .logClear s = .next t ∧ t = { s with log := t.log, resp := {} } ∧ sameMemory s t ∧
      logList t.log = [] ∧ t.log = { BusLog.powerOn with entry := t.log.entry }

/-- After a clear, any run of appends leaves the last 256 of them in the log, oldest first; `overflow` says that there
were more, and the hint that the last three or more were writes (45_bus_log.md R290 to R296, 70_reset_and_hazards.md
R449). Addresses are kept modulo the address space (notes/assumptions/7.md). Rests on the spec's own decision D24
(92_eei_decisions.md). -/
def Obligations.LogKeepsTheLast256 : Prop :=
  ∀ (l : List BusOperation) (s : State), (∀ o ∈ l, o.kind ≠ .passive) →
    ∃ (t : State) (rs : List Response),
      runOperations (.logClear :: l.map fun o => .logAppend o.kind o.width o.address o.data) s = some (t, rs) ∧
      t = { s with log := t.log, resp := {} } ∧
      logList t.log =
        (l.drop (l.length - 256)).map (fun o => { o with address := BitVec.ofNat 32 (o.address.toNat % addrSpace s.cfg) }) ∧
      t.log.overflow = decide (256 < l.length) ∧
      (t.log.farCallHint = true ↔
        3 ≤ l.length ∧ ∀ o ∈ l.drop (l.length - 3), o.kind = .memWrite ∨ o.kind = .ioWrite)

/-- BE_READ and BE_WRITE are the backend operation of the kind followed by one log append (45_bus_log.md R300, R301,
R298); the other kinds refuse. Rests on the spec's own decision D22 (92_eei_decisions.md). -/
def Obligations.BusEmulatorAccesses : Prop :=
  ∀ (k : BusStatus) (addr : Addr) (bhe bus16 : Bool) (data : Word) (s : State),
    ∃ (w : BusWidth) (v : Bool) (code : WidthCode), (w, v) = transferWidth addr bhe bus16 ∧
    (v = true → code = .width w) ∧ (v = false → code = .code3) ∧
    (k = .code ∨ k = .memRead → ∃ (t u x : State) (d : Word),
      exec (.beRead k addr bhe bus16) s = .next t ∧ exec (.mbBusRead addr bhe bus16) s = .next u ∧
      u.resp.data = some d ∧ exec (.logAppend k code addr d) u = .next x ∧
      t = { x with resp := { data := some d, width := some w, valid := some v } }) ∧
    (k = .ioRead ∨ k = .irqAck → ∃ (t u x : State) (d : Word),
      exec (.beRead k addr bhe bus16) s = .next t ∧ exec (.mbIoRead addr (.width w)) s = .next u ∧
      u.resp.data = some d ∧ exec (.logAppend k code addr d) u = .next x ∧
      t = { x with resp := { data := some d, width := some w, valid := some v } }) ∧
    (k = .ioWrite ∨ k = .halt ∨ k = .memWrite ∨ k = .passive →
      exec (.beRead k addr bhe bus16) s = .next { s with resp := { ok := false } }) ∧
    (k = .memWrite → ∃ t u : State,
      exec (.beWrite k addr bhe bus16 data) s = .next t ∧ exec (.mbBusWrite addr bhe bus16 data) s = .next u ∧
      exec (.logAppend k code addr data) u = .next t) ∧
    (k = .ioWrite → ∃ t : State,
      exec (.beWrite k addr bhe bus16 data) s = .next t ∧ exec (.logAppend k code addr data) s = .next t) ∧
    (k = .irqAck ∨ k = .ioRead ∨ k = .halt ∨ k = .code ∨ k = .memRead ∨ k = .passive →
      exec (.beWrite k addr bhe bus16 data) s = .next { s with resp := { ok := false } })

/-! ### The engine tick -/

/-- The tick outside Error and Shutdown (46_phase_sequencer.md R310, R311, R312): the pins are one sample, the tick is
counted, the controller emulator advances first, the bus-cycle machine second on the lines the emulator has just set (or
on the pins' lines), and the response names the phase and the T-cycle. A tick that does not feed a read leaves the
bus-cycle machine as CYCLE_TICK does, and `program_ended`, which entering Execute clears (R314, R332). The backend's
settings, the program set and the configuration stay; a tick whose budget does not run out answers ok = 1. Of the
sequencer, the load format and the SMI count stay; the vendor and the count of probe cycles change in CpuId alone
(R336); the reset result when a running Reset sees T1 entered or Error is entered (R341, R338); the NMI count and NMI at
the fetch of the NMI vector (R335), NMI also at an error; and the capture count when a write ends while capture is armed
(notes/assumptions/9.md), which entering ExecuteDone ends. The vector address is taken modulo the address space (7.md).
Rests on the spec's own decisions D13, D25, D27, D28, D29, D30, D34 (92_eei_decisions.md). -/
def Obligations.EngineTickAdvances : Prop :=
  ∀ (p : Pins) (d : Word) (g : Tag) (s : State), s.srv.state ≠ .error → s.srv.state ≠ .shutdown →
    ∃ (t : State) (st : BusStatus) (b : BusController) (l : CmdLines) (x : State),
      exec (.engineTick p d g) s = .next t ∧
      st = (decodeStatus s.cfg p.rawStatus p.statusValid).1 ∧
      (s.cfg.bcEmulated = true → s.cfg.bcVariant = .bc8288 → ∃ u, exec (.bcTick st) s = .next u ∧ b = u.bc) ∧
      (s.cfg.bcEmulated = true → s.cfg.bcVariant = .bc82288 → ∃ u, exec (.bcTick2 st p.ready) s = .next u ∧ b = u.bc) ∧
      (s.cfg.bcEmulated = true → l = ⟨b.lines.ale, b.lines.mrdc, b.lines.mwtc, b.lines.iorc, b.lines.iowc⟩) ∧
      (s.cfg.bcEmulated = false → b = s.bc ∧ l = ⟨p.aleIn, p.mrdcIn, p.mwtcIn, p.iorcIn, p.iowcIn⟩) ∧
      exec (.cycleTick p l) s = .next x ∧
      t.bc = b ∧
      t.bcs = { x.bcs with dataLatch := t.bcs.dataLatch, fedNprog := t.bcs.fedNprog, fed := t.bcs.fed } ∧
      t.flags.statusReserved = x.flags.statusReserved ∧
      t.srv.tickCount = s.srv.tickCount + 1 ∧
      t.cfg = s.cfg ∧ t.ipset = s.ipset ∧ t.host = s.host ∧
      t.mb.variant = s.mb.variant ∧ t.mb.strategy = s.mb.strategy ∧ t.mb.seed = s.mb.seed ∧
      t.resp = { ok := t.resp.err.isNone, err := t.resp.err, state := some t.srv.state, cyc := some t.bcs.tcycle,
                 event := t.resp.event } ∧
      (s.srv.budget ≠ 1 → t.resp.ok = true ∧ t.flags.lastError = s.flags.lastError) ∧
      (¬((s.cfg.cycleVariant = .fourState ∧ s.bcs.tcycle = .t2 ∨ s.cfg.cycleVariant = .twoState ∧ s.bcs.tcycle = .t1) ∧
          s.bcs.fed = false ∧ isRead s.bcs.latchedStatus = true) → t.bcs = x.bcs ∧
        t.srv.programEnded =
          (s.srv.programEnded && !(t.srv.state == .execute && !(s.srv.state == .execute)))) ∧
      t.srv.loadFormat = s.srv.loadFormat ∧ t.srv.smiFetchCount = s.srv.smiFetchCount ∧
      (s.srv.state ≠ .cpuId → t.srv.cpuVendor = s.srv.cpuVendor ∧ t.srv.idCycles = s.srv.idCycles) ∧
      t.srv.resetResult = { s.srv.resetResult with success := t.srv.resetResult.success } ∧
      (t.srv.resetResult.success = s.srv.resetResult.success ∨ t.srv.state = .error ∨
        s.srv.state = .reset ∧ 0 < s.srv.budget ∧ s.bcs.tcycle ≠ .t1 ∧ t.bcs.tcycle = .t1) ∧
      (t.srv.nmiFetchCount = s.srv.nmiFetchCount ∧ (t.resp.err = none → t.srv.nmiOut = s.srv.nmiOut) ∨
        t.srv.nmiFetchCount = s.srv.nmiFetchCount + 1 ∧ t.srv.nmiOut = false ∧ s.srv.state = .execute ∧
          s.srv.nmiOut = true ∧ s.bcs.tcycle ≠ .t1 ∧ t.bcs.tcycle = .t1 ∧ isRead t.bcs.latchedStatus = true ∧
          t.bcs.addressLatch.toNat = s.cfg.nmiVectorAddr.toNat % addrSpace s.cfg) ∧
      t.srv.stackCaptureCursor = s.srv.stackCaptureCursor +
        (if t.resp.event.isSome = true ∧ s.srv.stackArmed = true ∧ s.bcs.latchedStatus = .memWrite then 1 else 0) ∧
      t.srv.stackArmed = (s.srv.stackArmed && !(t.srv.state == .executeDone && !(s.srv.state == .executeDone)))

/-- Step 3, feed (46_phase_sequencer.md R310, R314, R313): at the tick a read cycle enters its data phase it is served
once by the phase's source, the word and the count of program bytes are latched, the transceiver drives them unless
the source is None; an inline program serves Code and MemRead by its cursor; a code fetch of Prefetch or Execute that
took a fill byte sets `program_ended`, which no other feed of a tick that does not enter Execute changes. A memory read
that the backend serves sets `mb_range` where MB_BUS_READ does (44_memory_backend.md R246, R255), and so does no other
feed. Rests on the spec's own decisions D19, D25 (92_eei_decisions.md). -/
def Obligations.ReadCyclesAreFed : Prop :=
  ∀ (p : Pins) (d : Word) (g : Tag) (s t : State) (k : BusStatus) (w : BusWidth) (v : Bool) (nv : Nat),
    exec (.engineTick p d g) s = .next t → s.srv.state ≠ .error → s.srv.state ≠ .shutdown →
    (s.cfg.cycleVariant = .fourState ∧ s.bcs.tcycle = .t2 ∨ s.cfg.cycleVariant = .twoState ∧ s.bcs.tcycle = .t1) →
    s.bcs.fed = false → k = s.bcs.latchedStatus → isRead k = true → w = s.bcs.busWidth → v = s.bcs.widthValid →
    nv = (if v then widthBytes w else 0) →
      t.bcs.fed = true ∧
      (arbiter s.cfg s.srv.state = .inline → k = .code ∨ k = .memRead → v = true →
        ∃ x, exec (.ipRead s.bcs.addressLatch (.width w)) s = .next x ∧
          some t.bcs.dataLatch = x.resp.data ∧ some t.bcs.fedNprog = x.resp.nprog) ∧
      (arbiter s.cfg s.srv.state = .inline → k = .ioRead ∨ k = .irqAck ∨ v = false →
        t.bcs.dataLatch = 0xFFFF ∧ t.bcs.fedNprog = 0) ∧
      (arbiter s.cfg s.srv.state = .backend → k = .code ∨ k = .memRead → t.bcs.fedNprog = nv ∧
        ∃ x, exec (.mbBusRead s.bcs.addressLatch (bheOf s.bcs) s.cfg.bus16) s = .next x ∧
          some t.bcs.dataLatch = x.resp.data ∧ t.flags.mbRange = x.flags.mbRange) ∧
      (¬(arbiter s.cfg s.srv.state = .backend ∧ (k = .code ∨ k = .memRead)) → t.flags.mbRange = s.flags.mbRange) ∧
      (arbiter s.cfg s.srv.state = .backend → k = .ioRead ∨ k = .irqAck → t.bcs.fedNprog = nv ∧
        ∃ x, exec (.mbIoRead s.bcs.addressLatch (.width w)) s = .next x ∧ some t.bcs.dataLatch = x.resp.data) ∧
      (arbiter s.cfg s.srv.state = .host → t.bcs.dataLatch = d ∧
        t.bcs.fedNprog = if g = .program then nv else 0) ∧
      (arbiter s.cfg s.srv.state = .nobody → t.bcs.dataLatch = p.dataIn ∧ t.bcs.fedNprog = nv ∧
        t.xcvr.dir = s.xcvr.dir) ∧
      (arbiter s.cfg s.srv.state ≠ .nobody → t.xcvr = ⟨.output, w, t.bcs.dataLatch⟩) ∧
      ((t.srv.state = .execute → s.srv.state = .execute) → (t.srv.programEnded = true ↔ s.srv.programEnded = true ∨
        k = .code ∧ t.bcs.fedNprog < nv ∧ (s.srv.state = .prefetch ∨ s.srv.state = .execute)))

/-- The arbiter (46_phase_sequencer.md R313), row by row. Rests on the spec's own decision D25 (92_eei_decisions.md).
-/
def Obligations.ArbiterTable : Prop :=
  ∀ c : Config,
    (∀ p ∈ [ServerState.cpuId, .cpuSetup, .jumpVector, .load, .loadSmm, .loadDone, .emuEnter, .emuExit,
        .executeFinalize, .store, .storeAll], arbiter c p = .inline) ∧
    (∀ p ∈ [ServerState.prefetch, .execute],
      (c.execSource = .inline → arbiter c p = .inline) ∧ (c.execSource = .backend → arbiter c p = .backend) ∧
      (c.execSource = .host → arbiter c p = .host)) ∧
    ∀ p ∈ [ServerState.reset, .executeDone, .storeDone, .storeDoneSmm, .done], arbiter c p = .nobody

/-- Only a write cycle that ends while the backend serves changes the backend, and then as MB_BUS_WRITE of the latched
address and the word on the data pins does (46_phase_sequencer.md R315, R347 e; 44_memory_backend.md R264), `mb_range`
and `mb_full` with it; no other tick changes `mb_full`, and `mb_range` only when the backend feeds a memory read
(44_memory_backend.md R246, R247). The program's bytes do not change in a tick that stays in its phase, and its cursor
moves only when an inline program feeds a Code or MemRead cycle (R347 f, 10_state.md R42 c). The transceiver returns to
Input in the tick after T4, or at the end of a TWO_STATE cycle, its width and data kept, and is otherwise changed by a
feed alone (R319). A write cycle that ends in Store at an address that is not expected sets `store_addr`, and nothing
else does (R337). Rests on the spec's own decisions D19, D25, D26, D31 (92_eei_decisions.md). -/
def Obligations.TicksTouchStoresOnlyToServe : Prop :=
  ∀ (p : Pins) (d : Word) (g : Tag) (s t : State), exec (.engineTick p d g) s = .next t →
    (t.resp.event.isSome = true → s.bcs.latchedStatus = .memWrite → arbiter s.cfg s.srv.state = .backend →
      ∃ x, exec (.mbBusWrite s.bcs.addressLatch (bheOf s.bcs) s.cfg.bus16 p.dataIn) s = .next x ∧ t.mb = x.mb ∧
        t.flags.mbRange = x.flags.mbRange ∧ t.flags.mbFull = x.flags.mbFull ∧
        sameMemoryExcept (busAddresses s.cfg s.bcs.addressLatch (bheOf s.bcs) s.cfg.bus16) s t) ∧
    (¬(t.resp.event.isSome = true ∧ s.bcs.latchedStatus = .memWrite ∧ arbiter s.cfg s.srv.state = .backend) →
      t.mb = s.mb ∧ sameMemory s t ∧ t.flags.mbFull = s.flags.mbFull ∧
      (¬(s.bcs.fed = false ∧ t.bcs.fed = true ∧ arbiter s.cfg s.srv.state = .backend ∧
          isMemoryRead s.bcs.latchedStatus = true) → t.flags.mbRange = s.flags.mbRange)) ∧
    (t.srv.state = s.srv.state →
      t.ip = { s.ip with cursor := t.ip.cursor } ∧
      (t.ip.cursor ≠ s.ip.cursor → arbiter s.cfg s.srv.state = .inline ∧ t.bcs.fed = true ∧ s.bcs.fed = false ∧
        (s.bcs.latchedStatus = .code ∨ s.bcs.latchedStatus = .memRead) ∧
        t.ip.cursor = min (s.ip.cursor + widthBytes s.bcs.busWidth) s.ip.buf.length)) ∧
    (s.srv.state ≠ .error → s.srv.state ≠ .shutdown →
      (s.cfg.cycleVariant = .fourState ∧ s.bcs.tcycle = .t4 ∨
        s.cfg.cycleVariant = .twoState ∧ t.resp.event.isSome = true → t.xcvr = { s.xcvr with dir := .input }) ∧
      (¬(s.cfg.cycleVariant = .fourState ∧ s.bcs.tcycle = .t4) →
        ¬(s.cfg.cycleVariant = .twoState ∧ t.resp.event.isSome = true) →
        ¬(s.bcs.fed = false ∧ t.bcs.fed = true ∧ arbiter s.cfg s.srv.state ≠ .nobody) → t.xcvr = s.xcvr)) ∧
    t.flags.storeAddr = (s.flags.storeAddr || (t.resp.event.isSome && isWrite s.bcs.latchedStatus &&
      s.srv.state == .store && !storeAddrOk s.cfg s.bcs.addressLatch s.bcs.latchedStatus))

/-- Step 5 (46_phase_sequencer.md R317): at the tick a bus cycle of an active kind ends, and at no other, one log
entry is appended and the same record emitted: the latched kind, width and address with the fed data of a read, the
data pins' word of a write, 0 for a Halt. Rests on the spec's own decision D25 (92_eei_decisions.md). -/
def Obligations.CompletedCyclesAreLogged : Prop :=
  ∀ (p : Pins) (d : Word) (g : Tag) (s t : State), exec (.engineTick p d g) s = .next t →
    s.srv.state ≠ .error → s.srv.state ≠ .shutdown →
    (∃ x, exec (.cycleTick p (tickLines s.cfg s.bc p)) s = .next x ∧
      (x.resp.ended = some true ↔ t.resp.event.isSome = true)) ∧
    (t.resp.event = none → t.log = s.log) ∧
    ∀ e, t.resp.event = some e →
      e.kind = s.bcs.latchedStatus ∧ e.address = s.bcs.addressLatch ∧
      e.width = (if s.bcs.widthValid then .width s.bcs.busWidth else .code3) ∧
      (isRead s.bcs.latchedStatus = true → e.data = s.bcs.dataLatch) ∧
      (isWrite s.bcs.latchedStatus = true → e.data = p.dataIn) ∧
      (s.bcs.latchedStatus = .halt → e.data = 0x0000) ∧
      (e.kind ≠ .passive → s.bcs.addressLatch.toNat < addrSpace s.cfg → ∃ x,
        exec (.logAppend e.kind e.width e.address e.data) s = .next x ∧ t.log = x.log)

/-- Step 4 (46_phase_sequencer.md R316, R318): the CPU's queue status is applied first, then the bytes of a Code cycle
that ends are pushed, each tagged Program when it came from inside the program and ProgramEnd when it was fill; a
fetch that finds no room is dropped whole and sets `queue_overflow`; `queue_underflow` is the queue status's
(42_instruction_queue.md R198). Rests on the spec's own decisions D15, D26
(92_eei_decisions.md). -/
def Obligations.QueueUpdateOfATick : Prop :=
  ∀ (p : Pins) (d : Word) (g : Tag) (s t : State), exec (.engineTick p d g) s = .next t →
    s.srv.state ≠ .error → s.srv.state ≠ .shutdown →
    ∃ q : State, (s.cfg.qsAvail = true → exec (.qStatus (.ofBits p.qs)) s = .next q) ∧
      (s.cfg.qsAvail = false → q = s) ∧ t.flags.queueUnderflow = q.flags.queueUnderflow ∧
      (t.resp.event = none ∨ s.bcs.latchedStatus ≠ .code ∨ s.bcs.fed = false ∨ s.bcs.widthValid = false →
        t.q = q.q ∧ t.flags.queueOverflow = s.flags.queueOverflow) ∧
      (t.resp.event.isSome = true → s.bcs.latchedStatus = .code → s.bcs.fed = true → s.bcs.widthValid = true →
        (capSize q.q.cap < q.q.len + widthBytes s.bcs.busWidth →
          t.q = q.q ∧ t.flags.queueOverflow = true) ∧
        (q.q.len + widthBytes s.bcs.busWidth ≤ capSize q.q.cap →
          t.flags.queueOverflow = s.flags.queueOverflow ∧ t.q.cap = q.q.cap ∧
          (s.bcs.busWidth = .eightLow → queueList t.q = queueList q.q ++
            [⟨lowLane s.bcs.dataLatch, if 1 ≤ s.bcs.fedNprog then .program else .programEnd⟩]) ∧
          (s.bcs.busWidth = .eightHigh → queueList t.q = queueList q.q ++
            [⟨highLane s.bcs.dataLatch, if 1 ≤ s.bcs.fedNprog then .program else .programEnd⟩]) ∧
          (s.bcs.busWidth = .sixteen → s.bcs.fedNprog ≤ 2 → queueList t.q = queueList q.q ++
            [⟨lowLane s.bcs.dataLatch, if 1 ≤ s.bcs.fedNprog then .program else .programEnd⟩,
             ⟨highLane s.bcs.dataLatch, if 2 ≤ s.bcs.fedNprog then .program else .programEnd⟩])))

/-- One bus cycle of a code fetch served by an inline program, from T1 to Idle (46_phase_sequencer.md R348, R312 and
41_bus_controller.md R165), for every program, cursor inside it, address, queue with room and log: eight-bit bus,
FOUR_STATE, S3, emulated BC8288, no queue status, at rest in JumpVector. The fetched byte is fed at the third tick,
queued as Program and logged at the fourth, and the fifth leaves both machines Idle and the bus released. The event's
address is the pins' address modulo the address space (notes/assumptions/7.md). Rests on the spec's own decisions D11,
D13, D25 (92_eei_decisions.md). -/
def Obligations.CodeFetchOfAnInlineProgram : Prop :=
  ∀ (s : State) (b : Byte) (p1 p2 p3 p4 p5 : Pins) (d : Word) (g : Tag),
    s.cfg.statusVariant = .s3 → s.cfg.cycleVariant = .fourState → s.cfg.bcEmulated = true →
    s.cfg.bcVariant = .bc8288 → s.cfg.cmdLinesAvail = true → s.cfg.bus16 = false → s.cfg.qsAvail = false →
    s.srv.state = .jumpVector → s.srv.budget = 0 → s.bcs.tcycle = .idle →
    s.bc = BusController.powerOn → s.ip.buf[s.ip.cursor]? = some b → s.q.len < capSize s.q.cap →
    p1.rawStatus = 0b100 → p2.rawStatus = 0b100 → p3.rawStatus = 0b111 → p4.rawStatus = 0b111 → p5.rawStatus = 0b111 →
      ∃ (t : State) (rs : List Response) (e : BusOperation) (x : State),
        runOperations ([p1, p2, p3, p4, p5].map fun p => .engineTick p d g) s = some (t, rs) ∧
        rs.map (fun r => (r.ok, r.cyc, r.event)) =
          [(true, some .t1, none), (true, some .t2, none), (true, some .t3, none), (true, some .t4, some e),
           (true, some .idle, none)] ∧
        e.kind = .code ∧ e.width = .width .eightLow ∧ e.address.toNat = p1.addr.toNat % addrSpace s.cfg ∧
        lowLane e.data = b ∧
        exec (.logAppend e.kind e.width e.address e.data) s = .next x ∧ t.log = x.log ∧
        queueList t.q = queueList s.q ++ [⟨b, .program⟩] ∧
        t.ip = { s.ip with cursor := s.ip.cursor + 1 } ∧
        t.bc.tcycle = .idle ∧ t.bc.lines = ⟨false, false, false, false, false, false, false⟩ ∧
        t.bcs.tcycle = .idle ∧ t.bcs.latchedStatus = .passive ∧ t.xcvr.dir = .input ∧
        t.srv = { s.srv with tickCount := s.srv.tickCount + 5 } ∧
        t.mb = s.mb ∧ t.ipset = s.ipset ∧ t.cfg = s.cfg ∧ t.flags = s.flags ∧ sameMemory s t

/-- End of execution (46_phase_sequencer.md R334, R335, R332): under the queue-tag strategy the tick that retires the
first byte of an instruction with the ProgramEnd tag moves Execute to ExecuteFinalize with its program "finalize"; a
Subsequent status does not, nor a First status that finds no byte in the queue (nothing is popped) or one with the
Program tag; under the NMI strategy, while NMI is asserted, the tick at which a read enters T1 at the vector address
counts it, releases NMI and leaves Execute for ExecuteFinalize with its program "nmi_handler"; any other tick stays in
Execute, with NMI asserted until the budget runs out. The vector address is taken modulo the address space
(notes/assumptions/7.md). Rests on the spec's own decision D29 (92_eei_decisions.md). -/
def Obligations.EndOfExecution : Prop :=
  ∀ (p : Pins) (d : Word) (g : Tag) (s t : State) (v : Nat), s.srv.state = .execute →
    exec (.engineTick p d g) s = .next t → v = s.cfg.nmiVectorAddr.toNat % addrSpace s.cfg →
    (s.cfg.endStrategy = .queueTag → s.cfg.qsAvail = true → p.qs = 1 → (∃ e l, queueList s.q = e :: l ∧
        e.tag = .programEnd) → t.srv.state = .executeFinalize ∧ t.srv.budget = s.srv.budget ∧
        selectsProgram s t .finalize) ∧
    (s.srv.nmiOut = false → (s.cfg.endStrategy = .nmiVector ∨ s.cfg.qsAvail = false ∨ p.qs ≠ 1 ∨ queueList s.q = [] ∨
      (∃ e l, queueList s.q = e :: l ∧ e.tag = .program)) → t.srv.state = .execute) ∧
    (s.cfg.endStrategy = .nmiVector → s.srv.nmiOut = true → s.bcs.tcycle ≠ .t1 → t.bcs.tcycle = .t1 →
      isRead t.bcs.latchedStatus = true → t.bcs.addressLatch.toNat = v →
        t.srv.nmiFetchCount = s.srv.nmiFetchCount + 1 ∧ t.srv.nmiOut = false ∧
        (t.srv.state = .executeFinalize ∧ selectsProgram s t .nmiHandler ∨
          t.srv.state = .emuExit ∧ s.cfg.pathOpts.emu = true ∨
          t.srv.state = .executeDone ∧ s.cfg.pathOpts.emu = false)) ∧
    (s.srv.nmiOut = true → s.cfg.endStrategy = .nmiVector →
      (s.bcs.tcycle = .t1 ∨ t.bcs.tcycle ≠ .t1 ∨ isRead t.bcs.latchedStatus = false ∨
        t.bcs.addressLatch.toNat ≠ v) → t.srv.state = .execute ∧ (s.srv.budget ≠ 1 → t.srv.nmiOut = true))

/-- CPU identification (46_phase_sequencer.md R336): on an eight-bit bus a probe that completes after more than five
bus cycles is the NEC variant, after five or fewer the Intel variant, the cycle that ends at the completing tick
counted; on a sixteen-bit bus the vendor stays as it is. Rests on the spec's own decision D34 (92_eei_decisions.md).
-/
def Obligations.CpuIdentification : Prop :=
  ∀ (p : Pins) (d : Word) (g : Tag) (s t : State) (n : Nat), s.srv.state = .cpuId →
    exec (.engineTick p d g) s = .next t → n = s.srv.idCycles + (if t.resp.event.isSome then 1 else 0) →
    t.srv.idCycles = n ∧
    (t.srv.state = .cpuId → t.srv.cpuVendor = s.srv.cpuVendor) ∧
    (t.srv.state ≠ .cpuId → t.srv.state ≠ .error →
      (s.cfg.bus16 = false → 5 < n → t.srv.cpuVendor = .nec) ∧
      (s.cfg.bus16 = false → n ≤ 5 → t.srv.cpuVendor = .intel) ∧
      (s.cfg.bus16 = true → t.srv.cpuVendor = s.srv.cpuVendor))

/-- Timeouts (46_phase_sequencer.md R320, R330, R338, R341; 60_exceptions.md R382, R389): a tick raises no error but
PhaseTimeout and ResetFailure, each only when the last tick of a budget is spent; the first leaves the phase at rest
with NMI released, the second enters Error with budget, NMI and `success` cleared. A last tick that reaches no rest
point raises its phase's error: ResetFailure from Reset, CpuId and CpuSetup, PhaseTimeout from every other phase,
whether it stays or takes an edge inside the segment; a tick that reaches a rest point raises none. In a running Reset
the tick that enters T1 sets `success` and moves on to the phase the path options name; a last tick without it is a
ResetFailure. A tick of a running segment that stays in its phase spends one tick of the budget. The model marks the
phase a PhaseTimeout left as stalled until a phase is entered (notes/assumptions/24.md). Rests on the spec's own
decisions D27, D28, D30 (92_eei_decisions.md). -/
def Obligations.Timeouts : Prop :=
  ∀ (p : Pins) (d : Word) (g : Tag) (s t : State), exec (.engineTick p d g) s = .next t →
    s.srv.state ≠ .error → s.srv.state ≠ .shutdown →
    (∀ k, t.resp.err = some k → (k = .phaseTimeout ∨ k = .resetFailure) ∧ s.srv.budget = 1 ∧ t.srv.budget = 0 ∧
      t.srv.nmiOut = false ∧ t.flags.lastError = some k ∧ t.resp.ok = false ∧ t.resp.state = some t.srv.state) ∧
    (t.resp.err = some .phaseTimeout → t.srv.state ≠ .reset ∧ t.srv.state ≠ .cpuId ∧ t.srv.state ≠ .cpuSetup ∧
      t.srv.state ≠ .error) ∧
    (t.resp.err = some .resetFailure → t.srv.state = .error ∧ t.srv.resetResult.success = false) ∧
    (s.srv.budget = 1 → s.srv.state = .reset ∨ s.srv.state = .cpuId ∨ s.srv.state = .cpuSetup →
      t.srv.state ≠ .jumpVector → t.resp.err = some .resetFailure) ∧
    (s.srv.budget = 1 → s.srv.state ≠ .reset → s.srv.state ≠ .cpuId → s.srv.state ≠ .cpuSetup →
      t.srv.state = s.srv.state ∨ t.srv.state ∈ [.load, .loadSmm, .loadDone, .emuEnter, .prefetch, .emuExit] ∨
        t.srv.state = .executeFinalize ∧ s.cfg.endStrategy = .nmiVector → t.resp.err = some .phaseTimeout) ∧
    (t.srv.state ≠ s.srv.state → t.srv.state ∈ [.jumpVector, .execute, .executeDone, .storeDone, .storeDoneSmm,
      .done, .shutdown] → t.resp.err = none) ∧
    (s.srv.state = .reset → s.srv.budget = 1 → ¬(s.bcs.tcycle ≠ .t1 ∧ t.bcs.tcycle = .t1) →
      t.resp.err = some .resetFailure) ∧
    (s.srv.state = .reset → s.bcs.tcycle ≠ .t1 → t.bcs.tcycle = .t1 →
      1 < s.srv.budget ∨ s.srv.budget = 1 ∧ s.cfg.pathOpts.cpuid = false ∧ s.cfg.pathOpts.cpusetup = false →
        t.srv.resetResult = { s.srv.resetResult with success := true } ∧
        t.srv.state = if s.cfg.pathOpts.cpuid then .cpuId else if s.cfg.pathOpts.cpusetup then .cpuSetup
          else .jumpVector) ∧
    (1 < s.srv.budget → t.srv.state = s.srv.state → t.srv.budget + 1 = s.srv.budget) ∧
    (s.srv.budget = 0 → t.srv.budget = 0) ∧
    t.srv.stalled = if t.resp.err = some .phaseTimeout then true
      else if t.srv.state = s.srv.state then s.srv.stalled else false

/-! ### The sequencer -/

/-- SRV_LOAD (46_phase_sequencer.md R342), at rest in JumpVector: the image of the format's program is replaced, the
budget set, JumpVector entered with its program selected, and the segment patched in where the program has a vector. A
jump image longer than IP_MAX_LEN is not selected: the active program is rewound and patched instead
(notes/assumptions/16.md). The mark of a stalled phase is taken away (24.md). That the response names the phase is the
model's reading (notes/assumptions/20.md), and so is how an absent entry is given no vector (17.md). Rests on the spec's
own decision D28 (92_eei_decisions.md). -/
def Obligations.LoadStartsTheLoadSegment : Prop :=
  ∀ (sel : BitVec 8) (bytes : List Byte) (seg : Word) (s : State) (f : LoadFormat) (n : ProgName),
    s.srv.state = .jumpVector → s.srv.budget = 0 → bytes.length ≤ s.cfg.ipMaxLen →
    (sel = 0 ∧ f = .v1 ∧ n = .loadV1 ∨ sel = 1 ∧ f = .v2 ∧ n = .loadV2 ∨ sel = 2 ∧ f = .v3a ∧ n = .loadV3a ∨
      sel = 3 ∧ f = .v3b ∧ n = .loadSmm) →
    ∃ t : State, exec (.srvLoad sel bytes seg) s = .next t ∧
      t = { s with ip := t.ip, ipset := t.ipset, srv := t.srv, resp := t.resp } ∧ sameMemory s t ∧
      t.resp = { state := some .jumpVector } ∧
      t.srv = { s.srv with budget := s.cfg.tLoad, loadFormat := f, stalled := false } ∧
      (∀ m, m ≠ n → imageOf m t.ipset = imageOf m s.ipset) ∧
      (∀ i, imageOf n s.ipset = some i → imageOf n t.ipset = some { i with buf := bytes }) ∧
      (imageOf n s.ipset = none →
        ∃ v, imageOf n t.ipset = some ⟨bytes, s.cfg.fillDefault, v⟩ ∧ bytes.length < v + 2) ∧
      (∀ i, imageOf .jump s.ipset = some i → i.buf.length ≤ s.cfg.ipMaxLen →
        t.ip = { name := .jump, buf := t.ip.buf, cursor := 0, fill := i.fill, vectorOffset := i.vectorOffset } ∧
        (i.vectorOffset + 2 ≤ i.buf.length →
          t.ip.buf = (i.buf.set i.vectorOffset (lowLane seg)).set (i.vectorOffset + 1) (highLane seg)) ∧
        (i.buf.length < i.vectorOffset + 2 → t.ip.buf = i.buf)) ∧
      (imageOf .jump s.ipset = none → t.ip = ⟨.jump, [], 0, s.cfg.fillDefault, 0⟩) ∧
      (∀ i, imageOf .jump s.ipset = some i → s.cfg.ipMaxLen < i.buf.length →
        t.ip = { s.ip with buf := t.ip.buf, cursor := 0 } ∧
        (s.ip.vectorOffset + 2 ≤ s.ip.buf.length → t.ip.buf =
          (s.ip.buf.set s.ip.vectorOffset (lowLane seg)).set (s.ip.vectorOffset + 1) (highLane seg)) ∧
        (s.ip.buf.length < s.ip.vectorOffset + 2 → t.ip.buf = s.ip.buf))

/-- SRV_LOAD's other edge and its errors (46_phase_sequencer.md R342, R346, R388): the SMM format from StoreDoneSmm
enters LoadSmm with the new image selected, every other image kept and the entry's fill word and vector too; a bad
format or an image that is too long is InvalidRegisterFormat before the phase is looked at; any other phase is
InvalidPhase; a failed command changes the last error alone. No phase is marked stalled after it is entered
(notes/assumptions/24.md). That the response names the phase is the model's reading
(20.md), and so is how an absent entry is given no vector (17.md). Rests on the spec's own decision D28
(92_eei_decisions.md). -/
def Obligations.LoadFromStoreDoneSmmAndErrors : Prop :=
  ∀ (sel : BitVec 8) (bytes : List Byte) (seg : Word) (s : State),
    (4 ≤ sel.toNat ∨ s.cfg.ipMaxLen < bytes.length → exec (.srvLoad sel bytes seg) s = .next { s with
      flags := { s.flags with lastError := some .invalidRegisterFormat }
      resp := { ok := false, err := some .invalidRegisterFormat } }) ∧
    (sel.toNat < 4 → bytes.length ≤ s.cfg.ipMaxLen → ¬(s.srv.state = .jumpVector ∧ s.srv.budget = 0) →
      ¬(s.srv.state = .storeDoneSmm ∧ sel = 3) → exec (.srvLoad sel bytes seg) s = .next { s with
        flags := { s.flags with lastError := some .invalidPhase }
        resp := { ok := false, err := some .invalidPhase } }) ∧
    (sel = 3 → bytes.length ≤ s.cfg.ipMaxLen → s.srv.state = .storeDoneSmm → ∃ t : State,
      exec (.srvLoad sel bytes seg) s = .next t ∧
        t = { s with ip := t.ip, ipset := t.ipset, srv := t.srv, resp := t.resp } ∧ sameMemory s t ∧
        t.resp = { state := some .loadSmm } ∧
        t.srv = { s.srv with state := .loadSmm, budget := s.cfg.tLoad, loadFormat := .v3b, stalled := false } ∧
        (∀ m, m ≠ .loadSmm → imageOf m t.ipset = imageOf m s.ipset) ∧
        (∀ i, imageOf .loadSmm s.ipset = some i → imageOf .loadSmm t.ipset = some { i with buf := bytes } ∧
          t.ip = ⟨.loadSmm, bytes, 0, i.fill, i.vectorOffset⟩) ∧
        (imageOf .loadSmm s.ipset = none → ∃ v, bytes.length < v + 2 ∧
          imageOf .loadSmm t.ipset = some ⟨bytes, s.cfg.fillDefault, v⟩ ∧
          t.ip = ⟨.loadSmm, bytes, 0, s.cfg.fillDefault, v⟩))

/-- SRV_FINALIZE, SRV_STORE and SRV_STOREALL where they are legal (46_phase_sequencer.md R343, R344, R345, R333, R335):
the finalize segment runs, with NMI asserted and stack capture armed from Execute (notes/assumptions/9.md); a retry
where a PhaseTimeout left the phase at rest also resets the program's cursor (70_reset_and_hazards.md R453); leaving
ExecuteDone clears the checkpoints and selects the phase's program. The model's: the mark of a stalled phase, by which a
retry is told, and that the reset comes with SRV_FINALIZE (24.md), the phase in the response (20.md). Rests on the
spec's own decision D28 (92_eei_decisions.md). -/
def Obligations.FinalizeStoreAndStoreAll : Prop :=
  ∀ s : State, s.srv.budget = 0 →
    (s.srv.state = .executeFinalize → exec .srvFinalize s = .next { s with
      ip := if s.srv.stalled then { s.ip with cursor := 0 } else s.ip
      srv := { s.srv with budget := s.cfg.tFinalize, stalled := false }
      resp := { state := some .executeFinalize } }) ∧
    (s.srv.state = .execute → s.cfg.endStrategy = .nmiVector → exec .srvFinalize s = .next { s with
      ip := if s.srv.stalled then { s.ip with cursor := 0 } else s.ip
      srv := { s.srv with budget := s.cfg.tFinalize, nmiOut := true, stackArmed := true, stalled := false }
      resp := { state := some .execute } }) ∧
    (s.srv.state = .executeDone → ∃ t : State, exec .srvStore s = .next t ∧
      t = { s with ip := t.ip, srv := t.srv, resp := { state := some .store } } ∧ sameMemory s t ∧
      t.srv = { s.srv with state := .store, budget := s.cfg.tStore, nmiFetchCount := 0, smiFetchCount := 0,
                           stackCaptureCursor := 0, stalled := false } ∧
      selectsProgram s t .store) ∧
    (s.srv.state = .executeDone → s.cfg.pathOpts.storeall = true → ∃ t : State, exec .srvStoreall s = .next t ∧
      t = { s with ip := t.ip, srv := t.srv, resp := { state := some .storeAll } } ∧ sameMemory s t ∧
      t.srv = { s.srv with state := .storeAll, budget := s.cfg.tStoreAll, nmiFetchCount := 0, smiFetchCount := 0,
                           stackCaptureCursor := 0, stalled := false } ∧
      selectsProgram s t .storeall)

/-- Phase gating (46_phase_sequencer.md R346, R339): a command that is not legal raises InvalidPhase, which sets the
last error and changes nothing else; Error and Shutdown refuse ticks too. (SRV_LOAD has a statement of its own.) Rests
on the spec's own decision D28 (92_eei_decisions.md). -/
def Obligations.IllegalCommandsRaiseInvalidPhase : Prop :=
  ∀ (s u : State), u = { s with
      flags := { s.flags with lastError := some .invalidPhase }, resp := { ok := false, err := some .invalidPhase } } →
    (s.srv.state = .error ∨ s.srv.state = .shutdown → ∀ p d g, exec (.engineTick p d g) s = .next u) ∧
    (¬(s.srv.state = .executeFinalize ∧ s.srv.budget = 0) →
      ¬(s.srv.state = .execute ∧ s.srv.budget = 0 ∧ s.cfg.endStrategy = .nmiVector) → exec .srvFinalize s = .next u) ∧
    (¬(s.srv.state = .executeDone ∧ s.srv.budget = 0) →
      exec .srvStore s = .next u ∧ exec .srvStoreall s = .next u) ∧
    (s.cfg.pathOpts.storeall = false → exec .srvStoreall s = .next u)

/-- No edge but those of the transition table (46_phase_sequencer.md R330, R320, R334, R335, R338): whatever operation
runs, the phase stays, or SRV_RESET enters Reset, or the change is one of the listed edges, on its condition of path
options and load format: a tick of a running segment spends one tick of the budget, an edge to a rest point ends the
budget, the failure of a reset phase is on the last tick. (A tick that sees the NMI vector may take the edge out of
ExecuteFinalize at once.) Rests on the spec's own decision D28 (92_eei_decisions.md). -/
def Obligations.NoOtherPhaseEdge : Prop :=
  ∀ (i : Instr) (s t : State) (o : PathOpts) (smm : Bool), exec i s = .next t → t.srv.state ≠ s.srv.state →
    o = s.cfg.pathOpts → smm = (s.srv.loadFormat == .v3b) →
    (∃ b sel, i = .srvReset b sel ∧ t.srv.state = .reset ∧ t.srv.budget = s.cfg.tReset) ∨
    ((∃ p d g, i = .engineTick p d g) ∧ (
      (true, s.srv.state, t.srv.state) ∈ [
        (o.cpuid, ServerState.reset, ServerState.cpuId), (!o.cpuid && o.cpusetup, .reset, .cpuSetup),
        (o.cpusetup, .cpuId, .cpuSetup), (!smm, .jumpVector, .load), (smm, .jumpVector, .loadSmm),
        (true, .load, .loadDone), (true, .loadSmm, .loadDone),
        (o.emu, .loadDone, .emuEnter), (!o.emu && o.prefetch, .loadDone, .prefetch), (o.prefetch, .emuEnter, .prefetch),
        (o.emu, .executeFinalize, .emuExit)] ∧ t.srv.budget + 1 = s.srv.budget ∨
      (true, s.srv.state, t.srv.state) ∈ [
        (!o.cpuid && !o.cpusetup, ServerState.reset, ServerState.jumpVector), (!o.cpusetup, .cpuId, .jumpVector),
        (true, .cpuSetup, .jumpVector), (!o.emu && !o.prefetch, .loadDone, .execute),
        (!o.prefetch, .emuEnter, .execute), (true, .prefetch, .execute),
        (!o.emu, .executeFinalize, .executeDone), (true, .emuExit, .executeDone),
        (!smm, .store, .storeDone), (smm, .store, .storeDoneSmm), (true, .storeAll, .shutdown)] ∧
        0 < s.srv.budget ∧ t.srv.budget = 0 ∨
      s.srv.state ∈ [.reset, .cpuId, .cpuSetup] ∧ t.srv.state = .error ∧ s.srv.budget = 1 ∧ t.srv.budget = 0 ∨
      s.srv.state = .storeDone ∧ t.srv.state = .done ∧ t.srv.budget = s.srv.budget ∨
      s.srv.state = .execute ∧ s.cfg.endStrategy = .queueTag ∧ t.srv.state = .executeFinalize ∧
        t.srv.budget = s.srv.budget ∨
      s.srv.state = .execute ∧ s.srv.nmiOut = true ∧ (
        t.srv.state = .executeFinalize ∧ t.srv.budget = s.srv.budget - 1 ∨
        o.emu = true ∧ t.srv.state = .emuExit ∧ t.srv.budget + 1 = s.srv.budget ∨
        o.emu = false ∧ t.srv.state = .executeDone ∧ 0 < s.srv.budget ∧ t.srv.budget = 0))) ∨
    ((∃ b d, i = .srvLoad 3 b d) ∧ s.srv.state = .storeDoneSmm ∧ t.srv.state = .loadSmm ∧
      t.srv.budget = s.cfg.tLoad) ∨
    (i = .srvStore ∧ s.srv.state = .executeDone ∧ s.srv.budget = 0 ∧ t.srv.state = .store ∧
      t.srv.budget = s.cfg.tStore) ∨
    (i = .srvStoreall ∧ s.srv.state = .executeDone ∧ s.srv.budget = 0 ∧ o.storeall = true ∧
      t.srv.state = .storeAll ∧ t.srv.budget = s.cfg.tStoreAll)

/-- Error is entered only through ResetFailure (46_phase_sequencer.md R347 d, R339; 60_exceptions.md R382), and left
only by SRV_RESET (60_exceptions.md R390). Rests on the spec's own decisions D30, D34 (92_eei_decisions.md). -/
def Obligations.ErrorIsEnteredAndLeftByReset : Prop :=
  ∀ (i : Instr) (s t : State), exec i s = .next t →
    (t.srv.state = .error → s.srv.state ≠ .error → t.resp.err = some .resetFailure ∧
      t.flags.lastError = some .resetFailure ∧ t.srv.resetResult.success = false ∧ t.srv.budget = 0 ∧
      t.srv.nmiOut = false ∧ (s.srv.state = .reset ∨ s.srv.state = .cpuId ∨ s.srv.state = .cpuSetup)) ∧
    (s.srv.state = .error → t.srv.state ≠ .error → ∃ b sel, i = .srvReset b sel) ∧
    (t.resp.err = some .resetFailure → t.srv.state = .error)

/-- Errors, refusals and anomalies (60_exceptions.md R381, R384, R385; 10_state.md R39, R40), over every operation but
SRV_RESET: an error is recorded as the last error with ok = 0, and only an error changes the last error; a refusal
changes nothing of the block; an anomaly flag that is set stays set. Rests on the spec's own decision D26
(92_eei_decisions.md). -/
def Obligations.ErrorsRefusalsAndStickyFlags : Prop :=
  ∀ (i : Instr) (s t : State), exec i s = .next t → (∀ b sel, i ≠ .srvReset b sel) →
    (∀ k, t.resp.err = some k → t.flags.lastError = some k ∧ t.resp.ok = false) ∧
    (t.resp.err = none → t.flags.lastError = s.flags.lastError) ∧
    (t.resp.err = none → t.resp.ok = false → t = { s with resp := t.resp, freeCount := t.freeCount }) ∧
    (∀ a, anomalySet s.flags a = true → anomalySet t.flags a = true) ∧
    t.resp.illegal = false

/-- What a tick that changes the phase does to the active program (46_phase_sequencer.md R332, R333, R330): the phase
entered selects its program, a phase left takes its own program's cursor back to 0, Prefetch hands the user program on
to Execute as it stands, entering Execute clears `program_ended`. LoadDone with a budget and StoreDone are left by the
next tick. The model's: Prefetch and Execute own the user program where EXEC_SOURCE is Inline (notes/assumptions/14.md),
entering ExecuteDone disarms stack capture (9.md), an image that is too long is not spoken of (16.md). A tick of a
running segment in CpuId, CpuSetup, JumpVector, Load, LoadSmm, EmuEnter, Prefetch, ExecuteFinalize, EmuExit, Store or
StoreAll leaves the phase for its successor when PHASE_DONE of the phase, the state after step 5, the pins and the
result of CYCLE_TICK holds, and stays in it when it does not (46_phase_sequencer.md R320, R330, R331); the last tick of
a reset phase that comes to no rest point fails into Error. Reset stays, or fails on its last tick, while T1 is not
entered. The tick that sees the NMI vector (R335) asks PHASE_DONE of ExecuteFinalize, just entered. PHASE_DONE is the
open predicate the configuration gives (notes/assumptions/3.md). Rests on the spec's own decisions D28, D29, D30
(92_eei_decisions.md). -/
def Obligations.PhaseEntryAndExit : Prop :=
  ∀ (p : Pins) (d : Word) (g : Tag) (s t : State), exec (.engineTick p d g) s = .next t →
    (s.srv.state = .loadDone → 0 < s.srv.budget → t.srv.state ≠ .loadDone) ∧
    (s.srv.state = .storeDone → t.srv.state = .done) ∧
    (t.srv.state ≠ s.srv.state →
      (t.srv.state = .cpuId → selectsProgram s t .cpuid) ∧
      (t.srv.state = .cpuSetup → selectsProgram s t .cpusetup) ∧
      (t.srv.state = .jumpVector → selectsProgram s t .jump) ∧
      (t.srv.state = .load →
        (s.srv.loadFormat = .v1 → selectsProgram s t .loadV1) ∧
        (s.srv.loadFormat = .v2 → selectsProgram s t .loadV2) ∧
        (s.srv.loadFormat = .v3a → selectsProgram s t .loadV3a)) ∧
      (t.srv.state = .loadSmm → selectsProgram s t .loadSmm) ∧
      (t.srv.state = .emuEnter → selectsProgram s t .emuEnter) ∧
      (t.srv.state = .emuExit → selectsProgram s t .emuExit) ∧
      (t.srv.state = .executeFinalize →
        (s.cfg.endStrategy = .nmiVector → selectsProgram s t .nmiHandler) ∧
        (s.cfg.endStrategy = .queueTag → selectsProgram s t .finalize)) ∧
      (t.srv.state = .prefetch ∨ t.srv.state = .execute ∧ s.srv.state ≠ .prefetch →
        (s.cfg.execSource = .inline → selectsProgram s t .user) ∧
        (s.cfg.execSource ≠ .inline → s.srv.state = .emuEnter → t.ip = { s.ip with cursor := 0 })) ∧
      (t.srv.state = .execute → t.srv.programEnded = false) ∧
      (t.srv.state = .execute → s.srv.state = .prefetch → t.ip = { s.ip with cursor := t.ip.cursor } ∧
        (t.ip.cursor = s.ip.cursor ∨ s.bcs.fed = false ∧ t.bcs.fed = true ∧
          t.ip.cursor = min (s.ip.cursor + widthBytes s.bcs.busWidth) s.ip.buf.length)) ∧
      (t.srv.state = .loadDone → s.srv.state = .loadSmm ∨ s.srv.loadFormat ≠ .v3b →
        t.ip = { s.ip with cursor := 0 }) ∧
      (t.srv.state = .storeDone ∨ t.srv.state = .storeDoneSmm ∨ t.srv.state = .shutdown →
        t.ip = { s.ip with cursor := 0 }) ∧
      (t.srv.state = .executeDone → t.srv.stackArmed = false ∧
        (s.srv.state ≠ .execute → t.ip = { s.ip with cursor := 0 })) ∧
      (t.srv.state = .error → s.srv.state ≠ .reset → t.ip.cursor = 0)) ∧
    (0 < s.srv.budget → phaseDone s.srv.state (stateBeforeEdge s t) p (cycleOfTick s t) = true →
      (s.srv.state = .cpuId → t.srv.state = if s.cfg.pathOpts.cpusetup then
        (if s.srv.budget = 1 then .error else .cpuSetup) else .jumpVector) ∧
      (s.srv.state = .cpuSetup → t.srv.state = .jumpVector) ∧
      (s.srv.state = .jumpVector → t.srv.state = if s.srv.loadFormat = .v3b then .loadSmm else .load) ∧
      (s.srv.state = .load ∨ s.srv.state = .loadSmm → t.srv.state = .loadDone) ∧
      (s.srv.state = .emuEnter → t.srv.state = if s.cfg.pathOpts.prefetch then .prefetch else .execute) ∧
      (s.srv.state = .prefetch → t.srv.state = .execute) ∧
      (s.srv.state = .executeFinalize → t.srv.state = if s.cfg.pathOpts.emu then .emuExit else .executeDone) ∧
      (s.srv.state = .emuExit → t.srv.state = .executeDone) ∧
      (s.srv.state = .store → t.srv.state = if s.srv.loadFormat = .v3b then .storeDoneSmm else .storeDone) ∧
      (s.srv.state = .storeAll → t.srv.state = .shutdown)) ∧
    (phaseDone s.srv.state (stateBeforeEdge s t) p (cycleOfTick s t) = false →
      s.srv.state ∈ [.cpuId, .cpuSetup, .jumpVector, .load, .loadSmm, .emuEnter, .prefetch, .executeFinalize, .emuExit,
        .store, .storeAll] →
      t.srv.state = if s.srv.budget = 1 ∧ (s.srv.state = .cpuId ∨ s.srv.state = .cpuSetup) then .error
        else s.srv.state) ∧
    (s.srv.state = .reset → (cycleOfTick s t).enteredT1 = false →
      t.srv.state = if s.srv.budget = 1 then .error else .reset) ∧
    (s.srv.state = .execute → t.srv.nmiFetchCount ≠ s.srv.nmiFetchCount →
      t.srv.state = if 0 < s.srv.budget ∧
          phaseDone .executeFinalize (stateAfterNmiEdge s t) p (cycleOfTick s t) = true then
        (if s.cfg.pathOpts.emu then .emuExit else .executeDone) else .executeFinalize)
end

