-- ==== Sys2Proof/Laws/Controller.lean ====
section
/-! SUPPORT. What the controllers keep of the rule that ties their lines to the T-cycle (41_bus_controller.md R172). -/

namespace Sys2Proof.Machine

open Sys2Proof

theorem controllerOk_powerOn : ControllerOk BusController.powerOn := by
  constructor <;> simp [BusController.powerOn, ControllerLines.clear]

theorem controllerOk_startCycle (b : BusController) (st : BusStatus) : ControllerOk (startCycle b st) := by
  constructor <;> simp [startCycle, clearCommands, ControllerLines.clear]

theorem controllerOk_controllerTick (b : BusController) (st : BusStatus) (h : ControllerOk b) :
    ControllerOk (controllerTick b st) := by
  unfold controllerTick
  split
  · exact controllerOk_startCycle _ _
  · obtain ⟨h1, h2, h3, h4, h5⟩ := h
    obtain ⟨pv, cu, la, tc, ⟨l1, l2, l3, l4, l5, l6, l7⟩⟩ := b
    simp only at *
    cases tc <;> simp only [clearCommands, ControllerLines.clear] <;> constructor <;> simp_all
    all_goals (cases la <;> simp_all [assertImmediate, assertDelayed])

theorem controllerOk_controllerTick2 (b : BusController) (st : BusStatus) (r : Bool) (h : ControllerOk b) :
    ControllerOk (controllerTick2 b st r) := by
  unfold controllerTick2
  split
  · exact controllerOk_startCycle _ _
  · obtain ⟨h1, h2, h3, h4, h5⟩ := h
    obtain ⟨pv, cu, la, tc, ⟨l1, l2, l3, l4, l5, l6, l7⟩⟩ := b
    simp only at *
    cases tc <;> cases r <;> simp only [clearCommands, ControllerLines.clear] <;> constructor <;> simp_all
    all_goals (cases la <;> simp_all [assertPlain])

/-! ### The 82288 style -/

theorem controllerOk82288_powerOn : ControllerOk82288 BusController.powerOn := by
  constructor <;> simp [BusController.powerOn, ControllerLines.clear]

theorem controllerOk82288_startCycle (b : BusController) (st : BusStatus) : ControllerOk82288 (startCycle b st) := by
  constructor <;> simp [startCycle, clearCommands, ControllerLines.clear]

theorem controllerOk82288_controllerTick2 (b : BusController) (st : BusStatus) (r : Bool) (h : ControllerOk82288 b) :
    ControllerOk82288 (controllerTick2 b st r) := by
  unfold controllerTick2
  split
  · exact controllerOk82288_startCycle _ _
  · obtain ⟨h1, h2, h3, h4, h5, h6, h7, h8⟩ := h
    obtain ⟨pv, cu, la, tc, ⟨l1, l2, l3, l4, l5, l6, l7⟩⟩ := b
    simp only at *
    cases tc <;> cases r <;> simp only [clearCommands, ControllerLines.clear] <;> constructor <;> simp_all
    all_goals (cases la <;> simp_all [assertPlain])

/-- The tighter rule is a case of the one both controllers share. -/
theorem ControllerOk82288.controllerOk {b : BusController} (h : ControllerOk82288 b) : ControllerOk b where
  ale := h.ale
  mrdc k := ⟨.inl (h.mrdc k).1, (h.mrdc k).2⟩
  memWrite := by rintro (k | k) <;> [simp [h.amwc] at k; exact ⟨.inl (h.mwtc k).1, (h.mwtc k).2⟩]
  iorc k := ⟨.inl (h.iorc k).1, (h.iorc k).2⟩
  ioWrite := by rintro (k | k) <;> [simp [h.aiowc] at k; exact ⟨.inl (h.iowc k).1, (h.iowc k).2⟩]

/-! ### Either style -/

theorem controllerOk_controllerAfter (c : Config) (b : BusController) (st : BusStatus) (r : Bool)
    (h : ControllerOk b) : ControllerOk (controllerAfter c b st r) := by
  unfold controllerAfter
  split
  · split
    · exact controllerOk_controllerTick _ _ h
    · exact controllerOk_controllerTick2 _ _ _ h
  · exact h

/-- An Idle controller that obeys the rule has every line 0. -/
theorem ControllerOk.lines_of_idle {b : BusController} (h : ControllerOk b) (ht : b.tcycle = .idle) :
    b.lines = ControllerLines.clear := by
  obtain ⟨h1, h2, h3, h4, h5⟩ := h
  obtain ⟨pv, cu, la, tc, ⟨l1, l2, l3, l4, l5, l6, l7⟩⟩ := b
  simp only at *
  subst ht
  simp_all [ControllerLines.clear]

end Sys2Proof.Machine
end

