-- ==== Sys2Proof/Laws/Operands.lean ====
section
/-! SUPPORT. Lanes of words, and codes of enumerations (20_memory.md R64, 30_encoding.md R91 to R107). -/

namespace Sys2Proof

/-! ### Codes -/

@[simp] theorem BusStatus.ofBits_bits (t : BusStatus) : BusStatus.ofBits t.bits = t := by cases t <;> rfl

@[simp] theorem BusStatus.bits_ofBits (b : BitVec 3) : (BusStatus.ofBits b).bits = b := by revert b; decide

@[simp] theorem CycleCode.ofBits_bits (c : CycleCode) : CycleCode.ofBits c.bits = c := by
  rcases c with c | _ | _
  · cases c <;> rfl
  all_goals rfl

@[simp] theorem CycleCode.bits_ofBits (b : BitVec 3) : (CycleCode.ofBits b).bits = b := by revert b; decide

@[simp] theorem WidthCode.ofBits_bits (w : WidthCode) : WidthCode.ofBits w.bits = w := by
  rcases w with w | _
  · cases w <;> rfl
  · rfl

@[simp] theorem WidthCode.bits_ofBits (b : BitVec 2) : (WidthCode.ofBits b).bits = b := by revert b; decide

@[simp] theorem Tag.ofBits_bits (t : Tag) : Tag.ofBits t.bits = t := by cases t <;> rfl

@[simp] theorem Tag.bits_ofBits (b : BitVec 1) : (Tag.ofBits b).bits = b := by revert b; decide

@[simp] theorem QueueStatus.ofBits_bits (t : QueueStatus) : QueueStatus.ofBits t.bits = t := by cases t <;> rfl

@[simp] theorem QueueStatus.bits_ofBits (b : BitVec 2) : (QueueStatus.ofBits b).bits = b := by revert b; decide

@[simp] theorem CmdLines.ofBits_bits (l : CmdLines) : CmdLines.ofBits l.bits = l := by
  obtain ⟨a, b, c, d, e⟩ := l
  revert a b c d e
  decide

@[simp] theorem CmdLines.bits_ofBits (b : BitVec 5) : (CmdLines.ofBits b).bits = b := by revert b; decide

namespace Machine

/-! ### Lanes -/

@[simp] theorem lowLane_joinLanes (h l : Byte) : lowLane (joinLanes h l) = l := by
  ext i hi
  simp only [lowLane, joinLanes, BitVec.getElem_extractLsb', BitVec.getLsbD_append]
  simp [hi]

@[simp] theorem highLane_joinLanes (h l : Byte) : highLane (joinLanes h l) = h := by
  ext i hi
  simp only [highLane, joinLanes, BitVec.getElem_extractLsb', BitVec.getLsbD_append]
  simp [BitVec.getLsbD_eq_getElem hi]

@[simp] theorem joinLanes_highLane_lowLane (d : Word) : joinLanes (highLane d) (lowLane d) = d := by
  ext i hi
  rw [← BitVec.getLsbD_eq_getElem, ← BitVec.getLsbD_eq_getElem]
  simp only [lowLane, highLane, joinLanes, BitVec.getLsbD_append, BitVec.getLsbD_extractLsb']
  by_cases h : i < 8
  · simp [h]
  · simp [h, show i - 8 < 8 by omega, show 8 + (i - 8) = i by omega]

@[simp] theorem lowLane_byteWord (b : Byte) : lowLane (byteWord b) = b := by
  ext i hi
  simp only [lowLane, byteWord, BitVec.getElem_extractLsb', BitVec.getLsbD_setWidth]
  simp [show i < 16 by omega, BitVec.getLsbD_eq_getElem hi]

/-- A byte zero-extended is the byte on the low lane, the high lane 0. -/
theorem byteWord_eq (b : Byte) : byteWord b = joinLanes 0 b := by
  have h : lowLane (byteWord b) = lowLane (joinLanes 0 b) := by simp
  have h' : highLane (byteWord b) = highLane (joinLanes 0 b) := by
    rw [highLane_joinLanes]
    ext i hi
    simp only [highLane, byteWord, BitVec.getElem_extractLsb', BitVec.getLsbD_setWidth]
    simp
  rw [← joinLanes_highLane_lowLane (byteWord b), h, h', joinLanes_highLane_lowLane]

/-! ### The width of a transfer -/

/-- The lowest bit of an address is its parity. -/
theorem addr_parity (a : Addr) : a.toNat % 2 = if a.getLsbD 0 then 1 else 0 := by
  rw [BitVec.getLsbD, Nat.testBit_zero]
  rcases Nat.mod_two_eq_zero_or_one a.toNat with h | h <;> simp [h]

/-- The four parity and byte-high-enable combinations (20_memory.md R65). -/
theorem transferWidth_eq (a : Addr) (bhe bus16 : Bool) :
    transferWidth a bhe bus16 =
      if bus16 then
        if a.toNat % 2 = 0 then (if bhe then (.sixteen, true) else (.eightLow, true))
        else if bhe then (.eightHigh, true) else (.eightLow, false)
      else (.eightLow, true) := by
  rw [addr_parity]
  unfold transferWidth
  cases a.getLsbD 0 <;> cases bhe <;> cases bus16 <;> rfl

end Machine

end Sys2Proof
end

