-- ==== Sys2Proof/Laws/State.lean ====
section
/-! SUPPORT. What each update of State does to each field: one lemma a field and update, all true by rfl. -/

namespace Sys2Proof.Machine

open Sys2Proof

variable (s : State)

/-! ### withCfg -/

@[simp] theorem State.withCfg_cfg (x : Config) : (s.withCfg x).cfg = x := rfl
@[simp] theorem State.withCfg_bcs (x : Config) : (s.withCfg x).bcs = s.bcs := rfl
@[simp] theorem State.withCfg_bc (x : Config) : (s.withCfg x).bc = s.bc := rfl
@[simp] theorem State.withCfg_xcvr (x : Config) : (s.withCfg x).xcvr = s.xcvr := rfl
@[simp] theorem State.withCfg_q (x : Config) : (s.withCfg x).q = s.q := rfl
@[simp] theorem State.withCfg_ip (x : Config) : (s.withCfg x).ip = s.ip := rfl
@[simp] theorem State.withCfg_ipset (x : Config) : (s.withCfg x).ipset = s.ipset := rfl
@[simp] theorem State.withCfg_mb (x : Config) : (s.withCfg x).mb = s.mb := rfl
@[simp] theorem State.withCfg_log (x : Config) : (s.withCfg x).log = s.log := rfl
@[simp] theorem State.withCfg_srv (x : Config) : (s.withCfg x).srv = s.srv := rfl
@[simp] theorem State.withCfg_flags (x : Config) : (s.withCfg x).flags = s.flags := rfl
@[simp] theorem State.withCfg_host (x : Config) : (s.withCfg x).host = s.host := rfl
@[simp] theorem State.withCfg_resp (x : Config) : (s.withCfg x).resp = s.resp := rfl
@[simp] theorem State.withCfg_freeCount (x : Config) : (s.withCfg x).freeCount = s.freeCount := rfl

/-! ### withBcs -/

@[simp] theorem State.withBcs_cfg (x : BusCycle) : (s.withBcs x).cfg = s.cfg := rfl
@[simp] theorem State.withBcs_bcs (x : BusCycle) : (s.withBcs x).bcs = x := rfl
@[simp] theorem State.withBcs_bc (x : BusCycle) : (s.withBcs x).bc = s.bc := rfl
@[simp] theorem State.withBcs_xcvr (x : BusCycle) : (s.withBcs x).xcvr = s.xcvr := rfl
@[simp] theorem State.withBcs_q (x : BusCycle) : (s.withBcs x).q = s.q := rfl
@[simp] theorem State.withBcs_ip (x : BusCycle) : (s.withBcs x).ip = s.ip := rfl
@[simp] theorem State.withBcs_ipset (x : BusCycle) : (s.withBcs x).ipset = s.ipset := rfl
@[simp] theorem State.withBcs_mb (x : BusCycle) : (s.withBcs x).mb = s.mb := rfl
@[simp] theorem State.withBcs_log (x : BusCycle) : (s.withBcs x).log = s.log := rfl
@[simp] theorem State.withBcs_srv (x : BusCycle) : (s.withBcs x).srv = s.srv := rfl
@[simp] theorem State.withBcs_flags (x : BusCycle) : (s.withBcs x).flags = s.flags := rfl
@[simp] theorem State.withBcs_host (x : BusCycle) : (s.withBcs x).host = s.host := rfl
@[simp] theorem State.withBcs_resp (x : BusCycle) : (s.withBcs x).resp = s.resp := rfl
@[simp] theorem State.withBcs_freeCount (x : BusCycle) : (s.withBcs x).freeCount = s.freeCount := rfl

/-! ### withBc -/

@[simp] theorem State.withBc_cfg (x : BusController) : (s.withBc x).cfg = s.cfg := rfl
@[simp] theorem State.withBc_bcs (x : BusController) : (s.withBc x).bcs = s.bcs := rfl
@[simp] theorem State.withBc_bc (x : BusController) : (s.withBc x).bc = x := rfl
@[simp] theorem State.withBc_xcvr (x : BusController) : (s.withBc x).xcvr = s.xcvr := rfl
@[simp] theorem State.withBc_q (x : BusController) : (s.withBc x).q = s.q := rfl
@[simp] theorem State.withBc_ip (x : BusController) : (s.withBc x).ip = s.ip := rfl
@[simp] theorem State.withBc_ipset (x : BusController) : (s.withBc x).ipset = s.ipset := rfl
@[simp] theorem State.withBc_mb (x : BusController) : (s.withBc x).mb = s.mb := rfl
@[simp] theorem State.withBc_log (x : BusController) : (s.withBc x).log = s.log := rfl
@[simp] theorem State.withBc_srv (x : BusController) : (s.withBc x).srv = s.srv := rfl
@[simp] theorem State.withBc_flags (x : BusController) : (s.withBc x).flags = s.flags := rfl
@[simp] theorem State.withBc_host (x : BusController) : (s.withBc x).host = s.host := rfl
@[simp] theorem State.withBc_resp (x : BusController) : (s.withBc x).resp = s.resp := rfl
@[simp] theorem State.withBc_freeCount (x : BusController) : (s.withBc x).freeCount = s.freeCount := rfl

/-! ### withXcvr -/

@[simp] theorem State.withXcvr_cfg (x : Transceiver) : (s.withXcvr x).cfg = s.cfg := rfl
@[simp] theorem State.withXcvr_bcs (x : Transceiver) : (s.withXcvr x).bcs = s.bcs := rfl
@[simp] theorem State.withXcvr_bc (x : Transceiver) : (s.withXcvr x).bc = s.bc := rfl
@[simp] theorem State.withXcvr_xcvr (x : Transceiver) : (s.withXcvr x).xcvr = x := rfl
@[simp] theorem State.withXcvr_q (x : Transceiver) : (s.withXcvr x).q = s.q := rfl
@[simp] theorem State.withXcvr_ip (x : Transceiver) : (s.withXcvr x).ip = s.ip := rfl
@[simp] theorem State.withXcvr_ipset (x : Transceiver) : (s.withXcvr x).ipset = s.ipset := rfl
@[simp] theorem State.withXcvr_mb (x : Transceiver) : (s.withXcvr x).mb = s.mb := rfl
@[simp] theorem State.withXcvr_log (x : Transceiver) : (s.withXcvr x).log = s.log := rfl
@[simp] theorem State.withXcvr_srv (x : Transceiver) : (s.withXcvr x).srv = s.srv := rfl
@[simp] theorem State.withXcvr_flags (x : Transceiver) : (s.withXcvr x).flags = s.flags := rfl
@[simp] theorem State.withXcvr_host (x : Transceiver) : (s.withXcvr x).host = s.host := rfl
@[simp] theorem State.withXcvr_resp (x : Transceiver) : (s.withXcvr x).resp = s.resp := rfl
@[simp] theorem State.withXcvr_freeCount (x : Transceiver) : (s.withXcvr x).freeCount = s.freeCount := rfl

/-! ### withQ -/

@[simp] theorem State.withQ_cfg (x : Queue) : (s.withQ x).cfg = s.cfg := rfl
@[simp] theorem State.withQ_bcs (x : Queue) : (s.withQ x).bcs = s.bcs := rfl
@[simp] theorem State.withQ_bc (x : Queue) : (s.withQ x).bc = s.bc := rfl
@[simp] theorem State.withQ_xcvr (x : Queue) : (s.withQ x).xcvr = s.xcvr := rfl
@[simp] theorem State.withQ_q (x : Queue) : (s.withQ x).q = x := rfl
@[simp] theorem State.withQ_ip (x : Queue) : (s.withQ x).ip = s.ip := rfl
@[simp] theorem State.withQ_ipset (x : Queue) : (s.withQ x).ipset = s.ipset := rfl
@[simp] theorem State.withQ_mb (x : Queue) : (s.withQ x).mb = s.mb := rfl
@[simp] theorem State.withQ_log (x : Queue) : (s.withQ x).log = s.log := rfl
@[simp] theorem State.withQ_srv (x : Queue) : (s.withQ x).srv = s.srv := rfl
@[simp] theorem State.withQ_flags (x : Queue) : (s.withQ x).flags = s.flags := rfl
@[simp] theorem State.withQ_host (x : Queue) : (s.withQ x).host = s.host := rfl
@[simp] theorem State.withQ_resp (x : Queue) : (s.withQ x).resp = s.resp := rfl
@[simp] theorem State.withQ_freeCount (x : Queue) : (s.withQ x).freeCount = s.freeCount := rfl

/-! ### withIp -/

@[simp] theorem State.withIp_cfg (x : ActiveProgram) : (s.withIp x).cfg = s.cfg := rfl
@[simp] theorem State.withIp_bcs (x : ActiveProgram) : (s.withIp x).bcs = s.bcs := rfl
@[simp] theorem State.withIp_bc (x : ActiveProgram) : (s.withIp x).bc = s.bc := rfl
@[simp] theorem State.withIp_xcvr (x : ActiveProgram) : (s.withIp x).xcvr = s.xcvr := rfl
@[simp] theorem State.withIp_q (x : ActiveProgram) : (s.withIp x).q = s.q := rfl
@[simp] theorem State.withIp_ip (x : ActiveProgram) : (s.withIp x).ip = x := rfl
@[simp] theorem State.withIp_ipset (x : ActiveProgram) : (s.withIp x).ipset = s.ipset := rfl
@[simp] theorem State.withIp_mb (x : ActiveProgram) : (s.withIp x).mb = s.mb := rfl
@[simp] theorem State.withIp_log (x : ActiveProgram) : (s.withIp x).log = s.log := rfl
@[simp] theorem State.withIp_srv (x : ActiveProgram) : (s.withIp x).srv = s.srv := rfl
@[simp] theorem State.withIp_flags (x : ActiveProgram) : (s.withIp x).flags = s.flags := rfl
@[simp] theorem State.withIp_host (x : ActiveProgram) : (s.withIp x).host = s.host := rfl
@[simp] theorem State.withIp_resp (x : ActiveProgram) : (s.withIp x).resp = s.resp := rfl
@[simp] theorem State.withIp_freeCount (x : ActiveProgram) : (s.withIp x).freeCount = s.freeCount := rfl

/-! ### withIpset -/

@[simp] theorem State.withIpset_cfg (x : List (ProgName × Image)) : (s.withIpset x).cfg = s.cfg := rfl
@[simp] theorem State.withIpset_bcs (x : List (ProgName × Image)) : (s.withIpset x).bcs = s.bcs := rfl
@[simp] theorem State.withIpset_bc (x : List (ProgName × Image)) : (s.withIpset x).bc = s.bc := rfl
@[simp] theorem State.withIpset_xcvr (x : List (ProgName × Image)) : (s.withIpset x).xcvr = s.xcvr := rfl
@[simp] theorem State.withIpset_q (x : List (ProgName × Image)) : (s.withIpset x).q = s.q := rfl
@[simp] theorem State.withIpset_ip (x : List (ProgName × Image)) : (s.withIpset x).ip = s.ip := rfl
@[simp] theorem State.withIpset_ipset (x : List (ProgName × Image)) : (s.withIpset x).ipset = x := rfl
@[simp] theorem State.withIpset_mb (x : List (ProgName × Image)) : (s.withIpset x).mb = s.mb := rfl
@[simp] theorem State.withIpset_log (x : List (ProgName × Image)) : (s.withIpset x).log = s.log := rfl
@[simp] theorem State.withIpset_srv (x : List (ProgName × Image)) : (s.withIpset x).srv = s.srv := rfl
@[simp] theorem State.withIpset_flags (x : List (ProgName × Image)) : (s.withIpset x).flags = s.flags := rfl
@[simp] theorem State.withIpset_host (x : List (ProgName × Image)) : (s.withIpset x).host = s.host := rfl
@[simp] theorem State.withIpset_resp (x : List (ProgName × Image)) : (s.withIpset x).resp = s.resp := rfl
@[simp] theorem State.withIpset_freeCount (x : List (ProgName × Image)) : (s.withIpset x).freeCount = s.freeCount := rfl

/-! ### withMb -/

@[simp] theorem State.withMb_cfg (x : Memory) : (s.withMb x).cfg = s.cfg := rfl
@[simp] theorem State.withMb_bcs (x : Memory) : (s.withMb x).bcs = s.bcs := rfl
@[simp] theorem State.withMb_bc (x : Memory) : (s.withMb x).bc = s.bc := rfl
@[simp] theorem State.withMb_xcvr (x : Memory) : (s.withMb x).xcvr = s.xcvr := rfl
@[simp] theorem State.withMb_q (x : Memory) : (s.withMb x).q = s.q := rfl
@[simp] theorem State.withMb_ip (x : Memory) : (s.withMb x).ip = s.ip := rfl
@[simp] theorem State.withMb_ipset (x : Memory) : (s.withMb x).ipset = s.ipset := rfl
@[simp] theorem State.withMb_mb (x : Memory) : (s.withMb x).mb = x := rfl
@[simp] theorem State.withMb_log (x : Memory) : (s.withMb x).log = s.log := rfl
@[simp] theorem State.withMb_srv (x : Memory) : (s.withMb x).srv = s.srv := rfl
@[simp] theorem State.withMb_flags (x : Memory) : (s.withMb x).flags = s.flags := rfl
@[simp] theorem State.withMb_host (x : Memory) : (s.withMb x).host = s.host := rfl
@[simp] theorem State.withMb_resp (x : Memory) : (s.withMb x).resp = s.resp := rfl
@[simp] theorem State.withMb_freeCount (x : Memory) : (s.withMb x).freeCount = s.freeCount := rfl

/-! ### withLog -/

@[simp] theorem State.withLog_cfg (x : BusLog) : (s.withLog x).cfg = s.cfg := rfl
@[simp] theorem State.withLog_bcs (x : BusLog) : (s.withLog x).bcs = s.bcs := rfl
@[simp] theorem State.withLog_bc (x : BusLog) : (s.withLog x).bc = s.bc := rfl
@[simp] theorem State.withLog_xcvr (x : BusLog) : (s.withLog x).xcvr = s.xcvr := rfl
@[simp] theorem State.withLog_q (x : BusLog) : (s.withLog x).q = s.q := rfl
@[simp] theorem State.withLog_ip (x : BusLog) : (s.withLog x).ip = s.ip := rfl
@[simp] theorem State.withLog_ipset (x : BusLog) : (s.withLog x).ipset = s.ipset := rfl
@[simp] theorem State.withLog_mb (x : BusLog) : (s.withLog x).mb = s.mb := rfl
@[simp] theorem State.withLog_log (x : BusLog) : (s.withLog x).log = x := rfl
@[simp] theorem State.withLog_srv (x : BusLog) : (s.withLog x).srv = s.srv := rfl
@[simp] theorem State.withLog_flags (x : BusLog) : (s.withLog x).flags = s.flags := rfl
@[simp] theorem State.withLog_host (x : BusLog) : (s.withLog x).host = s.host := rfl
@[simp] theorem State.withLog_resp (x : BusLog) : (s.withLog x).resp = s.resp := rfl
@[simp] theorem State.withLog_freeCount (x : BusLog) : (s.withLog x).freeCount = s.freeCount := rfl

/-! ### withSrv -/

@[simp] theorem State.withSrv_cfg (x : Server) : (s.withSrv x).cfg = s.cfg := rfl
@[simp] theorem State.withSrv_bcs (x : Server) : (s.withSrv x).bcs = s.bcs := rfl
@[simp] theorem State.withSrv_bc (x : Server) : (s.withSrv x).bc = s.bc := rfl
@[simp] theorem State.withSrv_xcvr (x : Server) : (s.withSrv x).xcvr = s.xcvr := rfl
@[simp] theorem State.withSrv_q (x : Server) : (s.withSrv x).q = s.q := rfl
@[simp] theorem State.withSrv_ip (x : Server) : (s.withSrv x).ip = s.ip := rfl
@[simp] theorem State.withSrv_ipset (x : Server) : (s.withSrv x).ipset = s.ipset := rfl
@[simp] theorem State.withSrv_mb (x : Server) : (s.withSrv x).mb = s.mb := rfl
@[simp] theorem State.withSrv_log (x : Server) : (s.withSrv x).log = s.log := rfl
@[simp] theorem State.withSrv_srv (x : Server) : (s.withSrv x).srv = x := rfl
@[simp] theorem State.withSrv_flags (x : Server) : (s.withSrv x).flags = s.flags := rfl
@[simp] theorem State.withSrv_host (x : Server) : (s.withSrv x).host = s.host := rfl
@[simp] theorem State.withSrv_resp (x : Server) : (s.withSrv x).resp = s.resp := rfl
@[simp] theorem State.withSrv_freeCount (x : Server) : (s.withSrv x).freeCount = s.freeCount := rfl

/-! ### withFlags -/

@[simp] theorem State.withFlags_cfg (x : Anomalies) : (s.withFlags x).cfg = s.cfg := rfl
@[simp] theorem State.withFlags_bcs (x : Anomalies) : (s.withFlags x).bcs = s.bcs := rfl
@[simp] theorem State.withFlags_bc (x : Anomalies) : (s.withFlags x).bc = s.bc := rfl
@[simp] theorem State.withFlags_xcvr (x : Anomalies) : (s.withFlags x).xcvr = s.xcvr := rfl
@[simp] theorem State.withFlags_q (x : Anomalies) : (s.withFlags x).q = s.q := rfl
@[simp] theorem State.withFlags_ip (x : Anomalies) : (s.withFlags x).ip = s.ip := rfl
@[simp] theorem State.withFlags_ipset (x : Anomalies) : (s.withFlags x).ipset = s.ipset := rfl
@[simp] theorem State.withFlags_mb (x : Anomalies) : (s.withFlags x).mb = s.mb := rfl
@[simp] theorem State.withFlags_log (x : Anomalies) : (s.withFlags x).log = s.log := rfl
@[simp] theorem State.withFlags_srv (x : Anomalies) : (s.withFlags x).srv = s.srv := rfl
@[simp] theorem State.withFlags_flags (x : Anomalies) : (s.withFlags x).flags = x := rfl
@[simp] theorem State.withFlags_host (x : Anomalies) : (s.withFlags x).host = s.host := rfl
@[simp] theorem State.withFlags_resp (x : Anomalies) : (s.withFlags x).resp = s.resp := rfl
@[simp] theorem State.withFlags_freeCount (x : Anomalies) : (s.withFlags x).freeCount = s.freeCount := rfl

/-! ### withHost -/

@[simp] theorem State.withHost_cfg (x : List HostEvent) : (s.withHost x).cfg = s.cfg := rfl
@[simp] theorem State.withHost_bcs (x : List HostEvent) : (s.withHost x).bcs = s.bcs := rfl
@[simp] theorem State.withHost_bc (x : List HostEvent) : (s.withHost x).bc = s.bc := rfl
@[simp] theorem State.withHost_xcvr (x : List HostEvent) : (s.withHost x).xcvr = s.xcvr := rfl
@[simp] theorem State.withHost_q (x : List HostEvent) : (s.withHost x).q = s.q := rfl
@[simp] theorem State.withHost_ip (x : List HostEvent) : (s.withHost x).ip = s.ip := rfl
@[simp] theorem State.withHost_ipset (x : List HostEvent) : (s.withHost x).ipset = s.ipset := rfl
@[simp] theorem State.withHost_mb (x : List HostEvent) : (s.withHost x).mb = s.mb := rfl
@[simp] theorem State.withHost_log (x : List HostEvent) : (s.withHost x).log = s.log := rfl
@[simp] theorem State.withHost_srv (x : List HostEvent) : (s.withHost x).srv = s.srv := rfl
@[simp] theorem State.withHost_flags (x : List HostEvent) : (s.withHost x).flags = s.flags := rfl
@[simp] theorem State.withHost_host (x : List HostEvent) : (s.withHost x).host = x := rfl
@[simp] theorem State.withHost_resp (x : List HostEvent) : (s.withHost x).resp = s.resp := rfl
@[simp] theorem State.withHost_freeCount (x : List HostEvent) : (s.withHost x).freeCount = s.freeCount := rfl

/-! ### withResp -/

@[simp] theorem State.withResp_cfg (x : Response) : (s.withResp x).cfg = s.cfg := rfl
@[simp] theorem State.withResp_bcs (x : Response) : (s.withResp x).bcs = s.bcs := rfl
@[simp] theorem State.withResp_bc (x : Response) : (s.withResp x).bc = s.bc := rfl
@[simp] theorem State.withResp_xcvr (x : Response) : (s.withResp x).xcvr = s.xcvr := rfl
@[simp] theorem State.withResp_q (x : Response) : (s.withResp x).q = s.q := rfl
@[simp] theorem State.withResp_ip (x : Response) : (s.withResp x).ip = s.ip := rfl
@[simp] theorem State.withResp_ipset (x : Response) : (s.withResp x).ipset = s.ipset := rfl
@[simp] theorem State.withResp_mb (x : Response) : (s.withResp x).mb = s.mb := rfl
@[simp] theorem State.withResp_log (x : Response) : (s.withResp x).log = s.log := rfl
@[simp] theorem State.withResp_srv (x : Response) : (s.withResp x).srv = s.srv := rfl
@[simp] theorem State.withResp_flags (x : Response) : (s.withResp x).flags = s.flags := rfl
@[simp] theorem State.withResp_host (x : Response) : (s.withResp x).host = s.host := rfl
@[simp] theorem State.withResp_resp (x : Response) : (s.withResp x).resp = x := rfl
@[simp] theorem State.withResp_freeCount (x : Response) : (s.withResp x).freeCount = s.freeCount := rfl

/-! ### drawn -/

@[simp] theorem State.drawn_cfg : s.drawn.cfg = s.cfg := rfl
@[simp] theorem State.drawn_bcs : s.drawn.bcs = s.bcs := rfl
@[simp] theorem State.drawn_bc : s.drawn.bc = s.bc := rfl
@[simp] theorem State.drawn_xcvr : s.drawn.xcvr = s.xcvr := rfl
@[simp] theorem State.drawn_q : s.drawn.q = s.q := rfl
@[simp] theorem State.drawn_ip : s.drawn.ip = s.ip := rfl
@[simp] theorem State.drawn_ipset : s.drawn.ipset = s.ipset := rfl
@[simp] theorem State.drawn_mb : s.drawn.mb = s.mb := rfl
@[simp] theorem State.drawn_log : s.drawn.log = s.log := rfl
@[simp] theorem State.drawn_srv : s.drawn.srv = s.srv := rfl
@[simp] theorem State.drawn_flags : s.drawn.flags = s.flags := rfl
@[simp] theorem State.drawn_host : s.drawn.host = s.host := rfl
@[simp] theorem State.drawn_resp : s.drawn.resp = s.resp := rfl
@[simp] theorem State.drawn_freeCount : s.drawn.freeCount = s.freeCount + 1 := rfl

/-! ### flagIf -/

@[simp] theorem State.flagIf_cfg (b : Bool) (a : Anomaly) : (s.flagIf b a).cfg = s.cfg := by cases b <;> rfl
@[simp] theorem State.flagIf_bcs (b : Bool) (a : Anomaly) : (s.flagIf b a).bcs = s.bcs := by cases b <;> rfl
@[simp] theorem State.flagIf_bc (b : Bool) (a : Anomaly) : (s.flagIf b a).bc = s.bc := by cases b <;> rfl
@[simp] theorem State.flagIf_xcvr (b : Bool) (a : Anomaly) : (s.flagIf b a).xcvr = s.xcvr := by cases b <;> rfl
@[simp] theorem State.flagIf_q (b : Bool) (a : Anomaly) : (s.flagIf b a).q = s.q := by cases b <;> rfl
@[simp] theorem State.flagIf_ip (b : Bool) (a : Anomaly) : (s.flagIf b a).ip = s.ip := by cases b <;> rfl
@[simp] theorem State.flagIf_ipset (b : Bool) (a : Anomaly) : (s.flagIf b a).ipset = s.ipset := by cases b <;> rfl
@[simp] theorem State.flagIf_mb (b : Bool) (a : Anomaly) : (s.flagIf b a).mb = s.mb := by cases b <;> rfl
@[simp] theorem State.flagIf_log (b : Bool) (a : Anomaly) : (s.flagIf b a).log = s.log := by cases b <;> rfl
@[simp] theorem State.flagIf_srv (b : Bool) (a : Anomaly) : (s.flagIf b a).srv = s.srv := by cases b <;> rfl
theorem State.flagIf_flags (b : Bool) (a : Anomaly) :
    (s.flagIf b a).flags = if b then setAnomaly s.flags a else s.flags := by cases b <;> rfl
@[simp] theorem State.flagIf_host (b : Bool) (a : Anomaly) : (s.flagIf b a).host = s.host := by cases b <;> rfl
@[simp] theorem State.flagIf_resp (b : Bool) (a : Anomaly) : (s.flagIf b a).resp = s.resp := by cases b <;> rfl
@[simp] theorem State.flagIf_freeCount (b : Bool) (a : Anomaly) : (s.flagIf b a).freeCount = s.freeCount := by cases b <;> rfl

/-- Setting an anomaly's flag writes the flags alone. -/
theorem State.flagIf_eq (b : Bool) (a : Anomaly) :
    s.flagIf b a = { s with flags := if b then setAnomaly s.flags a else s.flags } := by cases b <;> rfl

/-! ### recordError -/

@[simp] theorem State.recordError_cfg (k : ErrorKind) : (s.recordError k).cfg = s.cfg := rfl
@[simp] theorem State.recordError_bcs (k : ErrorKind) : (s.recordError k).bcs = s.bcs := rfl
@[simp] theorem State.recordError_bc (k : ErrorKind) : (s.recordError k).bc = s.bc := rfl
@[simp] theorem State.recordError_xcvr (k : ErrorKind) : (s.recordError k).xcvr = s.xcvr := rfl
@[simp] theorem State.recordError_q (k : ErrorKind) : (s.recordError k).q = s.q := rfl
@[simp] theorem State.recordError_ip (k : ErrorKind) : (s.recordError k).ip = s.ip := rfl
@[simp] theorem State.recordError_ipset (k : ErrorKind) : (s.recordError k).ipset = s.ipset := rfl
@[simp] theorem State.recordError_mb (k : ErrorKind) : (s.recordError k).mb = s.mb := rfl
@[simp] theorem State.recordError_log (k : ErrorKind) : (s.recordError k).log = s.log := rfl
@[simp] theorem State.recordError_srv (k : ErrorKind) : (s.recordError k).srv = s.srv := rfl
@[simp] theorem State.recordError_flags (k : ErrorKind) : (s.recordError k).flags = { s.flags with lastError := some k } := rfl
@[simp] theorem State.recordError_host (k : ErrorKind) : (s.recordError k).host = s.host := rfl
@[simp] theorem State.recordError_resp (k : ErrorKind) : (s.recordError k).resp = s.resp := rfl
@[simp] theorem State.recordError_freeCount (k : ErrorKind) : (s.recordError k).freeCount = s.freeCount := rfl

end Sys2Proof.Machine
end

