-- ==== Sys2Proof/Laws/Program.lean ====
section
/-! SUPPORT. What reads, patches and selections of the inline program do (43_inline_program.md R210 to R217). -/

namespace Sys2Proof.Machine

open Sys2Proof

/-- byte_or_fill at a natural offset. -/
theorem byteOrFill_nat (p : ActiveProgram) (n : Nat) (l : Lane) :
    byteOrFill p (n : Int) l = p.buf[n]?.getD (fillByte p l) := by
  unfold byteOrFill
  by_cases h : n < p.buf.length
  · rw [if_pos (by omega)]
    simp [List.getD_eq_getElem?_getD, List.getElem?_eq_getElem h]
  · rw [if_neg (by omega), List.getElem?_eq_none (by omega)]
    rfl

/-- byte_or_fill outside the program. -/
theorem byteOrFill_outside {p : ActiveProgram} {i : Int} (l : Lane) (h : inProgram p i = false) :
    byteOrFill p i l = fillByte p l := by
  simp only [inProgram, decide_eq_false_iff_not] at h
  exact if_neg h

/-- byte_or_fill inside the program. -/
theorem byteOrFill_inside {p : ActiveProgram} {i : Int} (l : Lane) (h : inProgram p i = true) :
    some (byteOrFill p i l) = p.buf[i.toNat]? := by
  simp only [inProgram, decide_eq_true_iff] at h
  unfold byteOrFill
  rw [if_pos h, List.getElem?_eq_getElem (by omega)]
  simp [List.getD_eq_getElem?_getD, List.getElem?_eq_getElem (show i.toNat < p.buf.length by omega)]

/-- A read at or past the end. -/
theorem programRead_ended {p : ActiveProgram} (w : BusWidth) (free : Byte) (h : p.buf.length ≤ p.cursor) :
    programRead p w free = { data := p.fill, nprog := 0, ended := true } := if_pos h

/-- A read before the end. -/
theorem programRead_inside {p : ActiveProgram} (w : BusWidth) (free : Byte) (h : p.cursor < p.buf.length) :
    programRead p w free =
      { data := programWord p p.cursor w free
        nprog := min (widthBytes w) (p.buf.length - p.cursor)
        ended := false } := if_neg (by omega)

/-- Everything a patch that fits does. -/
theorem programPatch_eq_some {p p' : ActiveProgram} {n : Nat} {v : Word} (h : programPatch p n v = some p') :
    n + 2 ≤ p.buf.length ∧ p' = { p with buf := p'.buf } ∧ p'.buf.length = p.buf.length ∧
      p'.buf[n]? = some (lowLane v) ∧ p'.buf[n + 1]? = some (highLane v) ∧
      ∀ k, k ≠ n → k ≠ n + 1 → p'.buf[k]? = p.buf[k]? := by
  unfold programPatch at h
  split at h
  case isFalse => cases h
  case isTrue hn =>
    simp only [Option.some.injEq] at h
    subst h
    refine ⟨hn, rfl, by simp, ?_, ?_, ?_⟩
    · simp [List.getElem?_set_ne, List.getElem?_set_self (show n < p.buf.length by omega)]
    · simp [List.getElem?_set_self (show n + 1 < (p.buf.set n (lowLane v)).length by simp; omega)]
    · intro k h1 h2
      rw [List.getElem?_set_ne (fun h => h2 h.symm), List.getElem?_set_ne (fun h => h1 h.symm)]

theorem programPatch_eq_none {p : ActiveProgram} {n : Nat} {v : Word} :
    programPatch p n v = none ↔ p.buf.length < n + 2 := by
  unfold programPatch
  split
  · simp; omega
  · simp; omega

/-- Everything a selection that fits does. -/
theorem programSelect_eq_some {c : Config} {n : ProgName} {i : Image} {p : ActiveProgram}
    (h : programSelect c n i = some p) :
    i.buf.length ≤ c.ipMaxLen ∧ p = ⟨n, i.buf, 0, i.fill, i.vectorOffset⟩ := by
  unfold programSelect at h
  split at h
  · cases h
  · cases h
    exact ⟨by omega, rfl⟩

theorem programSelect_of_le {c : Config} {n : ProgName} {i : Image} (h : i.buf.length ≤ c.ipMaxLen) :
    programSelect c n i = some ⟨n, i.buf, 0, i.fill, i.vectorOffset⟩ := if_neg (by omega)

/-- The image of a name after the image of a name was set. -/
theorem imageOf_setImage (n m : ProgName) (i : Image) (l : List (ProgName × Image)) :
    imageOf m (setImage n i l) = if m = n then some i else imageOf m l := by
  induction l with
  | nil => simp only [setImage, imageOf, eq_comm]
  | cons e l ih =>
    obtain ⟨k, j⟩ := e
    simp only [setImage]
    split
    · subst_vars
      simp only [imageOf, eq_comm]
      split <;> rfl
    · simp only [imageOf, ih]
      split <;> split <;> first | rfl | (subst_vars; contradiction)

end Sys2Proof.Machine
end

