-- ==== Sys2Proof/Laws/Log.lean ====
section
/-! SUPPORT. The ring buffer of bus operations and its abstract list (10_state.md R31, R32, 45_bus_log.md R291 to
R293). -/

namespace Sys2Proof.Machine

open Sys2Proof

/-- The entry at a log position, whether or not the position is in use. -/
def logAt (l : BusLog) (i : Nat) : BusOperation := l.entry.get (logIndex l i).toFin

theorem logEntry_eq (l : BusLog) (i : Nat) : logEntry l i = if i < l.count then some (logAt l i) else none := rfl

/-- The abstract log, position by position. -/
theorem logList_eq (l : BusLog) : logList l = (List.range l.count).map (logAt l) := by
  unfold logList
  have h : ∀ i ∈ List.range l.count, logEntry l i = some (logAt l i) := fun i hi => by
    rw [logEntry_eq, if_pos (List.mem_range.mp hi)]
  rw [List.filterMap_congr h, ← List.filterMap_eq_map]
  rfl

@[simp] theorem logList_length (l : BusLog) : (logList l).length = l.count := by simp [logList_eq]

theorem logList_getElem? (l : BusLog) (i : Nat) : (logList l)[i]? = logEntry l i := by
  rw [logList_eq, logEntry_eq, List.getElem?_map]
  split
  · rw [List.getElem?_range ‹_›]; rfl
  · rw [List.getElem?_eq_none (by simpa using Nat.le_of_not_lt ‹_›)]; rfl

/-- The ring index of a position, as a number. -/
theorem logIndex_toNat (l : BusLog) (i : Nat) :
    (logIndex l i).toNat = (256 - l.count % 256 + l.wr.toNat + i) % 256 := by
  simp only [logIndex, BitVec.toNat_add, BitVec.toNat_sub, BitVec.toNat_ofNat]
  omega

/-- Every position of the log after an append, when the count is in range. -/
theorem logAt_logAppended {l : BusLog} (o : BusOperation) (hc : l.count ≤ 256)
    (i : Nat) (hi : i < (logAppended l o).count) :
    logAt (logAppended l o) i =
      if i + 1 = (logAppended l o).count then o else if l.count = 256 then logAt l (i + 1) else logAt l i := by
  have hl : l.wr.toNat < 256 := l.wr.isLt
  have hi' : i < min (l.count + 1) 256 := hi
  have hwr : (logAppended l o).wr.toNat = (l.wr.toNat + 1) % 256 := by
    simp [logAppended, BitVec.toNat_add]
  have hcount : (logAppended l o).count = min (l.count + 1) 256 := rfl
  have hidx := logIndex_toNat (logAppended l o) i
  rw [hwr, hcount] at hidx
  have hget : ∀ k : Fin 256, (logAppended l o).entry.get k = if k.val = l.wr.toNat then o else l.entry.get k := by
    intro k
    simp only [logAppended, Vector.get_eq_getElem]
    rw [Vector.getElem_set]
    simp only [eq_comm]
  rw [logAt, hget]
  rw [hcount]
  have hval : ((logIndex (logAppended l o) i).toFin : Fin 256).val = (logIndex (logAppended l o) i).toNat := rfl
  rw [hval]
  split
  · rw [if_pos (by omega)]
  · rw [if_neg (by omega)]
    split
    · have hidx' := logIndex_toNat l (i + 1)
      have : (logIndex (logAppended l o) i) = logIndex l (i + 1) := by
        apply BitVec.eq_of_toNat_eq; omega
      rw [this]; rfl
    · have hidx' := logIndex_toNat l i
      have : (logIndex (logAppended l o) i) = logIndex l i := by
        apply BitVec.eq_of_toNat_eq; omega
      rw [this]; rfl

/-- Appending to the log appends to its list; a full log loses its oldest entry. -/
theorem logList_logAppended {l : BusLog} (o : BusOperation) (hc : l.count ≤ 256) :
    logList (logAppended l o) = (if l.count = 256 then (logList l).tail else logList l) ++ [o] := by
  have hcount : (logAppended l o).count = min (l.count + 1) 256 := rfl
  apply List.ext_getElem?
  intro i
  rw [logList_getElem?, logEntry_eq]
  by_cases hi : i < (logAppended l o).count
  · rw [if_pos hi, logAt_logAppended o hc i hi, hcount]
    rw [hcount] at hi
    by_cases hlast : i + 1 = min (l.count + 1) 256
    · have hlen : ((if l.count = 256 then (logList l).tail else logList l)).length = i := by
        split <;> simp <;> omega
      rw [if_pos hlast, ← hlen, List.getElem?_concat_length]
    · rw [if_neg hlast, List.getElem?_append_left (by split <;> simp <;> omega)]
      split
      · rw [List.getElem?_tail, logList_getElem?, logEntry_eq, if_pos (by omega)]
      · rw [logList_getElem?, logEntry_eq, if_pos (by omega)]
  · rw [if_neg hi]
    rw [hcount] at hi
    rw [List.getElem?_eq_none]
    split <;> simp <;> omega

/-- Appending an active kind keeps the log's account of itself. -/
theorem logOk_logAppended {l : BusLog} {o : BusOperation} (h : LogOk l) (hk : o.kind ≠ .passive) :
    LogOk (logAppended l o) where
  count_le := Nat.min_le_right _ _
  overflow := by
    intro ho
    have hc : (logAppended l o).count = min (l.count + 1) 256 := rfl
    simp only [logAppended, Bool.or_eq_true, beq_iff_eq, Config.logDepth] at ho
    have := h.count_le
    rcases ho with ho | ho
    · have := h.overflow ho; omega
    · omega
  before_wrap := by
    intro hc
    have hc' : (logAppended l o).count = min (l.count + 1) 256 := rfl
    have := h.before_wrap (by omega)
    have hw : (logAppended l o).wr.toNat = (l.wr.toNat + 1) % 256 := by simp [logAppended, BitVec.toNat_add]
    omega
  hint := rfl
  active := by
    intro p hp
    rw [logList_logAppended _ h.count_le, List.mem_append, List.mem_singleton] at hp
    rcases hp with hp | rfl
    · refine h.active p ?_
      split at hp
      · exact List.mem_of_mem_tail hp
      · exact hp
    · exact hk

theorem logOk_powerOn : LogOk BusLog.powerOn where
  count_le := Nat.zero_le _
  overflow := by intro h; cases h
  before_wrap := fun _ => rfl
  hint := rfl
  active := fun _ h => nomatch h

/-- Clearing empties the log. -/
theorem logOk_logCleared (l : BusLog) : LogOk (logCleared l) where
  count_le := Nat.zero_le _
  overflow := by intro h; cases h
  before_wrap := fun _ => rfl
  hint := rfl
  active := fun _ h => nomatch h

@[simp] theorem logList_logCleared (l : BusLog) : logList (logCleared l) = [] := rfl

/-- Everything LOG_APPEND does to the state: the log alone, and nothing for Passive. -/
theorem State.appendLog_eq (s : State) (o : BusOperation) :
    s.appendLog o = { s with log := if o.kind = .passive then s.log else logAppended s.log o } := by
  unfold State.appendLog
  split <;> rfl

theorem State.appendLog_ok {s : State} {o : BusOperation} (h : LogOk s.log) : LogOk (s.appendLog o).log := by
  rw [State.appendLog_eq]
  simp only
  split
  · exact h
  · exact logOk_logAppended h ‹_›

end Sys2Proof.Machine
end

