-- ==== Sys2Proof/Laws/Memory.lean ====
section
/-! SUPPORT. What every operation on the backend's storage does: reads after writes, the canonical form, and the fields
that stay (44_memory_backend.md R244 to R263). -/

namespace Sys2Proof.Machine

open Sys2Proof

/-! ### Sparse maps -/

section
variable {α : Type}

/-- Reading a key after a key was set. -/
theorem cellLookup_cellInsert (k k' : Nat) (v : α) (l : List (Nat × α)) :
    cellLookup k' (cellInsert k v l) = if k' = k then some v else cellLookup k' l := by
  induction l with
  | nil => simp only [cellInsert, cellLookup, eq_comm]
  | cons e l ih =>
    obtain ⟨j, u⟩ := e
    simp only [cellInsert]
    split
    · simp only [cellLookup, eq_comm]
    · split
      · subst_vars
        simp only [cellLookup, eq_comm]
        split <;> rfl
      · simp only [cellLookup, ih]
        split <;> split <;> first | rfl | omega

/-- What stands in a map after a key was set. -/
theorem mem_cellInsert {k : Nat} {v : α} {l : List (Nat × α)} {e : Nat × α} (h : e ∈ cellInsert k v l) :
    e = (k, v) ∨ e ∈ l := by
  induction l with
  | nil => simpa [cellInsert] using h
  | cons f l ih =>
    obtain ⟨j, u⟩ := f
    simp only [cellInsert] at h
    split at h
    · simpa using h
    · split at h
      · rcases List.mem_cons.mp h with h | h
        · exact .inl h
        · exact .inr (List.mem_cons_of_mem _ h)
      · rcases List.mem_cons.mp h with h | h
        · exact .inr (h ▸ List.mem_cons_self)
        · exact (ih h).imp_right (List.mem_cons_of_mem _)

/-- Keys that rise strictly, as a pairwise relation. -/
theorem cellsRising_iff (l : List (Nat × α)) : cellsRising l = true ↔ l.Pairwise fun a b => a.1 < b.1 := by
  induction l with
  | nil => simp [cellsRising]
  | cons a l ih =>
    cases l with
    | nil => simp [cellsRising]
    | cons b l =>
      rw [cellsRising, Bool.and_eq_true, ih, List.pairwise_cons (a := a), decide_eq_true_iff]
      constructor
      · rintro ⟨h, hp⟩
        refine ⟨fun x hx => ?_, hp⟩
        rcases List.mem_cons.mp hx with rfl | hx
        · exact h
        · exact Nat.lt_trans h ((List.pairwise_cons.mp hp).1 x hx)
      · rintro ⟨h, hp⟩
        exact ⟨h b List.mem_cons_self, hp⟩

/-- Setting a key keeps the keys rising. -/
theorem cellsRising_cellInsert (k : Nat) (v : α) {l : List (Nat × α)} (h : cellsRising l = true) :
    cellsRising (cellInsert k v l) = true := by
  rw [cellsRising_iff] at *
  induction l with
  | nil => simp [cellInsert]
  | cons e l ih =>
    obtain ⟨j, u⟩ := e
    obtain ⟨hj, hl⟩ := List.pairwise_cons.mp h
    simp only [cellInsert]
    split
    · refine List.pairwise_cons.mpr ⟨fun x hx => ?_, h⟩
      rcases List.mem_cons.mp hx with rfl | hx
      · assumption
      · have := hj x hx; simp only at *; omega
    · split
      · subst_vars
        exact List.pairwise_cons.mpr ⟨hj, hl⟩
      · refine List.pairwise_cons.mpr ⟨fun x hx => ?_, ih hl⟩
        rcases mem_cellInsert hx with rfl | hx
        · simp only; omega
        · exact hj x hx

/-- Setting a key that is there keeps the number of entries, setting another adds one. -/
theorem length_cellInsert (k : Nat) (v : α) {l : List (Nat × α)} (h : cellsRising l = true) :
    (cellInsert k v l).length = if (cellLookup k l).isSome then l.length else l.length + 1 := by
  rw [cellsRising_iff] at h
  induction l with
  | nil => rfl
  | cons e l ih =>
    obtain ⟨j, u⟩ := e
    obtain ⟨hj, hl⟩ := List.pairwise_cons.mp h
    have hnone : ∀ m : List (Nat × α), (∀ x ∈ m, k < x.1) → cellLookup k m = none := by
      intro m
      induction m with
      | nil => intros; rfl
      | cons x m ihm =>
        intro hm
        have := hm x List.mem_cons_self
        simp only [cellLookup]
        rw [if_neg (by omega), ihm fun y hy => hm y (List.mem_cons_of_mem _ hy)]
    simp only [cellInsert, cellLookup]
    split
    · have := hnone l fun x hx => Nat.lt_trans ‹_› (hj x hx)
      simp [this, show ¬j = k by omega]
    · split
      · subst_vars; simp
      · simp only [List.length_cons, ih hl, show ¬j = k by omega, if_false]
        split <;> rfl

end

/-! ### Bytes of words -/

/-- The byte a word gives for an address after it was replaced there. -/
theorem byteOfWord_setByteOfWord (a : Nat) (b : Byte) (d : Word) : byteOfWord a (setByteOfWord a b d) = b := by
  unfold byteOfWord setByteOfWord
  split <;> simp

/-- The other byte of the word stays. -/
theorem byteOfWord_setByteOfWord_of_ne {a x : Nat} (b : Byte) (d : Word) (h : x % 2 ≠ a % 2) :
    byteOfWord x (setByteOfWord a b d) = byteOfWord x d := by
  unfold byteOfWord setByteOfWord
  split <;> split <;> first | omega | simp

/-! ### The canonical form -/

theorem Memory.wf_iff (c : Config) (m : Memory) :
    m.wf c = true ↔ cellsRising m.flat = true ∧ (∀ e ∈ m.flat, e.1 < c.mbFlatSize) ∧
      cellsRising m.hash = true ∧ (∀ e ∈ m.hash, 2 * e.1 < addrSpace c) ∧ m.hash.length ≤ c.mbHashCap := by
  simp only [Memory.wf, Bool.and_eq_true, decide_eq_true_iff, List.all_eq_true, and_assoc]

theorem addrSpace_pos (c : Config) : 0 < addrSpace c := Nat.two_pow_pos _

theorem addrOf_lt (c : Config) (a : Addr) : addrOf c a < addrSpace c := Nat.mod_lt _ (addrSpace_pos c)

theorem nextAddr_lt (c : Config) (a : Nat) : nextAddr c a < addrSpace c := Nat.mod_lt _ (addrSpace_pos c)

/-- Writing a byte keeps the canonical form. -/
theorem memPut_wf {c : Config} {m : Memory} {a : Nat} (b : Byte) (h : m.wf c = true) (ha : a < addrSpace c) :
    (memPut c m a b).wf c = true := by
  unfold memPut
  split
  · exact h
  · split
    · rename_i hv hb
      rw [Memory.wf_iff] at *
      obtain ⟨h1, h2, h3⟩ := h
      refine ⟨cellsRising_cellInsert _ _ h1, fun e he => ?_, h3⟩
      rcases mem_cellInsert he with rfl | he
      · simp only [inBounds, hv, decide_eq_true_iff] at hb
        simp only; omega
      · exact h2 e he
    · exact h
  · split
    · exact h
    · rename_i hv hf
      rw [Memory.wf_iff] at *
      obtain ⟨h1, h2, h3, h4, h5⟩ := h
      refine ⟨h1, h2, cellsRising_cellInsert _ _ h3, fun e he => ?_, ?_⟩
      · rcases mem_cellInsert he with rfl | he
        · simp only; omega
        · exact h4 e he
      · simp only [hashFull, hv, Bool.and_eq_true, decide_eq_true_iff, Option.isNone_iff_eq_none, not_and] at hf
        simp only [length_cellInsert _ _ h3]
        split
        · exact h5
        · have := hf (Option.not_isSome_iff_eq_none.mp ‹¬ _›)
          omega

theorem memErase_wf {c : Config} {m : Memory} (h : m.wf c = true) : (memErase m).wf c = true := by
  unfold memErase
  rw [Memory.wf_iff] at h
  obtain ⟨h1, h2, h3, h4, h5⟩ := h
  split <;> rw [Memory.wf_iff]
  · exact ⟨h1, h2, h3, h4, h5⟩
  · exact ⟨rfl, by simp, h3, h4, h5⟩
  · exact ⟨h1, h2, rfl, by simp, Nat.zero_le _⟩

/-- The canonical form says nothing of the variant, the strategy and the seed. -/
theorem Memory.wf_with {c : Config} {m : Memory} (v : MbVariant) (t : Strategy) (d : BitVec 32) :
    Memory.wf c { m with variant := v, strategy := t, seed := d } = m.wf c := rfl

theorem Memory.powerOn_wf (c d : Config) : (Memory.powerOn c).wf d = true := by
  rw [Memory.wf_iff]; simp [Memory.powerOn, cellsRising]

/-! ### Reads after writes -/

@[simp] theorem memPut_variant (c : Config) (m : Memory) (a : Nat) (b : Byte) :
    (memPut c m a b).variant = m.variant := by
  unfold memPut; split <;> (try split) <;> rfl

@[simp] theorem memPut_strategy (c : Config) (m : Memory) (a : Nat) (b : Byte) :
    (memPut c m a b).strategy = m.strategy := by
  unfold memPut; split <;> (try split) <;> rfl

@[simp] theorem memPut_seed (c : Config) (m : Memory) (a : Nat) (b : Byte) : (memPut c m a b).seed = m.seed := by
  unfold memPut; split <;> (try split) <;> rfl

@[simp] theorem defaultWord_memPut (c : Config) (m : Memory) (a : Nat) (b : Byte) (w : Nat) :
    defaultWord c (memPut c m a b) w = defaultWord c m w := by
  simp [defaultWord]

@[simp] theorem defaultByte_memPut (c : Config) (m : Memory) (a : Nat) (b : Byte) (x : Nat) :
    defaultByte c (memPut c m a b) x = defaultByte c m x := by
  simp [defaultByte]

@[simp] theorem inBounds_memPut (c : Config) (m : Memory) (a : Nat) (b : Byte) (x : Nat) :
    inBounds c (memPut c m a b) x = inBounds c m x := by
  simp [inBounds]

/-- A write leaves every other byte alone. -/
theorem memGet_memPut_of_ne {c : Config} {m : Memory} {a x : Nat} (b : Byte) (h : x ≠ a) :
    memGet c (memPut c m a b) x = memGet c m x := by
  unfold memGet
  simp only [memPut_variant, inBounds_memPut, defaultByte_memPut]
  split
  · rfl
  · split
    · unfold memPut
      rename_i hv hb
      simp only [hv]
      split
      · rename_i ha
        simp only [inBounds, hv, decide_eq_true_iff] at ha hb
        simp only [cellLookup_cellInsert]
        rw [if_neg (by omega)]
      · rfl
    · rfl
  · rename_i hv
    simp only [hashWord, defaultWord_memPut]
    unfold memPut
    simp only [hv]
    split
    · rfl
    · simp only [cellLookup_cellInsert]
      split
      · rename_i hx
        rw [Option.getD_some, byteOfWord_setByteOfWord_of_ne _ _ (by omega), hx]
        rfl
      · rfl

/-- A write that is not dropped is read back. -/
theorem memGet_memPut_self {c : Config} {m : Memory} {a : Nat} (b : Byte) (hv : m.variant ≠ .null)
    (hb : inBounds c m a = true) (hf : hashFull c m a = false) : memGet c (memPut c m a b) a = b := by
  unfold memGet memPut
  cases h : m.variant
  · exact absurd h hv
  · simp only [inBounds, h, decide_eq_true_iff] at hb
    simp [inBounds, h, hb, cellLookup_cellInsert]
  · simp [hf, hashWord, cellLookup_cellInsert, byteOfWord_setByteOfWord]

/-! ### The state operations -/

section
variable (s : State) (a : Nat) (b : Byte)

/-- A byte written by a bus cycle changes the backend and the anomaly flags alone. -/
theorem State.busPut_eq : s.busPut a b = { s with mb := memPut s.cfg s.mb a b, flags := (s.busPut a b).flags } := by
  unfold State.busPut State.flagIf
  split <;> split <;> rfl

@[simp] theorem State.busPut_cfg : (s.busPut a b).cfg = s.cfg := by rw [State.busPut_eq]

@[simp] theorem State.busPut_mb : (s.busPut a b).mb = memPut s.cfg s.mb a b := by rw [State.busPut_eq]

/-- A byte written by a command in bounds. -/
theorem State.commandPut_inBounds (h : inBounds s.cfg s.mb a = true) :
    s.commandPut a b = ((s.withMb (memPut s.cfg s.mb a b)).flagIf (hashFull s.cfg s.mb a) .mbFull, true) := by
  simp [State.commandPut, h]

/-- A byte written by a command out of bounds. -/
theorem State.commandPut_outOfBounds (h : inBounds s.cfg s.mb a = false) : s.commandPut a b = (s, false) := by
  simp [State.commandPut, h]

/-- A byte written by a command changes the backend and the anomaly flags alone. -/
theorem State.commandPut_eq :
    (s.commandPut a b).1 = { s with mb := (s.commandPut a b).1.mb, flags := (s.commandPut a b).1.flags } := by
  unfold State.commandPut State.flagIf
  split
  · split <;> rfl
  · rfl

@[simp] theorem State.commandPut_cfg : (s.commandPut a b).1.cfg = s.cfg := by rw [State.commandPut_eq]

theorem State.commandPut_wf (h : s.mb.wf s.cfg = true) (ha : a < addrSpace s.cfg) :
    (s.commandPut a b).1.mb.wf s.cfg = true := by
  unfold State.commandPut
  split
  · simpa using memPut_wf b h ha
  · exact h

end

/-- A run of bytes written by a command changes the backend and the anomaly flags alone. -/
theorem State.commandPuts_eq (s : State) (a : Nat) (l : List Byte) :
    (s.commandPuts a l).1 = { s with mb := (s.commandPuts a l).1.mb, flags := (s.commandPuts a l).1.flags } := by
  induction l generalizing s a with
  | nil => rfl
  | cons b l ih =>
    have h := s.commandPut_eq a b
    simp only [State.commandPuts]
    cases hb : (s.commandPut a b).2 <;>
      obtain ⟨t, ht⟩ : ∃ t, s.commandPut a b = (t, (s.commandPut a b).2) := ⟨_, rfl⟩ <;>
      rw [hb] at ht <;> simp only [ht] at h ⊢
    · exact h
    · rw [ih t, h]

theorem State.commandPuts_wf (s : State) (a : Nat) (l : List Byte) (h : s.mb.wf s.cfg = true)
    (ha : a < addrSpace s.cfg) : (s.commandPuts a l).1.mb.wf s.cfg = true := by
  induction l generalizing s a with
  | nil => exact h
  | cons b l ih =>
    have hw := s.commandPut_wf a b h ha
    have hc := s.commandPut_cfg a b
    simp only [State.commandPuts]
    cases hb : (s.commandPut a b).2 <;>
      obtain ⟨t, ht⟩ : ∃ t, s.commandPut a b = (t, (s.commandPut a b).2) := ⟨_, rfl⟩ <;>
      rw [hb] at ht <;> simp only [ht] at hw hc ⊢
    · exact hw
    · rw [← hc] at hw ⊢
      exact ih t _ hw (nextAddr_lt _ _)

/-- A bus write changes the backend and the anomaly flags alone. -/
theorem State.busWrite_eq (s : State) (addr : Addr) (bhe bus16 : Bool) (d : Word) :
    s.busWrite addr bhe bus16 d =
      { s with mb := (s.busWrite addr bhe bus16 d).mb, flags := (s.busWrite addr bhe bus16 d).flags } := by
  unfold State.busWrite
  split
  · rfl
  · rw [(s.busPut _ _).busPut_eq, s.busPut_eq]
  · rw [s.busPut_eq]
  · rw [s.busPut_eq]

theorem State.busWrite_wf (s : State) (addr : Addr) (bhe bus16 : Bool) (d : Word) (h : s.mb.wf s.cfg = true) :
    (s.busWrite addr bhe bus16 d).mb.wf s.cfg = true := by
  unfold State.busWrite
  split
  · exact h
  · simp only [State.busPut_mb, State.busPut_cfg]
    exact memPut_wf _ (memPut_wf _ h (addrOf_lt _ _)) (nextAddr_lt _ _)
  · simpa using memPut_wf _ h (addrOf_lt _ _)
  · simpa using memPut_wf _ h (addrOf_lt _ _)

/-- A bus read changes the anomaly flags and the count of draws alone. -/
theorem State.busRead_eq (s : State) (addr : Addr) (bhe bus16 : Bool) :
    (s.busRead addr bhe bus16).1 =
      { s with flags := (s.busRead addr bhe bus16).1.flags, freeCount := s.freeCount + 1 } := by
  unfold State.busRead State.flagIf
  simp only
  split <;> rfl

end Sys2Proof.Machine
end

