-- ==== Sys2Proof/Laws/Queue.lean ====
section
/-! SUPPORT. The circular buffer and its abstract list (10_state.md R26, 42_instruction_queue.md R191 to R198). -/

namespace Sys2Proof.Machine

open Sys2Proof

@[simp] theorem queueList_length (q : Queue) : (queueList q).length = q.len := by simp [queueList]

theorem queueList_eq_nil {q : Queue} : queueList q = [] ↔ q.len = 0 := by
  rw [← queueList_length, List.length_eq_zero_iff]

/-- Two positions inside the capacity have different slots. -/
theorem queueIndex_ne {q : Queue} {j k : Nat} (hj : j < k) (hk : k < capSize q.cap) :
    (queueIndex q j).val ≠ (queueIndex q k).val := by
  simp only [queueIndex]
  intro h
  have h1 := Nat.div_add_mod (q.front + j) (capSize q.cap)
  have h2 := Nat.div_add_mod (q.front + k) (capSize q.cap)
  rw [h] at h1
  have h3 : capSize q.cap * ((q.front + k) / capSize q.cap - (q.front + j) / capSize q.cap) = k - j := by
    rw [Nat.mul_sub]; omega
  rcases Nat.eq_zero_or_pos ((q.front + k) / capSize q.cap - (q.front + j) / capSize q.cap) with h4 | h4
  · rw [h4] at h3; omega
  · have := Nat.mul_le_mul_left (capSize q.cap) h4
    omega

/-- Appending to a queue with room appends to its list. -/
theorem queueList_queueAppend {q : Queue} (e : QueueEntry) (h : q.len < capSize q.cap) :
    queueList (queueAppend q e) = queueList q ++ [e] := by
  unfold queueList
  simp only [queueAppend, List.range_succ, List.map_append, List.map_cons, List.map_nil]
  congr 1
  · refine List.map_congr_left fun k hk => ?_
    have hk := List.mem_range.mp hk
    have := queueIndex_ne (q := q) hk h
    simp only [queueAt, queueIndex] at *
    simp only [Vector.get_eq_getElem]
    rw [Vector.getElem_set_ne]
    exact fun h => this h.symm
  · simp [queueAt, queueIndex, Vector.get_eq_getElem]

theorem queueOk_queueAppend {q : Queue} (e : QueueEntry) (h : QueueOk q) (hl : q.len < capSize q.cap) :
    QueueOk (queueAppend q e) := ⟨h.1, hl⟩

@[simp] theorem queueAppend_cap (q : Queue) (e : QueueEntry) : (queueAppend q e).cap = q.cap := rfl
@[simp] theorem queueAppend_len (q : Queue) (e : QueueEntry) : (queueAppend q e).len = q.len + 1 := rfl
@[simp] theorem queueAppend_front (q : Queue) (e : QueueEntry) : (queueAppend q e).front = q.front := rfl

@[simp] theorem pushedEntries_length (d : Word) (t : Tag) (w : BusWidth) :
    (pushedEntries d t w).length = widthBytes w := by cases w <;> rfl

theorem hasRoom_iff (q : Queue) (w : BusWidth) : hasRoom q w = true ↔ q.len + widthBytes w ≤ capSize q.cap := by
  simp [hasRoom]

/-- A push that is refused. -/
theorem queuePush_eq_none {q : Queue} {d : Word} {t : Tag} {w : BusWidth} :
    queuePush q d t w = none ↔ hasRoom q w = false := by
  unfold queuePush
  split
  · cases w <;> simp_all
  · simp_all

/-- Everything a push that is not refused does. -/
theorem queuePush_eq_some {q q' : Queue} {d : Word} {t : Tag} {w : BusWidth} (h : queuePush q d t w = some q') :
    hasRoom q w = true ∧ q'.cap = q.cap ∧ q'.front = q.front ∧ q'.len = q.len + widthBytes w ∧
      queueList q' = queueList q ++ pushedEntries d t w := by
  unfold queuePush at h
  split at h
  case isFalse => cases h
  case isTrue hr =>
    have hr' := (hasRoom_iff _ _).mp hr
    cases w <;> simp only [Option.some.injEq] at h <;> subst h <;> simp only [widthBytes] at hr'
    · exact ⟨hr, rfl, rfl, rfl, queueList_queueAppend _ (by omega)⟩
    · exact ⟨hr, rfl, rfl, rfl, queueList_queueAppend _ (by omega)⟩
    · refine ⟨hr, rfl, rfl, rfl, ?_⟩
      rw [queueList_queueAppend _ (by simpa using by omega), queueList_queueAppend _ (by omega)]
      simp [pushedEntries, validLanes]

theorem queueOk_queuePush {q q' : Queue} {d : Word} {t : Tag} {w : BusWidth} (hq : QueueOk q)
    (h : queuePush q d t w = some q') : QueueOk q' := by
  obtain ⟨hr, hc, hf, hl, -⟩ := queuePush_eq_some h
  have := (hasRoom_iff _ _).mp hr
  exact ⟨by rw [hc, hf]; exact hq.1, by rw [hc, hl]; exact this⟩

/-- The list of the queue from its second entry on. -/
theorem queueList_pop {q : Queue} (hl : q.len ≠ 0) :
    queueList q = queueAt q 0 :: queueList { q with front := (q.front + 1) % capSize q.cap, len := q.len - 1 } := by
  unfold queueList
  obtain ⟨n, hn⟩ := Nat.exists_eq_succ_of_ne_zero hl
  rw [hn, List.range_succ_eq_map, List.map_cons, List.map_map]
  simp only [Nat.succ_eq_add_one, Nat.add_sub_cancel, List.cons.injEq, true_and]
  refine List.map_congr_left fun k _ => ?_
  simp only [Function.comp, queueAt, queueIndex, Nat.mod_add_mod, Nat.succ_eq_add_one]
  congr 2
  rw [Nat.add_assoc, Nat.add_comm 1 k]

theorem queuePop_eq_none {q : Queue} : queuePop q = none ↔ q.len = 0 := by simp [queuePop]

/-- Everything a pop that finds an entry does. -/
theorem queuePop_eq_some {q q' : Queue} {e : QueueEntry} (h : queuePop q = some (e, q')) :
    queueList q = e :: queueList q' ∧ q'.cap = q.cap ∧ q'.front < capSize q'.cap ∧ q'.len + 1 = q.len := by
  unfold queuePop at h
  split at h
  · cases h
  · simp only [Option.some.injEq, Prod.mk.injEq] at h
    obtain ⟨rfl, rfl⟩ := h
    exact ⟨queueList_pop ‹_›, rfl, Nat.mod_lt _ (capSize_pos _), by simp only; omega⟩

theorem queueOk_reset (q : Queue) (c : QueueCap) : QueueOk (queueReset q c) := ⟨capSize_pos _, Nat.zero_le _⟩

theorem queueOk_flush (q : Queue) : QueueOk (queueFlush q) := ⟨capSize_pos _, Nat.zero_le _⟩

theorem queueOk_powerOn (c : QueueCap) : QueueOk (Queue.powerOn c) := ⟨capSize_pos _, Nat.zero_le _⟩

end Sys2Proof.Machine
end

