-- ==== Sys2Proof/Laws/Sequencer.lean ====
section
/-! SUPPORT. What each stage of an engine tick, and entering a phase, can change (46_phase_sequencer.md R310 to R340):
one equation for each shared operation, naming the fields it writes. -/

namespace Sys2Proof.Machine

open Sys2Proof

/-! ### Stages of the tick -/

/-- Steps 1 and 2 (46_phase_sequencer.md R310). -/
theorem State.advanceTick_eq (s : State) (p : Pins) :
    s.advanceTick p =
      ({ s with
          bc := controllerAfter s.cfg s.bc (decodeStatus s.cfg p.rawStatus p.statusValid).1 p.ready
          bcs := tickBusCycle s.cfg s.bcs p (tickLines s.cfg s.bc p)
          srv := { s.srv with tickCount := s.srv.tickCount + 1 }
          flags := if (decodeStatus s.cfg p.rawStatus p.statusValid).2 then { s.flags with statusReserved := true }
            else s.flags },
        tickResult s.cfg s.bcs p (tickLines s.cfg s.bc p)) := by
  unfold State.advanceTick State.cycleTick
  rw [State.flagIf_eq]
  rfl

/-- The word of a feed: the program's cursor, `mb_range` and the count of draws alone can change
(46_phase_sequencer.md R314). -/
theorem State.feedData_eq (s : State) (src : DataSource) (p : Pins) (d : Word) (g : Tag) :
    (s.feedData src p d g).1 = { s with
      ip := { s.ip with cursor := (s.feedData src p d g).1.ip.cursor }
      flags := { s.flags with mbRange := (s.feedData src p d g).1.flags.mbRange }
      freeCount := (s.feedData src p d g).1.freeCount } := by
  unfold State.feedData
  cases src <;> simp only
  · split <;> rfl
  · split
    · rw [s.busRead_eq]
      unfold State.busRead State.flagIf
      simp only [setAnomaly]
      split <;> rfl
    · rfl

/-- FEED (46_phase_sequencer.md R314). -/
theorem State.feed_eq (s : State) (src : DataSource) (p : Pins) (d : Word) (g : Tag) :
    s.feed src p d g = { s with
      ip := { s.ip with cursor := (s.feedData src p d g).1.ip.cursor }
      flags := { s.flags with mbRange := (s.feedData src p d g).1.flags.mbRange }
      freeCount := (s.feedData src p d g).1.freeCount
      bcs := { s.bcs with
        dataLatch := (s.feedData src p d g).2.1
        fedNprog := (s.feedData src p d g).2.2
        fed := true }
      xcvr := if src = .nobody then s.xcvr
        else xcvrSetTo s.xcvr .output s.bcs.busWidth (s.feedData src p d g).2.1
      srv := { s.srv with
        programEnded := s.srv.programEnded || servedFill s.bcs (s.feedData src p d g).2.2 s.srv.state } } := by
  have h := s.feedData_eq src p d g
  unfold State.feed
  generalize s.feedData src p d g = r at h
  obtain ⟨t, w, n⟩ := r
  simp only at h ⊢
  rw [h]
  by_cases hs : src = .nobody <;> cases servedFill s.bcs n s.srv.state <;>
    simp [hs, State.withXcvr, State.withBcs, State.withSrv]

@[simp] theorem State.feed_cfg (s : State) (src : DataSource) (p : Pins) (d : Word) (g : Tag) : (s.feed src p d g).cfg = s.cfg := by rw [State.feed_eq]
@[simp] theorem State.feed_bc (s : State) (src : DataSource) (p : Pins) (d : Word) (g : Tag) : (s.feed src p d g).bc = s.bc := by rw [State.feed_eq]
@[simp] theorem State.feed_q (s : State) (src : DataSource) (p : Pins) (d : Word) (g : Tag) : (s.feed src p d g).q = s.q := by rw [State.feed_eq]
@[simp] theorem State.feed_ipset (s : State) (src : DataSource) (p : Pins) (d : Word) (g : Tag) : (s.feed src p d g).ipset = s.ipset := by rw [State.feed_eq]
@[simp] theorem State.feed_mb (s : State) (src : DataSource) (p : Pins) (d : Word) (g : Tag) : (s.feed src p d g).mb = s.mb := by rw [State.feed_eq]
@[simp] theorem State.feed_log (s : State) (src : DataSource) (p : Pins) (d : Word) (g : Tag) : (s.feed src p d g).log = s.log := by rw [State.feed_eq]
@[simp] theorem State.feed_host (s : State) (src : DataSource) (p : Pins) (d : Word) (g : Tag) : (s.feed src p d g).host = s.host := by rw [State.feed_eq]
@[simp] theorem State.feed_resp (s : State) (src : DataSource) (p : Pins) (d : Word) (g : Tag) : (s.feed src p d g).resp = s.resp := by rw [State.feed_eq]

/-- The backend's part of CAPTURE_WRITE (46_phase_sequencer.md R315). -/
theorem State.storeWrite_eq (s : State) (src : DataSource) (old : BusCycle) (w : Word) :
    s.storeWrite src old w = { s with
      mb := (s.storeWrite src old w).mb, flags := (s.storeWrite src old w).flags } := by
  unfold State.storeWrite
  split
  · rw [State.busWrite_eq]
  · rfl

/-- CAPTURE_WRITE (46_phase_sequencer.md R315): the backend, three anomaly flags and the capture count. -/
theorem State.captureWrite_eq (s : State) (src : DataSource) (old : BusCycle) (w : Word) :
    s.captureWrite src old w = { s with
      mb := (s.storeWrite src old w).mb
      flags := { (s.storeWrite src old w).flags with
        storeAddr := (s.storeWrite src old w).flags.storeAddr ||
          (s.srv.state == .store && !storeAddrOk s.cfg old.addressLatch old.latchedStatus) }
      srv := { s.srv with stackCaptureCursor := s.srv.stackCaptureCursor +
        if s.srv.stackArmed = true ∧ old.latchedStatus = .memWrite then 1 else 0 } } := by
  have h := s.storeWrite_eq src old w
  unfold State.captureWrite
  simp only [State.flagIf_eq]
  revert h
  generalize s.storeWrite src old w = t
  intro h
  obtain ⟨m, f, rfl⟩ : ∃ m f, t = { s with mb := m, flags := f } := ⟨_, _, h⟩
  simp only
  cases (s.srv.state == .store && !storeAddrOk s.cfg old.addressLatch old.latchedStatus) <;>
    by_cases hc : s.srv.stackArmed = true ∧ old.latchedStatus = .memWrite <;>
    simp [hc, State.withSrv, setAnomaly]

/-- A bus write sets `mb_range` and `mb_full` alone among the flags. -/
theorem State.busPut_flags (s : State) (a : Nat) (b : Byte) :
    (s.busPut a b).flags = { s.flags with
      mbRange := s.flags.mbRange || !inBounds s.cfg s.mb a
      mbFull := s.flags.mbFull || hashFull s.cfg s.mb a } := by
  unfold State.busPut
  rw [State.flagIf_eq, State.flagIf_eq]
  cases inBounds s.cfg s.mb a <;> cases hashFull s.cfg s.mb a <;> simp [setAnomaly]

@[simp] theorem State.captureWrite_cfg (s : State) (src : DataSource) (old : BusCycle) (w : Word) : (s.captureWrite src old w).cfg = s.cfg := by rw [State.captureWrite_eq]
@[simp] theorem State.captureWrite_bcs (s : State) (src : DataSource) (old : BusCycle) (w : Word) : (s.captureWrite src old w).bcs = s.bcs := by rw [State.captureWrite_eq]
@[simp] theorem State.captureWrite_bc (s : State) (src : DataSource) (old : BusCycle) (w : Word) : (s.captureWrite src old w).bc = s.bc := by rw [State.captureWrite_eq]
@[simp] theorem State.captureWrite_xcvr (s : State) (src : DataSource) (old : BusCycle) (w : Word) : (s.captureWrite src old w).xcvr = s.xcvr := by rw [State.captureWrite_eq]
@[simp] theorem State.captureWrite_q (s : State) (src : DataSource) (old : BusCycle) (w : Word) : (s.captureWrite src old w).q = s.q := by rw [State.captureWrite_eq]
@[simp] theorem State.captureWrite_ip (s : State) (src : DataSource) (old : BusCycle) (w : Word) : (s.captureWrite src old w).ip = s.ip := by rw [State.captureWrite_eq]
@[simp] theorem State.captureWrite_ipset (s : State) (src : DataSource) (old : BusCycle) (w : Word) : (s.captureWrite src old w).ipset = s.ipset := by rw [State.captureWrite_eq]
@[simp] theorem State.captureWrite_log (s : State) (src : DataSource) (old : BusCycle) (w : Word) : (s.captureWrite src old w).log = s.log := by rw [State.captureWrite_eq]
@[simp] theorem State.captureWrite_host (s : State) (src : DataSource) (old : BusCycle) (w : Word) : (s.captureWrite src old w).host = s.host := by rw [State.captureWrite_eq]
@[simp] theorem State.captureWrite_resp (s : State) (src : DataSource) (old : BusCycle) (w : Word) : (s.captureWrite src old w).resp = s.resp := by rw [State.captureWrite_eq]
@[simp] theorem State.captureWrite_freeCount (s : State) (src : DataSource) (old : BusCycle) (w : Word) : (s.captureWrite src old w).freeCount = s.freeCount := by rw [State.captureWrite_eq]

section
variable (s : State) (old : BusCycle) (r : CycleResult) (p : Pins) (d : Word) (g : Tag)

/-! Step 3 (46_phase_sequencer.md R310). -/

@[simp] theorem State.dataStep_cfg : (s.dataStep old r p d g).cfg = s.cfg := by
  unfold State.dataStep; simp only; split <;> split <;> split <;> simp
@[simp] theorem State.dataStep_bc : (s.dataStep old r p d g).bc = s.bc := by
  unfold State.dataStep; simp only; split <;> split <;> split <;> simp
@[simp] theorem State.dataStep_q : (s.dataStep old r p d g).q = s.q := by
  unfold State.dataStep; simp only; split <;> split <;> split <;> simp
@[simp] theorem State.dataStep_ipset : (s.dataStep old r p d g).ipset = s.ipset := by
  unfold State.dataStep; simp only; split <;> split <;> split <;> simp
@[simp] theorem State.dataStep_log : (s.dataStep old r p d g).log = s.log := by
  unfold State.dataStep; simp only; split <;> split <;> split <;> simp
@[simp] theorem State.dataStep_host : (s.dataStep old r p d g).host = s.host := by
  unfold State.dataStep; simp only; split <;> split <;> split <;> simp
@[simp] theorem State.dataStep_resp : (s.dataStep old r p d g).resp = s.resp := by
  unfold State.dataStep; simp only; split <;> split <;> split <;> simp

/-- Whether this tick stores a byte through the backend (46_phase_sequencer.md R315). -/
def storesNow (s : State) (old : BusCycle) (r : CycleResult) : Bool :=
  r.ended && arbiter s.cfg s.srv.state == .backend && old.latchedStatus == .memWrite

theorem State.dataStep_bcs : (s.dataStep old r p d g).bcs =
    if feedsNow s old r then
      { s.bcs with
        dataLatch := (s.feedData (arbiter s.cfg s.srv.state) p d g).2.1
        fedNprog := (s.feedData (arbiter s.cfg s.srv.state) p d g).2.2
        fed := true }
    else s.bcs := by
  unfold State.dataStep; simp only; split <;> split <;> split <;> simp [State.feed_eq]

theorem State.dataStep_ip : (s.dataStep old r p d g).ip =
    if feedsNow s old r then
      { s.ip with cursor := (s.feedData (arbiter s.cfg s.srv.state) p d g).1.ip.cursor }
    else s.ip := by
  unfold State.dataStep; simp only; split <;> split <;> split <;> simp [State.feed_eq]

end

/-- What a bus write leaves in the backend depends on the configuration and the backend alone. -/
theorem State.busWrite_mb_congr {s t : State} (hc : s.cfg = t.cfg) (hm : s.mb = t.mb) (addr : Addr)
    (bhe bus16 : Bool) (w : Word) : (s.busWrite addr bhe bus16 w).mb = (t.busWrite addr bhe bus16 w).mb := by
  unfold State.busWrite
  split <;> simp [hc, hm]

theorem State.storeWrite_mb (s : State) (src : DataSource) (old : BusCycle) (w : Word) :
    (s.storeWrite src old w).mb =
      if src = .backend ∧ old.latchedStatus = .memWrite then
        (s.busWrite old.addressLatch (bheOf old) s.cfg.bus16 w).mb
      else s.mb := by
  unfold State.storeWrite; split <;> rfl

/-- The bus write of a store sets `mb_range` and `mb_full` alone among the flags, and clears neither. -/
theorem State.storeWrite_flags (s : State) (src : DataSource) (old : BusCycle) (w : Word) :
    ∃ a b : Bool, (s.storeWrite src old w).flags =
      { s.flags with mbRange := s.flags.mbRange || a, mbFull := s.flags.mbFull || b } := by
  unfold State.storeWrite
  split
  · unfold State.busWrite
    split
    · exact ⟨false, false, by simp⟩
    · simp only [State.busPut_flags, Bool.or_assoc]; exact ⟨_, _, rfl⟩
    · simp only [State.busPut_flags]; exact ⟨_, _, rfl⟩
    · simp only [State.busPut_flags]; exact ⟨_, _, rfl⟩
  · exact ⟨false, false, by simp⟩

/-- A feed sets `mb_range` alone among the flags, and does not clear it. -/
theorem State.feed_flags (s : State) (src : DataSource) (p : Pins) (d : Word) (g : Tag) :
    ∃ a : Bool, (s.feed src p d g).flags = { s.flags with mbRange := s.flags.mbRange || a } := by
  rw [State.feed_eq]
  unfold State.feedData
  cases src <;> simp only
  · split <;> exact ⟨false, by simp [State.readProgram, State.withIp, State.drawn]⟩
  · split
    · unfold State.busRead
      rw [State.flagIf_eq]
      simp only [State.drawn]
      split
      · exact ⟨true, by simp [setAnomaly]⟩
      · exact ⟨false, by simp⟩
    · exact ⟨false, by simp⟩
  · exact ⟨false, by simp⟩
  · exact ⟨false, by simp⟩

theorem State.feed_srv (s : State) (src : DataSource) (p : Pins) (d : Word) (g : Tag) :
    ∃ e : Bool, (s.feed src p d g).srv = { s.srv with programEnded := e } :=
  ⟨_, by rw [State.feed_eq]⟩

theorem State.feed_bcs (s : State) (src : DataSource) (p : Pins) (d : Word) (g : Tag) :
    (s.feed src p d g).bcs = { s.bcs with
      dataLatch := (s.feedData src p d g).2.1, fedNprog := (s.feedData src p d g).2.2, fed := true } := by
  rw [State.feed_eq]

section
variable (s : State) (old : BusCycle) (r : CycleResult) (p : Pins) (d : Word) (g : Tag)

theorem State.dataStep_mb : (s.dataStep old r p d g).mb =
    if storesNow s old r then (s.busWrite old.addressLatch (bheOf old) s.cfg.bus16 p.dataIn).mb else s.mb := by
  have hfeed : (if feedsNow s old r then s.feed (arbiter s.cfg s.srv.state) p d g else s).mb = s.mb := by
    split <;> simp
  have hcfg : (if feedsNow s old r then s.feed (arbiter s.cfg s.srv.state) p d g else s).cfg = s.cfg := by
    split <;> simp
  unfold State.dataStep
  simp only
  revert hfeed hcfg
  generalize (if feedsNow s old r then s.feed (arbiter s.cfg s.srv.state) p d g else s) = t
  intro hm hc
  have key : (if (r.ended && isWrite old.latchedStatus) = true then
      t.captureWrite (arbiter s.cfg s.srv.state) old p.dataIn else t).mb =
      if storesNow s old r then (s.busWrite old.addressLatch (bheOf old) s.cfg.bus16 p.dataIn).mb else s.mb := by
    unfold storesNow
    by_cases hb : arbiter s.cfg s.srv.state = .backend <;> by_cases hk : old.latchedStatus = .memWrite <;>
      cases r.ended <;>
      simp [State.captureWrite_eq, State.storeWrite_mb, hb, hk, hm, hc, State.busWrite_mb_congr hc hm, isWrite] <;>
      split <;> simp [hm]
  rw [← key]
  split <;> split <;> simp

theorem State.dataStep_srv : ∃ e : Bool, (s.dataStep old r p d g).srv = { s.srv with
    programEnded := e
    stackCaptureCursor := s.srv.stackCaptureCursor +
      if r.ended = true ∧ s.srv.stackArmed = true ∧ old.latchedStatus = .memWrite then 1 else 0 } := by
  have hfeed : ∃ e : Bool, (if feedsNow s old r then s.feed (arbiter s.cfg s.srv.state) p d g else s).srv =
      { s.srv with programEnded := e } := by
    split
    · exact State.feed_srv _ _ _ _ _
    · exact ⟨_, rfl⟩
  unfold State.dataStep
  simp only
  revert hfeed
  generalize (if feedsNow s old r then s.feed (arbiter s.cfg s.srv.state) p d g else s) = t
  rintro ⟨e, he⟩
  refine ⟨e, ?_⟩
  have key : (if (r.ended && isWrite old.latchedStatus) = true then
      t.captureWrite (arbiter s.cfg s.srv.state) old p.dataIn else t).srv = { s.srv with
      programEnded := e
      stackCaptureCursor := s.srv.stackCaptureCursor +
        if r.ended = true ∧ s.srv.stackArmed = true ∧ old.latchedStatus = .memWrite then 1 else 0 } := by
    cases hr : r.ended
    · simp [he]
    · by_cases hk : old.latchedStatus = .memWrite
      · simp [hk, isWrite, State.captureWrite_eq, he]
      · simp only [Bool.true_and, hk, and_false, if_false, Nat.add_zero]
        split <;> simp [State.captureWrite_eq, he, hk]
  rw [← key]
  split <;> split <;> simp

/-- Step 3 sets `mb_range`, `mb_full` and `store_addr` alone among the flags, and clears none. -/
theorem State.dataStep_flags : ∃ a b e : Bool, (s.dataStep old r p d g).flags = { s.flags with
    mbRange := s.flags.mbRange || a, mbFull := s.flags.mbFull || b, storeAddr := s.flags.storeAddr || e } := by
  have hfeed : ∃ a : Bool, (if feedsNow s old r then s.feed (arbiter s.cfg s.srv.state) p d g else s).flags =
      { s.flags with mbRange := s.flags.mbRange || a } := by
    split
    · exact State.feed_flags _ _ _ _ _
    · exact ⟨false, by simp⟩
  unfold State.dataStep
  simp only
  revert hfeed
  generalize (if feedsNow s old r then s.feed (arbiter s.cfg s.srv.state) p d g else s) = t
  rintro ⟨a, ha⟩
  have key : ∃ a b e : Bool, (if (r.ended && isWrite old.latchedStatus) = true then
      t.captureWrite (arbiter s.cfg s.srv.state) old p.dataIn else t).flags = { s.flags with
      mbRange := s.flags.mbRange || a, mbFull := s.flags.mbFull || b, storeAddr := s.flags.storeAddr || e } := by
    split
    · rw [State.captureWrite_eq]
      obtain ⟨a', b', h⟩ := t.storeWrite_flags (arbiter s.cfg s.srv.state) old p.dataIn
      simp only [h, ha, Bool.or_assoc]
      exact ⟨_, _, _, rfl⟩
    · exact ⟨a, false, false, by simp [ha]⟩
  obtain ⟨a, b, e, h⟩ := key
  refine ⟨a, b, e, ?_⟩
  rw [← h]
  split <;> split <;> simp

theorem State.dataStep_wf (h : s.mb.wf s.cfg = true) : (s.dataStep old r p d g).mb.wf s.cfg = true := by
  rw [State.dataStep_mb]
  split
  · exact State.busWrite_wf _ _ _ _ _ h
  · exact h

end

/-! ### Step 4 (46_phase_sequencer.md R316) -/

/-- A checked push: the queue and `queue_overflow` alone. -/
theorem State.pushChecked_eq (s : State) (w : Word) (g : Tag) (b : BusWidth) :
    s.pushChecked w g b = { s with
      q := (queuePush s.q w g b).getD s.q
      flags := { s.flags with queueOverflow := s.flags.queueOverflow || !hasRoom s.q b } } := by
  unfold State.pushChecked
  cases h : queuePush s.q w g b
  · rw [queuePush_eq_none.mp h]; simp [State.flagIf, setAnomaly]
  · rw [(queuePush_eq_some h).1]; simp [State.withQ]

/-- PUSH_FETCH: with room for every byte the bytes are appended with their tags, else `queue_overflow` is set. -/
theorem State.pushFetch_eq (s : State) (old : BusCycle) :
    s.pushFetch old = { s with
      q := (s.pushFetch old).q
      flags := { s.flags with
        queueOverflow := s.flags.queueOverflow || (old.widthValid && !hasRoom s.q old.busWidth) } } := by
  unfold State.pushFetch
  cases hv : old.widthValid
  · simp
  · cases hr : hasRoom s.q old.busWidth
    · simp [State.flagIf, setAnomaly]
    · simp only [Bool.not_true, Bool.false_eq_true, if_false]
      cases hw : old.busWidth <;> rw [hw] at hr <;> simp only
      · rw [State.pushChecked_eq]; simp [hr]
      · rw [State.pushChecked_eq]; simp [hr]
      · have h2 := (hasRoom_iff _ _).mp hr
        simp only [widthBytes] at h2
        split
        · have h1 : hasRoom s.q .eightLow = true := (hasRoom_iff _ _).mpr (by simp only [widthBytes]; omega)
          rw [State.pushChecked_eq, State.pushChecked_eq]
          simp only [h1]
          cases hq : queuePush s.q (byteWord (lowLane old.dataLatch)) .program .eightLow with
          | none => rw [queuePush_eq_none.mp hq] at h1; cases h1
          | some q =>
            obtain ⟨-, hc, -, hl, -⟩ := queuePush_eq_some hq
            have h3 : hasRoom q .eightLow = true := (hasRoom_iff _ _).mpr (by rw [hc, hl]; simp only [widthBytes]; omega)
            simp [h3]
        · rw [State.pushChecked_eq]; simp [hr]

/-- The entries PUSH_FETCH appends: program bytes first, each byte with its own tag (46_phase_sequencer.md R316). -/
def fetchedEntries (old : BusCycle) : List QueueEntry :=
  match old.busWidth with
  | .eightLow => [{ byte := lowLane old.dataLatch, tag := tagOf (decide (1 ≤ old.fedNprog)) }]
  | .eightHigh => [{ byte := highLane old.dataLatch, tag := tagOf (decide (1 ≤ old.fedNprog)) }]
  | .sixteen =>
    [{ byte := lowLane old.dataLatch, tag := tagOf (decide (old.fedNprog = 1 ∨ old.fedNprog = 2)) },
     { byte := highLane old.dataLatch, tag := tagOf (decide (old.fedNprog = 2)) }]

theorem State.pushChecked_of_room {s : State} {w : Word} {g : Tag} {b : BusWidth} (h : hasRoom s.q b = true) :
    ∃ q, queuePush s.q w g b = some q ∧ s.pushChecked w g b = s.withQ q := by
  cases hq : queuePush s.q w g b with
  | none => rw [queuePush_eq_none.mp hq] at h; cases h
  | some q => exact ⟨q, rfl, by simp [State.pushChecked, hq]⟩

/-- With room for every byte PUSH_FETCH appends them all. -/
theorem State.pushFetch_of_room {s : State} {old : BusCycle} (hv : old.widthValid = true)
    (hr : hasRoom s.q old.busWidth = true) : ∃ q, s.pushFetch old = s.withQ q ∧ q.cap = s.q.cap ∧
      (QueueOk s.q → QueueOk q) ∧ queueList q = queueList s.q ++ fetchedEntries old := by
  unfold State.pushFetch fetchedEntries
  simp only [hv, hr, Bool.not_true, Bool.false_eq_true, if_false]
  cases hw : old.busWidth <;> rw [hw] at hr <;> simp only
  · obtain ⟨q, hq, he⟩ := State.pushChecked_of_room (w := old.dataLatch)
      (g := tagOf (decide (1 ≤ old.fedNprog))) hr
    obtain ⟨-, hc, -, -, hl⟩ := queuePush_eq_some hq
    exact ⟨q, he, hc, fun h => queueOk_queuePush h hq, hl⟩
  · obtain ⟨q, hq, he⟩ := State.pushChecked_of_room (w := old.dataLatch)
      (g := tagOf (decide (1 ≤ old.fedNprog))) hr
    obtain ⟨-, hc, -, -, hl⟩ := queuePush_eq_some hq
    exact ⟨q, he, hc, fun h => queueOk_queuePush h hq, hl⟩
  · have h2 := (hasRoom_iff _ _).mp hr
    simp only [widthBytes] at h2
    split
    · have h1 : hasRoom s.q .eightLow = true := (hasRoom_iff _ _).mpr (by simp only [widthBytes]; omega)
      obtain ⟨q, hq, he⟩ := State.pushChecked_of_room (w := byteWord (lowLane old.dataLatch)) (g := .program) h1
      obtain ⟨-, hc, -, hn, hl⟩ := queuePush_eq_some hq
      have h3 : hasRoom (s.withQ q).q .eightLow = true :=
        (hasRoom_iff _ _).mpr (by simp only [State.withQ_q, widthBytes, hc, hn]; omega)
      obtain ⟨q', hq', he'⟩ := State.pushChecked_of_room (w := byteWord (highLane old.dataLatch))
        (g := .programEnd) h3
      obtain ⟨-, hc', -, -, hl'⟩ := queuePush_eq_some hq'
      refine ⟨q', by rw [he, he']; rfl, hc'.trans hc, fun h => queueOk_queuePush (queueOk_queuePush h hq) hq', ?_⟩
      rw [hl']
      simp only [State.withQ_q]
      rw [hl]
      simp [pushedEntries, validLanes, tagOf, *]
    · obtain ⟨q, hq, he⟩ := State.pushChecked_of_room (w := old.dataLatch)
        (g := tagOf (decide (old.fedNprog = 2))) hr
      obtain ⟨-, hc, -, -, hl⟩ := queuePush_eq_some hq
      refine ⟨q, he, hc, fun h => queueOk_queuePush h hq, ?_⟩
      rw [hl]
      simp [pushedEntries, validLanes, *]

/-- Without room, or without a valid lane, PUSH_FETCH leaves the queue. -/
theorem State.pushFetch_of_full {s : State} {old : BusCycle}
    (h : old.widthValid = false ∨ hasRoom s.q old.busWidth = false) : (s.pushFetch old).q = s.q := by
  unfold State.pushFetch
  rcases h with h | h
  · simp [h]
  · simp only [h, Bool.not_false, if_true]
    split <;> simp

theorem State.pushFetch_ok {s : State} {old : BusCycle} (h : QueueOk s.q) : QueueOk (s.pushFetch old).q := by
  cases hv : old.widthValid
  · rw [State.pushFetch_of_full (.inl hv)]; exact h
  · cases hr : hasRoom s.q old.busWidth
    · rw [State.pushFetch_of_full (.inr hr)]; exact h
    · obtain ⟨q, he, -, hq, -⟩ := State.pushFetch_of_room hv hr
      rw [he]; exact hq h

/-- Q_STATUS: the queue, `queue_underflow` and the count of draws alone. -/
theorem State.queueStatus_eq (s : State) (qs : QueueStatus) : ∃ e : Bool, (s.queueStatus qs).1 = { s with
    q := (s.queueStatus qs).1.q
    flags := { s.flags with queueUnderflow := s.flags.queueUnderflow || e }
    freeCount := (s.queueStatus qs).1.freeCount } := by
  have h : ∀ f, ∃ e : Bool, (s.retire f).1 = { s with
      q := (s.retire f).1.q
      flags := { s.flags with queueUnderflow := s.flags.queueUnderflow || e }
      freeCount := (s.retire f).1.freeCount } := by
    intro f
    unfold State.retire State.popQueue
    cases queuePop s.q with
    | none => exact ⟨true, by simp [State.flagIf, setAnomaly, State.drawn]⟩
    | some x => exact ⟨false, by simp [State.flagIf, State.withQ]⟩
  unfold State.queueStatus
  cases qs
  · exact ⟨false, by simp⟩
  · exact h true
  · exact ⟨false, by simp [State.withQ]⟩
  · exact h false

theorem State.queueStatus_ok {s : State} (qs : QueueStatus) (h : QueueOk s.q) : QueueOk (s.queueStatus qs).1.q := by
  have hr : ∀ f, QueueOk (s.retire f).1.q := by
    intro f
    unfold State.retire State.popQueue
    cases hq : queuePop s.q with
    | none => simpa [State.drawn] using h
    | some x =>
      obtain ⟨e, q⟩ := x
      obtain ⟨-, hc, hf, hl⟩ := queuePop_eq_some hq
      simp only [State.flagIf_q, State.withQ_q]
      exact ⟨hf, by rw [hc]; have := h.2; omega⟩
  unfold State.queueStatus
  cases qs
  · exact h
  · exact hr true
  · exact queueOk_flush _
  · exact hr false

section
variable (s : State) (old : BusCycle) (r : CycleResult) (p : Pins)

/-- The state after the CPU's queue status of a tick (46_phase_sequencer.md R310, step 4). -/
def State.statusTaken (s : State) (p : Pins) : State :=
  if s.cfg.qsAvail then (s.queueStatus (QueueStatus.ofBits p.qs)).1 else s

theorem State.queueStep_fst : (s.queueStep old r p).1 =
    if pushesNow old r then (s.statusTaken p).pushFetch old else s.statusTaken p := by
  unfold State.queueStep State.statusTaken
  cases s.cfg.qsAvail <;> rfl

theorem State.statusTaken_eq : ∃ e : Bool, s.statusTaken p = { s with
    q := (s.statusTaken p).q
    flags := { s.flags with queueUnderflow := s.flags.queueUnderflow || e }
    freeCount := (s.statusTaken p).freeCount } := by
  unfold State.statusTaken
  split
  · exact s.queueStatus_eq _
  · exact ⟨false, by simp⟩

/-- Step 4: the queue, two anomaly flags and the count of draws alone. -/
theorem State.queueStep_eq : ∃ e f : Bool, (s.queueStep old r p).1 = { s with
    q := (s.queueStep old r p).1.q
    flags := { s.flags with
      queueUnderflow := s.flags.queueUnderflow || e, queueOverflow := s.flags.queueOverflow || f }
    freeCount := (s.queueStep old r p).1.freeCount } := by
  rw [State.queueStep_fst]
  obtain ⟨e, he⟩ := s.statusTaken_eq p
  split
  · refine ⟨e, old.widthValid && !hasRoom (s.statusTaken p).q old.busWidth, ?_⟩
    rw [State.pushFetch_eq]
    revert he
    generalize s.statusTaken p = t
    intro he
    obtain ⟨q, f, rfl⟩ : ∃ q f, t = { s with
      q := q, flags := { s.flags with queueUnderflow := s.flags.queueUnderflow || e }, freeCount := f } := ⟨_, _, he⟩
    rfl
  · exact ⟨e, false, by rw [Bool.or_false]; exact he⟩

theorem State.queueStep_ok (h : QueueOk s.q) : QueueOk (s.queueStep old r p).1.q := by
  have ht : QueueOk (s.statusTaken p).q := by
    unfold State.statusTaken
    split
    · exact State.queueStatus_ok _ h
    · exact h
  rw [State.queueStep_fst]
  split
  · exact State.pushFetch_ok ht
  · exact ht

/-! ### Step 5 (46_phase_sequencer.md R317) -/

theorem State.logStep_eq : s.logStep old r p =
    ({ s with log := if r.ended = true ∧ old.latchedStatus ≠ .passive then
        logAppended s.log (cycleRecord old p.dataIn) else s.log },
      if r.ended then some (cycleRecord old p.dataIn) else none) := by
  unfold State.logStep
  rw [State.appendLog_eq]
  by_cases hk : old.latchedStatus = .passive <;> cases r.ended <;> simp [cycleRecord, hk]

end

/-! ### Entering a phase (46_phase_sequencer.md R332, R333) -/

/-- The exit actions reset the cursor, the checkpoints, or nothing. -/
theorem State.exitActions_eq (s : State) (target : ServerState) : s.exitActions target = { s with
    ip := (s.exitActions target).ip
    srv := if s.srv.state = .executeDone ∨ target = .reset then
        { s.srv with nmiFetchCount := 0, smiFetchCount := 0, stackCaptureCursor := 0 }
      else s.srv } := by
  unfold State.exitActions
  simp only
  split <;> split <;> simp_all [State.withIp, State.withSrv]

theorem State.exitActions_ip (s : State) (target : ServerState) :
    (s.exitActions target).ip = s.ip ∨ (s.exitActions target).ip = programReset s.ip := by
  unfold State.exitActions
  simp only
  split <;> split <;> simp [State.withIp, State.withSrv]

theorem State.selectFor_eq (s : State) (n : ProgName) :
    s.selectFor n = { s with ip := (programSelect s.cfg n (selectedImage s n)).getD s.ip } := by
  unfold State.selectFor
  cases programSelect s.cfg n (selectedImage s n) <;> rfl

/-- `enter(target)`: the program and the sequencer alone. -/
theorem State.enter_eq (s : State) (target : ServerState) : s.enter target = { s with
    ip := (s.enter target).ip
    srv := { (s.exitActions target).srv with
      state := target
      programEnded := if target = .execute then false else s.srv.programEnded
      stackArmed := if target = .executeDone then false else s.srv.stackArmed
      stalled := false } } := by
  have h := s.exitActions_eq target
  unfold State.enter
  revert h
  generalize s.exitActions target = t
  intro h
  obtain ⟨i, rfl⟩ : ∃ i, t = { s with
      ip := i
      srv := if s.srv.state = .executeDone ∨ target = .reset then
          { s.srv with nmiFetchCount := 0, smiFetchCount := 0, stackCaptureCursor := 0 }
        else s.srv } := ⟨_, h⟩
  simp only
  split
  · rw [State.selectFor_eq]
    split <;> rfl
  · split <;> rfl

/-- The exit action on the active program: a phase that owns one rewinds it, but for Prefetch to Execute. -/
theorem State.exitActions_ip_eq (s : State) (target : ServerState) : (s.exitActions target).ip =
    if ownsProgram s.cfg s.srv.loadFormat s.srv.state && !(s.srv.state == .prefetch && target == .execute) then
      programReset s.ip
    else s.ip := by
  unfold State.exitActions
  simp only
  split <;> split <;> simp_all

/-- A retry rewinds the program and ends the stall, a first command changes nothing (70_reset_and_hazards.md R453). -/
theorem State.rewindStalled_eq (s : State) : s.rewindStalled = { s with
    ip := if s.srv.stalled then programReset s.ip else s.ip
    srv := { s.srv with stalled := false } } := by
  unfold State.rewindStalled
  split <;> rfl

@[simp] theorem State.rewindStalled_cfg (s : State) : s.rewindStalled.cfg = s.cfg := by rw [State.rewindStalled_eq]
@[simp] theorem State.rewindStalled_bcs (s : State) : s.rewindStalled.bcs = s.bcs := by rw [State.rewindStalled_eq]
@[simp] theorem State.rewindStalled_bc (s : State) : s.rewindStalled.bc = s.bc := by rw [State.rewindStalled_eq]
@[simp] theorem State.rewindStalled_xcvr (s : State) : s.rewindStalled.xcvr = s.xcvr := by rw [State.rewindStalled_eq]
@[simp] theorem State.rewindStalled_q (s : State) : s.rewindStalled.q = s.q := by rw [State.rewindStalled_eq]
@[simp] theorem State.rewindStalled_ipset (s : State) : s.rewindStalled.ipset = s.ipset := by rw [State.rewindStalled_eq]
@[simp] theorem State.rewindStalled_mb (s : State) : s.rewindStalled.mb = s.mb := by rw [State.rewindStalled_eq]
@[simp] theorem State.rewindStalled_log (s : State) : s.rewindStalled.log = s.log := by rw [State.rewindStalled_eq]
@[simp] theorem State.rewindStalled_flags (s : State) : s.rewindStalled.flags = s.flags := by rw [State.rewindStalled_eq]
@[simp] theorem State.rewindStalled_host (s : State) : s.rewindStalled.host = s.host := by rw [State.rewindStalled_eq]
@[simp] theorem State.rewindStalled_resp (s : State) : s.rewindStalled.resp = s.resp := by rw [State.rewindStalled_eq]
@[simp] theorem State.rewindStalled_freeCount (s : State) : s.rewindStalled.freeCount = s.freeCount := by rw [State.rewindStalled_eq]
@[simp] theorem State.rewindStalled_ip (s : State) :
    s.rewindStalled.ip = if s.srv.stalled then programReset s.ip else s.ip := by rw [State.rewindStalled_eq]
@[simp] theorem State.rewindStalled_srv (s : State) : s.rewindStalled.srv = { s.srv with stalled := false } := by
  rw [State.rewindStalled_eq]

/-- The program `enter` leaves active: the one the phase selects, or what the exit action left. -/
theorem State.enter_ip (s : State) (target : ServerState) : (s.enter target).ip =
    match programOf s.cfg s.srv.loadFormat s.srv.state target with
    | some n => (programSelect s.cfg n (selectedImage s n)).getD (s.exitActions target).ip
    | none => (s.exitActions target).ip := by
  have h := s.exitActions_eq target
  unfold State.enter
  revert h
  generalize s.exitActions target = t
  intro h
  obtain ⟨i, rfl⟩ : ∃ i, t = { s with
      ip := i
      srv := if s.srv.state = .executeDone ∨ target = .reset then
          { s.srv with nmiFetchCount := 0, smiFetchCount := 0, stackCaptureCursor := 0 }
        else s.srv } := ⟨_, h⟩
  have hf : (if s.srv.state = .executeDone ∨ target = .reset then
      { s.srv with nmiFetchCount := 0, smiFetchCount := 0, stackCaptureCursor := 0 }
    else s.srv).loadFormat = s.srv.loadFormat := by split <;> rfl
  simp only [State.withSrv_cfg, State.withSrv_srv, hf]
  cases programOf s.cfg s.srv.loadFormat s.srv.state target with
  | none => rfl
  | some n => simp only [State.selectFor_eq]; rfl

theorem programOk_select {c : Config} {n : ProgName} {i : Image} {p : ActiveProgram}
    (h : programSelect c n i = some p) : ProgramOk c p := by
  unfold programSelect at h
  split at h
  · cases h
  · cases h
    exact ⟨Nat.zero_le _, by simp only; omega⟩

theorem State.selectFor_programOk {s : State} (n : ProgName) (h : ProgramOk s.cfg s.ip) :
    ProgramOk s.cfg (s.selectFor n).ip := by
  rw [State.selectFor_eq]
  simp only
  cases hp : programSelect s.cfg n (selectedImage s n) with
  | none => exact h
  | some p => exact programOk_select hp

theorem State.enter_programOk {s : State} (target : ServerState) (h : ProgramOk s.cfg s.ip) :
    ProgramOk s.cfg (s.enter target).ip := by
  have h1 : ProgramOk s.cfg (s.exitActions target).ip := by
    rcases s.exitActions_ip target with h1 | h1 <;> rw [h1]
    · exact h
    · exact ⟨Nat.zero_le _, h.2⟩
  have hc : (s.exitActions target).cfg = s.cfg := by rw [State.exitActions_eq]
  unfold State.enter
  simp only
  revert h1 hc
  generalize s.exitActions target = t
  intro h1 hc
  rw [← hc] at h1 ⊢
  split
  · exact State.selectFor_programOk (s := t.withSrv _) _ h1
  · exact h1

/-! ### Step 6 (46_phase_sequencer.md R320, R338) -/

/-- What entering a phase, and every part of PHASE_STEP, can do: the program, the sequencer and the last error change,
and a program that is in order stays so. -/
structure PhaseFrame (s t : State) : Prop where
  eq : t = { s with ip := t.ip, srv := t.srv, flags := { s.flags with lastError := t.flags.lastError } }
  program : ProgramOk s.cfg s.ip → ProgramOk s.cfg t.ip
  tickCount : t.srv.tickCount = s.srv.tickCount
  loadFormat : t.srv.loadFormat = s.srv.loadFormat

theorem PhaseFrame.cfg {s t : State} (h : PhaseFrame s t) : t.cfg = s.cfg := by rw [h.eq]

theorem PhaseFrame.refl (s : State) : PhaseFrame s s := ⟨rfl, id, rfl, rfl⟩

theorem PhaseFrame.trans {s t u : State} (h : PhaseFrame s t) (h' : PhaseFrame t u) : PhaseFrame s u := by
  refine ⟨?_, fun hp => ?_, h'.tickCount.trans h.tickCount, h'.loadFormat.trans h.loadFormat⟩
  · obtain ⟨i, v, f, rfl⟩ : ∃ i v f, t = { s with ip := i, srv := v, flags := { s.flags with lastError := f } } :=
      ⟨_, _, _, h.eq⟩
    rw [h'.eq]
  · have := h'.program (by rw [h.cfg]; exact h.program hp)
    rwa [h.cfg] at this

theorem PhaseFrame.withSrv (s : State) (v : Server) (h : v.tickCount = s.srv.tickCount := by rfl)
    (h' : v.loadFormat = s.srv.loadFormat := by rfl) : PhaseFrame s (s.withSrv v) := ⟨rfl, id, h, h'⟩

theorem PhaseFrame.recordError (s : State) (k : ErrorKind) : PhaseFrame s (s.recordError k) :=
  ⟨rfl, id, rfl, rfl⟩

theorem PhaseFrame.enter (s : State) (target : ServerState) : PhaseFrame s (s.enter target) :=
  ⟨by rw [State.enter_eq], State.enter_programOk target, by rw [State.enter_eq, State.exitActions_eq]; simp only; split <;> rfl,
    by rw [State.enter_eq, State.exitActions_eq]; simp only; split <;> rfl⟩

theorem PhaseFrame.enterError (s : State) : PhaseFrame s s.enterError :=
  ((PhaseFrame.recordError _ _).trans (PhaseFrame.withSrv _ _)).trans (PhaseFrame.enter _ _)

theorem PhaseFrame.stall (s : State) : PhaseFrame s s.stall :=
  (PhaseFrame.recordError _ _).trans (PhaseFrame.withSrv _ _)

theorem PhaseFrame.timeout (s : State) : PhaseFrame s s.timeout.1 := by
  unfold State.timeout
  split
  · exact PhaseFrame.enterError s
  · exact PhaseFrame.stall s

theorem PhaseFrame.advancePhase (s : State) (p : ServerState) : PhaseFrame s (s.advancePhase p) := by
  unfold State.advancePhase
  split
  · exact (PhaseFrame.withSrv _ _).trans (PhaseFrame.enter _ _)
  · exact PhaseFrame.refl _

theorem PhaseFrame.segmentEdge (s : State) (p : ServerState) (pins : Pins) (r : CycleResult) :
    PhaseFrame s (s.segmentEdge p pins r) := by
  unfold State.segmentEdge
  split
  · split
    · exact (PhaseFrame.withSrv _ _).trans (PhaseFrame.advancePhase _ _)
    · exact PhaseFrame.refl _
  · exact PhaseFrame.advancePhase _ _
  all_goals first
    | exact PhaseFrame.refl _
    | (split
       · exact PhaseFrame.advancePhase _ _
       · exact PhaseFrame.refl _)

theorem PhaseFrame.spendBudget (s : State) : PhaseFrame s s.spendBudget.1 := by
  unfold State.spendBudget
  split
  · exact PhaseFrame.refl _
  · split
    · exact (PhaseFrame.withSrv _ _).trans (PhaseFrame.timeout _)
    · exact PhaseFrame.withSrv _ _

theorem PhaseFrame.runSegment (s : State) (p : ServerState) (pins : Pins) (r : CycleResult) :
    PhaseFrame s (s.runSegment p pins r).1 := by
  unfold State.runSegment
  split
  · exact PhaseFrame.refl _
  · exact (PhaseFrame.segmentEdge _ _ _ _).trans (PhaseFrame.spendBudget _)

theorem PhaseFrame.countIdCycle (s : State) (r : CycleResult) : PhaseFrame s (s.countIdCycle r) := by
  unfold State.countIdCycle
  split
  · exact PhaseFrame.withSrv _ _
  · exact PhaseFrame.refl _

/-- Step 6 changes the program, the sequencer and the last error alone. -/
theorem PhaseFrame.phaseStep (s : State) (pins : Pins) (r : CycleResult) (qr : QueueReport) :
    PhaseFrame s (s.phaseStep pins r qr).1 := by
  refine (PhaseFrame.countIdCycle s r).trans ?_
  unfold State.phaseStep
  simp only
  split
  · exact PhaseFrame.enter (s.countIdCycle r) .done
  · split
    · exact PhaseFrame.enter (s.countIdCycle r) .executeFinalize
    · split
      · exact ((PhaseFrame.withSrv _ _).trans (PhaseFrame.enter _ _)).trans (PhaseFrame.runSegment _ _ _ _)
      · exact PhaseFrame.runSegment _ _ _ _

end Sys2Proof.Machine
end

