-- ==== Sys2Proof/Laws/Invariant.lean ====
section
/-! SUPPORT. What each component operation keeps of the parts of the invariant (10_state.md R42): the latches of the
bus-cycle machine and the fields of the sequencer. -/

namespace Sys2Proof.Machine

open Sys2Proof

/-! ### The bus-cycle machine -/

theorem addrSpace_even (c : Config) : addrSpace c % 2 = 0 := by
  unfold addrSpace addrLines; cases c.addrBits <;> rfl

theorem addrSpace_le (c : Config) : addrSpace c ≤ 2 ^ 32 := by
  unfold addrSpace addrLines; cases c.addrBits <;> decide

theorem maskAddr_toNat (c : Config) (a : Addr) : (maskAddr c a).toNat = addrOf c a := by
  have h1 := addrOf_lt c a
  have h2 := addrSpace_le c
  simp only [maskAddr, BitVec.toNat_ofNat]
  omega

theorem maskAddr_parity (c : Config) (a : Addr) : (maskAddr c a).toNat % 2 = a.toNat % 2 := by
  rw [maskAddr_toNat, addrOf]
  exact Nat.mod_mod_of_dvd _ (Nat.dvd_of_mod_eq_zero (addrSpace_even c))

theorem maskAddr_of_lt {c : Config} {a : Addr} (h : a.toNat < addrSpace c) : maskAddr c a = a := by
  apply BitVec.eq_of_toNat_eq
  rw [maskAddr_toNat, addrOf, Nat.mod_eq_of_lt h]

theorem busCycleOk_powerOn (c : Config) : BusCycleOk c BusCycle.powerOn where
  idle := by simp [BusCycle.powerOn]
  width := by rw [transferWidth_eq]; simp [BusCycle.powerOn, bheOf]
  address := by simpa [BusCycle.powerOn] using addrSpace_pos c
  fed := by simp [BusCycle.powerOn]
  nprog := by simp [BusCycle.powerOn]

/-- The value latched for a width recovers the byte-high-enable value that gave it. -/
theorem transferWidth_bheOf (c : Config) (a : Addr) (bhe : Bool) (b : BusCycle)
    (h : b.busWidth = (transferWidth a bhe c.bus16).1) :
    transferWidth (maskAddr c a) (bheOf b) c.bus16 = transferWidth a bhe c.bus16 := by
  rw [transferWidth_eq] at h
  rw [transferWidth_eq, transferWidth_eq, maskAddr_parity, bheOf, h]
  cases c.bus16
  · rfl
  · rcases Nat.mod_two_eq_zero_or_one a.toNat with hp | hp <;> cases bhe <;> simp [hp]

theorem busCycleOk_tick {c : Config} {b : BusCycle} (p : Pins) (l : CmdLines) (h : BusCycleOk c b) :
    BusCycleOk c (tickBusCycle c b p l) := by
  have hn : ∀ d, ∃ done, tickNext c b p d =
      nextCycle c.cycleVariant (.cycle b.tcycle) (decodeStatus c p.rawStatus p.statusValid).1 b.latchedStatus done :=
    fun d => ⟨_, rfl⟩
  obtain ⟨done, hn⟩ := hn l
  obtain ⟨h1, h2, h3, h4, h5⟩ := h
  unfold tickBusCycle
  generalize tickNext c b p l = n at hn
  generalize (decodeStatus c p.rawStatus p.statusValid).1 = st at hn
  simp only
  split
  · rename_i he
    refine ⟨?_, transferWidth_bheOf c p.addr p.bhe _ rfl, ?_, fun _ => rfl, h5⟩
    · rw [he.1]
      simp only [reduceCtorEq, false_iff]
      intro hp
      subst hp
      rw [he.1] at hn
      have he2 := he.2
      revert hn
      cases c.cycleVariant <;> cases ht : b.tcycle <;> cases done <;> simp_all [nextCycle, nextCycleFour, nextCycleTwo]
    · simp only [maskAddr_toNat]; exact addrOf_lt _ _
  · split
    · rename_i he
      refine ⟨?_, ?_, h3, ?_, h5⟩
      · simp [he.1]
      · exact h2
      · simp [he.1]
    · rename_i he1 he2
      refine ⟨?_, ?_, h3, ?_, h5⟩
      · simp only
        revert hn
        cases c.cycleVariant <;> cases ht : b.tcycle <;> cases done <;> by_cases hs : st = .passive <;>
          by_cases hl : b.latchedStatus = .passive <;> simp_all [nextCycle, nextCycleFour, nextCycleTwo]
      · exact h2
      · intro ht
        simp only at ht
        by_cases h6 : b.tcycle = .t1
        · exact h4 h6
        · exact absurd ⟨ht, h6⟩ he1

/-- A feed keeps the latches when the machine is not at T1 and the count is at most two. -/
theorem busCycleOk_fed {c : Config} {b : BusCycle} (h : BusCycleOk c b) (d : Word) (n : Nat) (hn : n ≤ 2)
    (ht : b.tcycle ≠ .t1) : BusCycleOk c { b with dataLatch := d, fedNprog := n, fed := true } where
  idle := h.idle
  width := h.width
  address := h.address
  fed := fun h' => absurd h' ht
  nprog := hn

theorem validBytes_le (b : BusCycle) : validBytes b ≤ 2 := by
  unfold validBytes widthBytes; split <;> (try split) <;> omega

/-- The count of program bytes a feed reports is at most the number of valid bytes. -/
theorem State.feedData_nprog (s : State) (src : DataSource) (p : Pins) (d : Word) (g : Tag) :
    (s.feedData src p d g).2.2 ≤ validBytes s.bcs := by
  unfold State.feedData
  cases src <;> simp only
  · cases hm : isMemoryRead s.bcs.latchedStatus <;> cases hv : s.bcs.widthValid <;>
      simp [State.readProgram, programRead, validBytes, hv]
    split <;> simp
  · split <;> simp
  · split <;> simp
  · simp

/-! ### The sequencer -/

/-- What the table of edges says of every successor (46_phase_sequencer.md R330). -/
theorem successor_spec {c : Config} {f : LoadFormat} {p t : ServerState} {rest : Bool}
    (h : successor c f p = some (t, rest)) :
    t ≠ .reset ∧ t ≠ .error ∧ p ≠ .execute ∧ isSegmentPhase p = true ∧ (isSegmentPhase t = true ∨ rest = true) ∧
      (p = .executeFinalize ∨ p = .emuExit → t = .emuExit ∨ t = .executeDone) := by
  cases p <;> simp only [successor] at h <;>
    (repeat' split at h) <;> cases h <;> simp [isSegmentPhase]

theorem State.exitActions_srv (s : State) (target : ServerState) : ∃ a b e : Nat, (s.exitActions target).srv =
    { s.srv with nmiFetchCount := a, smiFetchCount := b, stackCaptureCursor := e } ∧
    (b = s.srv.smiFetchCount ∨ b = 0) := by
  rw [State.exitActions_eq]
  simp only
  split
  · exact ⟨_, _, _, rfl, .inr rfl⟩
  · exact ⟨_, _, _, rfl, .inl rfl⟩

/-- The sequencer after entering a phase, the checkpoints aside. -/
theorem State.enter_srv (s : State) (target : ServerState) : ∃ a b e : Nat, (s.enter target).srv =
    { s.srv with
      nmiFetchCount := a
      smiFetchCount := b
      stackCaptureCursor := e
      state := target
      programEnded := if target = .execute then false else s.srv.programEnded
      stackArmed := if target = .executeDone then false else s.srv.stackArmed
      stalled := false } ∧
    (b = s.srv.smiFetchCount ∨ b = 0) := by
  obtain ⟨a, b, e, h, hb⟩ := s.exitActions_srv target
  exact ⟨a, b, e, by rw [State.enter_eq]; simp only [h], hb⟩

/-- Entering a phase keeps the sequencer's rule when the fields given for the phase agree with it. -/
theorem serverOk_enter {s : State} {c : Config} (target : ServerState)
    (budget : 0 < s.srv.budget → isSegmentPhase target = true)
    (nmi : s.srv.nmiOut = true → target = .execute ∧ 0 < s.srv.budget ∧ c.endStrategy = .nmiVector)
    (armed : s.srv.stackArmed = true → target ≠ .executeDone →
      target = .execute ∨ target = .executeFinalize ∨ target = .emuExit)
    (success : s.srv.resetResult.success = true ↔ target ≠ .reset ∧ target ≠ .error)
    (detected : s.srv.resetResult.bus16 = c.bus16 ∧ s.srv.resetResult.qsAvail = c.qsAvail)
    (vendor : c.bus16 = true → s.srv.cpuVendor = .unknown) (smi : s.srv.smiFetchCount = 0) :
    ServerOk c (s.enter target).srv := by
  obtain ⟨a, b, e, h, hb⟩ := s.enter_srv target
  rw [h]
  refine ⟨budget, nmi, ?_, success, detected, vendor, by rcases hb with hb | hb <;> simp [hb, smi], nofun⟩
  intro ha
  simp only at ha
  split at ha
  · cases ha
  · exact armed ha ‹_›

/-- Taking an edge keeps the sequencer's rule, the success of the reset aside. -/
theorem serverOk_advancePhase {s : State} {p t : ServerState} {rest : Bool}
    (ht : successor s.cfg s.srv.loadFormat p = some (t, rest))
    (nmi : s.srv.nmiOut = false)
    (armed : s.srv.stackArmed = true → p = .executeFinalize ∨ p = .emuExit)
    (success : s.srv.resetResult.success = true)
    (detected : s.srv.resetResult.bus16 = s.cfg.bus16 ∧ s.srv.resetResult.qsAvail = s.cfg.qsAvail)
    (vendor : s.cfg.bus16 = true → s.srv.cpuVendor = .unknown) (smi : s.srv.smiFetchCount = 0) :
    ServerOk s.cfg (s.advancePhase p).srv := by
  obtain ⟨h1, h2, h3, h4, h5, h6⟩ := successor_spec ht
  unfold State.advancePhase
  rw [ht]
  apply serverOk_enter
  · intro hb
    rcases h5 with h5 | h5
    · exact h5
    · simp [h5] at hb
  · intro hn; simp [nmi] at hn
  · intro ha hne
    rcases h6 (armed (by simpa using ha)) with h6 | h6
    · exact .inr (.inr h6)
    · exact absurd h6 hne
  · simp [success, h1, h2]
  · exact detected
  · intro hb
    simp only [State.withSrv_srv]
    split
    · simp only [classify, hb, if_true]; exact vendor hb
    · exact vendor hb
  · exact smi

theorem State.advancePhase_cfg (s : State) (p : ServerState) : (s.advancePhase p).cfg = s.cfg := by
  exact (PhaseFrame.advancePhase s p).cfg

theorem serverOk_segmentEdge {s : State} {p : ServerState} (pins : Pins) (r : CycleResult)
    (hp : s.srv.state = p) (h : ServerOk s.cfg s.srv) : ServerOk s.cfg (s.segmentEdge p pins r).srv := by
  have key : ∀ q, q = p → q ≠ .reset → ServerOk s.cfg (s.advancePhase q).srv := by
    intro q hq hr
    cases hs : successor s.cfg s.srv.loadFormat q with
    | none => unfold State.advancePhase; rw [hs]; exact h
    | some x =>
      obtain ⟨t, rest⟩ := x
      obtain ⟨-, h2, h3, h4, -, -⟩ := successor_spec hs
      refine serverOk_advancePhase hs ?_ ?_ ?_ h.detected h.vendor h.smi
      · cases hn : s.srv.nmiOut
        · rfl
        · exact absurd ((hq.trans hp.symm).trans (h.nmi hn).1) h3
      · intro ha
        rcases h.armed ha with ha | ha | ha
        · exact absurd ((hq.trans hp.symm).trans ha) h3
        · exact .inl ((hq.trans hp.symm).trans ha)
        · exact .inr ((hq.trans hp.symm).trans ha)
      · rw [h.success, hp, ← hq]
        refine ⟨hr, ?_⟩
        rintro rfl
        cases h4
  unfold State.segmentEdge
  cases p <;> simp only <;>
    first
    | exact h
    | (split
       · exact key _ rfl (by decide)
       · exact h)
    | exact key _ rfl (by decide)
    | skip
  split
  · cases hs : successor s.cfg s.srv.loadFormat .reset with
    | none =>
      simp only [successor] at hs
      split at hs <;> (try split at hs) <;> cases hs
    | some x =>
      obtain ⟨t, rest⟩ := x
      refine serverOk_advancePhase (s := s.withSrv { s.srv with
        resetResult := { s.srv.resetResult with success := true } }) hs ?_ ?_ rfl h.detected h.vendor h.smi
      · cases hn : s.srv.nmiOut
        · exact hn
        · have := (h.nmi hn).1; rw [hp] at this; cases this
      · intro ha
        have := h.armed ha
        rw [hp] at this
        simp at this
  · exact h

theorem serverOk_timeout {s : State} (h : ServerOk s.cfg { s.srv with budget := 1 }) (hb : s.srv.budget = 0) :
    ServerOk s.cfg s.timeout.1.srv := by
  unfold State.timeout
  cases hr : isResetPhase s.srv.state
  · simp only [Bool.false_eq_true, if_false, State.stall, State.withSrv_srv]
    exact ⟨by simp [hb], by simp, h.armed, h.success, h.detected, h.vendor, h.smi, fun _ => hb⟩
  · simp only [if_true, State.enterError]
    apply serverOk_enter
    · simp
    · simp
    · intro ha
      have := h.armed ha
      simp only at this
      rcases this with h1 | h1 | h1 <;> rw [h1] at hr <;> cases hr
    · simp
    · exact h.detected
    · exact h.vendor
    · exact h.smi

theorem serverOk_spendBudget {s : State} (h : ServerOk s.cfg s.srv) : ServerOk s.cfg s.spendBudget.1.srv := by
  unfold State.spendBudget
  split
  · exact h
  · split
    · refine serverOk_timeout (s := s.withSrv { s.srv with budget := 0 }) ?_ rfl
      exact ⟨fun _ => h.budget (by omega), fun hn => ⟨(h.nmi hn).1, by simp, (h.nmi hn).2.2⟩, h.armed, h.success,
        h.detected, h.vendor, h.smi, fun hs => by have := h.stalled hs; omega⟩
    · exact ⟨fun _ => h.budget (by omega),
        fun hn => ⟨(h.nmi hn).1, by simp only [State.withSrv_srv]; omega, (h.nmi hn).2.2⟩,
        h.armed, h.success, h.detected, h.vendor, h.smi, fun hs => by have := h.stalled hs; omega⟩

theorem serverOk_runSegment {s : State} {p : ServerState} (pins : Pins) (r : CycleResult) (hp : s.srv.state = p)
    (h : ServerOk s.cfg s.srv) : ServerOk s.cfg (s.runSegment p pins r).1.srv := by
  unfold State.runSegment
  split
  · exact h
  · have h1 := serverOk_segmentEdge pins r hp h
    have h2 : (s.segmentEdge p pins r).cfg = s.cfg := (PhaseFrame.segmentEdge s p pins r).cfg
    rw [← h2] at h1 ⊢
    exact serverOk_spendBudget h1

theorem State.enter_cfg (s : State) (t : ServerState) : (s.enter t).cfg = s.cfg := by rw [State.enter_eq]

@[simp] theorem State.enter_state (s : State) (t : ServerState) : (s.enter t).srv.state = t := by rw [State.enter_eq]

theorem serverOk_phaseStep {s : State} (pins : Pins) (r : CycleResult) (qr : QueueReport)
    (h : ServerOk s.cfg s.srv) : ServerOk s.cfg (s.phaseStep pins r qr).1.srv := by
  have hc : (s.countIdCycle r).cfg = s.cfg := (PhaseFrame.countIdCycle s r).cfg
  have h' : ServerOk s.cfg (s.countIdCycle r).srv := by
    unfold State.countIdCycle
    split
    · exact ⟨h.budget, h.nmi, h.armed, h.success, h.detected, h.vendor, h.smi, h.stalled⟩
    · exact h
  unfold State.phaseStep
  simp only
  revert h' hc
  generalize s.countIdCycle r = t
  intro hc h'
  rw [← hc] at h' ⊢
  split
  · rename_i hs
    show ServerOk t.cfg (t.enter .done).srv
    apply serverOk_enter
    · intro hb; have := h'.budget hb; rw [hs] at this; cases this
    · intro hn; have := (h'.nmi hn).1; rw [hs] at this; cases this
    · intro ha; have := h'.armed ha; rw [hs] at this; simp at this
    · rw [h'.success, hs]; simp
    · exact h'.detected
    · exact h'.vendor
    · exact h'.smi
  · split
    · rename_i hs
      show ServerOk t.cfg (t.enter .executeFinalize).srv
      apply serverOk_enter
      · intro _; rfl
      · intro hn
        have := (h'.nmi hn).2.2
        simp [queueTagEdge, this] at hs
      · intro _ _; exact .inr (.inl rfl)
      · rw [h'.success, hs.1]; simp
      · exact h'.detected
      · exact h'.vendor
      · exact h'.smi
    · split
      · rename_i hs
        have h2 : ServerOk t.cfg ((t.withSrv { t.srv with
            nmiFetchCount := t.srv.nmiFetchCount + 1, nmiOut := false }).enter .executeFinalize).srv := by
          apply serverOk_enter
          · intro _; rfl
          · intro hn; cases hn
          · intro _ _; exact .inr (.inl rfl)
          · simp only [State.withSrv_srv]; rw [h'.success, hs.1]; simp
          · exact h'.detected
          · exact h'.vendor
          · exact h'.smi
        have h3 : ((t.withSrv { t.srv with
            nmiFetchCount := t.srv.nmiFetchCount + 1, nmiOut := false }).enter .executeFinalize).cfg = t.cfg := by
          rw [State.enter_cfg]; rfl
        rw [← h3] at h2 ⊢
        exact serverOk_runSegment pins r (State.enter_state _ _) h2
      · exact serverOk_runSegment pins r rfl h'

end Sys2Proof.Machine
end

