-- ==== Sys2Proof/Laws/Engine.lean ====
section
/-! SUPPORT. What a whole engine tick does to each field, stage by stage (46_phase_sequencer.md R310): the provers cite
these instead of unfolding `engineTick`. -/

namespace Sys2Proof.Machine

open Sys2Proof

section
variable (s : State) (p : Pins) (d : Word) (g : Tag)

/-- The result of CYCLE_TICK in a tick. -/
def tickCycle (s : State) (p : Pins) : CycleResult := tickResult s.cfg s.bcs p (tickLines s.cfg s.bc p)

/-- The state after steps 1 and 2 of a tick. -/
def afterAdvance (s : State) (p : Pins) : State := (s.advanceTick p).1

/-- The state after step 3. -/
def afterData (s : State) (p : Pins) (d : Word) (g : Tag) : State :=
  (afterAdvance s p).dataStep s.bcs (tickCycle s p) p d g

/-- The state after step 4. -/
def afterQueue (s : State) (p : Pins) (d : Word) (g : Tag) : State :=
  ((afterData s p d g).queueStep s.bcs (tickCycle s p) p).1

/-- What the CPU's queue status reported in step 4. -/
def tickReport (s : State) (p : Pins) (d : Word) (g : Tag) : QueueReport :=
  ((afterData s p d g).queueStep s.bcs (tickCycle s p) p).2

/-- The state after step 5. -/
def afterLog (s : State) (p : Pins) (d : Word) (g : Tag) : State :=
  ((afterQueue s p d g).logStep s.bcs (tickCycle s p) p).1

theorem afterAdvance_eq : afterAdvance s p =
    { s with
      bc := controllerAfter s.cfg s.bc (decodeStatus s.cfg p.rawStatus p.statusValid).1 p.ready
      bcs := tickBusCycle s.cfg s.bcs p (tickLines s.cfg s.bc p)
      srv := { s.srv with tickCount := s.srv.tickCount + 1 }
      flags := if (decodeStatus s.cfg p.rawStatus p.statusValid).2 then { s.flags with statusReserved := true }
        else s.flags } := by
  unfold afterAdvance; rw [State.advanceTick_eq]

/-- A tick is PHASE_STEP after the five stages. -/
theorem engineTick_eq : engineTick s p d g =
    { state := ((afterLog s p d g).phaseStep p (tickCycle s p) (tickReport s p d g)).1
      err := ((afterLog s p d g).phaseStep p (tickCycle s p) (tickReport s p d g)).2
      event := if (tickCycle s p).ended then some (cycleRecord s.bcs p.dataIn) else none } := by
  have h : (s.advanceTick p).2 = tickCycle s p := by rw [State.advanceTick_eq]; rfl
  unfold engineTick afterLog afterQueue tickReport afterData afterAdvance
  simp only [h]
  rw [State.logStep_eq]

@[simp] theorem afterData_cfg : (afterData s p d g).cfg = s.cfg := by
  unfold afterData; rw [State.dataStep_cfg, afterAdvance_eq]

@[simp] theorem afterData_q : (afterData s p d g).q = s.q := by
  unfold afterData; rw [State.dataStep_q, afterAdvance_eq]

theorem afterData_mb : (afterData s p d g).mb =
    if (tickCycle s p).ended = true ∧ arbiter s.cfg s.srv.state = .backend ∧ s.bcs.latchedStatus = .memWrite then
      (s.busWrite s.bcs.addressLatch (bheOf s.bcs) s.cfg.bus16 p.dataIn).mb
    else s.mb := by
  unfold afterData
  rw [State.dataStep_mb]
  have h1 : (afterAdvance s p).cfg = s.cfg := by rw [afterAdvance_eq]
  have h2 : (afterAdvance s p).mb = s.mb := by rw [afterAdvance_eq]
  have h3 : (afterAdvance s p).srv.state = s.srv.state := by rw [afterAdvance_eq]
  rw [State.busWrite_mb_congr h1 h2, h1, h2]
  simp only [storesNow, h1, h3, Bool.and_eq_true, beq_iff_eq, and_assoc]

theorem afterData_bcs : ∃ (w : Word) (n : Nat) (f : Bool), (afterData s p d g).bcs =
    { tickBusCycle s.cfg s.bcs p (tickLines s.cfg s.bc p) with dataLatch := w, fedNprog := n, fed := f } := by
  unfold afterData
  rw [State.dataStep_bcs]
  have h1 : (afterAdvance s p).bcs = tickBusCycle s.cfg s.bcs p (tickLines s.cfg s.bc p) := by rw [afterAdvance_eq]
  rw [h1]
  split
  · exact ⟨_, _, _, rfl⟩
  · exact ⟨_, _, _, rfl⟩

theorem afterData_srv : ∃ e : Bool, (afterData s p d g).srv =
    { s.srv with
      tickCount := s.srv.tickCount + 1
      programEnded := e
      stackCaptureCursor := s.srv.stackCaptureCursor +
        if (tickCycle s p).ended = true ∧ s.srv.stackArmed = true ∧ s.bcs.latchedStatus = .memWrite then 1 else 0 } := by
  unfold afterData
  have h1 : (afterAdvance s p).srv = { s.srv with tickCount := s.srv.tickCount + 1 } := by rw [afterAdvance_eq]
  obtain ⟨e, he⟩ := (afterAdvance s p).dataStep_srv s.bcs (tickCycle s p) p d g
  exact ⟨e, by rw [he, h1]⟩

/-- Steps 4 and 5 leave every field but the queue, the log, two anomaly flags and the count of draws. -/
theorem afterLog_eq : ∃ e f : Bool, afterLog s p d g = { afterData s p d g with
    q := (afterQueue s p d g).q
    flags := { (afterData s p d g).flags with
      queueUnderflow := (afterData s p d g).flags.queueUnderflow || e
      queueOverflow := (afterData s p d g).flags.queueOverflow || f }
    freeCount := (afterQueue s p d g).freeCount
    log := if (tickCycle s p).ended = true ∧ s.bcs.latchedStatus ≠ .passive then
        logAppended s.log (cycleRecord s.bcs p.dataIn) else s.log } := by
  obtain ⟨e, f, h⟩ := (afterData s p d g).queueStep_eq s.bcs (tickCycle s p) p
  refine ⟨e, f, ?_⟩
  have hlog : (afterData s p d g).log = s.log := by unfold afterData; rw [State.dataStep_log, afterAdvance_eq]
  unfold afterLog
  rw [State.logStep_eq]
  have h' : afterQueue s p d g = { afterData s p d g with
      q := (afterQueue s p d g).q
      flags := { (afterData s p d g).flags with
        queueUnderflow := (afterData s p d g).flags.queueUnderflow || e
        queueOverflow := (afterData s p d g).flags.queueOverflow || f }
      freeCount := (afterQueue s p d g).freeCount } := h
  have hq : (afterQueue s p d g).log = s.log := by rw [h']; exact hlog
  rw [hq]
  generalize afterQueue s p d g = u at h' ⊢
  generalize afterData s p d g = v at h' ⊢
  obtain ⟨q, n, rfl⟩ : ∃ q n, u = { v with
      q := q
      flags := { v.flags with
        queueUnderflow := v.flags.queueUnderflow || e, queueOverflow := v.flags.queueOverflow || f }
      freeCount := n } := ⟨_, _, h'⟩
  rfl

/-- The queue of step 4: the CPU's queue status taken from the queue before the tick, then the fetched bytes
(46_phase_sequencer.md R316, R318). -/
theorem afterQueue_q : (afterQueue s p d g).q =
    if pushesNow s.bcs (tickCycle s p) then (((afterData s p d g).statusTaken p).pushFetch s.bcs).q
    else ((afterData s p d g).statusTaken p).q := by
  unfold afterQueue
  rw [State.queueStep_fst]
  split <;> rfl

/-- Step 4's `queue_underflow` is the CPU's queue status's: a push leaves it (46_phase_sequencer.md R316). -/
theorem afterQueue_underflow : (afterQueue s p d g).flags.queueUnderflow =
    ((afterData s p d g).statusTaken p).flags.queueUnderflow := by
  unfold afterQueue
  rw [State.queueStep_fst]
  split
  · rw [State.pushFetch_eq]
  · rfl

/-- Everything a tick does to the state, the sequencer and the program aside. -/
theorem engineTick_state : ∃ e f : Bool, (engineTick s p d g).state = { afterData s p d g with
    q := (afterQueue s p d g).q
    flags := { (afterData s p d g).flags with
      queueUnderflow := (afterData s p d g).flags.queueUnderflow || e
      queueOverflow := (afterData s p d g).flags.queueOverflow || f
      lastError := (engineTick s p d g).state.flags.lastError }
    freeCount := (afterQueue s p d g).freeCount
    log := if (tickCycle s p).ended = true ∧ s.bcs.latchedStatus ≠ .passive then
        logAppended s.log (cycleRecord s.bcs p.dataIn) else s.log
    ip := (engineTick s p d g).state.ip
    srv := (engineTick s p d g).state.srv } := by
  obtain ⟨e, f, h⟩ := afterLog_eq s p d g
  refine ⟨e, f, ?_⟩
  rw [engineTick_eq]
  simp only
  have hf := (PhaseFrame.phaseStep (afterLog s p d g) p (tickCycle s p) (tickReport s p d g)).eq
  generalize ((afterLog s p d g).phaseStep p (tickCycle s p) (tickReport s p d g)).1 = t at hf
  generalize afterLog s p d g = u at hf h
  rw [hf, h]

/-- The flags after step 3: the reserved-status flag of the tick and the backend's, none cleared. -/
theorem afterData_flags : ∃ a b e : Bool, (afterData s p d g).flags =
    { s.flags with
      statusReserved := s.flags.statusReserved || (decodeStatus s.cfg p.rawStatus p.statusValid).2
      mbRange := s.flags.mbRange || a
      mbFull := s.flags.mbFull || b
      storeAddr := s.flags.storeAddr || e } := by
  obtain ⟨a, b, e, h⟩ := (afterAdvance s p).dataStep_flags s.bcs (tickCycle s p) p d g
  refine ⟨a, b, e, ?_⟩
  unfold afterData
  rw [h, afterAdvance_eq]
  cases (decodeStatus s.cfg p.rawStatus p.statusValid).2 <;> simp

theorem State.captureWrite_storeAddr (u : State) (src : DataSource) (old : BusCycle) (w : Word) :
    (u.captureWrite src old w).flags.storeAddr =
      (u.flags.storeAddr || (u.srv.state == .store && !storeAddrOk u.cfg old.addressLatch old.latchedStatus)) := by
  rw [State.captureWrite_eq]
  obtain ⟨a, b, h⟩ := u.storeWrite_flags src old w
  simp only [h]

/-- Step 3 sets `store_addr` exactly for a write cycle that ends in Store where it is not expected
(46_phase_sequencer.md R337). -/
theorem afterData_storeAddr : (afterData s p d g).flags.storeAddr =
    (s.flags.storeAddr || ((tickCycle s p).ended && isWrite s.bcs.latchedStatus && s.srv.state == .store &&
      !storeAddrOk s.cfg s.bcs.addressLatch s.bcs.latchedStatus)) := by
  have h0 : (afterAdvance s p).flags.storeAddr = s.flags.storeAddr := by
    rw [afterAdvance_eq]; simp only; split <;> rfl
  have h1 : (afterAdvance s p).cfg = s.cfg := by rw [afterAdvance_eq]
  have h2 : (afterAdvance s p).srv.state = s.srv.state := by rw [afterAdvance_eq]
  have hf : ∃ u : State, (if feedsNow (afterAdvance s p) s.bcs (tickCycle s p) then
        (afterAdvance s p).feed (arbiter s.cfg s.srv.state) p d g else afterAdvance s p) = u ∧
      u.flags.storeAddr = s.flags.storeAddr ∧ u.cfg = s.cfg ∧ u.srv.state = s.srv.state := by
    refine ⟨_, rfl, ?_⟩
    split
    · obtain ⟨e, he⟩ := State.feed_srv (afterAdvance s p) (arbiter s.cfg s.srv.state) p d g
      obtain ⟨a, ha⟩ := State.feed_flags (afterAdvance s p) (arbiter s.cfg s.srv.state) p d g
      exact ⟨by rw [ha]; exact h0, by rw [State.feed_cfg, h1], by rw [he]; exact h2⟩
    · exact ⟨h0, h1, h2⟩
  obtain ⟨u, hu, k1, k2, k3⟩ := hf
  unfold afterData State.dataStep
  simp only [h1, h2, hu]
  cases hw : ((tickCycle s p).ended && isWrite s.bcs.latchedStatus)
  · simp only [Bool.false_eq_true, if_false, Bool.false_and, Bool.or_false]
    split <;> simp [k1]
  · have := u.captureWrite_storeAddr (arbiter s.cfg s.srv.state) s.bcs p.dataIn
    rw [k1, k2, k3] at this
    simp only [if_true, Bool.true_and, ← this]
    split <;> simp

/-- Step 3 leaves `program_ended`, but for a feed. -/
theorem afterData_programEnded (hf : feedsNow (afterAdvance s p) s.bcs (tickCycle s p) = false) :
    (afterData s p d g).srv.programEnded = s.srv.programEnded := by
  have h1 : (afterAdvance s p).srv.programEnded = s.srv.programEnded := by rw [afterAdvance_eq]
  unfold afterData State.dataStep
  simp only [hf, Bool.false_eq_true, if_false]
  split <;> split <;> simp [State.captureWrite_eq, h1]

/-- A bus write's `mb_range` and `mb_full` depend on the configuration, the backend and those two flags alone. -/
theorem State.busWrite_flags_congr {u v : State} (hc : u.cfg = v.cfg) (hm : u.mb = v.mb)
    (hr : u.flags.mbRange = v.flags.mbRange) (hf : u.flags.mbFull = v.flags.mbFull) (addr : Addr) (bhe bus16 : Bool)
    (w : Word) : (u.busWrite addr bhe bus16 w).flags.mbRange = (v.busWrite addr bhe bus16 w).flags.mbRange ∧
      (u.busWrite addr bhe bus16 w).flags.mbFull = (v.busWrite addr bhe bus16 w).flags.mbFull := by
  unfold State.busWrite
  split <;> simp [State.busPut_flags, hc, hm, hr, hf]

/-- A feed's `mb_range` is that of the backend's read, when the backend serves a memory read
(46_phase_sequencer.md R314, 44_memory_backend.md R246). -/
theorem State.feed_mbRange (u : State) (src : DataSource) : (u.feed src p d g).flags.mbRange =
    if src = .backend ∧ isMemoryRead u.bcs.latchedStatus = true then
      (u.busRead u.bcs.addressLatch (bheOf u.bcs) u.cfg.bus16).1.flags.mbRange
    else u.flags.mbRange := by
  rw [State.feed_eq]
  unfold State.feedData
  cases src <;> simp only
  · split <;> simp [State.readProgram]
  · split
    · rename_i h; simp [h]
    · rename_i h; simp [h]
  · simp
  · simp

/-- Step 3's `mb_range` and `mb_full`: those of the bus write that a served write cycle makes, or of the bus read of a
feed (46_phase_sequencer.md R314, R315; 44_memory_backend.md R246, R247). -/
theorem afterData_mbFlags :
    (storesNow (afterAdvance s p) s.bcs (tickCycle s p) = true →
      feedsNow (afterAdvance s p) s.bcs (tickCycle s p) = false →
      (afterData s p d g).flags.mbRange =
          (s.busWrite s.bcs.addressLatch (bheOf s.bcs) s.cfg.bus16 p.dataIn).flags.mbRange ∧
        (afterData s p d g).flags.mbFull =
          (s.busWrite s.bcs.addressLatch (bheOf s.bcs) s.cfg.bus16 p.dataIn).flags.mbFull) ∧
    (storesNow (afterAdvance s p) s.bcs (tickCycle s p) = false →
      (afterData s p d g).flags.mbFull = s.flags.mbFull ∧
      (afterData s p d g).flags.mbRange =
        if feedsNow (afterAdvance s p) s.bcs (tickCycle s p) then
          ((afterAdvance s p).feed (arbiter s.cfg s.srv.state) p d g).flags.mbRange
        else s.flags.mbRange) := by
  have h0 : (afterAdvance s p).cfg = s.cfg ∧ (afterAdvance s p).mb = s.mb ∧
      (afterAdvance s p).srv.state = s.srv.state ∧ (afterAdvance s p).flags.mbRange = s.flags.mbRange ∧
      (afterAdvance s p).flags.mbFull = s.flags.mbFull := by
    rw [afterAdvance_eq]; refine ⟨rfl, rfl, rfl, ?_, ?_⟩ <;> simp only <;> split <;> rfl
  obtain ⟨hc, hm, hs, hr, hf⟩ := h0
  unfold afterData State.dataStep storesNow
  simp only [hc, hs]
  refine ⟨fun h1 h2 => ?_, fun h1 => ?_⟩
  · simp only [Bool.and_eq_true, beq_iff_eq] at h1
    obtain ⟨⟨h1, h3⟩, h4⟩ := h1
    have hw := State.busWrite_flags_congr hc hm hr hf s.bcs.addressLatch (bheOf s.bcs) s.cfg.bus16 p.dataIn
    simp only [h2, Bool.false_eq_true, if_false, h1, h3, h4, isWrite, Bool.and_self, if_true]
    split <;> simpa [State.captureWrite_eq, State.storeWrite, h4, hc] using hw
  · have hn : ∀ u : State, u.cfg = s.cfg →
        (if ((tickCycle s p).ended && isWrite s.bcs.latchedStatus) = true then
          u.captureWrite (arbiter s.cfg s.srv.state) s.bcs p.dataIn else u).flags.mbRange = u.flags.mbRange ∧
        (if ((tickCycle s p).ended && isWrite s.bcs.latchedStatus) = true then
          u.captureWrite (arbiter s.cfg s.srv.state) s.bcs p.dataIn else u).flags.mbFull = u.flags.mbFull := by
      intro u hu
      split
      · rename_i hw
        simp only [Bool.and_eq_true] at hw
        have : ¬(arbiter s.cfg s.srv.state = .backend ∧ s.bcs.latchedStatus = .memWrite) := by
          rintro ⟨a, b⟩; simp [a, b, hw.1] at h1
        simp [State.captureWrite_eq, State.storeWrite, this]
      · exact ⟨rfl, rfl⟩
    obtain ⟨a, ha⟩ := State.feed_flags (afterAdvance s p) (arbiter s.cfg s.srv.state) p d g
    cases hfe : feedsNow (afterAdvance s p) s.bcs (tickCycle s p)
    · obtain ⟨k1, k2⟩ := hn (afterAdvance s p) hc
      simp only [apply_ite State.flags] at k1 k2
      simp only [Bool.false_eq_true, if_false, apply_ite State.flags, State.withXcvr_flags, ite_self]
      exact ⟨k2.trans hf, k1.trans hr⟩
    · obtain ⟨k1, k2⟩ := hn ((afterAdvance s p).feed (arbiter s.cfg s.srv.state) p d g) (by simp [hc])
      have hff : ((afterAdvance s p).feed (arbiter s.cfg s.srv.state) p d g).flags.mbFull = s.flags.mbFull := by
        rw [ha]; exact hf
      simp only [apply_ite State.flags] at k1 k2
      simp only [if_true, apply_ite State.flags, State.withXcvr_flags, ite_self]
      exact ⟨k2.trans hff, k1⟩

/-- Step 3 drives the transceiver by a feed and returns it to Input at the end of the cycle, width and data kept
(46_phase_sequencer.md R314, R319). -/
theorem afterData_xcvr : (afterData s p d g).xcvr =
    (if releasesBus s.cfg.cycleVariant s.bcs.tcycle (tickCycle s p).ended then
      { (if feedsNow (afterAdvance s p) s.bcs (tickCycle s p) then
          (afterAdvance s p).feed (arbiter s.cfg s.srv.state) p d g else afterAdvance s p).xcvr with dir := .input }
    else (if feedsNow (afterAdvance s p) s.bcs (tickCycle s p) then
      (afterAdvance s p).feed (arbiter s.cfg s.srv.state) p d g else afterAdvance s p).xcvr) := by
  have h1 : (afterAdvance s p).cfg = s.cfg := by rw [afterAdvance_eq]
  have h2 : (afterAdvance s p).srv.state = s.srv.state := by rw [afterAdvance_eq]
  unfold afterData State.dataStep
  simp only [h1, h2]
  have hin : ∀ x : Transceiver, xcvrSetTo x .input x.driveWidth 0 = { x with dir := .input } := by
    intro x; obtain ⟨a, b, c⟩ := x; cases a <;> simp [xcvrSetTo]
  split <;> split <;> split <;> simp_all

end

end Sys2Proof.Machine
end

