-- ==== Sys2Proof/Laws/PerInstr.lean ====
section
/-! SUPPORT. The family `Encoding`, one lemma per operation: the code of the operation selects it, whatever stands on
the operand ports (30_encoding.md R105, R106, R108). -/

namespace Sys2Proof.Laws.Encoding

open Sys2Proof

/-- A request that carries the operation's code is read, with any operand ports, as an operation of that code. -/
def Statement (i : Instr) : Prop :=
  ∀ p : Ports, ∃ j : Instr, decode { op := i.opCode, ports := p } = .ok j ∧ j.opCode = i.opCode

theorem bcsReset : Statement .bcsReset := fun _ => ⟨_, rfl, rfl⟩
theorem decodeStatus (raw : BitVec 4) (valid : Bool) : Statement (.decodeStatus raw valid) := fun _ => ⟨_, rfl, rfl⟩
theorem xferDone (lst : BusStatus) (lines : CmdLines) (ready : Bool) : Statement (.xferDone lst lines ready) := fun _ => ⟨_, rfl, rfl⟩
theorem nextCycle (cyc : CycleCode) (st lst : BusStatus) (done : Bool) : Statement (.nextCycle cyc st lst done) := fun _ => ⟨_, rfl, rfl⟩
theorem busWidth (addr : Addr) (bhe bus16 : Bool) : Statement (.busWidth addr bhe bus16) := fun _ => ⟨_, rfl, rfl⟩
theorem cycleTick (pins : Pins) (lines : CmdLines) : Statement (.cycleTick pins lines) := fun _ => ⟨_, rfl, rfl⟩
theorem xcvrSet (sel : BitVec 8) (width : WidthCode) (data : Word) : Statement (.xcvrSet sel width data) := fun _ => ⟨_, rfl, rfl⟩
theorem bcReset : Statement .bcReset := fun _ => ⟨_, rfl, rfl⟩
theorem bcTick (st : BusStatus) : Statement (.bcTick st) := fun _ => ⟨_, rfl, rfl⟩
theorem bcTick2 (st : BusStatus) (ready : Bool) : Statement (.bcTick2 st ready) := fun _ => ⟨_, rfl, rfl⟩
theorem qReset (sel : BitVec 8) : Statement (.qReset sel) := fun _ => ⟨_, rfl, rfl⟩
theorem qHasRoom (width : WidthCode) : Statement (.qHasRoom width) := fun _ => ⟨_, rfl, rfl⟩
theorem qPush (data : Word) (tag : Tag) (width : WidthCode) : Statement (.qPush data tag width) := fun _ => ⟨_, rfl, rfl⟩
theorem qPop : Statement .qPop := fun _ => ⟨_, rfl, rfl⟩
theorem qFlush : Statement .qFlush := fun _ => ⟨_, rfl, rfl⟩
theorem qLen : Statement .qLen := fun _ => ⟨_, rfl, rfl⟩
theorem qStatus (qs : QueueStatus) : Statement (.qStatus qs) := fun _ => ⟨_, rfl, rfl⟩
theorem ipSelect (name : ProgName) (bytes : List Byte) (data : Word) (addr : Addr) : Statement (.ipSelect name bytes data addr) := fun _ => ⟨_, rfl, rfl⟩
theorem ipReset : Statement .ipReset := fun _ => ⟨_, rfl, rfl⟩
theorem ipRead (addr : Addr) (width : WidthCode) : Statement (.ipRead addr width) := fun _ => ⟨_, rfl, rfl⟩
theorem ipReadAt (base addr : Addr) (width : WidthCode) : Statement (.ipReadAt base addr width) := fun _ => ⟨_, rfl, rfl⟩
theorem ipPatchVector (data : Word) : Statement (.ipPatchVector data) := fun _ => ⟨_, rfl, rfl⟩
theorem ipPatchWord (addr : Addr) (data : Word) : Statement (.ipPatchWord addr data) := fun _ => ⟨_, rfl, rfl⟩
theorem mbRead8 (addr : Addr) : Statement (.mbRead8 addr) := fun _ => ⟨_, rfl, rfl⟩
theorem mbWrite8 (addr : Addr) (data : Word) : Statement (.mbWrite8 addr data) := fun _ => ⟨_, rfl, rfl⟩
theorem mbRead16 (addr : Addr) : Statement (.mbRead16 addr) := fun _ => ⟨_, rfl, rfl⟩
theorem mbWrite16 (addr : Addr) (data : Word) : Statement (.mbWrite16 addr data) := fun _ => ⟨_, rfl, rfl⟩
theorem mbBusRead (addr : Addr) (bhe bus16 : Bool) : Statement (.mbBusRead addr bhe bus16) := fun _ => ⟨_, rfl, rfl⟩
theorem mbBusWrite (addr : Addr) (bhe bus16 : Bool) (data : Word) : Statement (.mbBusWrite addr bhe bus16 data) := fun _ => ⟨_, rfl, rfl⟩
theorem mbIoRead (addr : Addr) (width : WidthCode) : Statement (.mbIoRead addr width) := fun _ => ⟨_, rfl, rfl⟩
theorem mbIoWrite (addr : Addr) (width : WidthCode) (data : Word) : Statement (.mbIoWrite addr width data) := fun _ => ⟨_, rfl, rfl⟩
theorem mbSet (addr : Addr) (bytes : List Byte) : Statement (.mbSet addr bytes) := fun _ => ⟨_, rfl, rfl⟩
theorem mbErase : Statement .mbErase := fun _ => ⟨_, rfl, rfl⟩
theorem mbSetDefault (sel : BitVec 8) (seed : BitVec 32) : Statement (.mbSetDefault sel seed) := fun _ => ⟨_, rfl, rfl⟩
theorem mbSelect (sel : BitVec 8) : Statement (.mbSelect sel) := fun _ => ⟨_, rfl, rfl⟩
theorem logClear : Statement .logClear := fun _ => ⟨_, rfl, rfl⟩
theorem logAppend (st : BusStatus) (width : WidthCode) (addr : Addr) (data : Word) : Statement (.logAppend st width addr data) := fun _ => ⟨_, rfl, rfl⟩
theorem logRead (addr : Addr) : Statement (.logRead addr) := fun _ => ⟨_, rfl, rfl⟩
theorem logStatus : Statement .logStatus := fun _ => ⟨_, rfl, rfl⟩
theorem beRead (st : BusStatus) (addr : Addr) (bhe bus16 : Bool) : Statement (.beRead st addr bhe bus16) := fun _ => ⟨_, rfl, rfl⟩
theorem beWrite (st : BusStatus) (addr : Addr) (bhe bus16 : Bool) (data : Word) : Statement (.beWrite st addr bhe bus16 data) := fun _ => ⟨_, rfl, rfl⟩
theorem engineTick (pins : Pins) (data : Word) (tag : Tag) : Statement (.engineTick pins data tag) := fun _ => ⟨_, rfl, rfl⟩
theorem srvReset (bus16 : Bool) (sel : BitVec 8) : Statement (.srvReset bus16 sel) := fun _ => ⟨_, rfl, rfl⟩
theorem srvLoad (sel : BitVec 8) (bytes : List Byte) (data : Word) : Statement (.srvLoad sel bytes data) := fun _ => ⟨_, rfl, rfl⟩
theorem srvFinalize : Statement .srvFinalize := fun _ => ⟨_, rfl, rfl⟩
theorem srvStore : Statement .srvStore := fun _ => ⟨_, rfl, rfl⟩
theorem srvStoreall : Statement .srvStoreall := fun _ => ⟨_, rfl, rfl⟩

end Sys2Proof.Laws.Encoding
end

