-- ==== Sys2Proof/Laws/Phase.lean ====
section
/-! SUPPORT. What PHASE_STEP can do, case by case (46_phase_sequencer.md R320, R330, R338). -/

namespace Sys2Proof.Machine

open Sys2Proof

/-- Entering a phase leaves the flags. -/
@[simp] theorem State.enter_flags (s : State) (t : ServerState) : (s.enter t).flags = s.flags := by rw [State.enter_eq]

@[simp] theorem State.enter_budget (s : State) (t : ServerState) : (s.enter t).srv.budget = s.srv.budget := by
  obtain ⟨a, b, e, h, -⟩ := s.enter_srv t; rw [h]

@[simp] theorem State.enter_nmiOut (s : State) (t : ServerState) : (s.enter t).srv.nmiOut = s.srv.nmiOut := by
  obtain ⟨a, b, e, h, -⟩ := s.enter_srv t; rw [h]

@[simp] theorem State.enter_resetResult (s : State) (t : ServerState) :
    (s.enter t).srv.resetResult = s.srv.resetResult := by
  obtain ⟨a, b, e, h, -⟩ := s.enter_srv t; rw [h]

@[simp] theorem State.enter_cpuVendor (s : State) (t : ServerState) :
    (s.enter t).srv.cpuVendor = s.srv.cpuVendor := by
  obtain ⟨a, b, e, h, -⟩ := s.enter_srv t; rw [h]

@[simp] theorem State.enter_idCycles (s : State) (t : ServerState) :
    (s.enter t).srv.idCycles = s.srv.idCycles := by
  obtain ⟨a, b, e, h, -⟩ := s.enter_srv t; rw [h]

@[simp] theorem State.enter_stalled (s : State) (t : ServerState) : (s.enter t).srv.stalled = false := by
  rw [State.enter_eq]

/-- Entering a phase other than Reset from one other than ExecuteDone: of the sequencer the phase, `program_ended`, the
arming of stack capture and the mark of a stall alone (46_phase_sequencer.md R332, R333). -/
theorem State.enter_srv_eq (s : State) (t : ServerState) (h : s.srv.state ≠ .executeDone) (ht : t ≠ .reset) :
    (s.enter t).srv = { s.srv with
      state := t
      programEnded := if t = .execute then false else s.srv.programEnded
      stackArmed := if t = .executeDone then false else s.srv.stackArmed
      stalled := false } := by
  rw [State.enter_eq, State.exitActions_eq]
  simp [h, ht]

/-- The counters that entering a phase keeps when it leaves neither ExecuteDone nor enters Reset. -/
theorem State.enter_counters (s : State) (t : ServerState) (h : s.srv.state ≠ .executeDone) (ht : t ≠ .reset) :
    (s.enter t).srv.nmiFetchCount = s.srv.nmiFetchCount ∧
      (s.enter t).srv.stackCaptureCursor = s.srv.stackCaptureCursor := by
  rw [State.enter_srv_eq s t h ht]
  exact ⟨rfl, rfl⟩

/-! ### Budgets -/

/-- A tick of a budget: nothing runs, a tick is spent, or the last one is and the timeout is taken. -/
theorem State.spendBudget_cases (s : State) :
    s.srv.budget = 0 ∧ s.spendBudget = (s, none) ∨
    1 < s.srv.budget ∧ s.spendBudget = (s.withSrv { s.srv with budget := s.srv.budget - 1 }, none) ∨
    s.srv.budget = 1 ∧ isResetPhase s.srv.state = true ∧
      s.spendBudget = ((s.withSrv { s.srv with budget := 0 }).enterError, some .resetFailure) ∨
    s.srv.budget = 1 ∧ isResetPhase s.srv.state = false ∧
      s.spendBudget = ((s.withSrv { s.srv with budget := 0 }).stall, some .phaseTimeout) := by
  unfold State.spendBudget
  by_cases h0 : s.srv.budget = 0
  · exact .inl ⟨h0, by simp [h0]⟩
  · by_cases h1 : s.srv.budget = 1
    · cases hr : isResetPhase s.srv.state
      · exact .inr (.inr (.inr ⟨h1, rfl, by simp [h1, State.timeout, hr]⟩))
      · exact .inr (.inr (.inl ⟨h1, rfl, by simp [h1, State.timeout, hr]⟩))
    · exact .inr (.inl ⟨by omega, by simp [h0, h1]⟩)

/-- The sequencer after an edge was taken. -/
theorem State.advancePhase_cases (s : State) (p : ServerState) :
    successor s.cfg s.srv.loadFormat p = none ∧ s.advancePhase p = s ∨
    ∃ (t : ServerState) (rest : Bool), successor s.cfg s.srv.loadFormat p = some (t, rest) ∧
      (s.advancePhase p).srv.state = t ∧
      (s.advancePhase p).srv.budget = (if rest then 0 else s.srv.budget) ∧
      (s.advancePhase p).srv.nmiOut = s.srv.nmiOut ∧
      (s.advancePhase p).srv.resetResult = s.srv.resetResult ∧
      (s.advancePhase p).srv.idCycles = s.srv.idCycles ∧
      (s.advancePhase p).srv.cpuVendor = (if p = .cpuId then classify s.cfg s.srv else s.srv.cpuVendor) ∧
      (s.advancePhase p).flags = s.flags ∧
      (s.srv.state ≠ .executeDone → (s.advancePhase p).srv.nmiFetchCount = s.srv.nmiFetchCount) := by
  unfold State.advancePhase
  cases h : successor s.cfg s.srv.loadFormat p with
  | none => exact .inl ⟨rfl, rfl⟩
  | some x =>
    obtain ⟨t, rest⟩ := x
    refine .inr ⟨t, rest, rfl, by simp, by simp, by simp, by simp, by simp, by simp, by simp, fun hs => ?_⟩
    exact (State.enter_counters (s.withSrv { s.srv with
      cpuVendor := if p = .cpuId then classify s.cfg s.srv else s.srv.cpuVendor
      budget := if rest then 0 else s.srv.budget }) t hs (successor_spec h).1).1

/-- The edge of a running segment: none is taken, or the one of the table is. -/
theorem State.segmentEdge_cases (s : State) (p : ServerState) (pins : Pins) (r : CycleResult) :
    s.segmentEdge p pins r = s ∨
    ∃ (t : ServerState) (rest : Bool), successor s.cfg s.srv.loadFormat p = some (t, rest) ∧
      (p = .reset → r.enteredT1 = true) ∧
      (s.segmentEdge p pins r).srv.state = t ∧
      (s.segmentEdge p pins r).srv.budget = (if rest then 0 else s.srv.budget) ∧
      (s.segmentEdge p pins r).srv.nmiOut = s.srv.nmiOut ∧
      (s.segmentEdge p pins r).srv.idCycles = s.srv.idCycles ∧
      (s.segmentEdge p pins r).srv.cpuVendor = (if p = .cpuId then classify s.cfg s.srv else s.srv.cpuVendor) ∧
      (s.segmentEdge p pins r).flags = s.flags ∧
      (s.srv.state ≠ .executeDone → (s.segmentEdge p pins r).srv.nmiFetchCount = s.srv.nmiFetchCount) := by
  have key : p ≠ .reset → s.advancePhase p = s ∨
      ∃ (t : ServerState) (rest : Bool), successor s.cfg s.srv.loadFormat p = some (t, rest) ∧
      (p = .reset → r.enteredT1 = true) ∧
      (s.advancePhase p).srv.state = t ∧
      (s.advancePhase p).srv.budget = (if rest then 0 else s.srv.budget) ∧
      (s.advancePhase p).srv.nmiOut = s.srv.nmiOut ∧
      (s.advancePhase p).srv.idCycles = s.srv.idCycles ∧
      (s.advancePhase p).srv.cpuVendor = (if p = .cpuId then classify s.cfg s.srv else s.srv.cpuVendor) ∧
      (s.advancePhase p).flags = s.flags ∧
      (s.srv.state ≠ .executeDone → (s.advancePhase p).srv.nmiFetchCount = s.srv.nmiFetchCount) := by
    intro hp
    rcases s.advancePhase_cases p with ⟨-, h⟩ | ⟨t, rest, h1, h2, h3, h4, -, h6, h7, h8, h9⟩
    · exact .inl h
    · exact .inr ⟨t, rest, h1, fun h => absurd h hp, h2, h3, h4, h6, h7, h8, h9⟩
  unfold State.segmentEdge
  cases p <;> simp only <;>
    first
    | exact .inl trivial
    | (split
       · exact key (by decide)
       · exact .inl rfl)
    | exact key (by decide)
    | skip
  split
  · rename_i he
    rcases State.advancePhase_cases (s.withSrv { s.srv with
        resetResult := { s.srv.resetResult with success := true } }) .reset with
      ⟨h1, -⟩ | ⟨t, rest, h1, h2, h3, h4, -, h6, h7, h8, h9⟩
    · simp only [successor] at h1
      split at h1 <;> (try split at h1) <;> cases h1
    · exact .inr ⟨t, rest, h1, fun _ => he, h2, h3, h4, h6, h7, h8, h9⟩
  · exact .inl rfl

/-- The phases with a running budget, and their successors. -/
theorem successor_resetPhase {c : Config} {f : LoadFormat} {p t : ServerState} {rest : Bool}
    (h : successor c f p = some (t, rest)) (ht : isResetPhase t = true) : isResetPhase p = true := by
  cases p <;> simp only [successor] at h <;> (repeat' split at h) <;> cases h <;> first | rfl | cases ht

/-- Everything the end of a running segment's tick can be: no error, or one of the two timeouts on the last tick. -/
theorem State.runSegment_cases (s : State) (p : ServerState) (pins : Pins) (r : CycleResult)
    (hp : s.srv.state = p) :
    ((s.runSegment p pins r).2 = none ∧ (s.runSegment p pins r).1.flags = s.flags ∧
      (s.runSegment p pins r).1.srv.nmiOut = s.srv.nmiOut ∧
      (s.srv.budget = 0 → (s.runSegment p pins r).1 = s) ∧
      ((s.runSegment p pins r).1.srv.state = p ∨
        ∃ rest, successor s.cfg s.srv.loadFormat p = some ((s.runSegment p pins r).1.srv.state, rest) ∧
          0 < s.srv.budget ∧ (p = .reset → r.enteredT1 = true)) ∧
      (s.srv.budget = 1 → (s.runSegment p pins r).1.srv.state ≠ p ∧
        (s.runSegment p pins r).1.srv.budget = 0)) ∨
    ((s.runSegment p pins r).2 = some .resetFailure ∧ s.srv.budget = 1 ∧ isResetPhase p = true ∧
      (s.runSegment p pins r).1.srv.state = .error ∧ (s.runSegment p pins r).1.srv.budget = 0 ∧
      (s.runSegment p pins r).1.srv.nmiOut = false ∧
      (s.runSegment p pins r).1.srv.resetResult.success = false ∧
      (s.runSegment p pins r).1.flags = { s.flags with lastError := some .resetFailure }) ∨
    ((s.runSegment p pins r).2 = some .phaseTimeout ∧ s.srv.budget = 1 ∧
      (s.runSegment p pins r).1.srv.budget = 0 ∧ (s.runSegment p pins r).1.srv.nmiOut = false ∧
      isResetPhase (s.runSegment p pins r).1.srv.state = false ∧
      ((s.runSegment p pins r).1.srv.state = p ∨
        ∃ rest, successor s.cfg s.srv.loadFormat p = some ((s.runSegment p pins r).1.srv.state, rest) ∧
          (p = .reset → r.enteredT1 = true)) ∧
      (s.runSegment p pins r).1.flags = { s.flags with lastError := some .phaseTimeout }) := by
  unfold State.runSegment
  by_cases h0 : s.srv.budget = 0
  · rw [if_pos h0]
    exact .inl ⟨rfl, rfl, rfl, fun _ => rfl, .inl hp, fun h => by omega⟩
  · rw [if_neg h0]
    have hedge : (s.segmentEdge p pins r).flags = s.flags ∧ (s.segmentEdge p pins r).srv.nmiOut = s.srv.nmiOut ∧
        ((s.segmentEdge p pins r).srv.budget = s.srv.budget ∨ (s.segmentEdge p pins r).srv.budget = 0) ∧
        ((s.segmentEdge p pins r).srv.state = p ∧ (s.segmentEdge p pins r).srv.budget = s.srv.budget ∨
          ∃ rest, successor s.cfg s.srv.loadFormat p = some ((s.segmentEdge p pins r).srv.state, rest) ∧
            (p = .reset → r.enteredT1 = true)) := by
      rcases s.segmentEdge_cases p pins r with h | ⟨t, rest, h1, h2, h3, h4, h5, -, -, h8, -⟩
      · rw [h]; exact ⟨rfl, rfl, .inl rfl, .inl ⟨hp, rfl⟩⟩
      · refine ⟨h8, h5, ?_, .inr ⟨rest, by rw [h3]; exact h1, h2⟩⟩
        rw [h4]
        cases rest
        · exact .inl rfl
        · exact .inr rfl
    have hnp : ∀ rest, successor s.cfg s.srv.loadFormat p ≠ some (p, rest) := by
      intro rest h
      cases p <;> simp only [successor] at h <;> (repeat' split at h) <;> cases h
    generalize s.segmentEdge p pins r = u at hedge
    obtain ⟨hfl, hnm, hbu, hst⟩ := hedge
    rcases u.spendBudget_cases with ⟨h1, h2⟩ | ⟨h1, h2⟩ | ⟨h1, h2, h3⟩ | ⟨h1, h2, h3⟩
    · rw [h2]
      refine .inl ⟨rfl, hfl, hnm, fun h => absurd h h0, ?_, fun h => ⟨?_, h1⟩⟩
      · rcases hst with hst | ⟨rest, hst, hr⟩
        · exact .inl hst.1
        · exact .inr ⟨rest, hst, by omega, hr⟩
      · rcases hst with hst | ⟨rest, hst, -⟩
        · omega
        · intro he; rw [he] at hst; exact hnp _ hst
    · rw [h2]
      refine .inl ⟨rfl, hfl, hnm, fun h => absurd h h0, ?_, fun h => ⟨by omega, by omega⟩⟩
      rcases hst with hst | ⟨rest, hst, hr⟩
      · exact .inl hst.1
      · exact .inr ⟨rest, hst, by omega, hr⟩
    · rw [h3]
      refine .inr (.inl ⟨rfl, by omega, ?_, ?_, ?_, ?_, ?_, ?_⟩)
      · rcases hst with hst | ⟨rest, hst, -⟩
        · rw [← hst.1]; exact h2
        · exact successor_resetPhase hst h2
      all_goals simp [State.enterError, hfl]
    · rw [h3]
      refine .inr (.inr ⟨rfl, by omega, rfl, rfl, h2, ?_, ?_⟩)
      · rcases hst with hst | ⟨rest, hst, hr⟩
        · exact .inl hst.1
        · exact .inr ⟨rest, hst, hr⟩
      · simp [State.stall, hfl]

/-! ### What a segment keeps of the sequencer (46_phase_sequencer.md R310, R320; 10_state.md R34) -/

/-- No phase is its own successor. -/
theorem successor_ne {c : Config} {f : LoadFormat} {p t : ServerState} {rest : Bool}
    (h : successor c f p = some (t, rest)) : t ≠ p := by
  cases p <;> simp only [successor] at h <;> (repeat' split at h) <;> cases h <;> decide

/-- From the sequencer `v` in phase `p` to the sequencer `w`: the counters stay, the vendor changes in CpuId alone, the
detection results stay, and `success` changes only when a running Reset sees T1 entered, or on the entry to Error. -/
structure SequencerKept (p : ServerState) (v : Server) (r : CycleResult) (w : Server) : Prop where
  nmiFetchCount : w.nmiFetchCount = v.nmiFetchCount
  smiFetchCount : w.smiFetchCount = v.smiFetchCount
  stackCaptureCursor : w.stackCaptureCursor = v.stackCaptureCursor
  idCycles : w.idCycles = v.idCycles
  cpuVendor : p ≠ .cpuId → w.cpuVendor = v.cpuVendor
  detected : w.resetResult = { v.resetResult with success := w.resetResult.success }
  success : w.resetResult.success = v.resetResult.success ∨ w.state = .error ∨
    p = .reset ∧ 0 < v.budget ∧ r.enteredT1 = true

theorem SequencerKept.refl (p : ServerState) (v : Server) (r : CycleResult) : SequencerKept p v r v :=
  ⟨rfl, rfl, rfl, rfl, fun _ => rfl, rfl, .inl rfl⟩

theorem State.advancePhase_kept (s : State) (p : ServerState) (r : CycleResult) (hp : s.srv.state = p) :
    SequencerKept p s.srv r (s.advancePhase p).srv ∧
      (s.advancePhase p = s ∨ (s.advancePhase p).srv.state ≠ p ∧ (s.advancePhase p).srv.stalled = false) := by
  unfold State.advancePhase
  cases h : successor s.cfg s.srv.loadFormat p with
  | none => exact ⟨SequencerKept.refl _ _ _, .inl rfl⟩
  | some x =>
    obtain ⟨t, rest⟩ := x
    have hd : s.srv.state ≠ .executeDone := by rintro hd; rw [← hp, hd] at h; cases h
    refine ⟨?_, .inr ⟨by simpa using successor_ne h, State.enter_stalled _ _⟩⟩
    simp only
    rw [State.enter_srv_eq]
    · exact ⟨rfl, rfl, rfl, rfl, fun hn => if_neg hn, rfl, .inl rfl⟩
    · exact hd
    · exact (successor_spec h).1

/-- The edge of a running segment keeps the sequencer, and takes the mark of a stall away when it leaves the phase. -/
theorem State.segmentEdge_kept (s : State) (p : ServerState) (pins : Pins) (r : CycleResult) (hp : s.srv.state = p)
    (hb : 0 < s.srv.budget) :
    SequencerKept p s.srv r (s.segmentEdge p pins r).srv ∧
      ((s.segmentEdge p pins r).srv.state = p ∧ (s.segmentEdge p pins r).srv.stalled = s.srv.stalled ∨
        (s.segmentEdge p pins r).srv.state ≠ p ∧ (s.segmentEdge p pins r).srv.stalled = false) := by
  have base : ∀ u : State, u = s → SequencerKept p s.srv r u.srv ∧
      (u.srv.state = p ∧ u.srv.stalled = s.srv.stalled ∨ u.srv.state ≠ p ∧ u.srv.stalled = false) := by
    rintro u rfl
    exact ⟨SequencerKept.refl _ _ _, .inl ⟨hp, rfl⟩⟩
  have key : SequencerKept p s.srv r (s.advancePhase p).srv ∧
      ((s.advancePhase p).srv.state = p ∧ (s.advancePhase p).srv.stalled = s.srv.stalled ∨
        (s.advancePhase p).srv.state ≠ p ∧ (s.advancePhase p).srv.stalled = false) := by
    obtain ⟨h1, h2 | h2⟩ := s.advancePhase_kept p r hp
    · exact base _ h2
    · exact ⟨h1, .inr h2⟩
  unfold State.segmentEdge
  cases p <;> simp only <;>
    first
    | exact base s rfl
    | exact ⟨SequencerKept.refl _ _ _, .inl ⟨hp, trivial⟩⟩
    | (split
       · exact key
       · exact base s rfl)
    | exact key
    | skip
  split
  · rename_i he
    obtain ⟨h1, h2⟩ := State.advancePhase_kept (s.withSrv { s.srv with
      resetResult := { s.srv.resetResult with success := true } }) .reset r hp
    refine ⟨⟨h1.nmiFetchCount, h1.smiFetchCount, h1.stackCaptureCursor, h1.idCycles, h1.cpuVendor, h1.detected,
      .inr (.inr ⟨rfl, hb, he⟩)⟩, ?_⟩
    rcases h2 with h2 | h2
    · rw [h2]; exact .inl ⟨hp, rfl⟩
    · exact .inr h2
  · exact base s rfl

/-- A running segment's tick keeps the sequencer, and a PhaseTimeout marks the phase it leaves as stalled. -/
theorem State.runSegment_kept (s : State) (p : ServerState) (pins : Pins) (r : CycleResult) (hp : s.srv.state = p) :
    SequencerKept p s.srv r (s.runSegment p pins r).1.srv ∧
      (s.runSegment p pins r).1.srv.stalled = (if (s.runSegment p pins r).2 = some .phaseTimeout then true
        else if (s.runSegment p pins r).1.srv.state = p then s.srv.stalled else false) := by
  unfold State.runSegment
  by_cases h0 : s.srv.budget = 0
  · rw [if_pos h0]
    exact ⟨SequencerKept.refl _ _ _, by simp [hp]⟩
  · rw [if_neg h0]
    obtain ⟨hk, hs⟩ := s.segmentEdge_kept p pins r hp (by omega)
    have hr : isResetPhase (s.segmentEdge p pins r).srv.state = true → isResetPhase p = true := by
      rcases s.segmentEdge_cases p pins r with h | ⟨t, rest, h1, -, h3, -⟩
      · rw [h, hp]; exact id
      · rw [h3]; exact successor_resetPhase h1
    generalize s.segmentEdge p pins r = u at hk hs hr
    have hst : u.srv.stalled = if u.srv.state = p then s.srv.stalled else false := by
      rcases hs with ⟨h1, h2⟩ | ⟨h1, h2⟩ <;> simp [h1, h2]
    rcases u.spendBudget_cases with ⟨-, h2⟩ | ⟨-, h2⟩ | ⟨-, h2, h3⟩ | ⟨-, -, h3⟩
    · rw [h2]; exact ⟨hk, hst⟩
    · rw [h2]
      exact ⟨⟨hk.nmiFetchCount, hk.smiFetchCount, hk.stackCaptureCursor, hk.idCycles, hk.cpuVendor, hk.detected,
        hk.success⟩, hst⟩
    · rw [h3]
      have hd : u.srv.state ≠ .executeDone := by intro hd; rw [hd] at h2; cases h2
      refine ⟨?_, ?_⟩
      · simp only [State.enterError]
        rw [State.enter_srv_eq]
        · exact ⟨hk.nmiFetchCount, hk.smiFetchCount, hk.stackCaptureCursor, hk.idCycles, hk.cpuVendor,
            by simp only [State.withSrv_srv]; rw [hk.detected], .inr (.inl rfl)⟩
        · exact hd
        · decide
      · have hne : ServerState.error ≠ p := by rintro rfl; cases hr h2
        simp [State.enterError, hne]
    · rw [h3]
      exact ⟨⟨hk.nmiFetchCount, hk.smiFetchCount, hk.stackCaptureCursor, hk.idCycles, hk.cpuVendor, hk.detected,
        hk.success⟩, rfl⟩

/-- PHASE_STEP keeps the sequencer, the probe cycle it counts (46_phase_sequencer.md R336) and the NMI edge (R335) aside;
`edge` says whether that edge was taken. -/
theorem State.phaseStep_kept (s : State) (pins : Pins) (r : CycleResult) (qr : QueueReport) : ∃ edge : Bool,
    (edge = true → s.srv.state = .execute ∧ nmiEdge s r = true ∧ (s.phaseStep pins r qr).1.srv.nmiOut = false) ∧
    (edge = false → (s.phaseStep pins r qr).2 = none →
      (s.phaseStep pins r qr).1.srv.nmiOut = s.srv.nmiOut) ∧
    SequencerKept s.srv.state { (s.countIdCycle r).srv with
      nmiFetchCount := s.srv.nmiFetchCount + edge.toNat } r (s.phaseStep pins r qr).1.srv ∧
    (s.phaseStep pins r qr).1.srv.stalled = (if (s.phaseStep pins r qr).2 = some .phaseTimeout then true
      else if (s.phaseStep pins r qr).1.srv.state = s.srv.state then s.srv.stalled else false) := by
  have hc : (s.countIdCycle r).srv.state = s.srv.state ∧ (s.countIdCycle r).srv.nmiOut = s.srv.nmiOut ∧
      (s.countIdCycle r).srv.nmiFetchCount = s.srv.nmiFetchCount ∧
      (s.countIdCycle r).srv.stalled = s.srv.stalled ∧
      nmiEdge (s.countIdCycle r) r = nmiEdge s r := by
    unfold State.countIdCycle; split <;> exact ⟨rfl, rfl, rfl, rfl, rfl⟩
  unfold State.phaseStep
  simp only
  generalize s.countIdCycle r = u at hc
  obtain ⟨c1, c2, c3, c4, c5⟩ := hc
  rw [← c1, ← c2, ← c3, ← c4, ← c5]
  have entered : ∀ t, u.srv.state ≠ .executeDone → t ≠ .reset → t ≠ u.srv.state →
      SequencerKept u.srv.state { u.srv with nmiFetchCount := u.srv.nmiFetchCount + 0 } r (u.enter t).srv ∧
      (u.enter t).srv.stalled = if (none : Option ErrorKind) = some .phaseTimeout then true
        else if (u.enter t).srv.state = u.srv.state then u.srv.stalled else false := by
    intro t h1 h2 h3
    rw [State.enter_srv_eq u t h1 h2]
    exact ⟨⟨rfl, rfl, rfl, rfl, fun _ => rfl, rfl, .inl rfl⟩, by simp [h3]⟩
  have running : ∃ edge : Bool, (edge = true → u.srv.state = .execute ∧ nmiEdge u r = true ∧
        (u.runSegment u.srv.state pins r).1.srv.nmiOut = false) ∧
      (edge = false → (u.runSegment u.srv.state pins r).2 = none →
        (u.runSegment u.srv.state pins r).1.srv.nmiOut = u.srv.nmiOut) ∧
      SequencerKept u.srv.state { u.srv with nmiFetchCount := u.srv.nmiFetchCount + edge.toNat } r
        (u.runSegment u.srv.state pins r).1.srv ∧
      (u.runSegment u.srv.state pins r).1.srv.stalled =
        (if (u.runSegment u.srv.state pins r).2 = some .phaseTimeout then true
        else if (u.runSegment u.srv.state pins r).1.srv.state = u.srv.state then u.srv.stalled else false) := by
    obtain ⟨h1, h2⟩ := u.runSegment_kept u.srv.state pins r rfl
    refine ⟨false, nofun, fun _ hn => ?_, h1, h2⟩
    rcases u.runSegment_cases u.srv.state pins r rfl with ⟨-, -, h, -⟩ | ⟨h, -⟩ | ⟨h, -⟩
    · exact h
    · rw [h] at hn; cases hn
    · rw [h] at hn; cases hn
  split
  · rename_i h
    obtain ⟨h1, h2⟩ := entered .done (by rw [h]; decide) (by decide) (by rw [h]; decide)
    exact ⟨false, nofun, fun _ _ => State.enter_nmiOut _ _, h1, h2⟩
  · split
    · rename_i h
      obtain ⟨h1, h2⟩ := entered .executeFinalize (by rw [h.1]; decide) (by decide) (by rw [h.1]; decide)
      exact ⟨false, nofun, fun _ _ => State.enter_nmiOut _ _, h1, h2⟩
    · split
      · rename_i h
        obtain ⟨h1, h2⟩ := State.runSegment_kept ((u.withSrv { u.srv with
          nmiFetchCount := u.srv.nmiFetchCount + 1, nmiOut := false }).enter .executeFinalize) .executeFinalize pins r
          (State.enter_state _ _)
        have hn := State.runSegment_cases ((u.withSrv { u.srv with
          nmiFetchCount := u.srv.nmiFetchCount + 1, nmiOut := false }).enter .executeFinalize) .executeFinalize pins r
          (State.enter_state _ _)
        have he := State.enter_srv_eq (u.withSrv { u.srv with
          nmiFetchCount := u.srv.nmiFetchCount + 1, nmiOut := false }) .executeFinalize
          (by rw [State.withSrv_srv]; simp [h.1]) (by decide)
        generalize (u.withSrv { u.srv with
          nmiFetchCount := u.srv.nmiFetchCount + 1, nmiOut := false }).enter .executeFinalize = x at h1 h2 hn he
        refine ⟨true, fun _ => ⟨h.1, h.2, ?_⟩, nofun, ?_, ?_⟩
        · rcases hn with ⟨-, -, hn, -⟩ | ⟨-, -, -, -, -, hn, -⟩ | ⟨-, -, -, hn, -⟩
          · rw [hn, he]; rfl
          · exact hn
          · exact hn
        · rw [he] at h1
          exact ⟨h1.nmiFetchCount, h1.smiFetchCount, h1.stackCaptureCursor, h1.idCycles,
            fun _ => h1.cpuVendor (by decide), h1.detected,
            h1.success.imp_right (Or.imp_right fun hr => by cases hr.1)⟩
        · have hx : x.srv.stalled = false := by rw [he]
          have hne : (x.runSegment .executeFinalize pins r).1.srv.state ≠ .execute := by
            rcases hn with ⟨-, -, -, -, hn | ⟨rest, hn, -⟩, -⟩ | ⟨-, -, -, hn, -⟩ | ⟨-, -, -, -, -, hn | ⟨rest, hn, -⟩, -⟩
            all_goals first
              | (rw [hn]; decide)
              | (intro hh; rw [hh] at hn; rcases (successor_spec hn).2.2.2.2.2 (.inl rfl) with h | h <;> cases h)
          rw [h2, hx, h.1]
          simp [hne]
      · exact running

end Sys2Proof.Machine
end

