-- ==== Sys2Proof/Laws/PhaseView.lean ====
section
/-! SUPPORT. What a tick does to the phase, the budget and the active program together (46_phase_sequencer.md R320, R330,
R332, R333, R338): one view of the state, what entering a phase does to it, and what PHASE_STEP can make of it. -/

namespace Sys2Proof.Machine

open Sys2Proof

/-- The fields that entering a phase writes. -/
structure PhaseView where
  phase        : ServerState
  ip           : ActiveProgram
  programEnded : Bool
  stackArmed   : Bool

/-- The view of a state. -/
def phaseView (s : State) : PhaseView := ⟨s.srv.state, s.ip, s.srv.programEnded, s.srv.stackArmed⟩

/-- The program as the exit action leaves it. -/
def PhaseView.exitProgram (c : Config) (fmt : LoadFormat) (v : PhaseView) (target : ServerState) : ActiveProgram :=
  if ownsProgram c fmt v.phase && !(v.phase == .prefetch && target == .execute) then programReset v.ip else v.ip

/-- `enter(target)` on the view. -/
def PhaseView.enter (c : Config) (fmt : LoadFormat) (ips : List (ProgName × Image)) (v : PhaseView)
    (target : ServerState) : PhaseView where
  phase := target
  ip := match programOf c fmt v.phase target with
    | some n => (programSelect c n ((imageOf n ips).getD { buf := [], fill := c.fillDefault, vectorOffset := 0 })).getD
        (v.exitProgram c fmt target)
    | none => v.exitProgram c fmt target
  programEnded := if target = .execute then false else v.programEnded
  stackArmed := if target = .executeDone then false else v.stackArmed

theorem phaseView_enter (s : State) (target : ServerState) :
    phaseView (s.enter target) = (phaseView s).enter s.cfg s.srv.loadFormat s.ipset target := by
  have h := s.enter_eq target
  have e1 : (s.enter target).srv.state = target := s.enter_state target
  have e2 : (s.enter target).srv.programEnded = if target = .execute then false else s.srv.programEnded := by rw [h]
  have e3 : (s.enter target).srv.stackArmed = if target = .executeDone then false else s.srv.stackArmed := by rw [h]
  unfold phaseView PhaseView.enter
  rw [e1, e2, e3, State.enter_ip, State.exitActions_ip_eq]
  rfl

/-- What a running segment's tick can make of a view and a budget: the phase stays; an edge of the table is taken, which
ends the budget at a rest point and else spends one tick; a reset phase fails on the last tick, as it stands or from the
phase just entered. -/
def SegmentResult (c : Config) (fmt : LoadFormat) (ips : List (ProgName × Image)) (v : PhaseView) (b : Nat)
    (w : PhaseView) (b' : Nat) : Prop :=
  (w = v ∧ b' = b - 1) ∨
  (∃ target rest, successor c fmt v.phase = some (target, rest) ∧ w = v.enter c fmt ips target ∧ 0 < b ∧
    (rest = true → b' = 0) ∧ (rest = false → b' + 1 = b)) ∨
  (b = 1 ∧ isResetPhase v.phase = true ∧ b' = 0 ∧ (w = v.enter c fmt ips .error ∨
    ∃ target rest, successor c fmt v.phase = some (target, rest) ∧
      w = (v.enter c fmt ips target).enter c fmt ips .error))

/-- `advance(p)`: nothing, or the edge of the table. -/
theorem State.advancePhase_view (s : State) (p : ServerState) : s.advancePhase p = s ∨
    ∃ target rest, successor s.cfg s.srv.loadFormat p = some (target, rest) ∧
      phaseView (s.advancePhase p) = (phaseView s).enter s.cfg s.srv.loadFormat s.ipset target ∧
      (s.advancePhase p).srv.budget = (if rest then 0 else s.srv.budget) ∧ (s.advancePhase p).cfg = s.cfg ∧
      (s.advancePhase p).srv.loadFormat = s.srv.loadFormat ∧ (s.advancePhase p).ipset = s.ipset := by
  unfold State.advancePhase
  cases h : successor s.cfg s.srv.loadFormat p with
  | none => exact .inl rfl
  | some x =>
    obtain ⟨target, rest⟩ := x
    refine .inr ⟨target, rest, rfl, ?_, by simp, State.enter_cfg _ _, (PhaseFrame.enter _ _).loadFormat, ?_⟩
    · rw [phaseView_enter]; rfl
    · show (State.enter _ _).ipset = _
      rw [State.enter_eq]; rfl

/-- The edge of a running segment on the view. -/
theorem State.segmentEdge_view (s : State) (p : ServerState) (pins : Pins) (r : CycleResult) :
    s.segmentEdge p pins r = s ∨
    ∃ target rest, successor s.cfg s.srv.loadFormat p = some (target, rest) ∧
      phaseView (s.segmentEdge p pins r) = (phaseView s).enter s.cfg s.srv.loadFormat s.ipset target ∧
      (s.segmentEdge p pins r).srv.budget = (if rest then 0 else s.srv.budget) ∧
      (s.segmentEdge p pins r).cfg = s.cfg ∧ (s.segmentEdge p pins r).srv.loadFormat = s.srv.loadFormat ∧
      (s.segmentEdge p pins r).ipset = s.ipset := by
  have key := s.advancePhase_view p
  unfold State.segmentEdge
  cases p <;> simp only <;>
    first
    | exact .inl trivial
    | exact key
    | (split
       · exact key
       · exact .inl rfl)
    | skip
  split
  · have hs : ∃ target rest, successor s.cfg s.srv.loadFormat .reset = some (target, rest) := by
      simp only [successor]; split
      · exact ⟨_, _, rfl⟩
      · split <;> exact ⟨_, _, rfl⟩
    obtain ⟨target, rest, hs⟩ := hs
    refine .inr ⟨target, rest, hs, ?_⟩
    unfold State.advancePhase
    simp only [State.withSrv_cfg, State.withSrv_srv, hs]
    refine ⟨by rw [phaseView_enter]; rfl, by simp, State.enter_cfg _ _, (PhaseFrame.enter _ _).loadFormat, ?_⟩
    rw [State.enter_eq]; rfl
  · exact .inl rfl

theorem phaseView_enterError (s : State) :
    phaseView s.enterError = (phaseView s).enter s.cfg s.srv.loadFormat s.ipset .error := by
  unfold State.enterError
  rw [phaseView_enter]; rfl

/-- Everything a running segment's tick can make of the view and the budget. -/
theorem State.runSegment_view (s : State) (p : ServerState) (pins : Pins) (r : CycleResult) (hp : s.srv.state = p) :
    SegmentResult s.cfg s.srv.loadFormat s.ipset (phaseView s) s.srv.budget (phaseView (s.runSegment p pins r).1)
      (s.runSegment p pins r).1.srv.budget := by
  unfold State.runSegment
  by_cases h0 : s.srv.budget = 0
  · rw [if_pos h0]; exact .inl ⟨rfl, by show s.srv.budget = _; omega⟩
  rw [if_neg h0]
  rcases s.segmentEdge_view p pins r with h | ⟨target, rest, h1, h2, h3, h4, h5, h6⟩
  · rw [h]
    rcases s.spendBudget_cases with ⟨k, -⟩ | ⟨-, k⟩ | ⟨k1, k2, k⟩ | ⟨k1, k2, k⟩
    · omega
    · rw [k]; exact .inl ⟨rfl, rfl⟩
    · rw [k]; exact .inr (.inr ⟨k1, k2, by simp [State.enterError], .inl (by rw [phaseView_enterError]; rfl)⟩)
    · rw [k]; exact .inl ⟨rfl, by rw [k1]; rfl⟩
  · rw [← show (phaseView s).phase = p from hp] at h1
    generalize s.segmentEdge p pins r = u at *
    have hu : u.srv.state = target := congrArg PhaseView.phase h2
    have hrest : u.srv.budget ≠ 0 → rest = false ∧ u.srv.budget = s.srv.budget := by
      cases rest
      · exact fun _ => ⟨rfl, by simpa using h3⟩
      · exact fun h => absurd (by simpa using h3) h
    rcases u.spendBudget_cases with ⟨k1, k⟩ | ⟨k1, k⟩ | ⟨k1, k2, k⟩ | ⟨k1, k2, k⟩
    · rw [k]
      refine .inr (.inl ⟨target, rest, h1, h2, by omega, fun _ => k1, fun hr => ?_⟩)
      rw [hr] at h3; simp at h3; omega
    · rw [k]
      obtain ⟨rfl, hb⟩ := hrest (by omega)
      refine .inr (.inl ⟨target, false, h1, h2, by omega, nofun, fun _ => ?_⟩)
      simp only [State.withSrv_srv]; omega
    · rw [k]
      obtain ⟨rfl, hb⟩ := hrest (by omega)
      refine .inr (.inr ⟨by omega, successor_resetPhase h1 (by rw [← hu]; exact k2), by simp [State.enterError],
        .inr ⟨target, false, h1, ?_⟩⟩)
      rw [phaseView_enterError]
      simp only [State.withSrv_cfg, State.withSrv_ipset, State.withSrv_srv, h4, h5, h6]
      rw [← h2]; rfl
    · rw [k]
      obtain ⟨rfl, hb⟩ := hrest (by omega)
      refine .inr (.inl ⟨target, false, h1, h2, by omega, nofun, fun _ => ?_⟩)
      show 0 + 1 = _
      omega

/-- Everything PHASE_STEP can make of the view and the budget. -/
theorem State.phaseStep_view (s : State) (pins : Pins) (r : CycleResult) (qr : QueueReport) :
    (s.srv.state = .storeDone ∧
      phaseView (s.phaseStep pins r qr).1 = (phaseView s).enter s.cfg s.srv.loadFormat s.ipset .done ∧
      (s.phaseStep pins r qr).1.srv.budget = s.srv.budget) ∨
    (s.srv.state = .execute ∧ queueTagEdge s.cfg qr = true ∧
      phaseView (s.phaseStep pins r qr).1 = (phaseView s).enter s.cfg s.srv.loadFormat s.ipset .executeFinalize ∧
      (s.phaseStep pins r qr).1.srv.budget = s.srv.budget) ∨
    (s.srv.state = .execute ∧ nmiEdge s r = true ∧
      SegmentResult s.cfg s.srv.loadFormat s.ipset
        ((phaseView s).enter s.cfg s.srv.loadFormat s.ipset .executeFinalize) s.srv.budget
        (phaseView (s.phaseStep pins r qr).1) (s.phaseStep pins r qr).1.srv.budget) ∨
    (s.srv.state ≠ .storeDone ∧
      SegmentResult s.cfg s.srv.loadFormat s.ipset (phaseView s) s.srv.budget
        (phaseView (s.phaseStep pins r qr).1) (s.phaseStep pins r qr).1.srv.budget) := by
  have hc : (s.countIdCycle r).srv.state = s.srv.state ∧ (s.countIdCycle r).srv.loadFormat = s.srv.loadFormat ∧
      (s.countIdCycle r).cfg = s.cfg ∧ nmiEdge (s.countIdCycle r) r = nmiEdge s r ∧
      phaseView (s.countIdCycle r) = phaseView s ∧ (s.countIdCycle r).ipset = s.ipset ∧
      (s.countIdCycle r).srv.budget = s.srv.budget := by
    unfold State.countIdCycle
    split <;> exact ⟨rfl, rfl, rfl, rfl, rfl, rfl, rfl⟩
  unfold State.phaseStep
  simp only
  generalize s.countIdCycle r = v at *
  obtain ⟨c1, c2, c3, c4, c5, c6, c7⟩ := hc
  rw [← c1, ← c2, ← c3, ← c4, ← c5, ← c6, ← c7]
  split
  · rename_i h; exact .inl ⟨h, phaseView_enter _ _, by simp⟩
  · rename_i h0
    split
    · rename_i h; exact .inr (.inl ⟨h.1, h.2, phaseView_enter _ _, by simp⟩)
    · split
      · rename_i h
        refine .inr (.inr (.inl ⟨h.1, h.2, ?_⟩))
        have hs := State.runSegment_view ((v.withSrv { v.srv with
          nmiFetchCount := v.srv.nmiFetchCount + 1, nmiOut := false }).enter .executeFinalize) .executeFinalize pins r
            (State.enter_state _ _)
        have hi : ((v.withSrv { v.srv with nmiFetchCount := v.srv.nmiFetchCount + 1, nmiOut := false }).enter
            .executeFinalize).ipset = v.ipset := by rw [State.enter_eq]; rfl
        rw [phaseView_enter, State.enter_cfg, (PhaseFrame.enter _ _).loadFormat, State.enter_budget, hi] at hs
        exact hs
      · exact .inr (.inr (.inr ⟨h0, v.runSegment_view _ pins r rfl⟩))

end Sys2Proof.Machine
end

