-- ==== Sys2Proof/Laws/PhaseDone.lean ====
section
/-! SUPPORT. PHASE_DONE (46_phase_sequencer.md R320, R331): the state a tick asks it of, written by what the tick starts
from and ends with, and what its answer decides. -/

namespace Sys2Proof.Machine

open Sys2Proof

section
variable (s : State) (p : Pins) (d : Word) (g : Tag)

/-- At the tick that feeds a read cycle the latches of the cycle stay. -/
theorem afterAdvance_bcs_of_feeds (h : feedsNow (afterAdvance s p) s.bcs (tickCycle s p) = true) :
    s.bcs.fed = false ∧ (afterAdvance s p).bcs =
      { s.bcs with status := (decodeStatus s.cfg p.rawStatus p.statusValid).1, tcycle := (tickCycle s p).cyc } := by
  simp only [feedsNow, Bool.and_eq_true] at h
  obtain ⟨⟨h1, h2⟩, -⟩ := h
  have hne : (tickCycle s p).cyc ≠ .t1 ∧ (tickCycle s p).cyc ≠ .idle := by
    unfold entersData at h1
    constructor <;> intro hh <;> rw [hh] at h1 <;> split at h1 <;> simp at h1
  have hb : (afterAdvance s p).bcs =
      { s.bcs with status := (decodeStatus s.cfg p.rawStatus p.statusValid).1, tcycle := (tickCycle s p).cyc } := by
    rw [afterAdvance_eq]
    unfold tickBusCycle
    rw [show tickNext s.cfg s.bcs p (tickLines s.cfg s.bc p) = (tickCycle s p).cyc from rfl]
    simp [hne.1, hne.2]
  rw [hb] at h2
  exact ⟨by simpa using h2, hb⟩

/-- A tick that feeds no cycle leaves no cycle newly fed. -/
theorem afterAdvance_fed (h : s.bcs.fed = false) : (afterAdvance s p).bcs.fed = false := by
  rw [afterAdvance_eq]
  unfold tickBusCycle
  simp only
  split
  · rfl
  · split <;> exact h

/-- The feed of a tick, seen from the state it starts from and the latches it leaves. -/
theorem feedsNow_eq_fedInTick :
    feedsNow (afterAdvance s p) s.bcs (tickCycle s p) = fedInTick s (afterData s p d g) := by
  unfold fedInTick afterData
  rw [State.dataStep_bcs]
  cases h : feedsNow (afterAdvance s p) s.bcs (tickCycle s p)
  · cases hf : s.bcs.fed
    · simp [afterAdvance_fed s p hf]
    · simp
  · simp [(afterAdvance_bcs_of_feeds s p h).1]

/-- Step 3 moves the active program's cursor on where it serves the cycle that is fed, and nothing else of it
(46_phase_sequencer.md R314). -/
theorem afterData_ip_eq : (afterData s p d g).ip = programAfterFeed s (afterData s p d g) := by
  unfold programAfterFeed
  rw [← feedsNow_eq_fedInTick]
  have hip : (afterAdvance s p).ip = s.ip := by rw [afterAdvance_eq]
  have ha : arbiter (afterAdvance s p).cfg (afterAdvance s p).srv.state = arbiter s.cfg s.srv.state := by
    rw [afterAdvance_eq]
  unfold afterData
  rw [State.dataStep_ip, hip, ha]
  cases h : feedsNow (afterAdvance s p) s.bcs (tickCycle s p)
  · rfl
  · have hb := (afterAdvance_bcs_of_feeds s p h).2
    cases arbiter s.cfg s.srv.state
    · simp only [State.feedData, hb, if_true, Bool.true_and, beq_self_eq_true]
      split <;> simp [State.readProgram, programAdvance, hip]
    · simp only [State.feedData, hb, if_true]
      split
      · rw [State.busRead_eq]; simp [hip]
      · simp [hip]
    · simp [State.feedData, hip]
    · simp [State.feedData, hip]

/-- Step 3 marks the program as ended when it serves a fetch with fill (46_phase_sequencer.md R314). -/
theorem afterData_programEnded_eq : (afterData s p d g).srv.programEnded =
    (s.srv.programEnded || fedInTick s (afterData s p d g) &&
      servedFill s.bcs (afterData s p d g).bcs.fedNprog s.srv.state) := by
  rw [← feedsNow_eq_fedInTick]
  cases h : feedsNow (afterAdvance s p) s.bcs (tickCycle s p)
  · rw [afterData_programEnded s p d g h]; simp
  · have hb := (afterAdvance_bcs_of_feeds s p h).2
    have hs : (afterAdvance s p).srv.state = s.srv.state ∧
        (afterAdvance s p).srv.programEnded = s.srv.programEnded := by rw [afterAdvance_eq]; exact ⟨rfl, rfl⟩
    have hv : ∀ n, servedFill (afterAdvance s p).bcs n s.srv.state = servedFill s.bcs n s.srv.state := by
      intro n; rw [hb]; rfl
    have hn : (afterData s p d g).bcs.fedNprog =
        ((afterAdvance s p).feedData (arbiter (afterAdvance s p).cfg (afterAdvance s p).srv.state) p d g).2.2 := by
      unfold afterData; rw [State.dataStep_bcs, h]; rfl
    rw [hn]
    unfold afterData State.dataStep
    simp only [h, if_true, Bool.true_and]
    split <;> split <;> simp [State.captureWrite_eq, State.feed_eq, hs, hv]

/-- The state PHASE_STEP asks PHASE_DONE of, the identification cycle counted, from the two ends of the tick. -/
theorem afterLog_countIdCycle_eq (r : Response) : (afterLog s p d g).countIdCycle (tickCycle s p) =
    stateBeforeEdge s ((engineTick s p d g).state.withResp r) := by
  obtain ⟨e, f, hl⟩ := afterLog_eq s p d g
  obtain ⟨x, hv⟩ := afterData_srv s p d g
  have hflags : (afterLog s p d g).flags.lastError = s.flags.lastError := by
    obtain ⟨a, b, c, h⟩ := afterData_flags s p d g
    rw [hl]; simp only [h]
  have hresp : (afterLog s p d g).resp = s.resp := by
    rw [hl]; unfold afterData; simp only [State.dataStep_resp]; rw [afterAdvance_eq]
  have hbcs : (afterLog s p d g).bcs = (afterData s p d g).bcs := by rw [hl]
  have hip : (afterLog s p d g).ip = programAfterFeed s (afterData s p d g) := by rw [hl]; exact afterData_ip_eq s p d g
  have hsrv : (afterLog s p d g).srv = (afterData s p d g).srv := by rw [hl]
  have hpe := afterData_programEnded_eq s p d g
  obtain ⟨edge, -, -, hk, -⟩ := (afterLog s p d g).phaseStep_kept p (tickCycle s p) (tickReport s p d g)
  have hf := (PhaseFrame.phaseStep (afterLog s p d g) p (tickCycle s p) (tickReport s p d g)).eq
  have hc : (afterLog s p d g).countIdCycle (tickCycle s p) = { afterLog s p d g with
      srv := { (afterLog s p d g).srv with
        idCycles := ((afterLog s p d g).countIdCycle (tickCycle s p)).srv.idCycles } } := by
    unfold State.countIdCycle; split <;> rfl
  have hid := hk.idCycles
  have hcur := hk.stackCaptureCursor
  simp only at hid hcur
  have hcc : ((afterLog s p d g).countIdCycle (tickCycle s p)).srv.stackCaptureCursor =
      (afterLog s p d g).srv.stackCaptureCursor := by rw [hc]
  rw [hcc] at hcur
  rw [← hid] at hc
  rw [engineTick_eq]
  simp only
  generalize ((afterLog s p d g).phaseStep p (tickCycle s p) (tickReport s p d g)).1 = t at *
  have hu : ∀ u : State, u.bcs = (afterData s p d g).bcs →
      programAfterFeed s u = programAfterFeed s (afterData s p d g) ∧
      fedInTick s u = fedInTick s (afterData s p d g) := by
    intro u h; unfold programAfterFeed fedInTick; rw [h]; exact ⟨rfl, rfl⟩
  obtain ⟨k1, k2⟩ := hu (t.withResp r) (by rw [State.withResp_bcs, hf]; exact hbcs)
  have hfinal : (afterLog s p d g).srv = { s.srv with
      tickCount := s.srv.tickCount + 1
      stackCaptureCursor := t.srv.stackCaptureCursor
      programEnded := s.srv.programEnded || fedInTick s (afterData s p d g) &&
        servedFill s.bcs (afterData s p d g).bcs.fedNprog s.srv.state } := by
    rw [hcur, hsrv, ← hpe, hv]
  rw [hc]
  unfold stateBeforeEdge
  rw [k1, k2, ← hip, ← hresp, ← hflags]
  clear hu k1 k2 hk hid hcc hl
  generalize afterLog s p d g = u at *
  obtain ⟨i, v, k, rfl⟩ : ∃ i v k, t = { u with ip := i, srv := v, flags := { u.flags with lastError := k } } :=
    ⟨_, _, _, hf⟩
  simp only at hfinal
  simp only [State.withResp, hbcs]
  rw [hfinal]

end

/-! ### What the answer decides -/

/-- The phases a running segment leaves on PHASE_DONE (46_phase_sequencer.md R320). -/
def awaitsPhaseDone : ServerState → Bool
  | .cpuId | .cpuSetup | .jumpVector | .load | .loadSmm | .emuEnter | .prefetch | .executeFinalize | .emuExit
  | .store | .storeAll => true
  | .reset | .loadDone | .execute | .executeDone | .storeDone | .storeDoneSmm | .done | .shutdown | .error => false

/-- A tick of a budget keeps the phase, but the last one of a reset phase fails (46_phase_sequencer.md R338). -/
theorem State.spendBudget_state (s : State) : s.spendBudget.1.srv.state =
    if s.srv.budget = 1 ∧ isResetPhase s.srv.state = true then .error else s.srv.state := by
  rcases s.spendBudget_cases with ⟨h, k⟩ | ⟨h, k⟩ | ⟨h, h', k⟩ | ⟨h, h', k⟩ <;> rw [k]
  · rw [if_neg (by omega)]
  · rw [if_neg (by omega)]; rfl
  · rw [if_pos ⟨h, h'⟩]; exact State.enter_state _ _
  · rw [if_neg (by simp [h'])]; rfl

/-- The edge of the transition table, when it is taken. -/
theorem State.advancePhase_state {s : State} {p t : ServerState} {rest : Bool}
    (h : successor s.cfg s.srv.loadFormat p = some (t, rest)) : (s.advancePhase p).srv.state = t ∧
      (s.advancePhase p).srv.budget = if rest then 0 else s.srv.budget := by
  unfold State.advancePhase
  rw [h]
  exact ⟨State.enter_state _ _, State.enter_budget _ _⟩

/-- The phase after a running segment's tick that takes the edge of the table. -/
theorem State.advancePhase_spend_state {s : State} {p t : ServerState} {rest : Bool}
    (h : successor s.cfg s.srv.loadFormat p = some (t, rest)) : (s.advancePhase p).spendBudget.1.srv.state =
      if rest = false ∧ s.srv.budget = 1 ∧ isResetPhase t = true then .error else t := by
  obtain ⟨h1, h2⟩ := State.advancePhase_state h
  rw [State.spendBudget_state, h1, h2]
  cases rest <;> simp

/-- A running segment's tick in a phase that ends on PHASE_DONE: the answer decides between the successor and the phase
itself; a reset phase that comes to no rest point on the last tick fails (46_phase_sequencer.md R320, R330, R338). -/
theorem State.runSegment_phaseDone {s : State} {p t : ServerState} {rest : Bool} (pins : Pins) (r : CycleResult)
    (hp : s.srv.state = p) (hb : 0 < s.srv.budget) (ha : awaitsPhaseDone p = true)
    (h : successor s.cfg s.srv.loadFormat p = some (t, rest)) :
    (s.runSegment p pins r).1.srv.state =
      if phaseDone p s pins r = true then
        (if rest = false ∧ s.srv.budget = 1 ∧ isResetPhase t = true then .error else t)
      else if s.srv.budget = 1 ∧ isResetPhase p = true then .error else p := by
  unfold State.runSegment
  rw [if_neg (by omega)]
  have he : s.segmentEdge p pins r = if phaseDone p s pins r then s.advancePhase p else s := by
    cases p <;> first | rfl | cases ha
  rw [he]
  split
  · exact State.advancePhase_spend_state h
  · rw [State.spendBudget_state, hp]

end Sys2Proof.Machine
end

