-- ==== Sys2Proof/Tests/Slice0.lean ====
section
/-! SUPPORT. Tests. Expected values are written out from the spec: the op bytes of 30_encoding.md R108, the worked
examples of the rules and the vectors of 95_test_vectors.md. The witnesses show states and operands that meet the
hypotheses of the statements. -/

namespace Sys2Proof.Tests

open Sys2Proof Sys2Proof.Machine

/-! ### Helpers -/

/-- An instance whose open functions have their suggested bodies (95_test_vectors.md, conventions). -/
def suggestedInstance : Config :=
  { Config.defaultInstance with avalanche := .suggested, phaseDone := .suggested, storeAddrOk := .suggested }

/-- Power-on of that instance. -/
def base : State := State.powerOn suggestedInstance

/-- The base state under another configuration. -/
def onCfg (f : Config → Config) : State := { base with cfg := f base.cfg }

/-- A state in a phase with a budget. -/
def inPhase (p : ServerState) (n : Nat) (s : State) : State := { s with srv := { s.srv with state := p, budget := n } }

/-- The state an operation leaves. -/
def after (i : Instr) (s : State) : State :=
  match exec i s with
  | .next t => t
  | .fault _ => s
  | .refused _ => s

/-- The response of an operation. -/
def respOf (i : Instr) (s : State) : Response := (after i s).resp

/-- Operand ports with a value of its own on each port. -/
def somePorts : Ports where
  raw := 0b1010
  valid := true
  st := 0b100
  lst := 0b110
  cyc := 0b011
  width := 0b01
  tag := 0b1
  qs := 0b11
  addr := 0x00012345
  base := 0x00000100
  data := 0x34B8
  bhe := true
  ready := false
  done := true
  bus16 := true
  lines := 0b10010
  sel := 0x02
  seed := 0x0000BEEF
  bytes := [0xB8, 0x34]
  pins := { Pins.zero with rawStatus := 0b100, addr := 0xFFFF0 }
  name := .jump

/-! ### Decoding: every row of the map from its op byte (30_encoding.md R106, R108) -/

theorem test_decode_bcs_reset : decode ⟨0b00000000, somePorts⟩ = .ok .bcsReset := rfl
theorem test_decode_decode_status : decode ⟨0b00000001, somePorts⟩ = .ok (.decodeStatus 0b1010 true) := rfl
theorem test_decode_xfer_done :
    decode ⟨0b00000010, somePorts⟩ = .ok (.xferDone .memWrite ⟨true, false, false, true, false⟩ false) := rfl
theorem test_decode_next_cycle :
    decode ⟨0b00000011, somePorts⟩ = .ok (.nextCycle (.cycle .t3) .code .memWrite true) := rfl
theorem test_decode_bus_width : decode ⟨0b00000100, somePorts⟩ = .ok (.busWidth 0x12345 true true) := rfl
theorem test_decode_cycle_tick : decode ⟨0b00000101, somePorts⟩ =
    .ok (.cycleTick { Pins.zero with rawStatus := 0b100, addr := 0xFFFF0 } ⟨true, false, false, true, false⟩) := rfl
theorem test_decode_xcvr_set : decode ⟨0b00000110, somePorts⟩ = .ok (.xcvrSet 2 (.width .eightHigh) 0x34B8) := rfl
theorem test_decode_bc_reset : decode ⟨0b00010000, somePorts⟩ = .ok .bcReset := rfl
theorem test_decode_bc_tick : decode ⟨0b00010001, somePorts⟩ = .ok (.bcTick .code) := rfl
theorem test_decode_bc_tick2 : decode ⟨0b00010010, somePorts⟩ = .ok (.bcTick2 .code false) := rfl
theorem test_decode_q_reset : decode ⟨0b00100000, somePorts⟩ = .ok (.qReset 2) := rfl
theorem test_decode_q_has_room : decode ⟨0b00100001, somePorts⟩ = .ok (.qHasRoom (.width .eightHigh)) := rfl
theorem test_decode_q_push :
    decode ⟨0b00100010, somePorts⟩ = .ok (.qPush 0x34B8 .programEnd (.width .eightHigh)) := rfl
theorem test_decode_q_pop : decode ⟨0b00100011, somePorts⟩ = .ok .qPop := rfl
theorem test_decode_q_flush : decode ⟨0b00100100, somePorts⟩ = .ok .qFlush := rfl
theorem test_decode_q_len : decode ⟨0b00100101, somePorts⟩ = .ok .qLen := rfl
theorem test_decode_q_status : decode ⟨0b00100110, somePorts⟩ = .ok (.qStatus .subsequent) := rfl
theorem test_decode_ip_select :
    decode ⟨0b00110000, somePorts⟩ = .ok (.ipSelect .jump [0xB8, 0x34] 0x34B8 0x12345) := rfl
theorem test_decode_ip_reset : decode ⟨0b00110001, somePorts⟩ = .ok .ipReset := rfl
theorem test_decode_ip_read : decode ⟨0b00110010, somePorts⟩ = .ok (.ipRead 0x12345 (.width .eightHigh)) := rfl
theorem test_decode_ip_read_at :
    decode ⟨0b00110011, somePorts⟩ = .ok (.ipReadAt 0x100 0x12345 (.width .eightHigh)) := rfl
theorem test_decode_ip_patch_vector : decode ⟨0b00110100, somePorts⟩ = .ok (.ipPatchVector 0x34B8) := rfl
theorem test_decode_ip_patch_word : decode ⟨0b00110101, somePorts⟩ = .ok (.ipPatchWord 0x12345 0x34B8) := rfl
theorem test_decode_mb_read8 : decode ⟨0b01000000, somePorts⟩ = .ok (.mbRead8 0x12345) := rfl
theorem test_decode_mb_write8 : decode ⟨0b01000001, somePorts⟩ = .ok (.mbWrite8 0x12345 0x34B8) := rfl
theorem test_decode_mb_read16 : decode ⟨0b01000010, somePorts⟩ = .ok (.mbRead16 0x12345) := rfl
theorem test_decode_mb_write16 : decode ⟨0b01000011, somePorts⟩ = .ok (.mbWrite16 0x12345 0x34B8) := rfl
theorem test_decode_mb_bus_read : decode ⟨0b01000100, somePorts⟩ = .ok (.mbBusRead 0x12345 true true) := rfl
theorem test_decode_mb_bus_write : decode ⟨0b01000101, somePorts⟩ = .ok (.mbBusWrite 0x12345 true true 0x34B8) := rfl
theorem test_decode_mb_io_read : decode ⟨0b01000110, somePorts⟩ = .ok (.mbIoRead 0x12345 (.width .eightHigh)) := rfl
theorem test_decode_mb_io_write :
    decode ⟨0b01000111, somePorts⟩ = .ok (.mbIoWrite 0x12345 (.width .eightHigh) 0x34B8) := rfl
theorem test_decode_mb_set : decode ⟨0b01001000, somePorts⟩ = .ok (.mbSet 0x12345 [0xB8, 0x34]) := rfl
theorem test_decode_mb_erase : decode ⟨0b01001001, somePorts⟩ = .ok .mbErase := rfl
theorem test_decode_mb_set_default : decode ⟨0b01001010, somePorts⟩ = .ok (.mbSetDefault 2 0xBEEF) := rfl
theorem test_decode_mb_select : decode ⟨0b01001011, somePorts⟩ = .ok (.mbSelect 2) := rfl
theorem test_decode_log_clear : decode ⟨0b01010000, somePorts⟩ = .ok .logClear := rfl
theorem test_decode_log_append :
    decode ⟨0b01010001, somePorts⟩ = .ok (.logAppend .code (.width .eightHigh) 0x12345 0x34B8) := rfl
theorem test_decode_log_read : decode ⟨0b01010010, somePorts⟩ = .ok (.logRead 0x12345) := rfl
theorem test_decode_log_status : decode ⟨0b01010011, somePorts⟩ = .ok .logStatus := rfl
theorem test_decode_be_read : decode ⟨0b01010100, somePorts⟩ = .ok (.beRead .code 0x12345 true true) := rfl
theorem test_decode_be_write : decode ⟨0b01010101, somePorts⟩ = .ok (.beWrite .code 0x12345 true true 0x34B8) := rfl
theorem test_decode_engine_tick : decode ⟨0b01100000, somePorts⟩ =
    .ok (.engineTick { Pins.zero with rawStatus := 0b100, addr := 0xFFFF0 } 0x34B8 .programEnd) := rfl
theorem test_decode_srv_reset : decode ⟨0b01100001, somePorts⟩ = .ok (.srvReset true 2) := rfl
theorem test_decode_srv_load : decode ⟨0b01100010, somePorts⟩ = .ok (.srvLoad 2 [0xB8, 0x34] 0x34B8) := rfl
theorem test_decode_srv_finalize : decode ⟨0b01100011, somePorts⟩ = .ok .srvFinalize := rfl
theorem test_decode_srv_store : decode ⟨0b01100100, somePorts⟩ = .ok .srvStore := rfl
theorem test_decode_srv_storeall : decode ⟨0b01100101, somePorts⟩ = .ok .srvStoreall := rfl
theorem test_decode_illegal_low : decode ⟨0x07, somePorts⟩ = .error (.illegalOp 0x07) := rfl
theorem test_decode_illegal_high : decode ⟨0xFF, somePorts⟩ = .error (.illegalOp 0xFF) := rfl
theorem test_decode_width_code3 : decode ⟨0x21, { somePorts with width := 3 }⟩ = .ok (.qHasRoom .code3) := rfl
theorem test_decode_cycle_code6 :
    decode ⟨0x03, { somePorts with cyc := 6 }⟩ = .ok (.nextCycle .code6 .code .memWrite true) := rfl
theorem test_decode_queue_status_codes :
    (QueueStatus.ofBits 0, QueueStatus.ofBits 1, QueueStatus.ofBits 2) = (.idle, .first, .flush) := by decide

theorem test_table_word_last : decodeTableWord 8 0x65 = some .srvStoreall := by decide
theorem test_table_word_operands : decodeTableWord 8 0x11 = some (.bcTick .irqAck) := by decide
theorem test_table_word_illegal : decodeTableWord 8 0x66 = none := by decide
theorem test_encode_push : (encode (.qPush 0x34B8 .programEnd (.width .sixteen))).op = 0x22 := rfl

theorem test_fetch_word : (step (State.reset.withFetchWord 8 0x25)) =
    .next (State.reset.withResp { len := some 0, cap := some 4 }) := rfl
theorem test_step_illegal : step (State.reset.withFetchWord 8 0x66) =
    .next (State.reset.withResp { ok := false, illegal := true }) := rfl

/-! Packed records (95_test_vectors.md V45.4; 30_encoding.md R100). -/

theorem test_pack_write : packBusOperation ⟨.memWrite, .width .sixteen, 0x0000FFFC, 0xF002⟩ = 0x1A0000FFFCF002 := by
  decide
theorem test_pack_refresh : packBusOperation ⟨.memRead, .code3, 0x00000FFF, 0xFFFF⟩ = 0x1700000FFFFFFF := by decide
theorem test_pack_queue_entry : packQueueEntry ⟨0x90, .programEnd⟩ = 0x190 := by decide

/-! ### Well-formedness: an ill-formed term for each check -/

theorem test_wf_nmi_vector : ({ suggestedInstance with nmiVectorAddr := 0x100008 } : Config).wellFormed = false := by decide
theorem test_wf_next_cycle : (Instr.nextCycle .code6 .passive .passive false).wellFormed = false := rfl
theorem test_wf_xcvr_set : (Instr.xcvrSet 0 .code3 0).wellFormed = false := rfl
theorem test_wf_q_reset : (Instr.qReset 5).wellFormed = false := rfl
theorem test_wf_q_has_room : (Instr.qHasRoom .code3).wellFormed = false := rfl
theorem test_wf_q_push : (Instr.qPush 0 .program .code3).wellFormed = false := rfl
theorem test_wf_ip_read : (Instr.ipRead 0 .code3).wellFormed = false := rfl
theorem test_wf_ip_read_at : (Instr.ipReadAt 0 0 .code3).wellFormed = false := rfl
theorem test_wf_mb_io_read : (Instr.mbIoRead 0 .code3).wellFormed = false := rfl
theorem test_wf_mb_io_write : (Instr.mbIoWrite 0 .code3 0).wellFormed = false := rfl
theorem test_wf_mb_set_default : (Instr.mbSetDefault 3 0).wellFormed = false := by decide
theorem test_wf_mb_select : (Instr.mbSelect 3).wellFormed = false := by decide
theorem test_wf_log_append : (Instr.logAppend .passive .code3 0 0).wellFormed = false := rfl
theorem test_wf_srv_load : (Instr.srvLoad 4 [] 0).wellFormed = false := by decide
theorem test_wf_accepts : (Instr.logAppend .code .code3 0 0).wellFormed = true := rfl
theorem test_wf_config_budget : ({ suggestedInstance with tLoad := 0 }).wellFormed = false := by decide
theorem test_wf_config_capacity : ({ suggestedInstance with mbHashCap := 3 }).wellFormed = false := by decide
theorem test_wf_config_accepts : ({ suggestedInstance with mbHashCap := 8 }).wellFormed = true := by decide

/-! ### Family 40 (95_test_vectors.md V40.1 to V40.9, S1) -/

theorem test_decode_status_s3 :
    respOf (.decodeStatus 0b1010 false) base = { status := some .ioWrite, reserved := some false } := by decide
theorem test_decode_status_n4_reserved :
    respOf (.decodeStatus 0b0001 true) (onCfg ({ · with statusVariant := .n4 })) =
      { status := some .passive, reserved := some true } := by decide
theorem test_xfer_done_line : respOf (.xferDone .memRead ⟨true, false, true, true, true⟩ false) base =
    { done := some true } := by decide
theorem test_xfer_done_ready : respOf (.xferDone .irqAck ⟨false, true, true, true, true⟩ false) base =
    { done := some false } := by decide
theorem test_next_cycle_four : respOf (.nextCycle (.cycle .t1) .passive .memRead true) base =
    { cyc := some .t2 } := by decide
theorem test_next_cycle_two : respOf (.nextCycle (.cycle .t2) .memWrite .memRead true)
    (onCfg ({ · with cycleVariant := .twoState })) = { cyc := some .t1 } := by decide
theorem test_bus_width_high : respOf (.busWidth 0xFFFFF true true) base =
    { width := some .eightHigh, valid := some true } := by decide
theorem test_bus_width_refresh : respOf (.busWidth 0x00101 false true) base =
    { width := some .eightLow, valid := some false } := by decide
theorem test_xcvr_set_output : (after (.xcvrSet 1 (.width .sixteen) 0x34B8) base).xcvr = ⟨.output, .sixteen, 0x34B8⟩ ∧
    (respOf (.xcvrSet 1 (.width .sixteen) 0x34B8) base).changed = some true := by decide
theorem test_xcvr_set_input_keeps_data :
    (after (.xcvrSet 0 (.width .sixteen) 0) { base with xcvr := ⟨.output, .sixteen, 0x34B8⟩ }).xcvr =
      ⟨.input, .sixteen, 0x34B8⟩ := by decide

/-- A pin sample with a raw status, an address and `ready` = 1, `bhe` = 1 (95_test_vectors.md, family 46). -/
def pinsOf (raw : BitVec 4) (addr : Addr) : Pins :=
  { Pins.zero with rawStatus := raw, addr := addr, bhe := true, ready := true }

/-- No command line asserted. -/
def noLines : CmdLines := ⟨false, false, false, false, false⟩

/-- A bus-cycle machine in a T-cycle of a cycle of a kind, sixteen bits wide. -/
def inCycle (c : TCycle) (k : BusStatus) : BusCycle :=
  { BusCycle.powerOn with tcycle := c, status := k, latchedStatus := k, addressLatch := 0x0FFFC, busWidth := .sixteen }

theorem test_cycle_tick_enters_t1 :
    (after (.cycleTick (pinsOf 0b100 0xFFFF0) noLines) (onCfg ({ · with bus16 := true }))).bcs =
      { BusCycle.powerOn with tcycle := .t1, status := .code, latchedStatus := .code, addressLatch := 0xFFFF0,
                              busWidth := .sixteen } := by decide
theorem test_cycle_tick_back_to_back :
    respOf (.cycleTick (pinsOf 0b110 0x102) noLines)
      { onCfg ({ · with cycleVariant := .twoState }) with bcs := inCycle .t2 .memRead } =
      { cyc := some .t1, enteredT1 := some true, ended := some true } := by decide
theorem test_bcs_reset :
    (after .bcsReset { base with bcs := inCycle .t3 .memWrite, xcvr := ⟨.output, .sixteen, 0x34B8⟩ }).bcs =
      BusCycle.powerOn := by decide

/-! ### Family 41 (R167, V41.5, V41.7) -/

/-- The lines of an I/O-write cycle: `ale`, `aiowc`, `iowc`. -/
def ioWriteLines (a i d : Bool) : ControllerLines := ⟨a, false, false, false, false, i, d⟩

/-- The controller in a T-cycle of an I/O-write cycle, given Passive last. -/
def ioWriteController (c : TCycle) (l : ControllerLines) : BusController :=
  ⟨.passive, .passive, .ioWrite, c, l⟩

theorem test_bc_tick_delayed_strobe :
    respOf (.bcTick .passive) { base with bc := ioWriteController .t2 (ioWriteLines false true false) } =
      { lines := some (ioWriteLines false true true), cyc := some .t3 } := by decide
theorem test_bc_tick_override :
    (after (.bcTick .ioRead) { base with bc := ⟨.memWrite, .passive, .memWrite, .t2,
      ⟨false, false, true, false, false, false, false⟩⟩ }).bc =
      ⟨.passive, .ioRead, .ioRead, .t1, ⟨true, false, false, false, false, false, false⟩⟩ := by decide
theorem test_bc_tick2_plain_line :
    respOf (.bcTick2 .passive false) { base with bc := ioWriteController .t1 (ioWriteLines true false false) } =
      { lines := some (ioWriteLines false false true), cyc := some .t2 } := by decide
theorem test_bc_tick2_ready :
    respOf (.bcTick2 .passive true) { base with bc := ioWriteController .t2 (ioWriteLines false false true) } =
      { lines := some (ioWriteLines false false false), cyc := some .idle } := by decide
theorem test_bc_reset : (after .bcReset { base with bc := ioWriteController .t3 (ioWriteLines false true true) }).bc =
    BusController.powerOn := by decide

/-! ### Family 42 (V42.1 to V42.4) -/

/-- The queue of capacity 4 that holds (0x34, Program) and (0x90, ProgramEnd) across the wrap. -/
def wrappedQueue : Queue :=
  ⟨.four, #v[⟨0x90, .programEnd⟩, ⟨0, .program⟩, ⟨0, .program⟩, ⟨0x34, .program⟩, ⟨0, .program⟩, ⟨0, .program⟩], 3, 2⟩

theorem test_q_reset : (after (.qReset 6) { base with q := wrappedQueue }).q =
    { wrappedQueue with cap := .six, front := 0, len := 0 } := by decide
theorem test_q_has_room : (respOf (.qHasRoom (.width .sixteen)) { base with q := { wrappedQueue with len := 3 } },
    respOf (.qHasRoom (.width .eightHigh)) { base with q := { wrappedQueue with len := 3 } }) =
      ({ room := some false }, { room := some true }) := by decide
theorem test_q_push_low_byte_first :
    queueList (after (.qPush 0x34B8 .program (.width .sixteen)) { base with q := wrappedQueue }).q =
      [⟨0x34, .program⟩, ⟨0x90, .programEnd⟩, ⟨0xB8, .program⟩, ⟨0x34, .program⟩] := by decide
theorem test_q_push_refused_whole :
    after (.qPush 0x5678 .program (.width .sixteen)) { base with q := { wrappedQueue with len := 3 } } =
      { base with q := { wrappedQueue with len := 3 }, resp := { ok := false } } := rfl
theorem test_q_pop : respOf .qPop { base with q := wrappedQueue } =
    { empty := some false, byte := some 0x34, tag := some .program } ∧
    queueList (after .qPop { base with q := wrappedQueue }).q = [⟨0x90, .programEnd⟩] := by decide
theorem test_q_flush : queueList (after .qFlush { base with q := wrappedQueue }).q = [] := by decide
theorem test_q_len : respOf .qLen { base with q := wrappedQueue } = { len := some 2, cap := some 4 } := by decide
theorem test_q_status_subsequent : respOf (.qStatus .subsequent) { base with q := wrappedQueue } =
    { popped := some true, first := some false, byte := some 0x34, tag := some .program } := by decide
theorem test_q_status_underflow : (after (.qStatus .first) base).flags.queueUnderflow = true := by decide

/-! ### Family 43 (V43.1 to V43.3) -/

/-- The program [0xB8, 0x34, 0x12] with fill 0x9090 and vector offset 1, its cursor at `n`. -/
def threeBytes (n : Nat) : State := { base with ip := ⟨.label "t", [0xB8, 0x34, 0x12], n, 0x9090, 1⟩ }

theorem test_ip_select : (after (.ipSelect (.label "t") [0xB8, 0x34, 0x12] 0x9090 1) base).ip = (threeBytes 0).ip := by
  decide
theorem test_ip_select_too_long :
    (respOf (.ipSelect .user [1, 2, 3] 0 0) (onCfg ({ · with ipMaxLen := 2 }))).ok = false := by decide
theorem test_ip_reset : (after .ipReset (threeBytes 3)).ip = (threeBytes 0).ip := by decide
theorem test_ip_read_straddles : respOf (.ipRead 0 (.width .sixteen)) (threeBytes 2) =
    { data := some 0x9012, nprog := some 1, ended := some false } ∧
    (after (.ipRead 0 (.width .sixteen)) (threeBytes 2)).ip.cursor = 3 := by decide
theorem test_ip_read_ended : respOf (.ipRead 0 (.width .eightLow)) (threeBytes 3) =
    { data := some 0x9090, nprog := some 0, ended := some true } := by decide
theorem test_ip_read_at_before : respOf (.ipReadAt 0x101 0x100 (.width .sixteen)) (threeBytes 0) =
    { data := some 0xB890, nprog := some 1 } := by decide
theorem test_ip_read_at_outside : respOf (.ipReadAt 0x100 0x103 (.width .eightHigh)) (threeBytes 0) =
    { data := some 0x9090, nprog := some 0 } := by decide
theorem test_ip_read_at_high_lane : (respOf (.ipReadAt 0x100 0x101 (.width .eightHigh)) (threeBytes 0)).data.map
    highLane = some 0x34 :=
  congrArg some (highLane_joinLanes 0x34 (Config.freeLane 0))
theorem test_ip_patch_vector : (after (.ipPatchVector 0xBEEF) (threeBytes 2)).ip.buf = [0xB8, 0xEF, 0xBE] := by decide
theorem test_ip_patch_word_refused : after (.ipPatchWord 2 0x1111) (threeBytes 2) =
    { threeBytes 2 with resp := { ok := false } } := rfl

/-! ### Family 44 (V44.1 to V44.9) -/

/-- The hash table {0x800: 0xAB00}. -/
def oneWord : State := { base with mb := { base.mb with hash := [(0x800, 0xAB00)] } }

/-- The flat array of 0x1000 bytes with 0x11 at 0x100 and 0x22 at 0x101. -/
def flatArray : State := { base with mb := { base.mb with variant := .flat, flat := [(0x100, 0x11), (0x101, 0x22)] } }

theorem test_mb_read8_ones : respOf (.mbRead8 0x12345) { base with mb := { base.mb with strategy := .ones } } =
    { data := some 0x00FF } := by decide
theorem test_mb_read8_random : respOf (.mbRead8 0x12345)
    { base with mb := { base.mb with strategy := .random, seed := 1 } } = { data := some 0x00F6 } := by decide
theorem test_mb_write8 : (after (.mbWrite8 0x1001 0xAB) base).mb.hash = [(0x800, 0xAB00)] := by decide
theorem test_mb_write8_full : (after (.mbWrite8 4 3) { onCfg ({ · with mbHashCap := 1 }) with mb := oneWord.mb }).flags
    = { Anomalies.powerOn with mbFull := true } := by decide
theorem test_mb_read16_odd : respOf (.mbRead16 0x1001) oneWord = { data := some 0x00AB } := by decide
theorem test_mb_read16_flat_edge : respOf (.mbRead16 0xFFF) flatArray =
    { ok := false, err := some .memoryRange } := by decide
theorem test_mb_write16_wraps : (after (.mbWrite16 0xFFFFF 0xBBAA) base).mb.hash =
    [(0, 0x00BB), (0x7FFFF, 0xAA00)] := by decide
theorem test_mb_write16_first_byte_stays : (after (.mbWrite16 0xFFF 0xBBAA) flatArray).mb.flat =
    [(0x100, 0x11), (0x101, 0x22), (0xFFF, 0xAA)] := by decide
theorem test_mb_bus_read_word : respOf (.mbBusRead 0x100 true true) flatArray =
    { data := some 0x2211, width := some .sixteen, valid := some true } := by decide
theorem test_mb_bus_read_refresh : respOf (.mbBusRead 0xFFF false true) flatArray =
    { data := some 0xFFFF, width := some .eightLow, valid := some false } := by decide
theorem test_mb_bus_write_high : (after (.mbBusWrite 0x1001 true true 0xCC55) oneWord).mb.hash =
    [(0x800, 0xCC00)] := by decide
theorem test_mb_bus_write_range : (after (.mbBusWrite 0x1000 true true 0x5555) flatArray).flags =
    { Anomalies.powerOn with mbRange := true } := by decide
theorem test_mb_io_read : respOf (.mbIoRead 0x60 (.width .eightLow)) base = { data := some 0xFFFF } := by decide
theorem test_mb_io_write : after (.mbIoWrite 0x20 (.width .eightLow) 0x20) base = { base with resp := {} } := rfl
theorem test_mb_set_stops : (after (.mbSet 0xFFE [1, 2, 3]) flatArray).mb.flat =
    [(0x100, 0x11), (0x101, 0x22), (0xFFE, 1), (0xFFF, 2)] ∧
    (respOf (.mbSet 0xFFE [1, 2, 3]) flatArray).err = some .memoryRange := by decide
theorem test_mb_erase : (after .mbErase oneWord).mb = base.mb := by decide
theorem test_mb_set_default : (after (.mbSetDefault 2 0xBEEF) oneWord).mb =
    { oneWord.mb with strategy := .random, seed := 0xBEEF } := by decide
theorem test_mb_select : (after (.mbSelect 1) flatArray).mb = { flatArray.mb with flat := [] } := by decide
theorem test_avalanche : (suggestedAvalanche 0xBEEF 0x800, suggestedAvalanche 0xBEEF 0x801, suggestedAvalanche 0 0) =
    (0xF9DA, 0x1580, 0x0000) := by decide

/-! ### Family 45 (V45.1 to V45.5) -/

theorem test_log_append : (after (.logAppend .memWrite (.width .sixteen) 0x0FFFC 0xF002) base).log.writeRun = 1 ∧
    respOf (.logRead 0) (after (.logAppend .memWrite (.width .sixteen) 0x0FFFC 0xF002) base) =
      { entry := some ⟨.memWrite, .width .sixteen, 0x0FFFC, 0xF002⟩ } := by decide
theorem test_log_append_wraps : (fun l : BusLog => (l.count, l.wr, l.overflow))
    (after (.logAppend .code (.width .eightLow) 0x100 0) { base with log := { base.log with count := 256 } }).log =
      (256, 1, true) := by decide
theorem test_log_read_refuses : respOf (.logRead 0) base = { ok := false } := by decide
theorem test_log_read_oldest : (respOf (.logRead 255) { base with log := { base.log with
    count := 256, wr := 1, entry := base.log.entry.set 0 ⟨.code, .width .eightLow, 0x100, 0⟩ } }).entry =
      some ⟨.code, .width .eightLow, 0x100, 0⟩ := by decide
theorem test_log_status : respOf .logStatus { base with log := { base.log with count := 3, farCallHint := true } } =
    { count := some 3, overflow := some false, hint := some true } := by decide
theorem test_log_clear : respOf .logStatus (after .logClear { base with log := { base.log with
    count := 256, overflow := true } }) = { count := some 0, overflow := some false, hint := some false } := by decide
theorem test_be_read : respOf (.beRead .irqAck 0 false true) base =
    { data := some 0xFFFF, width := some .eightLow, valid := some true } := by decide
theorem test_be_read_refuses : respOf (.beRead .memWrite 0 true true) base = { ok := false } := by decide
theorem test_be_write_refresh : respOf (.logRead 0) (after (.beWrite .memWrite 0xFFF false true 0xDEAD) base) =
    { entry := some ⟨.memWrite, .code3, 0xFFF, 0xDEAD⟩ } := by decide

/-! ### Family 46 (V46.1 to V46.9) -/

theorem test_engine_tick_ends_reset :
    (fun t : State => (t.srv.state, t.srv.budget, t.srv.resetResult.success, t.resp.err))
      (after (.engineTick (pinsOf 0b100 0xFFFF0) 0 .program) (inPhase .reset 1 base)) =
        (.jumpVector, 0, true, none) := by decide
theorem test_engine_tick_reset_failure :
    (fun t : State => (t.srv.state, t.resp.err, t.resp.ok, t.flags.lastError))
      (after (.engineTick (pinsOf 0b111 0) 0 .program) (inPhase .reset 1 base)) =
        (.error, some .resetFailure, false, some .resetFailure) := by decide
theorem test_srv_reset : (fun t : State => (t.srv.state, t.srv.budget, t.q.cap, t.cfg.endStrategy))
    (after (.srvReset true 1) (inPhase .error 0 base)) = (.reset, 100, .six, .queueTag) := by decide
theorem test_srv_load : (fun t : State => (t.resp.ok, t.srv.budget, imageOf .loadV1 t.ipset))
    (after (.srvLoad 0 [0xB8, 0x34, 0x12] 0x1000) (inPhase .jumpVector 0 base)) =
      (true, 100, some ⟨[0xB8, 0x34, 0x12], 0x9090, 4096⟩) := by decide
theorem test_srv_load_format_first : respOf (.srvLoad 4 [] 0) (inPhase .execute 0 base) =
    { ok := false, err := some .invalidRegisterFormat } := by decide
theorem test_srv_finalize : (fun t : State => (t.srv.nmiOut, t.srv.budget, t.srv.state))
    (after .srvFinalize (inPhase .execute 0 base)) = (true, 100, .execute) := by decide
theorem test_srv_store : (fun t : State => (t.srv.state, t.srv.budget, t.srv.nmiFetchCount))
    (after .srvStore (inPhase .executeDone 0 { base with srv := { base.srv with nmiFetchCount := 1 } })) =
      (.store, 100, 0) := by decide
theorem test_srv_storeall_gated : respOf .srvStoreall (inPhase .executeDone 0 base) =
    { ok := false, err := some .invalidPhase } := by decide
theorem test_srv_storeall : (after .srvStoreall (inPhase .executeDone 0 (onCfg ({ · with
    pathOpts := ⟨false, false, false, false, true⟩ })))).srv.state = .storeAll := by decide

/-! ### Witnesses: the operation port and reset -/

/-- The state with a list of host events. -/
def withEvents (l : List HostEvent) : State := { base with host := l }

theorem witness_decodeAndEncodeAgree : decode ⟨0x12, { Ports.zero with st := 7, ready := true }⟩ =
    .ok (.bcTick2 .passive true) := rfl

/-- Every code of `l` is outside the map. -/
def outsideTheMap (l : List (BitVec 8)) : Bool :=
  l.all fun o => decide (0x07 ≤ o.toNat ∧ o.toNat ≤ 0x0F ∨ 0x13 ≤ o.toNat ∧ o.toNat ≤ 0x1F ∨
    0x27 ≤ o.toNat ∧ o.toNat ≤ 0x2F ∨ 0x36 ≤ o.toNat ∧ o.toNat ≤ 0x3F ∨
    0x4C ≤ o.toNat ∧ o.toNat ≤ 0x4F ∨ 0x56 ≤ o.toNat ∧ o.toNat ≤ 0x5F ∨ 0x66 ≤ o.toNat)

theorem witness_reservedCodes : (withEvents [.request ⟨0x66, Ports.zero⟩]).host = .request ⟨0x66, Ports.zero⟩ :: [] ∧
    outsideTheMap [0x07, 0x0F, 0x13, 0x1F, 0x27, 0x2F, 0x36, 0x3F, 0x4C, 0x4F, 0x56, 0x5F, 0x66, 0xFF] = true := by
  decide
theorem witness_reservedOperands : (Instr.mbSelect 3).wellFormed = false ∧
    (∀ c st lst d, Instr.mbSelect 3 ≠ .nextCycle c st lst d) ∧ (∀ sel b d, Instr.mbSelect 3 ≠ .srvLoad sel b d) :=
  ⟨by decide, fun _ _ _ _ => nofun, fun _ _ _ => nofun⟩
theorem witness_step_request : (withEvents [.request ⟨0x23, Ports.zero⟩, .lateParameters]).host =
    .request ⟨0x23, Ports.zero⟩ :: [.lateParameters] ∧ decode ⟨0x23, Ports.zero⟩ = .ok .qPop := ⟨rfl, rfl⟩
theorem witness_step_late : (withEvents [.lateParameters]).host = .lateParameters :: [] := rfl
theorem witness_step_quiet : (withEvents []).host = [] := rfl
theorem witness_operationsAreTotal : ∀ b sel, Instr.srvStore ≠ .srvReset b sel := fun _ _ h => by cases h
theorem witness_hostReset_default : base.cfg.endOverride = none := rfl
theorem witness_hostReset_overridden :
    (onCfg ({ · with endOverride := some .queueTag })).cfg.endOverride = some .queueTag := rfl
theorem witness_powerOnMeetsTheInvariant : suggestedInstance.wellFormed = true := by decide

/-- The entries that can be read of a log whose slots are those of power-on. -/
theorem activeEntries (l : BusLog) (h : l.entry = BusLog.powerOn.entry) : ∀ o ∈ logList l, o.kind ≠ .passive := by
  intro o ho
  obtain ⟨i, -, hi⟩ := List.mem_filterMap.mp ho
  unfold logEntry at hi
  split at hi
  · cases hi; rw [h]; simp [BusLog.powerOn, Vector.get]
  · cases hi

/-- A state that meets the invariant, with a request for a host reset presented, in the middle of a read cycle. -/
def invState : State :=
  { base with
    host := [.request ⟨0x61, Ports.zero⟩]
    q := wrappedQueue
    bcs := { BusCycle.powerOn with tcycle := .t2, status := .passive, latchedStatus := .memRead, addressLatch := 0xFFFF0 }
    bc := ⟨.memRead, .passive, .memRead, .t2, ⟨false, true, false, false, false, false, false⟩⟩
    srv := { base.srv with budget := 3 } }

theorem witness_everyStepKeepsTheInvariant : invState.Inv ∧ ∃ t, step invState = .next t :=
  ⟨{ config := by decide
     queue := ⟨by decide, by decide⟩
     program := ⟨by decide, by decide⟩
     memory := by decide
     log := ⟨by decide, by decide, by decide, by decide, activeEntries _ rfl⟩
     busCycle := ⟨by decide, by decide, by decide, by decide, by decide⟩
     controller := ⟨by decide, by decide, by decide, by decide, by decide⟩
     server := ⟨by decide, by decide, by decide, by decide, by decide, by decide, by decide, by decide⟩ }, _, rfl⟩

/-! ### Witnesses: family 40 -/

theorem witness_decodeStatus_s3 : base.cfg.statusVariant = .s3 := rfl
theorem witness_decodeStatus_n4 : (onCfg ({ · with statusVariant := .n4 })).cfg.statusVariant = .n4 ∧
    (onCfg ({ · with statusVariant := .n4 })).cfg.decodeN4.get (0b1101 : BitVec 4).toFin = some .code ∧
    (onCfg ({ · with statusVariant := .n4 })).cfg.decodeN4.get (0b1110 : BitVec 4).toFin = none := by decide
theorem witness_decodeStatus_r3 : (onCfg ({ · with statusVariant := .r3 })).cfg.statusVariant = .r3 ∧
    (onCfg ({ · with statusVariant := .r3 })).cfg.decodeR3.get (0b111 : BitVec 3).toFin = some .memWrite ∧
    (onCfg ({ · with statusVariant := .r3 })).cfg.decodeR3.get (0b001 : BitVec 3).toFin = none := by decide
theorem test_decode_status_r3 : (respOf (.decodeStatus 0b0110 true) (onCfg ({ · with statusVariant := .r3 })),
    respOf (.decodeStatus 0b0110 false) (onCfg ({ · with statusVariant := .r3 }))) =
      ({ status := some .memRead, reserved := some false }, { status := some .passive, reserved := some false }) := by
  decide
theorem witness_transferDone : base.cfg.cmdLinesAvail = true ∧
    (onCfg ({ · with cmdLinesAvail := false })).cfg.cmdLinesAvail = false := by decide
theorem witness_nextCycle : base.cfg.cycleVariant = .fourState ∧
    (onCfg ({ · with cycleVariant := .twoState })).cfg.cycleVariant = .twoState := by decide

/-- The T-cycle NEXT_CYCLE answers, in each variant. -/
def nextOf (c : CycleCode) (st lst : BusStatus) (d : Bool) : Option TCycle × Option TCycle :=
  ((respOf (.nextCycle c st lst d) base).cyc,
    (respOf (.nextCycle c st lst d) (onCfg ({ · with cycleVariant := .twoState }))).cyc)

theorem test_next_cycle_rows :
    nextOf (.cycle .idle) .passive .code true = (some .idle, some .idle) ∧
    nextOf (.cycle .idle) .code .passive false = (some .t1, some .t1) ∧
    nextOf (.cycle .t1) .passive .passive false = (some .t1, some .t2) ∧
    nextOf (.cycle .t1) .ioRead .passive false = (some .t2, some .t2) ∧
    nextOf (.cycle .t2) .passive .code false = (some .t3, some .t2) ∧
    nextOf (.cycle .t2) .passive .code true = (some .t3, some .idle) ∧
    nextOf (.cycle .t3) .passive .memRead false = (some .wait, some .idle) ∧
    nextOf (.cycle .wait) .code .memRead true = (some .t4, some .idle) ∧
    nextOf (.cycle .t4) .code .memWrite false = (some .t1, some .idle) ∧
    nextOf .code6 .code .code true = (some .idle, some .idle) := by decide
theorem witness_busWidth : (0x00100 : Addr).toNat % 2 = 0 ∧ (0x00101 : Addr).toNat % 2 = 1 := by decide
theorem witness_transceiverSet : (0xFE : BitVec 8).getLsbD 0 = false ∧ (0xFF : BitVec 8).getLsbD 0 = true := by decide
theorem witness_cycleTick_enters : base.bcs.tcycle ≠ .t1 ∧
    nextCycle base.cfg.cycleVariant (.cycle base.bcs.tcycle) .code base.bcs.latchedStatus true = .t1 := by decide
theorem witness_cycleTick_ends : (inCycle .t4 .memWrite).tcycle ≠ .idle ∧
    nextCycle base.cfg.cycleVariant (.cycle .t4) .passive .memWrite true = .idle := by decide
theorem witness_cycleTick_stays : nextCycle base.cfg.cycleVariant (.cycle .t2) .ioWrite .memRead true = .t3 := by decide
theorem witness_latchedStatusIsFixed : ∃ t, exec (.cycleTick (pinsOf 0b100 0) noLines) base = .next t ∧
    t.bcs.latchedStatus ≠ base.bcs.latchedStatus := ⟨_, rfl, by decide⟩

/-! ### Witnesses: family 41 -/

/-- A controller in a T-cycle with a latched status, after Passive. -/
def controllerIn (c : TCycle) (k : BusStatus) : BusController := ⟨.passive, .passive, k, c, ControllerLines.clear⟩

theorem witness_controllerTick_start : (controllerIn .t3 .memWrite).status = .passive ∧ BusStatus.code ≠ .passive := by
  decide
theorem witness_controllerTick_runs : ∀ c ∈ [TCycle.idle, .t1, .t2, .t3, .wait, .t4],
    ¬((controllerIn c .ioWrite).status = .passive ∧ BusStatus.passive ≠ .passive) ∧ (controllerIn c .ioWrite).tcycle = c :=
  by decide
theorem test_bc_tick_t4 : (after (.bcTick .passive) { base with bc := controllerIn .t4 .code }).bc.tcycle = .idle := by
  decide

theorem controllerOk_witness : ControllerOk (ioWriteController .t3 (ioWriteLines false true true)) :=
  ⟨by decide, by decide, by decide, by decide, by decide⟩
theorem witness_controllerLines_tick : ∃ t, exec (.bcTick .passive)
    { base with bc := ioWriteController .t3 (ioWriteLines false true true) } = .next t := ⟨_, rfl⟩
theorem witness_controllerLines_ready : [true, false, false, false, false].length = 5 ∧
    true ∈ [true, false, false, false, false] ∧ (controllerIn .t1 .ioWrite).tcycle = .t1 := by decide

/-- The tick that ends a Tc with IOWC asserted; the only ready tick is the first (41_bus_controller.md R172 d). -/
theorem witness_controllerLines_82288 :
    ControllerOk82288 (ioWriteController .t2 (ioWriteLines false false true)) ∧
    (onCfg ({ · with bcVariant := .bc82288 })).cfg.bcVariant = .bc82288 ∧
    true ∈ true :: [false, false, false, false, false] ∧
    (after (.bcTick2 .passive true) { base with bc := ioWriteController .t2 (ioWriteLines false false true) }).bc =
      ioWriteController .idle ControllerLines.clear :=
  ⟨⟨by decide, by decide, by decide, by decide, by decide, by decide, by decide, by decide⟩, rfl, by decide, by decide⟩
theorem witness_controllerLines_reset : base.bc = BusController.powerOn := rfl

/-! ### Witnesses: families 42 and 43 -/

theorem witness_push_room : { wrappedQueue with len := 2 }.len + widthBytes .sixteen ≤ capSize wrappedQueue.cap ∧
    capSize wrappedQueue.cap < { wrappedQueue with len := 3 }.len + widthBytes .sixteen := by decide
/-- Q_PUSH16 is formed with two free slots and not with one (30_encoding.md R113). -/
theorem test_q_push16_needs_two_slots :
    qPush16Operations { base with q := { wrappedQueue with len := 2 } } 0x1234 .program =
      some [.qPush 0x0034 .program (.width .eightLow), .qPush 0x0012 .program (.width .eightLow)] ∧
    qPush16Operations { base with q := { wrappedQueue with len := 3 } } 0x1234 .program = none := by decide
theorem witness_pop : queueList wrappedQueue = [⟨0x34, .program⟩, ⟨0x90, .programEnd⟩] ∧ queueList base.q = [] := by
  decide
theorem witness_queueIsFirstInFirstOut :
    (∀ i ∈ [Instr.qPush 0x1234 .program (.width .sixteen), .qPop, .qPush 0 .program .code3], isPushOrPop i = true) ∧
    base.q.len ≤ capSize base.q.cap := by decide
theorem witness_queueStatus : QueueStatus.first = .first ∧ true = true ∨ QueueStatus.first = .subsequent ∧ true = false :=
  by decide
theorem witness_queueControl : (5 : BitVec 8) ≠ 4 ∧ (5 : BitVec 8) ≠ 6 := by decide
theorem witness_programSelect : [0xB8, 0x34].length ≤ (onCfg ({ · with ipMaxLen := 2 })).cfg.ipMaxLen ∧
    (onCfg ({ · with ipMaxLen := 2 })).cfg.ipMaxLen < [0xB8, 0x34, 0x12].length := by decide
theorem witness_programRead : (threeBytes 2).ip.buf[(threeBytes 2).ip.cursor]? = some 0x12 ∧
    (threeBytes 3).ip.buf.length ≤ (threeBytes 3).ip.cursor := by decide
theorem witness_programReads : (threeBytes 3).ip.cursor ≤ (threeBytes 3).ip.buf.length := by decide
theorem witness_programReadAt : ((0x102 : Addr).toNat % addrSpace base.cfg : Nat) - ((0x100 : Addr).toNat : Int) =
    ((threeBytes 2).ip.cursor : Int) := by decide
theorem witness_programPatches : (1 : Addr).toNat + 2 ≤ (threeBytes 0).ip.buf.length ∧
    (threeBytes 0).ip.buf.length < (2 : Addr).toNat + 2 ∧
    (threeBytes 0).ip.vectorOffset + 2 ≤ (threeBytes 0).ip.buf.length ∧
    base.ip.buf.length < base.ip.vectorOffset + 2 := by decide

/-! ### Witnesses: families 44 and 45 -/

theorem witness_commandReads : inBounds flatArray.cfg flatArray.mb 0xFFF = true ∧
    inBounds flatArray.cfg flatArray.mb 0x1000 = false := by decide

/-- The hash backend with room for one word, which is taken. -/
def fullTable : State := { onCfg ({ · with mbHashCap := 1 }) with mb := oneWord.mb }

theorem witness_commandWrite : hashFull fullTable.cfg fullTable.mb 4 = true ∧
    hashFull fullTable.cfg fullTable.mb 0x1001 = false ∧ fullTable.mb.variant ≠ .null ∧
    (after (.mbSelect 0) base).mb.variant = .null := by decide
theorem witness_commandWriteWord :
    hashFull (onCfg ({ · with mbHashCap := 2 })).cfg oneWord.mb 0x3 = false ∧
    hashFull (onCfg ({ · with mbHashCap := 2 })).cfg
      (memPut (onCfg ({ · with mbHashCap := 2 })).cfg oneWord.mb 0x3 0xAA) 0x4 = true := by decide
/-- A full table that holds the word of 0x1000: the byte at 0xFFF is dropped, the one at 0x1000 stored; at 4 both are
dropped (44_memory_backend.md R247, R253). -/
theorem witness_commandWriteWord_full : hashFull fullTable.cfg fullTable.mb 0xFFF = true ∧
    hashFull fullTable.cfg fullTable.mb 0x1000 = false ∧ hashFull fullTable.cfg fullTable.mb 5 = true ∧
    (fun t : State => (t.mb.hash, t.flags.mbFull)) (after (.mbWrite16 0xFFF 0xBBAA) fullTable) =
      ([(0x800, 0xABBB)], true) := by decide
theorem witness_bulkSet : (∀ x ∈ runAddresses flatArray.cfg 0xFFE 2, inBounds flatArray.cfg flatArray.mb x = true) ∧
    ([1, 2, 3] : List Byte) = [1, 2] ++ 3 :: [] ∧
    ∃ x, (runAddresses flatArray.cfg 0xFFE 3)[2]? = some x ∧ inBounds flatArray.cfg flatArray.mb x = false :=
  ⟨by decide, rfl, 0x1000, by decide, by decide⟩
theorem witness_busAccess : transferWidth 0x100 true true = (.sixteen, true) ∧
    transferWidth 0x101 true true = (.eightHigh, true) ∧ transferWidth 0x100 false true = (.eightLow, true) ∧
    transferWidth 0x101 false true = (.eightLow, false) ∧ hashFull base.cfg base.mb 0x100 = false ∧
    hashFull fullTable.cfg fullTable.mb 0x100 = true ∧
    (after (.mbBusWrite 0x100 true true 0) fullTable).flags.mbFull = true := by decide
theorem witness_eraseDefaultAndSelect : 3 ≤ (3 : BitVec 8).toNat ∧
    (after (.mbSetDefault 1 0) base).mb.strategy = .ones ∧ (after (.mbSetDefault 2 0) base).mb.strategy = .random ∧
    cellLookup (0x1002 / 2) oneWord.mb.hash = none ∧ base.mb.strategy = .zero := by decide

/-- A full log. -/
def fullLog : BusLog := { BusLog.powerOn with count := 256, overflow := true, wr := 7 }

theorem witness_logAppend : LogOk BusLog.powerOn ∧ LogOk fullLog ∧ fullLog.count = 256 :=
  ⟨⟨by decide, by decide, by decide, by decide, activeEntries _ rfl⟩,
    ⟨by decide, by decide, by decide, by decide, activeEntries _ rfl⟩, rfl⟩
theorem witness_logRead : (logList { BusLog.powerOn with count := 1, wr := 1 })[0]? =
    some ⟨.irqAck, .width .eightLow, 0, 0⟩ ∧ BusLog.powerOn.count ≤ (0 : Addr).toNat := by decide
theorem witness_logKeepsTheLast256 : ∀ o ∈ [(⟨.memWrite, .width .sixteen, 0x0FFFC, 0xF002⟩ : BusOperation)],
    o.kind ≠ .passive := by decide
theorem witness_busEmulator : transferWidth 0x400 true true = (.sixteen, true) ∧
    transferWidth 0xFFF false true = (.eightLow, false) := by decide

/-! ### Witnesses: family 46 -/

/-- The base state on a sixteen-bit bus with queue status. -/
def wide : State := onCfg ({ · with bus16 := true, qsAvail := true, endStrategy := .queueTag })

/-- A tick with Passive on the status pins. -/
def quietTick : Instr := .engineTick { pinsOf 0b111 0x0FFFC with dataIn := 0xF002 } 0xABCD .programEnd

/-- The tick after `s`: a read cycle of kind `k` enters its data phase in phase `p`. -/
def feeding (k : BusStatus) (p : ServerState) (s : State) : State :=
  inPhase p 0 { s with bcs := inCycle .t2 k, bc := controllerIn .t2 k }

/-- The tick after `s`: a cycle of kind `k` ends in phase `p`, with 0x9012 and one program byte fed. -/
def ending (k : BusStatus) (p : ServerState) (s : State) : State :=
  inPhase p 0 { s with
    bcs := { inCycle .t3 k with fed := true, dataLatch := 0x9012, fedNprog := 1 }
    bc := controllerIn .t3 k }

theorem witness_engineTickAdvances : wide.srv.state ≠ .error ∧ wide.srv.state ≠ .shutdown ∧
    wide.cfg.bcEmulated = true ∧ wide.cfg.bcVariant = .bc8288 ∧ wide.srv.budget ≠ 1 ∧
    (onCfg ({ · with bcVariant := .bc82288 })).cfg.bcVariant = .bc82288 ∧
    (onCfg ({ · with bcEmulated := false })).cfg.bcEmulated = false := by decide
/-- A wait tick keeps the word that was fed, with its count of program bytes (R310, R314). -/
theorem witness_engineTickAdvances_held : ∃ t : State, exec (.engineTick { pinsOf 0b111 0 with ready := false } 0xABCD .program)
      { ending .code .execute wide with cfg := { wide.cfg with cmdLinesAvail := false } } = .next t ∧
    (wide.cfg.cycleVariant, (ending .code .execute wide).bcs.fed) = (.fourState, true) ∧
    (t.bcs.tcycle, t.bcs.dataLatch, t.bcs.fedNprog, t.bcs.fed, t.srv.programEnded) = (.wait, 0x9012, 1, true, false) :=
  ⟨_, rfl, by decide⟩

/-- The hypotheses of ReadCyclesAreFed hold, with the arbiter's answer. -/
def feeds (s : State) : Bool × DataSource :=
  (decide ((s.cfg.cycleVariant = .fourState ∧ s.bcs.tcycle = .t2 ∨ s.cfg.cycleVariant = .twoState ∧ s.bcs.tcycle = .t1) ∧
    s.srv.state ≠ .error ∧ s.srv.state ≠ .shutdown ∧ s.bcs.fed = false ∧ isRead s.bcs.latchedStatus = true),
    arbiter s.cfg s.srv.state)

theorem witness_readCyclesAreFed :
    feeds (feeding .code .jumpVector wide) = (true, .inline) ∧
    feeds (feeding .irqAck .jumpVector wide) = (true, .inline) ∧
    feeds (feeding .memRead .execute wide) = (true, .backend) ∧
    feeds (feeding .ioRead .execute wide) = (true, .backend) ∧
    feeds (feeding .code .execute (onCfg ({ · with execSource := .host }))) = (true, .host) ∧
    feeds (feeding .code .reset wide) = (true, .nobody) ∧
    feeds { onCfg ({ · with cycleVariant := .twoState }) with bcs := inCycle .t1 .code } = (true, .nobody) := by decide
/-- In R3, BUS_CYCLE's Passive samples carry status_valid = 0 (40_bus_cycle.md R132, 30_encoding.md R113). -/
theorem test_bus_cycle_r3 :
    busCycleOperations (onCfg ({ · with statusVariant := .r3 })).cfg 0b0100 ({ pinsOf 0 0xFFFF0 with statusValid := true }, 0, .program)
      [({ pinsOf 0b100 0 with statusValid := false }, 0, .program)] =
        some [.engineTick { pinsOf 0b0100 0xFFFF0 with statusValid := true } 0 .program,
          .engineTick { pinsOf 0b100 0 with statusValid := false } 0 .program] ∧
    busCycleOperations (onCfg ({ · with statusVariant := .r3 })).cfg 0b0100 (pinsOf 0 0, 0, .program)
      [({ pinsOf 0b100 0 with statusValid := true }, 0, .program)] = none := by decide
theorem witness_readCyclesAreFed_tick : ∃ t, exec quietTick (feeding .code .jumpVector wide) = .next t ∧
    (t.bcs.fed, t.bcs.fedNprog, t.xcvr.dir) = (true, 0, .output) := ⟨_, rfl, by decide⟩
/-- A memory read the backend serves out of the bounds of a flat array is an anomaly; an inline read is none (R246). -/
theorem witness_readCyclesAreFed_range :
    feeds (feeding .memRead .execute flatArray) = (true, .backend) ∧
    (after quietTick (feeding .memRead .execute flatArray)).flags.mbRange = true ∧
    (after quietTick (feeding .memRead .jumpVector flatArray)).flags.mbRange = false := by decide
/-- A host word tagged ProgramEnd is no program byte: the feed of an Execute fetch sets `program_ended` (R314). -/
theorem witness_readCyclesAreFed_fill : ∃ t, exec quietTick
      (feeding .code .execute (onCfg ({ · with execSource := .host, bus16 := true }))) = .next t ∧
    (t.srv.state, t.bcs.dataLatch, t.bcs.fedNprog, t.srv.programEnded) = (.execute, 0xABCD, 0, true) :=
  ⟨_, rfl, by decide⟩
theorem test_feed_nobody : (after quietTick (feeding .code .reset wide)).bcs.dataLatch = 0xF002 ∧
    (after quietTick (feeding .code .reset wide)).xcvr.dir = .input := by decide

theorem witness_ticksTouchStores : ∃ t, exec quietTick (ending .memWrite .execute wide) = .next t ∧
    t.resp.event.isSome = true ∧ arbiter wide.cfg .execute = .backend ∧ t.srv.state = .execute ∧
    t.mb.hash = [(0x7FFE, 0xF002)] := ⟨_, rfl, by decide⟩
/-- A write that the backend drops sets the flag of its anomaly (R246, R247). -/
theorem witness_ticksTouchStores_dropped :
    (fun t : State => (t.resp.event.isSome, t.flags.mbRange, t.flags.mbFull))
      (after quietTick (ending .memWrite .execute flatArray)) = (true, true, false) ∧
    (fun t : State => (t.resp.event.isSome, t.flags.mbRange, t.flags.mbFull))
      (after quietTick (ending .memWrite .execute fullTable)) = (true, false, true) := by decide
theorem witness_ticksTouchStores_quiet : ∃ t, exec quietTick (ending .memWrite .store wide) = .next t ∧
    ¬(t.resp.event.isSome = true ∧ (ending .memWrite .store wide).bcs.latchedStatus = .memWrite ∧
      arbiter wide.cfg .store = .backend) ∧ t.mb = wide.mb := ⟨_, rfl, by decide⟩
theorem witness_ticksTouchStores_cursor : ∃ t, exec quietTick (feeding .code .jumpVector (threeBytes 0)) = .next t ∧
    t.srv.state = .jumpVector ∧ t.ip.cursor ≠ (threeBytes 0).ip.cursor := ⟨_, rfl, by decide⟩
theorem witness_ticksTouchStores_release : (inCycle .t4 .code).tcycle = .t4 ∧ base.cfg.cycleVariant = .fourState ∧
    ∃ t, exec quietTick { base with bcs := inCycle .t4 .code, xcvr := ⟨.output, .sixteen, 0x9012⟩ } = .next t ∧
      t.xcvr = ⟨.input, .sixteen, 0x9012⟩ := ⟨by decide, rfl, _, rfl, by decide⟩
theorem witness_ticksTouchStores_release_two : ∃ t,
    exec (.engineTick { pinsOf 0b111 0 with ready := true } 0 .program)
      { onCfg ({ · with cycleVariant := .twoState }) with bcs := inCycle .t2 .memWrite } = .next t ∧
    t.resp.event.isSome = true ∧ t.xcvr.dir = .input := ⟨_, rfl, by decide⟩
theorem witness_ticksTouchStores_held : wide.bcs.tcycle ≠ .t4 ∧ wide.cfg.cycleVariant ≠ .twoState ∧
    ∃ t, exec quietTick wide = .next t ∧ t.bcs.fed = false ∧ t.xcvr = wide.xcvr := ⟨by decide, by decide, _, rfl, by decide⟩
theorem witness_completedCyclesAreLogged : ∃ t, exec quietTick (ending .memWrite .execute wide) = .next t ∧
    t.resp.event = some ⟨.memWrite, .width .sixteen, 0x0FFFC, 0xF002⟩ ∧
    (ending .memWrite .execute wide).bcs.addressLatch.toNat < addrSpace wide.cfg := ⟨_, rfl, by decide⟩
theorem witness_completedCyclesAreLogged_none : ∃ t, exec quietTick wide = .next t ∧ t.resp.event = none :=
  ⟨_, rfl, by decide⟩
theorem witness_queueUpdate : ∃ t, exec quietTick (ending .code .jumpVector wide) = .next t ∧
    t.resp.event.isSome = true ∧ queueList t.q = [⟨0x12, .program⟩, ⟨0x90, .programEnd⟩] := ⟨_, rfl, by decide⟩
/-- The CPU's queue status takes a byte from an empty queue: an underflow (R316, 42_instruction_queue.md R198). -/
theorem witness_queueUpdate_underflow : wide.cfg.qsAvail = true ∧ ∃ q t : State,
    exec (.qStatus (.ofBits 1)) wide = .next q ∧
    exec (.engineTick { pinsOf 0b111 0 with qs := 1 } 0 .program) wide = .next t ∧ q.flags.queueUnderflow = true ∧
    t.flags.queueUnderflow = true := ⟨by decide, _, _, rfl, rfl, by decide⟩
theorem witness_queueUpdate_full :
    (after quietTick (ending .code .jumpVector { base with q := { wrappedQueue with len := 3 } })).flags.queueOverflow =
      true := by decide

/-- The start of the worked fetch (46_phase_sequencer.md R348). -/
def fetchStart : State :=
  inPhase .jumpVector 0 { base with ip := ⟨.jump, [0xEA, 0x00, 0x00, 0x00, 0x10], 0, 0x9090, 3⟩ }

theorem witness_codeFetch : fetchStart.cfg.statusVariant = .s3 ∧ fetchStart.cfg.cycleVariant = .fourState ∧
    fetchStart.cfg.bcEmulated = true ∧ fetchStart.cfg.bcVariant = .bc8288 ∧ fetchStart.cfg.cmdLinesAvail = true ∧
    fetchStart.cfg.bus16 = false ∧ fetchStart.cfg.qsAvail = false ∧ fetchStart.srv.state = .jumpVector ∧
    fetchStart.srv.budget = 0 ∧ fetchStart.bcs.tcycle = .idle ∧ fetchStart.bc = BusController.powerOn ∧
    fetchStart.ip.buf[fetchStart.ip.cursor]? = some 0xEA ∧ fetchStart.q.len < capSize fetchStart.q.cap ∧
    (pinsOf 0b100 0xFFFF0).rawStatus = 0b100 ∧ (pinsOf 0b111 0).rawStatus = 0b111 := by decide

/-- Execute under the queue-tag strategy with a ProgramEnd byte at the head of the queue. -/
def tagState : State := inPhase .execute 0 { wide with q := { wrappedQueue with front := 0, len := 1 } }

/-- Execute under the NMI strategy with NMI asserted. -/
def nmiState : State := { inPhase .execute 50 base with srv := { (inPhase .execute 50 base).srv with nmiOut := true } }

theorem witness_endOfExecution_tag : ∃ t, exec (.engineTick { pinsOf 0b111 0 with qs := 1 } 0 .program) tagState = .next t ∧
    tagState.srv.state = .execute ∧ queueList tagState.q = [⟨0x90, .programEnd⟩] ∧ t.srv.state = .executeFinalize :=
  ⟨_, rfl, by decide⟩
theorem witness_endOfExecution_subsequent : ∃ t,
    exec (.engineTick { pinsOf 0b111 0 with qs := 3 } 0 .program) tagState = .next t ∧ tagState.srv.nmiOut = false ∧
    t.srv.state = .execute := ⟨_, rfl, by decide⟩
/-- A First status that meets an empty queue pops nothing: an underflow, and Execute stays (46_phase_sequencer.md
R334). -/
theorem witness_endOfExecution_empty : ∃ t, exec (.engineTick { pinsOf 0b111 0 with qs := 1 } 0 .program)
    { tagState with q := { wrappedQueue with len := 0 } } = .next t ∧ tagState.cfg.endStrategy = .queueTag ∧
    queueList { wrappedQueue with len := 0 } = [] ∧ t.flags.queueUnderflow = true ∧ t.srv.state = .execute :=
  ⟨_, rfl, by decide⟩
theorem witness_endOfExecution_nmi : ∃ t, exec (.engineTick (pinsOf 0b101 0x00008) 0 .program) nmiState = .next t ∧
    nmiState.cfg.endStrategy = .nmiVector ∧ nmiState.bcs.tcycle ≠ .t1 ∧ t.bcs.tcycle = .t1 ∧
    isRead t.bcs.latchedStatus = true ∧
    t.bcs.addressLatch.toNat = nmiState.cfg.nmiVectorAddr.toNat % addrSpace nmiState.cfg ∧
    (t.srv.nmiFetchCount, t.srv.nmiOut, t.srv.state, t.srv.budget) = (1, false, .executeFinalize, 49) := ⟨_, rfl, by decide⟩
theorem witness_endOfExecution_other : ∃ t, exec (.engineTick (pinsOf 0b101 0x0000A) 0 .program) nmiState = .next t ∧
    nmiState.srv.budget ≠ 1 ∧
    t.bcs.addressLatch.toNat ≠ nmiState.cfg.nmiVectorAddr.toNat % addrSpace nmiState.cfg ∧ t.srv.nmiOut = true ∧
    t.srv.state = .execute := ⟨_, rfl, by decide⟩

/-- NMI_VECTOR_ADDR counts in its ADDR_BITS low bits (00_scope.md R8). -/
theorem witness_endOfExecution_masked : ∃ t, exec (.engineTick (pinsOf 0b101 0x00008) 0 .program)
    { nmiState with cfg := { nmiState.cfg with nmiVectorAddr := 0x100008 } } = .next t ∧
    t.bcs.addressLatch.toNat = 0x100008 % addrSpace nmiState.cfg ∧ t.srv.state = .executeFinalize := ⟨_, rfl, by decide⟩

/-- The end of a bus cycle at which the identification probe completes, `n` cycles counted before. -/
def probeState (n : Nat) : State :=
  { ending .code .cpuId (threeBytes 3) with
    srv := { (inPhase .cpuId 50 base).srv with idCycles := n } }

theorem witness_cpuIdentification_intel : ∃ t, exec quietTick (probeState 4) = .next t ∧
    (probeState 4).srv.state = .cpuId ∧ t.resp.event.isSome = true ∧ t.srv.state ≠ .cpuId ∧ t.srv.state ≠ .error ∧
    (t.srv.idCycles, t.srv.cpuVendor) = (5, .intel) := ⟨_, rfl, by decide⟩
theorem witness_cpuIdentification_nec : ∃ t, exec quietTick (probeState 5) = .next t ∧
    (t.srv.idCycles, t.srv.cpuVendor) = (6, .nec) := ⟨_, rfl, by decide⟩
theorem witness_cpuIdentification_probing : ∃ t, exec quietTick (inPhase .cpuId 50 base) = .next t ∧
    t.srv.state = .cpuId := ⟨_, rfl, by decide⟩

theorem witness_timeouts_phase : ∃ t, exec quietTick (inPhase .jumpVector 1 base) = .next t ∧
    t.resp.err = some .phaseTimeout ∧ t.srv.state = .jumpVector := ⟨_, rfl, by decide⟩
theorem witness_timeouts_reset : ∃ t, exec quietTick (inPhase .reset 1 base) = .next t ∧
    ¬(base.bcs.tcycle ≠ .t1 ∧ t.bcs.tcycle = .t1) ∧ t.resp.err = some .resetFailure := ⟨_, rfl, by decide⟩
theorem witness_timeouts_execute : ∃ t, exec quietTick (inPhase .execute 1 base) = .next t ∧ t.srv.state = .execute :=
  ⟨_, rfl, by decide⟩
theorem witness_timeouts_running : ∃ t, exec quietTick (inPhase .jumpVector 2 base) = .next t ∧
    t.srv.state = .jumpVector ∧ t.srv.budget = 1 := ⟨_, rfl, by decide⟩

theorem witness_timeouts_busStart : ∃ t,
    exec (.engineTick (pinsOf 0b100 0xFFFF0) 0 .program) (inPhase .reset 2 base) = .next t ∧
    base.bcs.tcycle ≠ .t1 ∧ t.bcs.tcycle = .t1 ∧ t.srv.state = .jumpVector ∧ t.srv.resetResult = ⟨true, false, false⟩ :=
  ⟨_, rfl, by decide⟩

/-- The last bus cycle of a phase whose program is used up, ten ticks of budget left, a full queue. -/
def leaving (p : ServerState) (f : Config → Config) (v : Server → Server) : State :=
  { ending .code p { threeBytes 3 with q := { wrappedQueue with len := 4 } } with
    cfg := f base.cfg, srv := v (inPhase p 10 base).srv }

/-- The phase a tick enters, the program it leaves active and that program's cursor. -/
def entered (s : State) : ServerState × ProgName × Nat :=
  (fun t => (t.srv.state, t.ip.name, t.ip.cursor)) (after quietTick s)

theorem witness_phaseEntry_reset :
    entered (leaving .cpuId ({ · with pathOpts := ⟨true, true, false, false, false⟩ }) id) = (.cpuSetup, .cpusetup, 0) ∧
    entered (leaving .cpuSetup id id) = (.jumpVector, .jump, 0) ∧
    entered { leaving .cpuSetup id ({ · with budget := 1 }) with ip := (threeBytes 2).ip } = (.error, .label "t", 0) := by decide
theorem witness_timeouts_inSegment :
    (fun t : State => (t.srv.state, t.resp.err)) (after quietTick (leaving .jumpVector id ({ · with budget := 1 }))) =
      (.load, some .phaseTimeout) ∧
    (fun t : State => (t.srv.state, t.resp.err)) (after (.engineTick (pinsOf 0b101 0x00008) 0 .program)
      { nmiState with srv := { nmiState.srv with budget := 1 } }) = (.executeFinalize, some .phaseTimeout) ∧
    (fun t : State => (t.srv.state, t.resp.err)) (after quietTick (leaving .store id ({ · with budget := 1 }))) =
      (.storeDone, none) := by decide
theorem witness_phaseEntry_load :
    entered (leaving .jumpVector id ({ · with loadFormat := .v2 })) = (.load, .loadV2, 0) ∧
    entered (leaving .jumpVector id ({ · with loadFormat := .v3b })) = (.loadSmm, .loadSmm, 0) ∧
    entered (leaving .load id id) = (.loadDone, .label "t", 0) ∧
    entered (leaving .loadDone ({ · with pathOpts := ⟨false, false, true, true, false⟩ }) id) = (.emuEnter, .emuEnter, 0) ∧
    entered (leaving .emuEnter ({ · with pathOpts := ⟨false, false, true, true, false⟩, execSource := .inline }) id) =
      (.prefetch, .user, 0) ∧
    entered (leaving .emuEnter id id) = (.execute, .label "t", 0) ∧
    entered (leaving .prefetch ({ · with execSource := .inline }) ({ · with programEnded := true })) =
      (.execute, .label "t", 3) := by decide
theorem witness_phaseEntry_store :
    entered (leaving .executeFinalize ({ · with pathOpts := ⟨false, false, true, false, false⟩ }) id) =
      (.emuExit, .emuExit, 0) ∧
    entered (leaving .executeFinalize id ({ · with stackArmed := true })) = (.executeDone, .label "t", 0) ∧
    (after quietTick (leaving .executeFinalize id ({ · with stackArmed := true }))).srv.stackArmed = false ∧
    entered (leaving .store id id) = (.storeDone, .label "t", 0) ∧
    entered (leaving .store id ({ · with loadFormat := .v3b })) = (.storeDoneSmm, .label "t", 0) ∧
    entered (leaving .storeAll id id) = (.shutdown, .label "t", 0) ∧
    entered (leaving .storeDone id id) = (.done, .label "t", 3) := by decide

/-- PHASE_DONE as the quiet tick from `s` asks it, and the phase the tick leaves. -/
def askedAndLeft (s : State) : Bool × ServerState :=
  (phaseDone s.srv.state (stateBeforeEdge s (after quietTick s)) { pinsOf 0b111 0x0FFFC with dataIn := 0xF002 }
    (cycleOfTick s (after quietTick s)), (after quietTick s).srv.state)

theorem witness_phaseDone_holds :
    [.cpuId, .cpuSetup, .jumpVector, .load, .loadSmm, .emuEnter, .prefetch, .executeFinalize, .emuExit, .store,
      .storeAll].map (fun p => askedAndLeft (leaving p id id)) =
    [(true, .jumpVector), (true, .jumpVector), (true, .load), (true, .loadDone), (true, .loadDone), (true, .execute),
      (true, .execute), (true, .executeDone), (true, .executeDone), (true, .storeDone), (true, .shutdown)] := by decide
theorem witness_phaseDone_lastTick :
    askedAndLeft (leaving .cpuId ({ · with pathOpts := ⟨true, true, false, false, false⟩ }) ({ · with budget := 1 })) =
      (true, .error) ∧
    askedAndLeft (leaving .cpuId id ({ · with budget := 1 })) = (true, .jumpVector) := by decide
theorem witness_phaseDone_fails :
    [.cpuId, .cpuSetup, .jumpVector, .load, .loadSmm, .emuEnter, .prefetch, .executeFinalize, .emuExit, .store,
      .storeAll].all (fun p => decide (askedAndLeft (inPhase p 2 base) = (false, p))) = true ∧
    [ServerState.cpuId, .cpuSetup].all (fun p => decide (askedAndLeft (inPhase p 1 base) = (false, .error))) = true ∧
    [ServerState.jumpVector, .storeAll].all (fun p => decide (askedAndLeft (inPhase p 1 base) = (false, p))) =
      true := by decide
theorem witness_phaseDone_reset : (after quietTick (inPhase .reset 2 base)).srv.state = .reset ∧
    (cycleOfTick (inPhase .reset 2 base) (after quietTick (inPhase .reset 2 base))).enteredT1 = false := by decide
/-- The feed of the tick is in the state PHASE_DONE is asked of (46_phase_sequencer.md R310). -/
theorem test_stateBeforeEdge_fed :
    (fun s : State => (stateBeforeEdge s (after quietTick s)).ip.cursor) (feeding .code .jumpVector (threeBytes 0)) =
      2 := by decide
theorem witness_phaseDone_nmi : (fun t : State => (t.srv.nmiFetchCount, t.srv.state,
    phaseDone .executeFinalize (stateAfterNmiEdge nmiState t) (pinsOf 0b101 0x00008) (cycleOfTick nmiState t)))
      (after (.engineTick (pinsOf 0b101 0x00008) 0 .program) nmiState) = (1, .executeFinalize, false) := by decide

/-- A read cycle ends and the next enters T1 at the NMI vector in one tick; the handler's program is empty. -/
def nmiBackToBack : State :=
  { nmiState with cfg := { nmiState.cfg with cycleVariant := .twoState }, bcs := inCycle .t2 .memRead }

theorem witness_phaseDone_nmi_done : (fun t : State => (t.srv.nmiFetchCount, t.srv.state,
    phaseDone .executeFinalize (stateAfterNmiEdge nmiBackToBack t) { pinsOf 0b101 0x00008 with ready := true }
      (cycleOfTick nmiBackToBack t)))
      (after (.engineTick { pinsOf 0b101 0x00008 with ready := true } 0 .program) nmiBackToBack) =
        (1, .executeDone, true) := by decide

/-- JumpVector at rest with a jump program that has a vector. -/
def jumpState : State :=
  inPhase .jumpVector 0 { base with ipset := [(.jump, ⟨[0xEA, 0, 0, 0, 0], 0x9090, 3⟩), (.loadV1, ⟨[], 0x9090, 0⟩)] }

theorem witness_load : jumpState.srv.state = .jumpVector ∧ jumpState.srv.budget = 0 ∧
    ([0xB8] : List Byte).length ≤ jumpState.cfg.ipMaxLen ∧ imageOf .loadV1 jumpState.ipset = some ⟨[], 0x9090, 0⟩ ∧
    imageOf .loadV2 jumpState.ipset = none ∧ imageOf .jump jumpState.ipset = some ⟨[0xEA, 0, 0, 0, 0], 0x9090, 3⟩ ∧
    imageOf .jump base.ipset = none := by decide
theorem test_srv_load_patches : (after (.srvLoad 0 [0xB8] 0x1000) jumpState).ip =
    ⟨.jump, [0xEA, 0, 0, 0x00, 0x10], 0, 0x9090, 3⟩ := by decide
theorem witness_load_smm : (after (.srvLoad 3 [0xB8] 0) (inPhase .storeDoneSmm 0 base)).srv.state = .loadSmm ∧
    ([0xB8] : List Byte).length ≤ base.cfg.ipMaxLen := by decide
theorem witness_load_long : imageOf .jump (onCfg ({ · with ipMaxLen := 2 })).ipset = none ∧
    (fun c : Config => decide (([1] : List Byte).length ≤ c.ipMaxLen) && decide (c.ipMaxLen < [0xEA, 0, 0, 0, 0].length))
      (onCfg ({ · with ipMaxLen := 2 })).cfg = true ∧
    (after (.srvLoad 0 [1] 0x1000) { jumpState with cfg := (onCfg ({ · with ipMaxLen := 2 })).cfg, ip :=
      ⟨.user, [7, 8], 1, 0x9090, 0⟩ }).ip = ⟨.user, [0x00, 0x10], 0, 0x9090, 0⟩ := by decide
theorem witness_load_smm_present : (after (.srvLoad 3 [0xB8] 0) (inPhase .storeDoneSmm 0
    { base with ipset := [(.loadSmm, ⟨[1, 2], 0x1234, 1⟩)] })).ip = ⟨.loadSmm, [0xB8], 0, 0x1234, 1⟩ ∧
    imageOf .loadSmm base.ipset = none := by decide
theorem witness_load_errors : 4 ≤ (4 : BitVec 8).toNat ∧
    (onCfg ({ · with ipMaxLen := 2 })).cfg.ipMaxLen < ([1, 2, 3] : List Byte).length ∧ (3 : BitVec 8).toNat < 4 ∧
    ¬((inPhase .jumpVector 1 base).srv.state = .jumpVector ∧ (inPhase .jumpVector 1 base).srv.budget = 0) ∧
    ¬((inPhase .storeDoneSmm 0 base).srv.state = .storeDoneSmm ∧ (2 : BitVec 8) = 3) := by decide
theorem witness_finalize : (inPhase .executeFinalize 0 base).srv.budget = 0 ∧
    (inPhase .executeFinalize 0 base).srv.state = .executeFinalize ∧ (inPhase .execute 0 base).srv.state = .execute ∧
    (inPhase .execute 0 base).cfg.endStrategy = .nmiVector ∧ (inPhase .executeDone 0 base).srv.state = .executeDone ∧
    (onCfg ({ · with pathOpts := ⟨false, false, false, false, true⟩ })).cfg.pathOpts.storeall = true := by decide
/-- A PhaseTimeout in ExecuteFinalize or Execute, then the retry: its program starts anew
(70_reset_and_hazards.md R453); a first SRV_FINALIZE leaves the cursor (46_phase_sequencer.md R343). -/
theorem witness_finalize_retry :
    (fun t : State => (t.srv.stalled, t.srv.budget, t.srv.state, t.ip.cursor))
      (after quietTick { inPhase .executeFinalize 1 base with ip := (threeBytes 2).ip }) =
        (true, 0, .executeFinalize, 2) ∧
    (fun t : State => (t.srv.stalled, t.srv.budget, t.srv.state, t.ip.cursor))
      (after .srvFinalize (after quietTick { inPhase .executeFinalize 1 base with ip := (threeBytes 2).ip })) =
        (false, 100, .executeFinalize, 0) ∧
    (fun t : State => (t.srv.nmiOut, t.srv.budget, t.srv.state, t.ip.cursor))
      (after .srvFinalize (after quietTick { inPhase .execute 1 base with ip := (threeBytes 2).ip })) =
        (true, 100, .execute, 0) ∧
    (after .srvFinalize { inPhase .executeFinalize 0 base with ip := (threeBytes 2).ip }).ip.cursor = 2 := by decide
theorem witness_illegalCommands : (inPhase .error 0 base).srv.state = .error ∧
    ¬((inPhase .executeFinalize 1 base).srv.state = .executeFinalize ∧ (inPhase .executeFinalize 1 base).srv.budget = 0) ∧
    ¬((inPhase .executeDone 1 base).srv.state = .executeDone ∧ (inPhase .executeDone 1 base).srv.budget = 0) ∧
    base.cfg.pathOpts.storeall = false := by decide
theorem witness_noOtherPhaseEdge : ∃ t, exec quietTick (inPhase .storeDone 0 base) = .next t ∧
    t.srv.state ≠ (inPhase .storeDone 0 base).srv.state := ⟨_, rfl, by decide⟩
theorem witness_error_entered : ∃ t, exec quietTick (inPhase .cpuSetup 1 base) = .next t ∧ t.srv.state = .error ∧
    t.resp.err = some .resetFailure := ⟨_, rfl, by decide⟩
theorem witness_error_left : ∃ t, exec (.srvReset false 0) (inPhase .error 0 base) = .next t ∧ t.srv.state ≠ .error :=
  ⟨_, rfl, by decide⟩
theorem witness_errorsRefusals : (∀ b sel, Instr.qPop ≠ .srvReset b sel) ∧ ∃ t, exec .qPop base = .next t ∧
    t.resp.err = none ∧ t.resp.ok = false := ⟨fun _ _ => nofun, _, rfl, by decide⟩
theorem witness_stickyFlags : anomalySet (after (.qStatus .first) base).flags .queueUnderflow = true := by decide

end Sys2Proof.Tests
end

section
/-! Proofs of family 40: DECODE_STATUS (40_bus_cycle.md R132) and XCVR_SET (R142), as reasoning rules of the functions
they are made of, then the statements they settle. -/

namespace Sys2Proof.Machine

open Sys2Proof

/-! ### DECODE_STATUS: the table of each variant, and what a table entry decodes to -/

section StatusDecoding

variable {c : Config} {raw : BitVec 4} {valid : Bool}

theorem statusEntry_of_s3 (h : c.statusVariant = .s3) :
    statusEntry c raw valid = some (BusStatus.ofBits (raw.extractLsb' 0 3)) := by
  simp [statusEntry, h]

theorem statusEntry_of_n4 (h : c.statusVariant = .n4) : statusEntry c raw valid = c.decodeN4.get raw.toFin := by
  simp [statusEntry, h]

theorem statusEntry_of_r3_invalid (h : c.statusVariant = .r3) : statusEntry c raw false = some .passive := by
  simp [statusEntry, h]

theorem statusEntry_of_r3_valid (h : c.statusVariant = .r3) :
    statusEntry c raw true = c.decodeR3.get (raw.extractLsb' 0 3).toFin := by
  simp [statusEntry, h]

theorem decodeStatus_of_entry {x : BusStatus} (h : statusEntry c raw valid = some x) :
    decodeStatus c raw valid = (x, false) := by
  simp [decodeStatus, h]

theorem decodeStatus_of_reserved (h : statusEntry c raw valid = none) :
    decodeStatus c raw valid = (.passive, true) := by
  simp [decodeStatus, h]

end StatusDecoding

theorem exec_decodeStatus (raw : BitVec 4) (valid : Bool) (s : State) :
    exec (.decodeStatus raw valid) s = .next { s with
      resp := { status := some (decodeStatus s.cfg raw valid).1, reserved := some (decodeStatus s.cfg raw valid).2 } } := rfl

/-- Settles O10: the answer is `decodeStatus`, and in each variant the table entry read decides it. -/
theorem decodeStatusByVariant : Obligations.DecodeStatusByVariant := by
  intro raw valid s
  refine ⟨_, _, exec_decodeStatus raw valid s, fun hs3 => ?s3, fun hn4 => ⟨?entryN4, ?reservedN4⟩,
    fun hr3 => ⟨?invalid, ?valid⟩⟩
  case s3 => simp [decodeStatus_of_entry (statusEntry_of_s3 hs3)]
  case entryN4 =>
    intro x hx
    simp [decodeStatus_of_entry ((statusEntry_of_n4 hn4).trans hx)]
  case reservedN4 =>
    intro hx
    simp [decodeStatus_of_reserved ((statusEntry_of_n4 hn4).trans hx)]
  case invalid =>
    rintro rfl
    simp [decodeStatus_of_entry (statusEntry_of_r3_invalid hr3)]
  case valid =>
    rintro rfl
    constructor
    · intro x hx
      simp [decodeStatus_of_entry ((statusEntry_of_r3_valid hr3).trans hx)]
    · intro hx
      simp [decodeStatus_of_reserved ((statusEntry_of_r3_valid hr3).trans hx)]

/-! ### XCVR_SET: suppressing a redundant write loses nothing -/

section TransceiverRules

variable (x : Transceiver) (w : BusWidth) (d : Word)

/-- Input sets direction and width and keeps the data last driven. -/
theorem xcvrSetTo_input : xcvrSetTo x .input w d = { x with dir := .input, driveWidth := w } := by
  simp [xcvrSetTo]

theorem xcvrSetTo_output : xcvrSetTo x .output w d = { dir := .output, driveWidth := w, driveData := d } := by
  simp [xcvrSetTo]

theorem xcvrChanged_eq (dir : Direction) : xcvrChanged x dir w = decide (x.dir ≠ dir ∨ x.driveWidth ≠ w) := by
  simp [xcvrChanged]

end TransceiverRules

theorem directionOf_of_clear {sel : BitVec 8} (h : sel.getLsbD 0 = false) : directionOf sel = .input := by
  rw [directionOf, h]; rfl

theorem directionOf_of_set {sel : BitVec 8} (h : sel.getLsbD 0 = true) : directionOf sel = .output := by
  rw [directionOf, h]; rfl

theorem exec_xcvrSet_width (sel : BitVec 8) (w : BusWidth) (d : Word) (s : State) :
    exec (.xcvrSet sel (.width w) d) s = .next { s with
      xcvr := xcvrSetTo s.xcvr (directionOf sel) w d
      resp := { changed := some (xcvrChanged s.xcvr (directionOf sel) w) } } := rfl

theorem exec_xcvrSet_code3 (sel : BitVec 8) (d : Word) (s : State) :
    exec (.xcvrSet sel .code3 d) s = .next { s with resp := { ok := false } } := rfl

/-- Memory reads go through the configuration and the backend alone. -/
theorem sameMemory_of_cfg_mb {s t : State} (hcfg : t.cfg = s.cfg) (hmb : t.mb = s.mb) : sameMemory s t := by
  intro a
  rw [hcfg, hmb]

/-- Settles O14: the transceiver and `changed` are those of `xcvrSetTo` and `xcvrChanged`, at the direction that bit 0
of the selector names. -/
theorem transceiverSet : Obligations.TransceiverSet := by
  intro sel data s
  refine ⟨fun w => ⟨_, exec_xcvrSet_width sel w data s, rfl, sameMemory_of_cfg_mb rfl rfl, ?input, ?output⟩,
    exec_xcvrSet_code3 sel data s⟩
  case input =>
    intro hsel
    simp only [directionOf_of_clear hsel, xcvrSetTo_input, xcvrChanged_eq, and_self]
  case output =>
    intro hsel
    simp only [directionOf_of_set hsel, xcvrSetTo_output, xcvrChanged_eq, and_self]

end Sys2Proof.Machine
end

section
/-! Proofs of family 44: MB_SET (44_memory_backend.md R260), as rules of the one byte write of a command, then of a run
of them by induction on the bytes, then the statement they settle. -/

namespace Sys2Proof.Machine

open Sys2Proof

/-! ### One byte written by a command -/

section CommandPutRules

variable (s : State) (a : Nat) (b : Byte)

theorem State.commandPut_mb_of_inBounds (h : inBounds s.cfg s.mb a = true) :
    (s.commandPut a b).1.mb = memPut s.cfg s.mb a b := by
  simp [s.commandPut_inBounds a b h]

theorem State.commandPut_flags_of_inBounds (h : inBounds s.cfg s.mb a = true) :
    (s.commandPut a b).1.flags = if hashFull s.cfg s.mb a then setAnomaly s.flags .mbFull else s.flags := by
  simp [s.commandPut_inBounds a b h, State.flagIf_flags]

theorem State.commandPut_mbFull_of_inBounds (h : inBounds s.cfg s.mb a = true) :
    (s.commandPut a b).1.flags.mbFull = (s.flags.mbFull || hashFull s.cfg s.mb a) := by
  rw [s.commandPut_flags_of_inBounds a b h]
  cases hashFull s.cfg s.mb a <;> simp [setAnomaly]

@[simp] theorem State.commandPut_lastError : (s.commandPut a b).1.flags.lastError = s.flags.lastError := by
  cases h : inBounds s.cfg s.mb a with
  | false => rw [s.commandPut_outOfBounds a b h]
  | true => rw [s.commandPut_flags_of_inBounds a b h]; split <;> rfl

@[simp] theorem State.commandPut_variant : (s.commandPut a b).1.mb.variant = s.mb.variant := by
  cases h : inBounds s.cfg s.mb a with
  | false => rw [s.commandPut_outOfBounds a b h]
  | true => rw [s.commandPut_mb_of_inBounds a b h, memPut_variant]

/-- The backing bounds do not move with what is stored. -/
@[simp] theorem State.inBounds_commandPut (x : Nat) :
    inBounds s.cfg (s.commandPut a b).1.mb x = inBounds s.cfg s.mb x := by
  simp [inBounds]

theorem State.memGet_commandPut_of_ne {x : Nat} (h : x ≠ a) :
    memGet s.cfg (s.commandPut a b).1.mb x = memGet s.cfg s.mb x := by
  cases hb : inBounds s.cfg s.mb a with
  | false => rw [s.commandPut_outOfBounds a b hb]
  | true => rw [s.commandPut_mb_of_inBounds a b hb, memGet_memPut_of_ne b h]

/-- The response of the operation before has no part in a byte write. -/
theorem State.withResp_commandPut (r : Response) :
    (s.withResp r).commandPut a b = ((s.commandPut a b).1.withResp r, (s.commandPut a b).2) := by
  cases h : inBounds s.cfg s.mb a with
  | false => rw [s.commandPut_outOfBounds a b h, (s.withResp r).commandPut_outOfBounds a b h]
  | true =>
    rw [s.commandPut_inBounds a b h, (s.withResp r).commandPut_inBounds a b h, State.flagIf_eq, State.flagIf_eq]
    rfl

end CommandPutRules

theorem hashFull_of_flat {m : Memory} (h : m.variant = .flat) (c : Config) (a : Nat) : hashFull c m a = false := by
  simp [hashFull, h]

/-- Only the Flat backend has bounds. -/
theorem variant_of_outOfBounds {c : Config} {m : Memory} {a : Nat} (h : inBounds c m a = false) :
    m.variant = .flat := by
  cases hv : m.variant <;> simp [inBounds, hv] at h ⊢

/-! ### The addresses of a run -/

/-- The addresses of a run count up from the first, modulo the address space. -/
theorem runAddresses_eq_map {c : Config} {a : Nat} (ha : a < addrSpace c) (n : Nat) :
    runAddresses c a n = (List.range n).map fun i => (a + i) % addrSpace c := by
  induction n generalizing a with
  | zero => rfl
  | succ n ih =>
    rw [runAddresses, ih (nextAddr_lt c a), List.range_succ_eq_map]
    simp [nextAddr, Nat.mod_eq_of_lt ha, Nat.add_assoc, Nat.add_comm 1]

/-- A run no longer than the address space touches no byte twice. -/
theorem runAddresses_nodup {c : Config} {a n : Nat} (ha : a < addrSpace c) (hn : n ≤ addrSpace c) :
    (runAddresses c a n).Nodup := by
  rw [runAddresses_eq_map ha]
  refine List.Nodup.map_on (fun i hi j hj hij => ?_) List.nodup_range
  have hmod : i ≡ j [MOD addrSpace c] := Nat.ModEq.add_left_cancel' a hij
  exact hmod.eq_of_lt_of_lt ((List.mem_range.mp hi).trans_le hn) ((List.mem_range.mp hj).trans_le hn)

/-- Every byte of the run of `n` from `a` is inside the backing bounds. -/
def RunInBounds (s : State) (a n : Nat) : Prop := ∀ x ∈ runAddresses s.cfg a n, inBounds s.cfg s.mb x = true

theorem runInBounds_succ {s : State} {a n : Nat} (b : Byte) (h : RunInBounds s a (n + 1)) :
    inBounds s.cfg s.mb a = true ∧ RunInBounds (s.commandPut a b).1 (nextAddr s.cfg a) n := by
  obtain ⟨ha, hrest⟩ := List.forall_mem_cons.mp h
  exact ⟨ha, by simpa [RunInBounds] using hrest⟩

/-! ### A run of bytes written by a command -/

section CommandPutsRules

variable {s : State} {a : Nat}

theorem State.commandPuts_cons_of_inBounds (b : Byte) (l : List Byte) (h : inBounds s.cfg s.mb a = true) :
    s.commandPuts a (b :: l) = (s.commandPut a b).1.commandPuts (nextAddr s.cfg a) l := by
  simp only [State.commandPuts, s.commandPut_inBounds a b h]

theorem State.commandPuts_cons_of_outOfBounds (b : Byte) (l : List Byte) (h : inBounds s.cfg s.mb a = false) :
    s.commandPuts a (b :: l) = (s, false) := by
  simp only [State.commandPuts, s.commandPut_outOfBounds a b h]

@[simp] theorem State.commandPuts_cfg (l : List Byte) : (s.commandPuts a l).1.cfg = s.cfg := by
  rw [State.commandPuts_eq]

/-- A run in bounds is written to its end. -/
theorem State.commandPuts_of_runInBounds {l : List Byte} (h : RunInBounds s a l.length) :
    s.commandPuts a l = ((s.commandPuts a l).1, true) := by
  induction l generalizing s a with
  | nil => rfl
  | cons b l ih =>
    obtain ⟨ha, hrest⟩ := runInBounds_succ b h
    rw [State.commandPuts_cons_of_inBounds b l ha, ← ih hrest]

/-- The first byte out of bounds ends the run; the bytes before it stay written. -/
theorem State.commandPuts_append_outOfBounds {pre : List Byte} {x : Nat} (b : Byte) (post : List Byte)
    (hpre : RunInBounds s a pre.length)
    (hx : (runAddresses s.cfg a (pre ++ b :: post).length)[pre.length]? = some x)
    (hout : inBounds s.cfg s.mb x = false) :
    s.commandPuts a (pre ++ b :: post) = ((s.commandPuts a pre).1, false) := by
  induction pre generalizing s a with
  | nil =>
    obtain rfl : a = x := by simpa [runAddresses] using hx
    exact State.commandPuts_cons_of_outOfBounds b post hout
  | cons d pre ih =>
    obtain ⟨ha, hrest⟩ := runInBounds_succ d hpre
    rw [List.cons_append, State.commandPuts_cons_of_inBounds d _ ha, State.commandPuts_cons_of_inBounds d pre ha]
    exact ih hrest (by simpa [runAddresses] using hx) (by simpa using hout)

/-- A run leaves every byte outside its addresses alone, wherever it ends. -/
theorem State.memGet_commandPuts_of_notMem (l : List Byte) {x : Nat} (hx : x ∉ runAddresses s.cfg a l.length) :
    memGet s.cfg (s.commandPuts a l).1.mb x = memGet s.cfg s.mb x := by
  induction l generalizing s a with
  | nil => rfl
  | cons b l ih =>
    obtain ⟨hxa, hxl⟩ := List.ne_and_not_mem_of_not_mem_cons hx
    cases h : inBounds s.cfg s.mb a with
    | false => rw [State.commandPuts_cons_of_outOfBounds b l h]
    | true =>
      rw [State.commandPuts_cons_of_inBounds b l h]
      calc memGet s.cfg ((s.commandPut a b).1.commandPuts (nextAddr s.cfg a) l).1.mb x
          = memGet s.cfg (s.commandPut a b).1.mb x := by
            simpa using ih (s := (s.commandPut a b).1) (a := nextAddr s.cfg a) (by simpa using hxl)
        _ = memGet s.cfg s.mb x := s.memGet_commandPut_of_ne a b hxa

@[simp] theorem State.commandPuts_lastError (l : List Byte) :
    (s.commandPuts a l).1.flags.lastError = s.flags.lastError := by
  induction l generalizing s a with
  | nil => rfl
  | cons b l ih =>
    cases h : inBounds s.cfg s.mb a with
    | false => rw [State.commandPuts_cons_of_outOfBounds b l h]
    | true => rw [State.commandPuts_cons_of_inBounds b l h, ih, State.commandPut_lastError]

/-- The Flat backend has no table to fill: a run sets no flag. -/
theorem State.commandPuts_flags_of_flat (l : List Byte) (hv : s.mb.variant = .flat) :
    (s.commandPuts a l).1.flags = s.flags := by
  induction l generalizing s a with
  | nil => rfl
  | cons b l ih =>
    cases h : inBounds s.cfg s.mb a with
    | false => rw [State.commandPuts_cons_of_outOfBounds b l h]
    | true =>
      rw [State.commandPuts_cons_of_inBounds b l h, ih (by simpa using hv), s.commandPut_flags_of_inBounds a b h,
        hashFull_of_flat hv]
      rfl

/-- `mb_full` is sticky. -/
theorem State.mbFull_of_commandPuts_mbFull (l : List Byte) (h : (s.commandPuts a l).1.flags.mbFull = false) :
    s.flags.mbFull = false := by
  induction l generalizing s a with
  | nil => exact h
  | cons b l ih =>
    cases ha : inBounds s.cfg s.mb a with
    | false => rwa [State.commandPuts_cons_of_outOfBounds b l ha] at h
    | true =>
      rw [State.commandPuts_cons_of_inBounds b l ha] at h
      have hput := ih h
      rw [s.commandPut_mbFull_of_inBounds a b ha, Bool.or_eq_false_iff] at hput
      exact hput.1

/-- The state's variant stores, and no byte of the run that led to `t` was dropped for a full table: the backend has no
table, or the sticky `mb_full` is clear at the end. -/
def RunStored (s t : State) : Prop :=
  s.mb.variant = .flat ∨ s.mb.variant ≠ .null ∧ t.flags.mbFull = false

theorem RunStored.not_null {s t : State} (h : RunStored s t) : s.mb.variant ≠ .null := by
  rcases h with h | h
  · simp [h]
  · exact h.1

theorem RunStored.hashFull_head {b : Byte} {l : List Byte} (ha : inBounds s.cfg s.mb a = true)
    (h : RunStored s (s.commandPuts a (b :: l)).1) : hashFull s.cfg s.mb a = false := by
  rcases h with h | ⟨-, h⟩
  · exact hashFull_of_flat h s.cfg a
  · rw [State.commandPuts_cons_of_inBounds b l ha] at h
    have hput := State.mbFull_of_commandPuts_mbFull l h
    rw [s.commandPut_mbFull_of_inBounds a b ha, Bool.or_eq_false_iff] at hput
    exact hput.2

/-- The bytes of a run in bounds are read back: each write is read back where it was made, and no later byte of a run
that does not wrap onto itself touches it. -/
theorem State.map_memGet_commandPuts {l : List Byte} (hin : RunInBounds s a l.length)
    (hnodup : (runAddresses s.cfg a l.length).Nodup) (hst : RunStored s (s.commandPuts a l).1) :
    (runAddresses s.cfg a l.length).map (memGet s.cfg (s.commandPuts a l).1.mb) = l := by
  induction l generalizing s a with
  | nil => rfl
  | cons b l ih =>
    obtain ⟨ha, hrest⟩ := runInBounds_succ b hin
    obtain ⟨hfresh, hnodup⟩ := List.nodup_cons.mp hnodup
    have hfull := hst.hashFull_head ha
    have hnull := hst.not_null
    rw [State.commandPuts_cons_of_inBounds b l ha] at hst ⊢
    have htail := ih hrest (by simpa using hnodup) (by simpa [RunStored] using hst)
    have hhead : memGet s.cfg ((s.commandPut a b).1.commandPuts (nextAddr s.cfg a) l).1.mb a = b := by
      calc _ = memGet s.cfg (s.commandPut a b).1.mb a := by
              simpa using State.memGet_commandPuts_of_notMem (s := (s.commandPut a b).1) (a := nextAddr s.cfg a) l
                (by simpa using hfresh)
        _ = b := by rw [s.commandPut_mb_of_inBounds a b ha, memGet_memPut_self b hnull ha hfull]
    simp only [State.commandPut_cfg] at htail
    simp only [List.length_cons, runAddresses, List.map_cons, hhead, htail]

theorem State.withResp_commandPuts (r : Response) (l : List Byte) :
    (s.withResp r).commandPuts a l = ((s.commandPuts a l).1.withResp r, (s.commandPuts a l).2) := by
  induction l generalizing s a with
  | nil => rfl
  | cons b l ih =>
    cases h : inBounds s.cfg s.mb a with
    | false =>
      rw [State.commandPuts_cons_of_outOfBounds b l h, State.commandPuts_cons_of_outOfBounds b l (by simpa using h)]
    | true =>
      rw [State.commandPuts_cons_of_inBounds b l h, State.commandPuts_cons_of_inBounds b l (by simpa using h),
        s.withResp_commandPut, ih]
      rfl

end CommandPutsRules

/-! ### A run in bounds is MB_WRITE8 at each address in turn -/

theorem addrOf_ofNat {c : Config} {a : Nat} (ha : a < addrSpace c) : addrOf c (BitVec.ofNat 32 a) = a := by
  have hle := addrSpace_le c
  rw [addrOf, BitVec.toNat_ofNat, Nat.mod_eq_of_lt (ha.trans_le hle), Nat.mod_eq_of_lt ha]

theorem exec_mbWrite8_of_inBounds {s : State} {a : Nat} (hi b : Byte) (ha : a < addrSpace s.cfg)
    (h : inBounds s.cfg s.mb a = true) :
    exec (.mbWrite8 (BitVec.ofNat 32 a) (joinLanes hi b)) s = .next ((s.commandPut a b).1.withResp {}) := by
  show finishPuts (s.commandPuts (addrOf s.cfg (BitVec.ofNat 32 a)) [lowLane (joinLanes hi b)]) = _
  rw [addrOf_ofNat ha, lowLane_joinLanes, State.commandPuts_cons_of_inBounds b [] h]
  rfl

theorem runOperations_cons_of_next {i : Instr} {s t : State} (l : List Instr) (h : exec i s = .next t) :
    runOperations (i :: l) s = (runOperations l t).map fun r => (r.1, t.resp :: r.2) := by
  rw [runOperations, h]

/-- MB_WRITE8 at each address of a run, in order (44_memory_backend.md R260). -/
def writesOfRun (c : Config) (a : Nat) (l : List Byte) : List Instr :=
  ((runAddresses c a l.length).zip l).map fun x => .mbWrite8 (BitVec.ofNat 32 x.1) (joinLanes 0 x.2)

theorem writesOfRun_cons (c : Config) (a : Nat) (b : Byte) (l : List Byte) : writesOfRun c a (b :: l) =
    .mbWrite8 (BitVec.ofNat 32 a) (joinLanes 0 b) :: writesOfRun c (nextAddr c a) l := rfl

theorem runOperations_writesOfRun {s : State} {a : Nat} {l : List Byte} (ha : a < addrSpace s.cfg)
    (hin : RunInBounds s a l.length) : ∃ (u : State) (rs : List Response),
      runOperations (writesOfRun s.cfg a l) s = some (u, rs) ∧
      (s.commandPuts a l).1.mb = u.mb ∧ (s.commandPuts a l).1.flags = u.flags := by
  induction l generalizing s a with
  | nil => exact ⟨s, [], rfl, rfl, rfl⟩
  | cons b l ih =>
    obtain ⟨hab, hrest⟩ := runInBounds_succ b hin
    obtain ⟨u, rs, hrun, hmb, hflags⟩ := ih (s := (s.commandPut a b).1.withResp {}) (a := nextAddr s.cfg a)
      (by simpa using nextAddr_lt s.cfg a) hrest
    rw [State.withResp_commandPuts] at hmb hflags
    rw [State.commandPuts_cons_of_inBounds b l hab]
    refine ⟨u, {} :: rs, ?_, hmb, hflags⟩
    rw [State.withResp_cfg, State.commandPut_cfg] at hrun
    rw [writesOfRun_cons, runOperations_cons_of_next _ (exec_mbWrite8_of_inBounds 0 b ha hab), hrun]
    rfl

/-! ### MB_SET -/

/-- The state a command that wrote bytes ends in. -/
def finishedPuts : State × Bool → State
  | (s, true) => s.withResp {}
  | (s, false) => (s.recordError .memoryRange).withResp { ok := false, err := some .memoryRange }

theorem exec_mbSet (addr : Addr) (l : List Byte) (s : State) :
    exec (.mbSet addr l) s = .next (finishedPuts (s.commandPuts (addrOf s.cfg addr) l)) := by
  show finishPuts (s.commandPuts (addrOf s.cfg addr) l) = _
  obtain ⟨t, _ | _⟩ := s.commandPuts (addrOf s.cfg addr) l <;> rfl

@[simp] theorem finishedPuts_mb (p : State × Bool) : (finishedPuts p).mb = p.1.mb := by
  obtain ⟨t, _ | _⟩ := p <;> rfl

theorem finishedPuts_eq (p : State × Bool) :
    finishedPuts p = { p.1 with flags := (finishedPuts p).flags, resp := (finishedPuts p).resp } := by
  obtain ⟨t, _ | _⟩ := p <;> rfl

@[simp] theorem finishedPuts_cfg (p : State × Bool) : (finishedPuts p).cfg = p.1.cfg := by
  rw [finishedPuts_eq]

/-- MB_SET changes the backend, the flags and the response alone. -/
theorem finishedPuts_commandPuts_eq (s : State) (a : Nat) (l : List Byte) :
    finishedPuts (s.commandPuts a l) = { s with
      mb := (finishedPuts (s.commandPuts a l)).mb
      flags := (finishedPuts (s.commandPuts a l)).flags
      resp := (finishedPuts (s.commandPuts a l)).resp } := by
  rw [finishedPuts_eq, State.commandPuts_eq]

/-- Settles O34: a run in bounds, and a run that meets its first byte out of bounds, are each read off the run of byte
writes that MB_SET is. -/
theorem bulkSet : Obligations.BulkSet := by
  intro addr bytes s
  have ha : addrOf s.cfg addr < addrSpace s.cfg := addrOf_lt s.cfg addr
  refine ⟨_, addrOf s.cfg addr, rfl, exec_mbSet addr bytes s, finishedPuts_commandPuts_eq s _ bytes, ?frame, ?inBounds,
    ?outOfBounds⟩
  case frame =>
    intro x hx
    simpa using State.memGet_commandPuts_of_notMem bytes hx
  case inBounds =>
    intro hin
    rw [State.commandPuts_of_runInBounds hin]
    refine ⟨rfl, State.commandPuts_lastError bytes, runOperations_writesOfRun ha hin, fun hnull hfull hlen => ?_⟩
    simpa using State.map_memGet_commandPuts hin (runAddresses_nodup ha hlen) (.inr ⟨hnull, hfull⟩)
  case outOfBounds =>
    rintro pre post b rfl hpre ⟨x, hx, hout⟩
    have hflat := variant_of_outOfBounds hout
    rw [State.commandPuts_append_outOfBounds b post hpre hx hout]
    refine ⟨rfl, ?flags, fun y hy => ?before, fun hlen => ?readBack⟩
    case flags =>
      rw [← State.commandPuts_flags_of_flat pre hflat (a := addrOf s.cfg addr)]
      rfl
    case before => simpa using State.memGet_commandPuts_of_notMem pre hy
    case readBack =>
      simpa using State.map_memGet_commandPuts hpre (runAddresses_nodup ha hlen) (.inl hflat)

end Sys2Proof.Machine
end

section
/-! Proofs of the operation port (30_encoding.md R105 to R109): what the decoder reads, its agreement with the encoder,
and the step that runs what was decoded. -/

namespace Sys2Proof

/-! ### The decoder and the encoder -/

/-- Settles O1: each code selects its row of the map by computation, whatever stands on the ports. -/
theorem operationMapDecodes : Obligations.OperationMapDecodes := by
  intro p
  refine ⟨rfl, rfl, rfl, rfl, rfl, rfl, rfl, rfl, rfl, rfl, rfl, rfl, rfl, rfl, rfl, rfl, rfl, rfl, rfl, rfl, rfl, rfl,
    rfl, rfl, rfl, rfl, rfl, rfl, rfl, rfl, rfl, rfl, rfl, rfl, rfl, rfl, rfl, rfl, rfl, rfl, rfl, rfl, rfl, rfl, rfl,
    rfl, rfl⟩

/-- An operation's own code selects it, and each operand port gives its operand back. -/
theorem decode_encode (i : Instr) : decode (encode i) = .ok i := by
  cases i <;> simp [decode, encode, Instr.opCode, Instr.operandPorts]

/-- A request that is read as an operation carries that operation's code. -/
theorem opCode_of_decode {r : Request} {i : Instr} (h : decode r = .ok i) : i.opCode = r.op := by
  apply BitVec.eq_of_toNat_eq
  unfold decode at h
  split at h
  case h_48 => cases h
  all_goals
    cases h
    symm
    assumption

/-- Settles O2: an operation's own ports, all others at 0, are read as that operation, since a request is decoded to an
operation of its own code alone. -/
theorem decodeAndEncodeAgree : Obligations.DecodeAndEncodeAgree := by
  refine ⟨decode_encode, fun r i h => ⟨opCode_of_decode h, ?_⟩⟩
  rw [← opCode_of_decode h]
  exact decode_encode i

/-- The codes the operation map leaves free (30_encoding.md R108, R109). -/
def isReservedCode (op : BitVec 8) : Prop :=
  0x07 ≤ op.toNat ∧ op.toNat ≤ 0x0F ∨ 0x13 ≤ op.toNat ∧ op.toNat ≤ 0x1F ∨
  0x27 ≤ op.toNat ∧ op.toNat ≤ 0x2F ∨ 0x36 ≤ op.toNat ∧ op.toNat ≤ 0x3F ∨
  0x4C ≤ op.toNat ∧ op.toNat ≤ 0x4F ∨ 0x56 ≤ op.toNat ∧ op.toNat ≤ 0x5F ∨ 0x66 ≤ op.toNat

theorem not_isReservedCode_opCode (i : Instr) : ¬isReservedCode i.opCode := by
  cases i <;> simp [isReservedCode, Instr.opCode]

/-- A code outside the map is read as no operation: every operation has a code inside it. -/
theorem decode_of_isReservedCode {r : Request} (h : isReservedCode r.op) : ∃ e, decode r = .error e := by
  cases hd : decode r with
  | error e => exact ⟨e, rfl⟩
  | ok i => exact absurd (opCode_of_decode hd ▸ h) (not_isReservedCode_opCode i)

namespace Machine

/-! ### The step -/

theorem step_of_request {s : State} {r : Request} {l : List HostEvent} {i : Instr} (hs : s.host = .request r :: l)
    (hd : decode r = .ok i) : step s = exec i { s with host := l } := by
  simp [step, State.takeEvent, hs, hd, State.withHost]

theorem step_of_illegal {s : State} {r : Request} {l : List HostEvent} {e : DecodeReject}
    (hs : s.host = .request r :: l) (hd : decode r = .error e) :
    step s = .next { s with host := l, resp := { ok := false, illegal := true } } := by
  simp [step, State.takeEvent, hs, hd, State.withHost, State.answerIllegal, State.answer, State.withResp]

theorem step_of_lateParameters {s : State} {l : List HostEvent} (hs : s.host = .lateParameters :: l) :
    step s = .next { s with
      host := l
      flags := { s.flags with lastError := some .protocolTimeout }
      resp := { ok := false, err := some .protocolTimeout } } := by
  simp [step, State.takeEvent, hs, State.withHost, State.lateCommand, State.raise, State.answer, State.withResp,
    State.recordError, State.withFlags]

theorem step_of_quiet {s : State} (hs : s.host = []) : step s = .next s := by
  simp [step, State.takeEvent, hs]

/-- Settles O4: one rule of the step for each kind of event, and one for none. -/
theorem stepRunsTheDecodedOperation : Obligations.StepRunsTheDecodedOperation :=
  ⟨fun _ _ _ _ => step_of_request, fun _ _ => step_of_lateParameters, fun _ => step_of_quiet⟩

end Machine

end Sys2Proof
end

section
/-! Proofs of family 40: XFER_DONE (40_bus_cycle.md R135), NEXT_CYCLE (R136, R139), BUS_WIDTH (R141), CYCLE_TICK (R143)
and the two component resets (R144, 41_bus_controller.md R171). -/

namespace Sys2Proof.Machine

open Sys2Proof

/-! ### XFER_DONE -/

theorem exec_xferDone (lst : BusStatus) (l : CmdLines) (ready : Bool) (s : State) :
    exec (.xferDone lst l ready) s = .next { s with resp := { done := some (xferDone s.cfg lst l ready) } } := rfl

/-- Settles O11: without command lines the ready line decides, with them the line of the latched status. -/
theorem transferDone : Obligations.TransferDone := by
  intro lst l ready s
  refine ⟨_, exec_xferDone lst l ready s, fun hlines => ?noLines, fun hlines => ?lines⟩
  case noLines => simp [xferDone, hlines]
  case lines =>
    refine ⟨?memoryRead, ?memWrite, ?ioRead, ?ioWrite, ?noLine⟩
    case memoryRead => rintro (rfl | rfl) <;> simp [xferDone, hlines]
    case memWrite => rintro rfl; simp [xferDone, hlines]
    case ioRead => rintro rfl; simp [xferDone, hlines]
    case ioWrite => rintro rfl; simp [xferDone, hlines]
    case noLine => rintro (rfl | rfl | rfl) <;> simp [xferDone, hlines]

/-! ### NEXT_CYCLE -/

theorem exec_nextCycle (cyc : CycleCode) (st lst : BusStatus) (done : Bool) (s : State) :
    exec (.nextCycle cyc st lst done) s =
      .next { s with resp := { cyc := some (nextCycle s.cfg.cycleVariant cyc st lst done) } } := rfl

theorem nextCycle_fourState (cyc : CycleCode) (st lst : BusStatus) (done : Bool) :
    nextCycle .fourState cyc st lst done = nextCycleFour cyc st lst done := rfl

theorem nextCycle_twoState (cyc : CycleCode) (st lst : BusStatus) (done : Bool) :
    nextCycle .twoState cyc st lst done = nextCycleTwo cyc st done := rfl

/-- Settles O12: each row is the branch of its variant's table that the row's conditions select. -/
theorem nextCycleTables : Obligations.NextCycleTables := by
  intro cyc st lst done s
  constructor
  · intro hv
    refine ⟨_, by rw [exec_nextCycle, hv, nextCycle_fourState], ?_, ?_, ?_, ?_, ?_, ?_, ?_, ?_, ?_, ?_, ?_, ?_⟩
    case refine_12 => rintro (rfl | rfl) <;> rfl
    all_goals
      rintro rfl
      simp +contextual [nextCycleFour]
  · intro hv
    refine ⟨_, by rw [exec_nextCycle, hv, nextCycle_twoState], ?_, ?_, ?_, ?_, ?_, ?_, ?_⟩
    case refine_7 => rintro (rfl | rfl | rfl | rfl | rfl) <;> rfl
    all_goals
      rintro rfl
      simp +contextual [nextCycleTwo]

/-! ### BUS_WIDTH -/

theorem exec_busWidth (addr : Addr) (bhe bus16 : Bool) (s : State) :
    exec (.busWidth addr bhe bus16) s = .next { s with resp := {
      width := some (transferWidth addr bhe bus16).1, valid := some (transferWidth addr bhe bus16).2 } } := rfl

/-- Settles O13: the four combinations are those of `transferWidth_eq`. -/
theorem busWidthTable : Obligations.BusWidthTable := by
  intro addr bhe bus16 s
  refine ⟨_, _, exec_busWidth addr bhe bus16 s, ?eightBit, ?sixteen, ?high, ?low, ?refresh⟩
  all_goals
    rw [transferWidth_eq]
    simp +contextual

/-! ### CYCLE_TICK -/

section TickRules

variable {c : Config} {b : BusCycle} {p : Pins} {l : CmdLines}

/-- At T1 entry the status, address and width of the cycle are latched. -/
theorem tickBusCycle_entersT1 (hn : tickNext c b p l = .t1) (hb : b.tcycle ≠ .t1) :
    tickBusCycle c b p l = { b with
      tcycle := .t1
      status := (decodeStatus c p.rawStatus p.statusValid).1
      latchedStatus := (decodeStatus c p.rawStatus p.statusValid).1
      addressLatch := maskAddr c p.addr
      busWidth := (transferWidth p.addr p.bhe c.bus16).1
      widthValid := (transferWidth p.addr p.bhe c.bus16).2
      fed := false } := by
  simp [tickBusCycle, hn, hb]

/-- At the end of a cycle without a successor the latched status falls back to Passive. -/
theorem tickBusCycle_entersIdle (hn : tickNext c b p l = .idle) (hb : b.tcycle ≠ .idle) :
    tickBusCycle c b p l = { b with
      tcycle := .idle
      status := (decodeStatus c p.rawStatus p.statusValid).1
      latchedStatus := .passive } := by
  simp [tickBusCycle, hn, hb]

/-- At every other tick the latches stay. -/
theorem tickBusCycle_stays (h1 : ¬(tickNext c b p l = .t1 ∧ b.tcycle ≠ .t1))
    (h2 : ¬(tickNext c b p l = .idle ∧ b.tcycle ≠ .idle)) :
    tickBusCycle c b p l = { b with
      tcycle := tickNext c b p l
      status := (decodeStatus c p.rawStatus p.statusValid).1 } := by
  unfold tickBusCycle
  simp only
  rw [if_neg h1, if_neg h2]

theorem cycleEnds_eq (v : CycleVariant) (c n : TCycle) : cycleEnds v c n =
    decide ((v = .fourState → n = .t4 ∧ c ≠ .t4) ∧ (v = .twoState → c = .t2 ∧ n ≠ .t2)) := by
  cases v <;> simp [cycleEnds, Bool.beq_eq_decide_eq, bne]

end TickRules

/-- The state CYCLE_TICK leaves, and its response. -/
theorem exec_cycleTick (p : Pins) (l : CmdLines) (s : State) :
    exec (.cycleTick p l) s = .next { s with
      bcs := tickBusCycle s.cfg s.bcs p l
      flags := if (decodeStatus s.cfg p.rawStatus p.statusValid).2 then { s.flags with statusReserved := true }
        else s.flags
      resp := {
        cyc := some (tickNext s.cfg s.bcs p l)
        enteredT1 := some (tickResult s.cfg s.bcs p l).enteredT1
        ended := some (tickResult s.cfg s.bcs p l).ended } } := by
  show execCycleTick p l s = _
  unfold execCycleTick State.cycleTick
  rw [State.flagIf_eq]
  rfl

/-- Settles O15: the T-cycle is `tickNext`, and the latches follow one of its three kinds of tick. -/
theorem cycleTick : Obligations.CycleTick := by
  intro p l s
  refine ⟨_, _, _, tickDone s.cfg s.bcs p l, s.bcs.tcycle, tickNext s.cfg s.bcs p l, exec_cycleTick p l s, rfl,
    sameMemory_of_cfg_mb rfl rfl, rfl, rfl, ?twoState, ?fourState, rfl, rfl, ?entersT1, ?entersIdle, ?stays, ?response⟩
  case twoState => intro hv; simp [tickDone, hv]
  case fourState => intro hv; simp [tickDone, hv]
  case entersT1 =>
    intro hn hb
    rw [hn]
    exact tickBusCycle_entersT1 hn hb
  case entersIdle =>
    intro hn hb
    rw [hn]
    exact tickBusCycle_entersIdle hn hb
  case stays => exact tickBusCycle_stays
  case response =>
    simp only [tickResult, cycleEnds_eq, bne, Bool.beq_eq_decide_eq, Bool.decide_and, decide_not]

/-! ### The component resets -/

/-- Settles O17: both resets write out power-on values. -/
theorem componentResets : Obligations.ComponentResets := fun _ => ⟨rfl, rfl⟩

end Sys2Proof.Machine
end

section
/-! Rules of ENGINE_TICK as an operation (46_phase_sequencer.md R310, R339): the refusal of the terminal phases, the
response of a tick that is processed, and the fields of a tick that PHASE_STEP does not write. -/

namespace Sys2Proof.Machine

open Sys2Proof

theorem isTerminal_iff (p : ServerState) : isTerminal p = true ↔ p = .error ∨ p = .shutdown := by
  cases p <;> simp [isTerminal]

/-- The state in which an operation that raised an error ends. -/
def raised (s : State) (k : ErrorKind) : State :=
  { s with flags := { s.flags with lastError := some k }, resp := { ok := false, err := some k } }

section TickedRules

variable (s : State) (p : Pins) (d : Word) (g : Tag)

/-- The response of a tick that is processed. -/
def tickResponse (o : TickOutcome) : Response where
  ok := o.err.isNone
  err := o.err
  state := some o.state.srv.state
  cyc := some o.state.bcs.tcycle
  event := o.event

/-- The state a processed tick leaves. -/
def ticked : State := (engineTick s p d g).state.withResp (tickResponse (engineTick s p d g))

theorem exec_engineTick_of_terminal (h : s.srv.state = .error ∨ s.srv.state = .shutdown) :
    exec (.engineTick p d g) s = .next (raised s .invalidPhase) := by
  show execEngineTick p d g s = _
  rw [execEngineTick, (isTerminal_iff _).mpr h]
  rfl

theorem exec_engineTick_of_running (h : s.srv.state ≠ .error) (h' : s.srv.state ≠ .shutdown) :
    exec (.engineTick p d g) s = .next (ticked s p d g) := by
  have hrun : ¬isTerminal s.srv.state = true := by rw [isTerminal_iff]; simp [h, h']
  show execEngineTick p d g s = _
  rw [execEngineTick, if_neg hrun]
  rfl

/-- ENGINE_TICK raises InvalidPhase in the terminal phases and is processed in every other. -/
theorem exec_engineTick_cases {s t : State} {p : Pins} {d : Word} {g : Tag}
    (h : exec (.engineTick p d g) s = .next t) :
    (s.srv.state = .error ∨ s.srv.state = .shutdown) ∧ t = raised s .invalidPhase ∨
    (s.srv.state ≠ .error ∧ s.srv.state ≠ .shutdown) ∧ t = ticked s p d g := by
  by_cases hs : s.srv.state = .error ∨ s.srv.state = .shutdown
  · rw [exec_engineTick_of_terminal s p d g hs] at h
    cases h
    exact .inl ⟨hs, rfl⟩
  · rw [not_or] at hs
    rw [exec_engineTick_of_running s p d g hs.1 hs.2] at h
    cases h
    exact .inr ⟨hs, rfl⟩

theorem eq_ticked {s t : State} {p : Pins} {d : Word} {g : Tag} (h : exec (.engineTick p d g) s = .next t)
    (he : s.srv.state ≠ .error) (hs : s.srv.state ≠ .shutdown) : t = ticked s p d g := by
  rw [exec_engineTick_of_running s p d g he hs] at h
  cases h
  rfl

/-! ### The fields of a processed tick -/

@[simp] theorem ticked_cfg : (ticked s p d g).cfg = s.cfg := by
  obtain ⟨e, f, h⟩ := engineTick_state s p d g
  show (engineTick s p d g).state.cfg = _
  rw [h]
  exact afterData_cfg s p d g

@[simp] theorem ticked_bc : (ticked s p d g).bc =
    controllerAfter s.cfg s.bc (decodeStatus s.cfg p.rawStatus p.statusValid).1 p.ready := by
  obtain ⟨e, f, h⟩ := engineTick_state s p d g
  show (engineTick s p d g).state.bc = _
  rw [h]
  simp only [afterData, State.dataStep_bc, afterAdvance_eq]

@[simp] theorem ticked_ipset : (ticked s p d g).ipset = s.ipset := by
  obtain ⟨e, f, h⟩ := engineTick_state s p d g
  show (engineTick s p d g).state.ipset = _
  rw [h]
  simp only [afterData, State.dataStep_ipset, afterAdvance_eq]

@[simp] theorem ticked_host : (ticked s p d g).host = s.host := by
  obtain ⟨e, f, h⟩ := engineTick_state s p d g
  show (engineTick s p d g).state.host = _
  rw [h]
  simp only [afterData, State.dataStep_host, afterAdvance_eq]

theorem ticked_bcs : (ticked s p d g).bcs = (afterData s p d g).bcs := by
  obtain ⟨e, f, h⟩ := engineTick_state s p d g
  show (engineTick s p d g).state.bcs = _
  rw [h]

theorem ticked_mb : (ticked s p d g).mb = (afterData s p d g).mb := by
  obtain ⟨e, f, h⟩ := engineTick_state s p d g
  show (engineTick s p d g).state.mb = _
  rw [h]

theorem ticked_xcvr : (ticked s p d g).xcvr = (afterData s p d g).xcvr := by
  obtain ⟨e, f, h⟩ := engineTick_state s p d g
  show (engineTick s p d g).state.xcvr = _
  rw [h]

theorem ticked_q : (ticked s p d g).q = (afterQueue s p d g).q := by
  obtain ⟨e, f, h⟩ := engineTick_state s p d g
  show (engineTick s p d g).state.q = _
  rw [h]

theorem ticked_log : (ticked s p d g).log =
    if (tickCycle s p).ended = true ∧ s.bcs.latchedStatus ≠ .passive then
      logAppended s.log (cycleRecord s.bcs p.dataIn) else s.log := by
  obtain ⟨e, f, h⟩ := engineTick_state s p d g
  show (engineTick s p d g).state.log = _
  rw [h]

/-- PHASE_STEP is what a tick does to the sequencer, the program and the error. -/
theorem ticked_srv : (ticked s p d g).srv =
    ((afterLog s p d g).phaseStep p (tickCycle s p) (tickReport s p d g)).1.srv := by
  show (engineTick s p d g).state.srv = _
  rw [engineTick_eq]

theorem ticked_ip : (ticked s p d g).ip =
    ((afterLog s p d g).phaseStep p (tickCycle s p) (tickReport s p d g)).1.ip := by
  show (engineTick s p d g).state.ip = _
  rw [engineTick_eq]

theorem ticked_err : (ticked s p d g).resp.err =
    ((afterLog s p d g).phaseStep p (tickCycle s p) (tickReport s p d g)).2 := by
  show (engineTick s p d g).err = _
  rw [engineTick_eq]

theorem ticked_event : (ticked s p d g).resp.event =
    if (tickCycle s p).ended then some (cycleRecord s.bcs p.dataIn) else none := by
  show (engineTick s p d g).event = _
  rw [engineTick_eq]

theorem ticked_event_isSome : (ticked s p d g).resp.event.isSome = (tickCycle s p).ended := by
  rw [ticked_event]
  cases (tickCycle s p).ended <;> rfl

/-- The response names the error, the phase and the T-cycle of the state it comes with. -/
theorem ticked_resp : (ticked s p d g).resp = {
    ok := (ticked s p d g).resp.err.isNone
    err := (ticked s p d g).resp.err
    state := some (ticked s p d g).srv.state
    cyc := some (ticked s p d g).bcs.tcycle
    event := (ticked s p d g).resp.event } := rfl

theorem ticked_tcycle : (ticked s p d g).bcs.tcycle = (tickCycle s p).cyc := by
  obtain ⟨w, n, f, h⟩ := afterData_bcs s p d g
  rw [ticked_bcs, h]
  rfl

theorem tickCycle_enteredT1_iff : (tickCycle s p).enteredT1 = true ↔
    s.bcs.tcycle ≠ .t1 ∧ (ticked s p d g).bcs.tcycle = .t1 := by
  rw [ticked_tcycle]
  show (_ == _ && _ != _) = true ↔ _
  rw [Bool.and_eq_true, bne_iff_ne, beq_iff_eq, and_comm]
  rfl

end TickedRules

end Sys2Proof.Machine
end

section
/-! Proofs of family 41: the tick of each controller style (41_bus_controller.md R163, R170) and the rule that ties the
lines to the T-cycle (R172). -/

namespace Sys2Proof.Machine

open Sys2Proof

/-! ### One tick of each style -/

section ControllerTickRules

variable {b : BusController} {st : BusStatus}

theorem isStartTick_iff : isStartTick b st = true ↔ b.status = .passive ∧ st ≠ .passive := by
  simp [isStartTick]

theorem startCycle_lines : (startCycle b st).lines = ⟨true, false, false, false, false, false, false⟩ := rfl

theorem controllerTick_of_start (h : isStartTick b st = true) : controllerTick b st = startCycle b st := by
  simp [controllerTick, h]

theorem controllerTick2_of_start (ready : Bool) (h : isStartTick b st = true) :
    controllerTick2 b st ready = startCycle b st := by
  simp [controllerTick2, h]

theorem clearCommands_eq (l : ControllerLines) :
    clearCommands l = ⟨l.ale, false, false, false, false, false, false⟩ := rfl

/-- The immediate line of the latched status rises, the others stay (R161). -/
theorem assertImmediate_eq (st : BusStatus) (l : ControllerLines) : assertImmediate st l = { l with
    mrdc := l.mrdc || (st == .code || st == .memRead)
    amwc := l.amwc || st == .memWrite
    iorc := l.iorc || st == .ioRead
    aiowc := l.aiowc || st == .ioWrite } := by
  cases st <;> simp [assertImmediate, Bool.beq_eq_decide_eq]

theorem assertDelayed_eq (st : BusStatus) (l : ControllerLines) : assertDelayed st l = { l with
    mwtc := l.mwtc || st == .memWrite
    iowc := l.iowc || st == .ioWrite } := by
  cases st <;> simp [assertDelayed, Bool.beq_eq_decide_eq]

theorem assertPlain_eq (st : BusStatus) (l : ControllerLines) : assertPlain st l = { l with
    mrdc := l.mrdc || (st == .code || st == .memRead)
    mwtc := l.mwtc || st == .memWrite
    iorc := l.iorc || st == .ioRead
    iowc := l.iowc || st == .ioWrite } := by
  cases st <;> simp [assertPlain, Bool.beq_eq_decide_eq]

end ControllerTickRules

/-- BC_TICK and BC_TICK2 shift the status history, start tick or not. -/
theorem controllerTick_history (b : BusController) (st : BusStatus) :
    (controllerTick b st).prevStatus = b.status ∧ (controllerTick b st).status = st := by
  unfold controllerTick
  split
  · exact ⟨rfl, rfl⟩
  · cases b.tcycle <;> exact ⟨rfl, rfl⟩

theorem controllerTick2_history (b : BusController) (st : BusStatus) (ready : Bool) :
    (controllerTick2 b st ready).prevStatus = b.status ∧ (controllerTick2 b st ready).status = st := by
  unfold controllerTick2
  split
  · exact ⟨rfl, rfl⟩
  · cases b.tcycle <;> cases ready <;> exact ⟨rfl, rfl⟩

theorem exec_bcTick (st : BusStatus) (s : State) : exec (.bcTick st) s = .next { s with
    bc := controllerTick s.bc st
    resp := { lines := some (controllerTick s.bc st).lines, cyc := some (controllerTick s.bc st).tcycle } } := rfl

theorem exec_bcTick2 (st : BusStatus) (ready : Bool) (s : State) : exec (.bcTick2 st ready) s = .next { s with
    bc := controllerTick2 s.bc st ready
    resp := {
      lines := some (controllerTick2 s.bc st ready).lines
      cyc := some (controllerTick2 s.bc st ready).tcycle } } := rfl

/-- Settles O18: a start tick is the override in whatever T-cycle; else each T-cycle has its own branch. -/
theorem controllerTick8288 : Obligations.ControllerTick8288 := by
  intro st s
  obtain ⟨hprev, hstatus⟩ := controllerTick_history s.bc st
  refine ⟨_, exec_bcTick st s, rfl, sameMemory_of_cfg_mb rfl rfl, hprev, hstatus, rfl, ?start, ?runs⟩
  case start =>
    intro h h'
    simp only [controllerTick_of_start (isStartTick_iff.mpr ⟨h, h'⟩)]
    exact ⟨rfl, rfl, startCycle_lines⟩
  case runs =>
    intro h
    have hstart : isStartTick s.bc st = false := by rw [← isStartTick_iff] at h; simpa using h
    refine ⟨?_, ?_, ?_, ?_, ?_, ?_⟩
    case refine_1 => cases hc : s.bc.tcycle <;> simp [controllerTick, hstart, hc]
    case refine_5 => rintro (hc | hc) <;> simp [controllerTick, hstart, hc, clearCommands_eq]
    all_goals
      intro hc
      simp [controllerTick, hstart, hc, assertImmediate_eq, assertDelayed_eq]

/-- Settles O19: as for the 8288 style, with the ready line deciding in T2. -/
theorem controllerTick82288 : Obligations.ControllerTick82288 := by
  intro st ready s
  obtain ⟨hprev, hstatus⟩ := controllerTick2_history s.bc st ready
  refine ⟨_, exec_bcTick2 st ready s, rfl, sameMemory_of_cfg_mb rfl rfl, hprev, hstatus, rfl, ?start, ?runs⟩
  case start =>
    intro h h'
    simp only [controllerTick2_of_start ready (isStartTick_iff.mpr ⟨h, h'⟩)]
    exact ⟨rfl, rfl, startCycle_lines⟩
  case runs =>
    intro h
    have hstart : isStartTick s.bc st = false := by rw [← isStartTick_iff] at h; simpa using h
    refine ⟨?_, ?_, ?_, ?_, ?_, ?_⟩
    case refine_1 => cases hc : s.bc.tcycle <;> cases ready <;> simp [controllerTick2, hstart, hc]
    case refine_6 => rintro (hc | hc | hc) <;> simp [controllerTick2, hstart, hc, clearCommands_eq]
    all_goals
      intro hc
      simp +contextual [controllerTick2, hstart, hc, assertPlain_eq, clearCommands_eq]

/-! ### Passive ticks bring a controller to Idle -/

theorem isStartTick_passive (b : BusController) : isStartTick b .passive = false := by simp [isStartTick]

/-- How many Passive ticks of the 8288 style the T-cycle is away from Idle. -/
def ticksToIdle : TCycle → Nat
  | .idle => 0
  | .t1 => 4
  | .t2 => 3
  | .t3 | .wait => 2
  | .t4 => 1

theorem ticksToIdle_eq_zero {c : TCycle} : ticksToIdle c = 0 ↔ c = .idle := by cases c <;> simp [ticksToIdle]

theorem ticksToIdle_controllerTick (b : BusController) :
    ticksToIdle (controllerTick b .passive).tcycle = ticksToIdle b.tcycle - 1 := by
  cases hc : b.tcycle <;> simp [controllerTick, isStartTick_passive, hc, ticksToIdle]

theorem runOperations_passive_bcTick (n : Nat) {s : State} (h : ControllerOk s.bc) :
    ∃ (t : State) (rs : List Response), runOperations (List.replicate n (.bcTick .passive)) s = some (t, rs) ∧
      ControllerOk t.bc ∧ ticksToIdle t.bc.tcycle = ticksToIdle s.bc.tcycle - n := by
  induction n generalizing s with
  | zero => exact ⟨s, [], rfl, h, rfl⟩
  | succ n ih =>
    rw [List.replicate_succ, runOperations_cons_of_next _ (exec_bcTick .passive s)]
    obtain ⟨t, rs, hrun, hok, hleft⟩ := ih (s := { s with
      bc := controllerTick s.bc .passive
      resp := {
        lines := some (controllerTick s.bc .passive).lines
        cyc := some (controllerTick s.bc .passive).tcycle } }) (controllerOk_controllerTick s.bc .passive h)
    refine ⟨t, _, by rw [hrun]; rfl, hok, ?_⟩
    rw [hleft, ticksToIdle_controllerTick]
    omega

/-- The ready values of a run of Passive ticks bring the 82288 style from the T-cycle to Idle: from T1 a ready tick
after the first, from T2 any ready tick, from the T-cycles it does not use any tick. -/
def restsAfter (c : TCycle) (readys : List Bool) : Prop :=
  match c with
  | .idle => True
  | .t1 => true ∈ readys.tail
  | .t2 => true ∈ readys
  | .t3 | .t4 | .wait => readys ≠ []

theorem restsAfter_nil {c : TCycle} (h : restsAfter c []) : c = .idle := by
  cases c <;> simp_all [restsAfter]

theorem restsAfter_controllerTick2 {b : BusController} {r : Bool} {l : List Bool} (h : restsAfter b.tcycle (r :: l)) :
    restsAfter (controllerTick2 b .passive r).tcycle l := by
  cases hc : b.tcycle <;> rw [hc] at h <;>
    simp only [controllerTick2, isStartTick_passive, hc, restsAfter, Bool.false_eq_true, if_false]
  case t1 => exact h
  case t2 =>
    cases r with
    | true => trivial
    | false =>
      simp only [Bool.false_eq_true, if_false]
      simpa [restsAfter] using h

theorem runOperations_passive_bcTick2 (l : List Bool) {s : State} (h : ControllerOk s.bc)
    (hl : restsAfter s.bc.tcycle l) : ∃ (t : State) (rs : List Response),
      runOperations (l.map fun r => .bcTick2 .passive r) s = some (t, rs) ∧
      ControllerOk t.bc ∧ t.bc.tcycle = .idle := by
  induction l generalizing s with
  | nil => exact ⟨s, [], rfl, h, restsAfter_nil hl⟩
  | cons r l ih =>
    rw [List.map_cons, runOperations_cons_of_next _ (exec_bcTick2 .passive r s)]
    obtain ⟨t, rs, hrun, hok, hidle⟩ := ih (s := { s with
      bc := controllerTick2 s.bc .passive r
      resp := {
        lines := some (controllerTick2 s.bc .passive r).lines
        cyc := some (controllerTick2 s.bc .passive r).tcycle } })
      (controllerOk_controllerTick2 s.bc .passive r h) (restsAfter_controllerTick2 hl)
    exact ⟨t, _, by rw [hrun]; rfl, hok, hidle⟩

/-! ### The rule of the lines -/

theorem controllerOk82288_controllerAfter {c : Config} {b : BusController} (st : BusStatus) (r : Bool)
    (hc : c.bcVariant = .bc82288) (h : ControllerOk82288 b) : ControllerOk82288 (controllerAfter c b st r) := by
  unfold controllerAfter
  simp only [hc]
  split
  · exact controllerOk82288_controllerTick2 b st r h
  · exact h

/-- Settles O20: either style's tick keeps its rule of the lines; Passive ticks count down to Idle, where the rule
leaves no line set. -/
theorem controllerLinesFollowTheCycle : Obligations.ControllerLinesFollowTheCycle := by
  refine ⟨?keeps, controllerOk82288_powerOn, ?keeps82288, ?idle, ?idle82288, ?reset⟩
  case keeps =>
    rintro i s t (⟨st, rfl⟩ | ⟨st, r, rfl⟩) hok h
    · rw [exec_bcTick] at h
      cases h
      exact controllerOk_controllerTick s.bc st hok
    · rw [exec_bcTick2] at h
      cases h
      exact controllerOk_controllerTick2 s.bc st r hok
  case keeps82288 =>
    rintro i s t (⟨st, r, rfl⟩ | ⟨⟨p, d, g, rfl⟩, hv⟩) hok h
    · rw [exec_bcTick2] at h
      cases h
      exact controllerOk82288_controllerTick2 s.bc st r hok
    · rcases exec_engineTick_cases h with ⟨-, rfl⟩ | ⟨-, rfl⟩
      · exact hok
      · rw [ticked_bc]
        exact controllerOk82288_controllerAfter _ _ hv hok
  case idle =>
    intro s hok
    obtain ⟨t, rs, hrun, hok', hleft⟩ := runOperations_passive_bcTick 6 hok
    have hidle : t.bc.tcycle = .idle := by
      rw [← ticksToIdle_eq_zero, hleft]
      cases s.bc.tcycle <;> rfl
    exact ⟨t, rs, hrun, hidle, hok'.lines_of_idle hidle⟩
  case idle82288 =>
    intro s r0 rest hlen hT1 hT2 hok
    have hrests : restsAfter s.bc.tcycle (r0 :: rest) := by
      cases hc : s.bc.tcycle with
      | idle => trivial
      | t1 => exact hT1 hc
      | t2 => exact hT2 hc
      | t3 | t4 | wait => exact List.cons_ne_nil r0 rest
    obtain ⟨t, rs, hrun, hok', hidle⟩ := runOperations_passive_bcTick2 (r0 :: rest) hok hrests
    exact ⟨t, rs, hrun, hidle, hok'.lines_of_idle hidle⟩
  case reset =>
    intro s r hs
    constructor <;> intro t h
    · rw [exec_bcTick] at h
      cases h
      rw [hs]
      rfl
    · rw [exec_bcTick2] at h
      cases h
      rw [hs]
      rfl

end Sys2Proof.Machine
end

section
/-! Proofs of family 42: the queue's operations one by one (42_instruction_queue.md R191 to R199), then the law of every
run of pushes and pops (R200). -/

namespace Sys2Proof.Machine

open Sys2Proof

/-! ### Pushes -/

theorem queuePush_of_room {q : Queue} (d : Word) (g : Tag) {w : BusWidth} (h : hasRoom q w = true) :
    ∃ q', queuePush q d g w = some q' := by
  cases hq : queuePush q d g w with
  | some q' => exact ⟨q', rfl⟩
  | none => rw [queuePush_eq_none.mp hq] at h; cases h

theorem queuePush_sixteen {q : Queue} (d : Word) (g : Tag) (h : hasRoom q .sixteen = true) :
    queuePush q d g .sixteen = some (queueAppend (queueAppend q ⟨lowLane d, g⟩) ⟨highLane d, g⟩) := by
  rw [queuePush, if_pos h]

theorem queuePush_byteWord {q : Queue} (b : Byte) (g : Tag) (h : q.len < capSize q.cap) :
    queuePush q (byteWord b) g .eightLow = some (queueAppend q ⟨b, g⟩) := by
  rw [queuePush, if_pos ((hasRoom_iff q .eightLow).mpr h), lowLane_byteWord]

theorem exec_qPush_of_some {s : State} {d : Word} {g : Tag} {w : BusWidth} {q : Queue}
    (h : queuePush s.q d g w = some q) : exec (.qPush d g (.width w)) s = .next { s with q := q, resp := {} } := by
  show execQPush d g (.width w) s = _
  simp only [execQPush, widthOf, h]
  rfl

theorem exec_qPush_of_none {s : State} {d : Word} {g : Tag} {w : BusWidth} (h : queuePush s.q d g w = none) :
    exec (.qPush d g (.width w)) s = .next { s with resp := { ok := false } } := by
  show execQPush d g (.width w) s = _
  simp only [execQPush, widthOf, h]
  rfl

theorem exec_qPush_code3 (d : Word) (g : Tag) (s : State) :
    exec (.qPush d g .code3) s = .next { s with resp := { ok := false } } := rfl

/-- A Sixteen push where it is legal is the two eight-bit pushes of Q_PUSH16, low byte first. -/
theorem exec_qPush_sixteen_eq_qPush16 {s : State} (d : Word) (g : Tag) (h : hasRoom s.q .sixteen = true) :
    ∃ (t : State) (ops : List Instr), exec (.qPush d g (.width .sixteen)) s = .next t ∧
      qPush16Operations s d g = some ops ∧ runOperations ops s = some (t, [{}, {}]) := by
  have hlen : s.q.len + 2 ≤ capSize s.q.cap := (hasRoom_iff _ _).mp h
  refine ⟨_, _, exec_qPush_of_some (queuePush_sixteen d g h), by rw [qPush16Operations, if_pos h], ?_⟩
  rw [runOperations_cons_of_next _ (exec_qPush_of_some (queuePush_byteWord (lowLane d) g (by omega))),
    runOperations_cons_of_next _ (exec_qPush_of_some (queuePush_byteWord (highLane d) g
      (by simp only [queueAppend_len, queueAppend_cap]; omega)))]
  rfl

theorem not_hasRoom_iff {q : Queue} {w : BusWidth} : hasRoom q w = false ↔ capSize q.cap < q.len + widthBytes w := by
  rw [← Bool.not_eq_true, hasRoom_iff, Nat.not_le]

/-- Settles O21: `queuePush_eq_some` with room, `queuePush_eq_none` without. -/
theorem pushAppendsOrRefusesWhole : Obligations.PushAppendsOrRefusesWhole := by
  intro d g s
  refine ⟨?room, ?full, ?legal, ?illegal, exec_qPush_code3 d g s⟩
  case room =>
    intro w hw
    obtain ⟨q, hq⟩ := queuePush_of_room d g ((hasRoom_iff s.q w).mpr hw)
    obtain ⟨-, hcap, -, -, hlist⟩ := queuePush_eq_some hq
    refine ⟨_, exec_qPush_of_some hq, rfl, sameMemory_of_cfg_mb rfl rfl, hcap, ?_, ?_, ?_⟩
    all_goals
      rintro rfl
      exact hlist
  case full =>
    intro w hw
    exact exec_qPush_of_none (queuePush_eq_none.mpr (not_hasRoom_iff.mpr hw))
  case legal =>
    intro hroom
    exact exec_qPush_sixteen_eq_qPush16 d g ((hasRoom_iff s.q .sixteen).mpr hroom)
  case illegal =>
    intro hfull
    have hroom : hasRoom s.q .sixteen = false := not_hasRoom_iff.mpr hfull
    simp [qPush16Operations, hroom]

/-! ### Pops and the CPU's queue status -/

theorem queuePop_of_cons {q : Queue} {e : QueueEntry} {l : List QueueEntry} (h : queueList q = e :: l) :
    ∃ q', queuePop q = some (e, q') ∧ q'.cap = q.cap ∧ queueList q' = l := by
  cases hp : queuePop q with
  | none =>
    rw [queueList_eq_nil.mpr (queuePop_eq_none.mp hp)] at h
    cases h
  | some x =>
    obtain ⟨e', q'⟩ := x
    obtain ⟨hlist, hcap, -, -⟩ := queuePop_eq_some hp
    rw [h] at hlist
    cases hlist
    exact ⟨q', rfl, hcap, rfl⟩

theorem queuePop_of_nil {q : Queue} (h : queueList q = []) : queuePop q = none :=
  queuePop_eq_none.mpr (queueList_eq_nil.mp h)

theorem State.popQueue_of_some {s : State} {e : QueueEntry} {q : Queue} (h : queuePop s.q = some (e, q)) :
    s.popQueue = (s.withQ q, true, e) := by
  simp [State.popQueue, h]

theorem State.popQueue_of_none {s : State} (h : queuePop s.q = none) : s.popQueue =
    (s.drawn, false, { byte := Config.freePopByte s.freeCount, tag := Config.freePopTag s.freeCount }) := by
  simp [State.popQueue, h]

theorem exec_qPop_of_some {s : State} {e : QueueEntry} {q : Queue} (h : queuePop s.q = some (e, q)) :
    exec .qPop s = .next { s with
      q := q
      resp := { empty := some false, byte := some e.byte, tag := some e.tag } } := by
  show execQPop s = _
  rw [execQPop, State.popQueue_of_some h]
  rfl

theorem exec_qPop_of_none {s : State} (h : queuePop s.q = none) :
    exec .qPop s = .next { s with
      freeCount := s.freeCount + 1
      resp := {
        ok := false
        empty := some true
        byte := some (Config.freePopByte s.freeCount)
        tag := some (Config.freePopTag s.freeCount) } } := by
  show execQPop s = _
  rw [execQPop, State.popQueue_of_none h]
  rfl

/-- Settles O22: `queuePop_of_cons` on a queue with an entry, `queuePop_of_nil` on an empty one. -/
theorem popTakesTheOldest : Obligations.PopTakesTheOldest := by
  intro s
  constructor
  · intro e l hlist
    obtain ⟨q, hpop, hcap, hrest⟩ := queuePop_of_cons hlist
    exact ⟨_, exec_qPop_of_some hpop, rfl, sameMemory_of_cfg_mb rfl rfl, hcap, hrest⟩
  · intro hnil
    exact ⟨_, _, exec_qPop_of_none (queuePop_of_nil hnil)⟩

/-- First and Subsequent are the two statuses that retire a byte; the flag says which. -/
def Retires (qs : QueueStatus) (first : Bool) : Prop := qs = .first ∧ first = true ∨ qs = .subsequent ∧ first = false

theorem exec_qStatus_of_some {s : State} {qs : QueueStatus} {f : Bool} (hqs : Retires qs f) {e : QueueEntry} {q : Queue}
    (h : queuePop s.q = some (e, q)) : exec (.qStatus qs) s = .next { s with
      q := q
      resp := { popped := some true, first := some f, byte := some e.byte, tag := some e.tag } } := by
  show execQStatus qs s = _
  rcases hqs with ⟨rfl, rfl⟩ | ⟨rfl, rfl⟩
  all_goals
    simp only [execQStatus, State.queueStatus, State.retire, State.popQueue_of_some h]
    rfl

theorem exec_qStatus_of_none {s : State} {qs : QueueStatus} {f : Bool} (hqs : Retires qs f)
    (h : queuePop s.q = none) : exec (.qStatus qs) s = .next { s with
      flags := { s.flags with queueUnderflow := true }
      freeCount := s.freeCount + 1
      resp := {
        popped := some false
        first := some f
        byte := some (Config.freePopByte s.freeCount)
        tag := some (Config.freePopTag s.freeCount) } } := by
  show execQStatus qs s = _
  rcases hqs with ⟨rfl, rfl⟩ | ⟨rfl, rfl⟩
  all_goals
    simp only [execQStatus, State.queueStatus, State.retire, State.popQueue_of_none h]
    rfl

theorem exec_qStatus_idle (s : State) :
    exec (.qStatus .idle) s = .next { s with resp := { popped := some false, flushed := some false } } := rfl

theorem exec_qStatus_flush (s : State) : exec (.qStatus .flush) s = .next { s with
    q := queueFlush s.q
    resp := { popped := some false, flushed := some true } } := rfl

theorem queueList_queueFlush (q : Queue) : queueList (queueFlush q) = [] := rfl

/-- Settles O24: Idle and Flush by computation, the two retiring statuses by what the pop finds. -/
theorem queueStatusFollowsTheCpu : Obligations.QueueStatusFollowsTheCpu := by
  intro s
  refine ⟨exec_qStatus_idle s, ⟨_, exec_qStatus_flush s, rfl, sameMemory_of_cfg_mb rfl rfl, queueList_queueFlush s.q,
    rfl⟩, fun qs f hqs => ⟨?cons, ?nil⟩⟩
  case cons =>
    intro e l hlist
    obtain ⟨q, hpop, hcap, hrest⟩ := queuePop_of_cons hlist
    exact ⟨_, exec_qStatus_of_some hqs hpop, rfl, sameMemory_of_cfg_mb rfl rfl, hrest, hcap⟩
  case nil =>
    intro hnil
    exact ⟨_, _, exec_qStatus_of_none hqs (queuePop_of_nil hnil)⟩

/-! ### Control -/

theorem capacityOf_capSize (c : QueueCap) : capacityOf (BitVec.ofNat 8 (capSize c)) = some c := by cases c <;> rfl

theorem capacityOf_eq_none {sel : BitVec 8} (h4 : sel ≠ 4) (h6 : sel ≠ 6) : capacityOf sel = none := by
  have h4' : sel.toNat ≠ 4 := fun h => h4 (BitVec.eq_of_toNat_eq h)
  have h6' : sel.toNat ≠ 6 := fun h => h6 (BitVec.eq_of_toNat_eq h)
  unfold capacityOf
  split
  · contradiction
  · contradiction
  · rfl

theorem exec_qReset_of_some {sel : BitVec 8} {c : QueueCap} (s : State) (h : capacityOf sel = some c) :
    exec (.qReset sel) s = .next { s with q := { s.q with cap := c, front := 0, len := 0 }, resp := {} } := by
  show execQReset sel s = _
  rw [execQReset, h]
  rfl

theorem exec_qReset_of_none {sel : BitVec 8} (s : State) (h : capacityOf sel = none) :
    exec (.qReset sel) s = .next { s with resp := { ok := false } } := by
  show execQReset sel s = _
  rw [execQReset, h]
  rfl

theorem exec_qHasRoom (w : BusWidth) (s : State) :
    exec (.qHasRoom (.width w)) s = .next { s with resp := { room := some (hasRoom s.q w) } } := rfl

theorem exec_qHasRoom_code3 (s : State) : exec (.qHasRoom .code3) s = .next { s with resp := { ok := false } } := rfl

theorem exec_qLen (s : State) :
    exec .qLen s = .next { s with resp := { len := some s.q.len, cap := some (capSize s.q.cap) } } := rfl

theorem exec_qFlush (s : State) : exec .qFlush s = .next { s with q := queueFlush s.q, resp := {} } := rfl

theorem widthBytes_eq (w : BusWidth) : widthBytes w = if w = .sixteen then 2 else 1 := by cases w <;> rfl

/-- Settles O25: one rule for each operation. -/
theorem queueControl : Obligations.QueueControl := by
  intro s
  refine ⟨fun c => exec_qReset_of_some s (capacityOf_capSize c),
    fun sel h4 h6 => exec_qReset_of_none s (capacityOf_eq_none h4 h6), fun w => ?_, exec_qHasRoom_code3 s, ?_,
    exec_qFlush s, queueList_queueFlush s.q⟩
  · rw [exec_qHasRoom, hasRoom, widthBytes_eq]
  · rw [exec_qLen, queueList_length]

/-! ### First in, first out -/

/-- What one push or pop moves: what was there and what it accepted is, in order, what it popped and what is left. -/
structure QueueMoved (i : Instr) (s t : State) : Prop where
  cap : t.q.cap = s.q.cap
  entries : queueList s.q ++ acceptedEntries (i, t.resp) = poppedEntries (i, t.resp) ++ queueList t.q
  length : s.q.len ≤ capSize s.q.cap → t.q.len ≤ capSize t.q.cap

theorem queueMoved_refused {i : Instr} (s : State) {r : Response} (n : Nat)
    (ha : acceptedEntries (i, r) = []) (hp : poppedEntries (i, r) = []) :
    QueueMoved i s { s with freeCount := n, resp := r } where
  cap := rfl
  entries := by simp [ha, hp]
  length := id

theorem exec_qPush_moves (d : Word) (g : Tag) (w : WidthCode) (s : State) :
    ∃ t, exec (.qPush d g w) s = .next t ∧ QueueMoved (.qPush d g w) s t := by
  cases w with
  | code3 => exact ⟨_, exec_qPush_code3 d g s, queueMoved_refused s s.freeCount rfl rfl⟩
  | width w =>
    cases hq : queuePush s.q d g w with
    | none => exact ⟨_, exec_qPush_of_none hq, queueMoved_refused s s.freeCount rfl rfl⟩
    | some q =>
      obtain ⟨hroom, hcap, -, hlen, hlist⟩ := queuePush_eq_some hq
      refine ⟨_, exec_qPush_of_some hq, hcap, hlist.symm, fun _ => ?_⟩
      show q.len ≤ capSize q.cap
      rw [hcap, hlen]
      exact (hasRoom_iff s.q w).mp hroom

theorem exec_qPop_moves (s : State) : ∃ t, exec .qPop s = .next t ∧ QueueMoved .qPop s t := by
  cases hp : queuePop s.q with
  | none => exact ⟨_, exec_qPop_of_none hp, queueMoved_refused s (s.freeCount + 1) rfl rfl⟩
  | some x =>
    obtain ⟨e, q⟩ := x
    obtain ⟨hlist, hcap, -, hlen⟩ := queuePop_eq_some hp
    refine ⟨_, exec_qPop_of_some hp, hcap, by simpa [acceptedEntries, poppedEntries] using hlist, fun hle => ?_⟩
    show q.len ≤ capSize q.cap
    rw [hcap]
    omega

theorem exec_moves_of_isPushOrPop {i : Instr} (s : State) (h : isPushOrPop i = true) :
    ∃ t, exec i s = .next t ∧ QueueMoved i s t := by
  cases i <;> try cases h
  case qPush d g w => exact exec_qPush_moves d g w s
  case qPop => exact exec_qPop_moves s

/-- Settles O23, by induction on the run: each operation moves entries in order, and the ends of two moves meet. -/
theorem queueIsFirstInFirstOut : Obligations.QueueIsFirstInFirstOut := by
  intro ops
  induction ops with
  | nil =>
    intro s _
    exact ⟨s, [], rfl, rfl, rfl, by simp, id⟩
  | cons i ops ih =>
    intro s hops
    obtain ⟨hi, hops⟩ := List.forall_mem_cons.mp hops
    obtain ⟨t, hexec, hmoved⟩ := exec_moves_of_isPushOrPop s hi
    obtain ⟨u, rs, hrun, hlen, hcap, hentries, hbound⟩ := ih t hops
    refine ⟨u, t.resp :: rs, by rw [runOperations_cons_of_next ops hexec, hrun]; rfl, by simp [hlen],
      hcap.trans hmoved.cap, ?_, hbound ∘ hmoved.length⟩
    simp only [List.zip_cons_cons, List.flatMap_cons]
    rw [← List.append_assoc, hmoved.entries, List.append_assoc, hentries, List.append_assoc]

end Sys2Proof.Machine
end

section
/-! Proofs of family 43: selection (43_inline_program.md R211, R212), reads by cursor and by address (R213, R215) and
patches (R216, R217), then the law of every run of reads (R219). -/

namespace Sys2Proof

namespace Machine

/-! ### Selection -/

theorem exec_ipSelect_of_le {s : State} (n : ProgName) {l : List Byte} (d : Word) (a : Addr)
    (h : l.length ≤ s.cfg.ipMaxLen) : exec (.ipSelect n l d a) s = .next { s with
      ip := { name := n, buf := l, cursor := 0, fill := d, vectorOffset := a.toNat }, resp := {} } := by
  show execIpSelect n l d a s = _
  rw [execIpSelect, programSelect_of_le (by exact h)]
  rfl

theorem exec_ipSelect_of_lt {s : State} (n : ProgName) {l : List Byte} (d : Word) (a : Addr)
    (h : s.cfg.ipMaxLen < l.length) : exec (.ipSelect n l d a) s = .next { s with resp := { ok := false } } := by
  show execIpSelect n l d a s = _
  rw [execIpSelect, programSelect, if_pos (by exact h)]
  rfl

theorem exec_ipReset (s : State) : exec .ipReset s = .next { s with ip := { s.ip with cursor := 0 }, resp := {} } := rfl

/-- Settles O26: both sides of IP_MAX_LEN, and the reset. -/
theorem programSelectAndReset : Obligations.ProgramSelectAndReset :=
  fun s => ⟨fun n _ d a => ⟨exec_ipSelect_of_le n d a, exec_ipSelect_of_lt n d a⟩, exec_ipReset s⟩

/-! ### Reads by cursor -/

/-- The answer of IP_READ in a state. -/
def programAnswer (s : State) (w : BusWidth) : ProgramRead := programRead s.ip w (Config.freeLane s.freeCount)

theorem exec_ipRead (addr : Addr) (w : BusWidth) (s : State) : exec (.ipRead addr (.width w)) s = .next { s with
    ip := { s.ip with cursor := min (s.ip.cursor + widthBytes w) s.ip.buf.length }
    freeCount := s.freeCount + 1
    resp := {
      data := some (programAnswer s w).data
      nprog := some (programAnswer s w).nprog
      ended := some (programAnswer s w).ended } } := rfl

theorem exec_ipRead_code3 (addr : Addr) (s : State) :
    exec (.ipRead addr .code3) s = .next { s with resp := { ok := false } } := rfl

theorem programRead_isEnded (p : ActiveProgram) (w : BusWidth) (free : Byte) :
    (programRead p w free).ended = decide (p.buf.length ≤ p.cursor) := by
  by_cases h : p.buf.length ≤ p.cursor
  · simp [programRead_ended w free h, h]
  · simp [programRead_inside w free (Nat.lt_of_not_le h), h]

end Machine

open Machine

/-- Settles O27: `programRead_ended` at or past the end, `programRead_inside` before it. -/
theorem programRead : Obligations.ProgramRead := by
  intro addr s
  refine ⟨fun w => ⟨(programAnswer s w).data, (programAnswer s w).nprog, ?exec, ?ended, ?inside⟩,
    exec_ipRead_code3 addr s⟩
  case exec => rw [exec_ipRead, ← programRead_isEnded s.ip w (Config.freeLane s.freeCount)]; rfl
  case ended =>
    intro h
    simp [programAnswer, programRead_ended w _ h]
  case inside =>
    intro b hb
    obtain ⟨hlt, -⟩ := List.getElem?_eq_some_iff.mp hb
    have hnext : ((s.ip.cursor : Int) + 1) = ((s.ip.cursor + 1 : Nat) : Int) := rfl
    rw [programAnswer, programRead_inside w _ hlt]
    refine ⟨rfl, ?_, ?_, ?_⟩
    all_goals
      rintro rfl
      simp only [programWord, lowLane_joinLanes, highLane_joinLanes, hnext, byteOrFill_nat, hb, Option.getD_some]
    exact ⟨trivial, rfl⟩

namespace Machine

/-! ### The law of a run of reads -/

/-- The bytes are those of the program from position `n` on, then fill bytes (43_inline_program.md R219 a, b). -/
def StreamFrom (p : ActiveProgram) (n : Nat) (v : List Byte) : Prop :=
  ∀ (k : Nat) (b : Byte), v[k]? = some b → (∀ c, p.buf[n + k]? = some c → b = c) ∧
    (p.buf.length ≤ n + k → b = lowLane p.fill ∨ b = highLane p.fill)

theorem streamFrom_nil (p : ActiveProgram) (n : Nat) : StreamFrom p n [] := by
  intro k b h
  cases h

theorem streamFrom_singleton {p : ActiveProgram} {n : Nat} {b : Byte} (hin : ∀ c, p.buf[n]? = some c → b = c)
    (hout : p.buf.length ≤ n → b = lowLane p.fill ∨ b = highLane p.fill) : StreamFrom p n [b] := by
  intro k c h
  obtain ⟨rfl, rfl⟩ : k = 0 ∧ b = c := by simpa [List.getElem?_singleton] using h
  exact ⟨hin, hout⟩

theorem StreamFrom.append {p : ActiveProgram} {n : Nat} {v v' : List Byte} (h : StreamFrom p n v)
    (h' : StreamFrom p (n + v.length) v') : StreamFrom p n (v ++ v') := by
  intro k b hb
  by_cases hk : k < v.length
  · rw [List.getElem?_append_left hk] at hb
    exact h k b hb
  · rw [List.getElem?_append_right (Nat.le_of_not_lt hk)] at hb
    have hpos : n + v.length + (k - v.length) = n + k := by omega
    simpa only [hpos] using h' _ b hb

/-- A cursor that stopped at the length stands for every position beyond it. -/
theorem StreamFrom.of_min {p : ActiveProgram} {n : Nat} {v : List Byte}
    (h : StreamFrom p (min n p.buf.length) v) : StreamFrom p n v := by
  by_cases hn : n ≤ p.buf.length
  · rwa [Nat.min_eq_left hn] at h
  · intro k b hb
    have hpast : p.buf.length ≤ n + k := by omega
    rw [List.getElem?_eq_none hpast]
    exact ⟨nofun, fun _ => (h k b hb).2 (by omega)⟩

theorem streamFrom_byteOrFill (p : ActiveProgram) (n : Nat) (l : Lane) : StreamFrom p n [byteOrFill p n l] := by
  rw [byteOrFill_nat]
  apply streamFrom_singleton
  · intro c hc
    simp [hc]
  · intro hn
    rw [List.getElem?_eq_none hn]
    cases l
    · exact .inl rfl
    · exact .inr rfl

/-- The fill word on any lane, at or past the end. -/
theorem streamFrom_fill {p : ActiveProgram} {n : Nat} (w : BusWidth) (h : p.buf.length ≤ n) :
    StreamFrom p n (validLanes w p.fill) := by
  have hlow : ∀ m, p.buf.length ≤ m → StreamFrom p m [lowLane p.fill] := fun m hm =>
    streamFrom_singleton (by rw [List.getElem?_eq_none hm]; exact nofun) (fun _ => .inl rfl)
  have hhigh : ∀ m, p.buf.length ≤ m → StreamFrom p m [highLane p.fill] := fun m hm =>
    streamFrom_singleton (by rw [List.getElem?_eq_none hm]; exact nofun) (fun _ => .inr rfl)
  cases w with
  | eightLow => exact hlow n h
  | eightHigh => exact hhigh n h
  | sixteen => exact (hlow n h).append (hhigh (n + 1) (by omega))

theorem streamFrom_programWord (p : ActiveProgram) (n : Nat) (w : BusWidth) (free : Byte) :
    StreamFrom p n (validLanes w (programWord p n w free)) := by
  cases w with
  | eightLow => simpa [validLanes, programWord] using streamFrom_byteOrFill p n .low
  | eightHigh => simpa [validLanes, programWord] using streamFrom_byteOrFill p n .high
  | sixteen =>
    simpa [validLanes, programWord] using
      (streamFrom_byteOrFill p n .low).append (streamFrom_byteOrFill p (n + 1) .high)

/-- The valid bytes of one read are the stream from the cursor. -/
theorem streamFrom_programRead (p : ActiveProgram) (w : BusWidth) (free : Byte) :
    StreamFrom p p.cursor (validLanes w (programRead p w free).data) := by
  by_cases h : p.buf.length ≤ p.cursor
  · rw [programRead_ended w free h]
    exact streamFrom_fill w h
  · rw [programRead_inside w free (Nat.lt_of_not_le h)]
    exact streamFrom_programWord p p.cursor w free

theorem validLanes_length (w : BusWidth) (d : Word) : (validLanes w d).length = widthBytes w := by cases w <;> rfl

/-- Settles O28, by induction on the run: the bytes of the first read are followed by those of the rest, whose cursor
stands where the first read left it. -/
theorem programReadsAreTheProgram : Obligations.ProgramReadsAreTheProgram := by
  intro ws
  induction ws with
  | nil =>
    intro s hs
    refine ⟨s, [], rfl, ?_, rfl, rfl, rfl, [], rfl, rfl, streamFrom_nil s.ip s.ip.cursor⟩
    simp [Nat.min_eq_left hs]
  | cons x ws ih =>
    intro s hs
    obtain ⟨addr, w⟩ := x
    obtain ⟨t, rs, hrun, hip, hmb, hq, hsrv, v, hv, hlen, hstream⟩ := ih
      { s with
        ip := { s.ip with cursor := min (s.ip.cursor + widthBytes w) s.ip.buf.length }
        freeCount := s.freeCount + 1
        resp := {
          data := some (programAnswer s w).data
          nprog := some (programAnswer s w).nprog
          ended := some (programAnswer s w).ended } } (Nat.min_le_right _ _)
    have hfirst := streamFrom_programRead s.ip w (Config.freeLane s.freeCount)
    have hrest : StreamFrom s.ip (s.ip.cursor + widthBytes w) v := StreamFrom.of_min hstream
    rw [← validLanes_length w (programAnswer s w).data] at hrest
    refine ⟨t, _, by rw [List.map_cons, runOperations_cons_of_next _ (exec_ipRead addr w s), hrun]; rfl, ?_, hmb, hq,
      hsrv, validLanes w (programAnswer s w).data ++ v, ?_, ?_, hfirst.append hrest⟩
    · rw [hip]
      simp only [List.map_cons, List.sum_cons, ActiveProgram.mk.injEq, true_and, and_true]
      omega
    · rw [hv]
      rfl
    · simp [validLanes_length, hlen]

/-! ### Reads by address -/

/-- The answer of IP_READ_AT in a state. -/
def programAnswerAt (s : State) (base addr : Addr) (w : BusWidth) : ProgramRead :=
  programReadAt s.ip (readOffset s.cfg base addr) w (Config.freeLane s.freeCount)

theorem exec_ipReadAt (base addr : Addr) (w : BusWidth) (s : State) :
    exec (.ipReadAt base addr (.width w)) s = .next { s with
      freeCount := s.freeCount + 1
      resp := {
        data := some (programAnswerAt s base addr w).data
        nprog := some (programAnswerAt s base addr w).nprog } } := rfl

theorem exec_ipReadAt_code3 (base addr : Addr) (s : State) :
    exec (.ipReadAt base addr .code3) s = .next { s with resp := { ok := false } } := rfl

section ReadAtRules

variable {p : ActiveProgram} {i : Int} {w : BusWidth} {free : Byte}

theorem programReadAt_of_outside (h : bytesInside p i w = 0) : (programReadAt p i w free).data = p.fill := if_pos h

theorem programReadAt_of_inside (h : bytesInside p i w ≠ 0) :
    (programReadAt p i w free).data = programWord p i w free := if_neg h

theorem bytesInside_eq (p : ActiveProgram) (i : Int) (w : BusWidth) : bytesInside p i w =
    if w = .sixteen then (inProgram p i).toNat + (inProgram p (i + 1)).toNat else (inProgram p i).toNat := by
  cases w <;> rfl

/-- Both lanes of a word read at an offset hold the program's byte there, or the fill byte of the lane. -/
theorem programReadAt_sixteen : (programReadAt p i .sixteen free).data =
    joinLanes (byteOrFill p (i + 1) .high) (byteOrFill p i .low) := by
  by_cases h : bytesInside p i .sixteen = 0
  · rw [programReadAt_of_outside h]
    obtain ⟨h0, h1⟩ : inProgram p i = false ∧ inProgram p (i + 1) = false := by
      simpa [bytesInside, Bool.toNat_eq_zero] using h
    rw [byteOrFill_outside .low h0, byteOrFill_outside .high h1]
    exact (joinLanes_highLane_lowLane p.fill).symm
  · exact programReadAt_of_inside h

/-- At the cursor IP_READ_AT answers the word that IP_READ answers (43_inline_program.md R219 c). -/
theorem programReadAt_cursor (p : ActiveProgram) (w : BusWidth) (free : Byte) :
    (programReadAt p p.cursor w free).data = (programRead p w free).data := by
  by_cases h : p.buf.length ≤ p.cursor
  · have h0 : inProgram p p.cursor = false := by simp [inProgram, h]
    have h1 : inProgram p (p.cursor + 1) = false := by simp only [inProgram, decide_eq_false_iff_not]; omega
    rw [programRead_ended w free h, programReadAt_of_outside (by simp [bytesInside_eq, h0, h1])]
  · have h0 : inProgram p p.cursor = true := by simp only [inProgram, decide_eq_true_iff]; omega
    rw [programRead_inside w free (Nat.lt_of_not_le h), programReadAt_of_inside]
    rw [bytesInside_eq, h0]
    split <;> simp

end ReadAtRules

end Machine

open Machine

/-- Settles O29: each lane is `byteOrFill` at the offset, and the word is the fill word when no byte is inside. -/
theorem programReadAt : Obligations.ProgramReadAt := by
  intro base addr s
  refine ⟨fun w => ⟨_, _, readOffset s.cfg base addr, inProgram s.ip (readOffset s.cfg base addr),
    inProgram s.ip (readOffset s.cfg base addr + 1), exec_ipReadAt base addr w s, rfl, rfl, rfl,
    bytesInside_eq s.ip _ w, programReadAt_of_outside, ?low, ?high, ?sixteen, ?cursor⟩, exec_ipReadAt_code3 base addr s⟩
  case low =>
    rintro rfl hin
    rw [programAnswerAt, programReadAt_of_inside (by simp [bytesInside, hin]), programWord, lowLane_joinLanes]
    exact byteOrFill_inside .low hin
  case high =>
    rintro rfl hin
    rw [programAnswerAt, programReadAt_of_inside (by simp [bytesInside, hin]), programWord, highLane_joinLanes]
    exact byteOrFill_inside .high hin
  case sixteen =>
    rintro rfl
    rw [programAnswerAt, programReadAt_sixteen, lowLane_joinLanes, highLane_joinLanes]
    exact ⟨byteOrFill_inside .low, byteOrFill_outside .low, byteOrFill_inside .high, byteOrFill_outside .high⟩
  case cursor =>
    intro hoff t e ht he
    rw [exec_ipRead] at ht
    cases ht
    cases he
    rw [programAnswerAt, hoff, programReadAt_cursor]
    rfl

namespace Machine

/-! ### Patches -/

theorem exec_ipPatchWord_of_some {s : State} {addr : Addr} {v : Word} {p : ActiveProgram}
    (h : programPatch s.ip addr.toNat v = some p) :
    exec (.ipPatchWord addr v) s = .next { s with ip := p, resp := {} } := by
  show execIpPatchWord addr v s = _
  rw [execIpPatchWord, h]
  rfl

theorem exec_ipPatchWord_of_none {s : State} {addr : Addr} {v : Word} (h : programPatch s.ip addr.toNat v = none) :
    exec (.ipPatchWord addr v) s = .next { s with resp := { ok := false } } := by
  show execIpPatchWord addr v s = _
  rw [execIpPatchWord, h]
  rfl

theorem exec_ipPatchVector_of_some {s : State} {v : Word} {p : ActiveProgram}
    (h : programPatch s.ip s.ip.vectorOffset v = some p) :
    exec (.ipPatchVector v) s = .next { s with ip := p, resp := {} } := by
  show execIpPatchVector v s = _
  rw [execIpPatchVector, h]
  rfl

theorem exec_ipPatchVector_of_none {s : State} {v : Word} (h : programPatch s.ip s.ip.vectorOffset v = none) :
    exec (.ipPatchVector v) s = .next { s with resp := { ok := false } } := by
  show execIpPatchVector v s = _
  rw [execIpPatchVector, h]
  rfl

theorem programPatch_of_le {p : ActiveProgram} {n : Nat} (v : Word) (h : n + 2 ≤ p.buf.length) :
    programPatch p n v = some { p with buf := (p.buf.set n (lowLane v)).set (n + 1) (highLane v) } := if_pos h

/-- Settles O30: `programPatch_eq_some` where the word fits, `programPatch_eq_none` where it does not. -/
theorem programPatches : Obligations.ProgramPatches := by
  intro v s
  refine ⟨fun addr => ⟨?word, fun h => exec_ipPatchWord_of_none (programPatch_eq_none.mpr h)⟩, ?vector,
    fun h => exec_ipPatchVector_of_none (programPatch_eq_none.mpr h)⟩
  case word =>
    intro h
    obtain ⟨-, -, hlen, hlow, hhigh, hrest⟩ := programPatch_eq_some (programPatch_of_le v h)
    exact ⟨_, exec_ipPatchWord_of_some (programPatch_of_le v h), rfl, sameMemory_of_cfg_mb rfl rfl, hlen, hlow, hhigh,
      hrest⟩
  case vector =>
    intro h
    obtain ⟨-, -, hlen, hlow, hhigh, hrest⟩ := programPatch_eq_some (programPatch_of_le v h)
    exact ⟨_, exec_ipPatchVector_of_some (programPatch_of_le v h), rfl, sameMemory_of_cfg_mb rfl rfl, hlen, hlow, hhigh,
      hrest⟩

end Machine

end Sys2Proof
end

section
/-! Proofs of family 44: the command operations (44_memory_backend.md R250 to R253), the bus operations (R254 to R257),
the I/O operations (R258, R259) and the configuration of the backend (R242, R248, R261, R262). -/

namespace Sys2Proof.Machine

open Sys2Proof

/-! ### Bounds, full tables and writes that are dropped -/

section MemoryRules

variable {c : Config} {m : Memory} {a : Nat}

theorem inBounds_eq_false_iff : inBounds c m a = false ↔
    m.variant = .flat ∧ ¬(c.mbFlatBase ≤ a ∧ a < c.mbFlatBase + c.mbFlatSize) := by
  cases hv : m.variant <;> simp [inBounds, hv]

theorem hashFull_iff : hashFull c m a = true ↔
    m.variant = .hash ∧ cellLookup (a / 2) m.hash = none ∧ c.mbHashCap ≤ m.hash.length := by
  cases hv : m.variant <;> simp [hashFull, hv]

theorem memPut_of_null (b : Byte) (h : m.variant = .null) : memPut c m a b = m := by simp [memPut, h]

theorem memPut_of_hashFull (b : Byte) (h : hashFull c m a = true) : memPut c m a b = m := by
  simp [memPut, h, (hashFull_iff.mp h).1]

theorem hashFull_of_null (h : m.variant = .null) : hashFull c m a = false := by simp [hashFull, h]

/-- A write makes room for the rest of its own word, or the word had no room before. -/
theorem hashFull_memPut_of_sameWord {x : Nat} (b : Byte) (h : x / 2 = a / 2) :
    hashFull c (memPut c m a b) x = hashFull c m a := by
  have hword : hashFull c m x = hashFull c m a := by simp [hashFull, h]
  cases hfull : hashFull c m a with
  | true => rw [memPut_of_hashFull b hfull, hword, hfull]
  | false =>
    cases hv : m.variant with
    | null => rw [memPut_of_null b hv, hword, hfull]
    | flat => exact hashFull_of_flat (by simpa using hv) c x
    | hash =>
      have hput : memPut c m a b =
          { m with hash := cellInsert (a / 2) (setByteOfWord a b (hashWord c m (a / 2))) m.hash } := by
        simp [memPut, hv, hfull]
      rw [hput]
      simp [hashFull, hv, h, cellLookup_cellInsert]

theorem two_le_addrSpace (c : Config) : 2 ≤ addrSpace c := by
  unfold addrSpace addrLines
  cases c.addrBits <;> decide

theorem nextAddr_ne (h : a < addrSpace c) : nextAddr c a ≠ a := by
  have h2 := two_le_addrSpace c
  unfold nextAddr
  rcases Nat.lt_or_ge (a + 1) (addrSpace c) with hlt | hge
  · rw [Nat.mod_eq_of_lt hlt]
    omega
  · rw [show a + 1 = addrSpace c by omega, Nat.mod_self]
    omega

/-- The second byte of a word at an even address does not wrap. -/
theorem nextAddr_of_even (h : a < addrSpace c) (heven : a % 2 = 0) : a + 1 < addrSpace c ∧ nextAddr c a = a + 1 := by
  have hspace := addrSpace_even c
  have hlt : a + 1 < addrSpace c := by omega
  exact ⟨hlt, Nat.mod_eq_of_lt hlt⟩

theorem addrOf_parity (c : Config) (x : Addr) : addrOf c x % 2 = x.toNat % 2 :=
  Nat.mod_mod_of_dvd _ (Nat.dvd_of_mod_eq_zero (addrSpace_even c))

end MemoryRules

/-! ### Command reads -/

theorem exec_mbRead8_of_inBounds {s : State} {addr : Addr} (h : inBounds s.cfg s.mb (addrOf s.cfg addr) = true) :
    exec (.mbRead8 addr) s = .next { s with
      resp := { data := some (joinLanes 0 (memGet s.cfg s.mb (addrOf s.cfg addr))) } } := by
  show execMbRead8 addr s = _
  rw [execMbRead8, if_pos h, byteWord_eq]
  rfl

theorem exec_mbRead8_of_outOfBounds {s : State} {addr : Addr} (h : inBounds s.cfg s.mb (addrOf s.cfg addr) = false) :
    exec (.mbRead8 addr) s = .next (raised s .memoryRange) := by
  show execMbRead8 addr s = _
  rw [execMbRead8, if_neg (by simp [h])]
  rfl

theorem exec_mbRead16_of_inBounds {s : State} {addr : Addr} (h : inBounds s.cfg s.mb (addrOf s.cfg addr) = true)
    (h' : inBounds s.cfg s.mb (nextAddr s.cfg (addrOf s.cfg addr)) = true) :
    exec (.mbRead16 addr) s = .next { s with resp := { data := some (joinLanes
      (memGet s.cfg s.mb (nextAddr s.cfg (addrOf s.cfg addr))) (memGet s.cfg s.mb (addrOf s.cfg addr))) } } := by
  show execMbRead16 addr s = _
  rw [execMbRead16, if_pos (by rw [h, h']; rfl)]
  rfl

theorem exec_mbRead16_of_outOfBounds {s : State} {addr : Addr} (h : inBounds s.cfg s.mb (addrOf s.cfg addr) = false ∨
    inBounds s.cfg s.mb (nextAddr s.cfg (addrOf s.cfg addr)) = false) :
    exec (.mbRead16 addr) s = .next (raised s .memoryRange) := by
  show execMbRead16 addr s = _
  rw [execMbRead16, if_neg (by rcases h with h | h <;> simp [h])]
  rfl

/-- Settles O31: one rule for each side of the bounds. -/
theorem commandReads : Obligations.CommandReads := fun addr s =>
  ⟨addrOf s.cfg addr, nextAddr s.cfg (addrOf s.cfg addr), rfl, rfl, exec_mbRead8_of_inBounds,
    exec_mbRead8_of_outOfBounds, exec_mbRead16_of_inBounds, exec_mbRead16_of_outOfBounds, inBounds_eq_false_iff⟩

/-! ### Command writes -/

/-- The state after a command's byte write in bounds: the backend, and `mb_full` where the byte is dropped. -/
def bytePut (s : State) (a : Nat) (b : Byte) : State :=
  { s with
    mb := memPut s.cfg s.mb a b
    flags := { s.flags with mbFull := s.flags.mbFull || hashFull s.cfg s.mb a } }

theorem State.commandPut_eq_bytePut {s : State} {a : Nat} (b : Byte) (h : inBounds s.cfg s.mb a = true) :
    s.commandPut a b = (bytePut s a b, true) := by
  rw [s.commandPut_inBounds a b h, State.flagIf_eq]
  cases hf : hashFull s.cfg s.mb a <;> simp [bytePut, hf, setAnomaly, State.withMb]

theorem exec_mbWrite8 (addr : Addr) (d : Word) (s : State) :
    exec (.mbWrite8 addr d) s = .next (finishedPuts (s.commandPuts (addrOf s.cfg addr) [lowLane d])) :=
  exec_mbSet addr [lowLane d] s

theorem exec_mbWrite16 (addr : Addr) (d : Word) (s : State) :
    exec (.mbWrite16 addr d) s = .next (finishedPuts (s.commandPuts (addrOf s.cfg addr) [lowLane d, highLane d])) :=
  exec_mbSet addr [lowLane d, highLane d] s

section WriteRules

variable {s : State} {a : Nat}

theorem finishedPuts_of_outOfBounds (b : Byte) (l : List Byte) (h : inBounds s.cfg s.mb a = false) :
    finishedPuts (s.commandPuts a (b :: l)) = raised s .memoryRange := by
  rw [State.commandPuts_cons_of_outOfBounds b l h]
  rfl

theorem finishedPuts_one_of_inBounds (b : Byte) (h : inBounds s.cfg s.mb a = true) :
    finishedPuts (s.commandPuts a [b]) = { bytePut s a b with resp := {} } := by
  rw [State.commandPuts_cons_of_inBounds b [] h, State.commandPut_eq_bytePut b h]
  rfl

theorem commandPuts_two_of_inBounds (b b' : Byte) (h : inBounds s.cfg s.mb a = true) :
    s.commandPuts a [b, b'] = (bytePut s a b).commandPuts (nextAddr s.cfg a) [b'] := by
  rw [State.commandPuts_cons_of_inBounds b [b'] h, State.commandPut_eq_bytePut b h]

theorem finishedPuts_two_of_outOfBounds (b b' : Byte) (h : inBounds s.cfg s.mb a = true)
    (h' : inBounds s.cfg s.mb (nextAddr s.cfg a) = false) :
    finishedPuts (s.commandPuts a [b, b']) = raised (bytePut s a b) .memoryRange := by
  rw [commandPuts_two_of_inBounds b b' h]
  exact finishedPuts_of_outOfBounds b' [] (by simpa [bytePut] using h')

theorem finishedPuts_two_of_inBounds (b b' : Byte) (h : inBounds s.cfg s.mb a = true)
    (h' : inBounds s.cfg s.mb (nextAddr s.cfg a) = true) : finishedPuts (s.commandPuts a [b, b']) =
      { bytePut (bytePut s a b) (nextAddr s.cfg a) b' with resp := {} } := by
  rw [commandPuts_two_of_inBounds b b' h]
  exact finishedPuts_one_of_inBounds b' (by simpa [bytePut] using h')

theorem bytePut_flags_of_room (b : Byte) (h : hashFull s.cfg s.mb a = false) : (bytePut s a b).flags = s.flags := by
  simp [bytePut, h]

theorem bytePut_flags_of_full (b : Byte) (h : hashFull s.cfg s.mb a = true) :
    (bytePut s a b).flags = { s.flags with mbFull := true } := by
  simp [bytePut, h]

theorem bytePut_mb_of_full (b : Byte) (h : hashFull s.cfg s.mb a = true) : (bytePut s a b).mb = s.mb :=
  memPut_of_hashFull b h

theorem bytePut_of_null (b : Byte) (h : s.mb.variant = .null) : bytePut s a b = s := by
  simp [bytePut, memPut_of_null b h, hashFull_of_null h]

/-- A byte write is read back, where it is stored. -/
theorem memGet_bytePut_self (b : Byte) (hv : s.mb.variant ≠ .null) (hb : inBounds s.cfg s.mb a = true)
    (hf : hashFull s.cfg s.mb a = false) : memGet s.cfg (bytePut s a b).mb a = b := memGet_memPut_self b hv hb hf

theorem memGet_bytePut_of_ne {x : Nat} (b : Byte) (h : x ≠ a) :
    memGet s.cfg (bytePut s a b).mb x = memGet s.cfg s.mb x := memGet_memPut_of_ne b h

theorem inBounds_bytePut (b : Byte) (x : Nat) : inBounds s.cfg (bytePut s a b).mb x = inBounds s.cfg s.mb x :=
  inBounds_memPut s.cfg s.mb a b x

theorem bytePut_variant (b : Byte) : (bytePut s a b).mb.variant = s.mb.variant := memPut_variant s.cfg s.mb a b

end WriteRules

/-- Settles O32: `raised` out of bounds, `bytePut` in bounds. -/
theorem commandWriteByte : Obligations.CommandWriteByte := by
  intro addr data s
  have hframe := finishedPuts_commandPuts_eq s (addrOf s.cfg addr) [lowLane data]
  have hother : ∀ x, x ∉ [addrOf s.cfg addr] → memGet s.cfg
      (s.commandPuts (addrOf s.cfg addr) [lowLane data]).1.mb x = memGet s.cfg s.mb x :=
    fun x hx => State.memGet_commandPuts_of_notMem [lowLane data] hx
  refine ⟨_, addrOf s.cfg addr, rfl, exec_mbWrite8 addr data s, hframe, fun x hx => by simpa using hother x hx, ?_⟩
  cases hb : inBounds s.cfg s.mb (addrOf s.cfg addr) with
  | false =>
    rw [finishedPuts_of_outOfBounds _ [] hb]
    exact ⟨rfl, rfl, rfl, fun _ => ⟨rfl, rfl, rfl⟩, nofun, hashFull_iff⟩
  | true =>
    rw [finishedPuts_one_of_inBounds _ hb]
    refine ⟨memPut_variant .., memPut_strategy .., memPut_seed .., nofun, fun _ => ⟨rfl, ?null, ?full, ?stored⟩,
      hashFull_iff⟩
    case null =>
      intro hv
      simp [bytePut_of_null _ hv]
    case full => exact fun hf => ⟨bytePut_mb_of_full (lowLane data) hf, bytePut_flags_of_full (lowLane data) hf⟩
    case stored => exact fun hv hf => ⟨memGet_bytePut_self _ hv hb hf, bytePut_flags_of_room (lowLane data) hf⟩

/-- Settles O33: the two byte writes one after the other, each with its own bounds and its own room. -/
theorem commandWriteWord : Obligations.CommandWriteWord := by
  intro addr data s
  have hframe := finishedPuts_commandPuts_eq s (addrOf s.cfg addr) [lowLane data, highLane data]
  have hother : ∀ x, x ∉ [addrOf s.cfg addr, nextAddr s.cfg (addrOf s.cfg addr)] → memGet s.cfg
      (s.commandPuts (addrOf s.cfg addr) [lowLane data, highLane data]).1.mb x = memGet s.cfg s.mb x :=
    fun x hx => State.memGet_commandPuts_of_notMem [lowLane data, highLane data] hx
  refine ⟨_, addrOf s.cfg addr, nextAddr s.cfg (addrOf s.cfg addr), rfl, rfl, exec_mbWrite16 addr data s, hframe,
    fun x hx => by simpa using hother x hx, ?_⟩
  have hne : nextAddr s.cfg (addrOf s.cfg addr) ≠ addrOf s.cfg addr := nextAddr_ne (addrOf_lt s.cfg addr)
  generalize addrOf s.cfg addr = a at hne
  generalize hlo : lowLane data = lo
  generalize hhi : highLane data = hi
  cases hb : inBounds s.cfg s.mb a with
  | false =>
    rw [finishedPuts_of_outOfBounds _ _ hb]
    exact ⟨fun _ => ⟨rfl, rfl, rfl⟩, nofun, nofun⟩
  | true =>
    cases hb' : inBounds s.cfg s.mb (nextAddr s.cfg a) with
    | false =>
      have hflat := variant_of_outOfBounds hb'
      have hroom := hashFull_of_flat hflat s.cfg a
      rw [finishedPuts_two_of_outOfBounds _ _ hb hb']
      refine ⟨nofun, fun _ _ => ⟨memGet_bytePut_self _ (by simp [hflat]) hb hroom, memGet_bytePut_of_ne _ hne, ?_, rfl⟩,
        nofun⟩
      simp [raised, bytePut_flags_of_room lo hroom]
    | true =>
      rw [finishedPuts_two_of_inBounds _ _ hb hb']
      have hb2 : inBounds s.cfg (bytePut s a lo).mb (nextAddr s.cfg a) = true := by rw [inBounds_bytePut, hb']
      have hlow : memGet s.cfg (bytePut (bytePut s a lo) (nextAddr s.cfg a) hi).mb a =
          memGet s.cfg (bytePut s a lo).mb a := memGet_bytePut_of_ne (s := bytePut s a lo) hi hne.symm
      refine ⟨nofun, nofun, fun _ _ => ⟨rfl, ?flags, ?null, ?room, ?full⟩⟩
      case flags =>
        show (bytePut (bytePut s a lo) _ hi).flags = _ ∨ (bytePut (bytePut s a lo) _ hi).flags = _
        cases h1 : hashFull s.cfg s.mb a <;>
          cases h2 : hashFull s.cfg (memPut s.cfg s.mb a lo) (nextAddr s.cfg a) <;> simp [bytePut, h1, h2]
      case null =>
        intro hv
        simp [bytePut_of_null, hv]
      case room =>
        intro hv hroom
        refine ⟨hlow.trans (memGet_bytePut_self _ hv hb hroom), fun h2 => ⟨?_, ?_⟩, fun h2 => ⟨?_, ?_⟩⟩
        · exact memGet_bytePut_self (s := bytePut s a lo) hi (by rwa [bytePut_variant]) hb2 h2
        · exact (bytePut_flags_of_room (s := bytePut s a lo) hi h2).trans (bytePut_flags_of_room lo hroom)
        · show memGet s.cfg (bytePut (bytePut s a lo) _ hi).mb _ = _
          rw [bytePut_mb_of_full (s := bytePut s a lo) hi h2]
          exact memGet_bytePut_of_ne lo hne
        · have hflags := bytePut_flags_of_full (s := bytePut s a lo) hi h2
          rwa [bytePut_flags_of_room lo hroom] at hflags
      case full =>
        intro hfull
        have hmb := bytePut_mb_of_full lo hfull
        refine ⟨?_, hlow.trans (by rw [hmb]), fun h2 => ?_, fun h2 => ?_⟩
        · simp [bytePut, hfull]
        · exact memGet_bytePut_self (s := bytePut s a lo) hi (by simp [hmb, (hashFull_iff.mp hfull).1]) hb2
            (by rw [hmb]; exact h2)
        · show memGet s.cfg (bytePut (bytePut s a lo) _ hi).mb _ = _
          rw [bytePut_mb_of_full (s := bytePut s a lo) hi (by rw [hmb]; exact h2), hmb]

/-! ### Bus accesses, by the width of the transfer -/

/-- The refresh combination moves no byte, a word transfer has an even address, every other transfer moves one byte. -/
theorem transferWidth_cases (addr : Addr) (bhe bus16 : Bool) :
    transferWidth addr bhe bus16 = (.eightLow, false) ∨
    transferWidth addr bhe bus16 = (.sixteen, true) ∧ addr.toNat % 2 = 0 ∨
    transferWidth addr bhe bus16 = (.eightHigh, true) ∨ transferWidth addr bhe bus16 = (.eightLow, true) := by
  rw [transferWidth_eq]
  split_ifs <;> simp_all

theorem exec_mbBusRead (addr : Addr) (bhe bus16 : Bool) (s : State) :
    exec (.mbBusRead addr bhe bus16) s = .next { s with
      flags := if (busAddresses s.cfg addr bhe bus16).any (fun x => !inBounds s.cfg s.mb x) then
        { s.flags with mbRange := true } else s.flags
      freeCount := s.freeCount + 1
      resp := {
        data := some (busReadWord s.cfg s.mb addr bhe bus16 (Config.freeLane s.freeCount))
        width := some (transferWidth addr bhe bus16).1
        valid := some (transferWidth addr bhe bus16).2 } } := by
  show execMbBusRead addr bhe bus16 s = _
  simp only [execMbBusRead, State.busRead]
  rw [State.flagIf_eq]
  rfl

/-- Settles O35: the word and the addresses by the width of the transfer. -/
theorem busRead : Obligations.BusRead := by
  intro addr bhe bus16 s
  refine ⟨busReadWord s.cfg s.mb addr bhe bus16 (Config.freeLane s.freeCount), addrOf s.cfg addr,
    (transferWidth addr bhe bus16).1, (transferWidth addr bhe bus16).2, rfl, rfl, exec_mbBusRead addr bhe bus16 s, ?_⟩
  rcases transferWidth_cases addr bhe bus16 with hw | ⟨hw, heven⟩ | hw | hw
  · simp [busReadWord, busAddresses, hw]
  · obtain ⟨hlt, hnext⟩ := nextAddr_of_even (addrOf_lt s.cfg addr) ((addrOf_parity s.cfg addr).trans heven)
    simp [busReadWord, busAddresses, hw, hnext, hlt, addrOf_parity, heven]
  · simp [busReadWord, busAddresses, hw]
  · simp [busReadWord, busAddresses, hw]

section BusWriteRules

variable {s : State} {addr : Addr} {bhe bus16 : Bool}

theorem State.busWrite_of_refresh (d : Word) (h : transferWidth addr bhe bus16 = (.eightLow, false)) :
    s.busWrite addr bhe bus16 d = s := by
  simp [State.busWrite, h]

theorem State.busWrite_of_high (d : Word) (h : transferWidth addr bhe bus16 = (.eightHigh, true)) :
    s.busWrite addr bhe bus16 d = s.busPut (addrOf s.cfg addr) (highLane d) := by
  simp [State.busWrite, h]

theorem State.busWrite_of_low (d : Word) (h : transferWidth addr bhe bus16 = (.eightLow, true)) :
    s.busWrite addr bhe bus16 d = s.busPut (addrOf s.cfg addr) (lowLane d) := by
  simp [State.busWrite, h]

/-- A word transfer writes the two bytes of one word: its address is even. -/
theorem State.busWrite_of_sixteen (d : Word) (h : transferWidth addr bhe bus16 = (.sixteen, true))
    (heven : addr.toNat % 2 = 0) : s.busWrite addr bhe bus16 d =
      (s.busPut (addrOf s.cfg addr) (lowLane d)).busPut (addrOf s.cfg addr + 1) (highLane d) := by
  obtain ⟨-, hnext⟩ := nextAddr_of_even (addrOf_lt s.cfg addr) ((addrOf_parity s.cfg addr).trans heven)
  simp [State.busWrite, h, hnext]

theorem exec_mbBusWrite (addr : Addr) (bhe bus16 : Bool) (d : Word) (s : State) :
    exec (.mbBusWrite addr bhe bus16 d) s = .next ((s.busWrite addr bhe bus16 d).withResp {}) := rfl

/-- What a bus write does to the backend and its two flags: `l` are its addresses and `a` the first of them, `v` says
whether any lane is valid. -/
structure BusWritten (s t : State) (l : List Nat) (a : Nat) (v : Bool) : Prop where
  others : ∀ x, x ∉ l → memGet s.cfg t.mb x = memGet s.cfg s.mb x
  flags : t.flags = { s.flags with
    mbRange := s.flags.mbRange || l.any fun x => !inBounds s.cfg s.mb x
    mbFull := s.flags.mbFull || (v && hashFull s.cfg s.mb a) }
  dropped : s.mb.variant = .null ∨ hashFull s.cfg s.mb a = true → t.mb = s.mb

/-- One byte put on the bus is a bus write. -/
theorem busWritten_busPut (s : State) (a : Nat) (b : Byte) : BusWritten s (s.busPut a b) [a] a true where
  others x hx := by
    rw [State.busPut_mb]
    exact memGet_memPut_of_ne b (by simpa using hx)
  flags := by rw [State.busPut_flags]; simp
  dropped h := by
    rw [State.busPut_mb]
    rcases h with h | h
    · exact memPut_of_null b h
    · exact memPut_of_hashFull b h

/-- Two bytes of one word put on the bus: the first write decides whether the word has room. -/
theorem busWritten_busPut_two (s : State) {a : Nat} (b b' : Byte) (heven : a % 2 = 0) :
    BusWritten s ((s.busPut a b).busPut (a + 1) b') [a, a + 1] a true where
  others x hx := by
    obtain ⟨hxa, hxl⟩ := List.ne_and_not_mem_of_not_mem_cons hx
    rw [State.busPut_mb, State.busPut_cfg, memGet_memPut_of_ne b' (by simpa using hxl), State.busPut_mb,
      memGet_memPut_of_ne b hxa]
  flags := by
    have hsame := hashFull_memPut_of_sameWord (c := s.cfg) (m := s.mb) b (show (a + 1) / 2 = a / 2 by omega)
    rw [State.busPut_flags, State.busPut_flags, State.busPut_mb, State.busPut_cfg, inBounds_memPut, hsame]
    simp [Bool.or_assoc]
  dropped h := by
    rw [State.busPut_mb, State.busPut_cfg, State.busPut_mb]
    rcases h with h | h
    · rw [memPut_of_null b h, memPut_of_null b' h]
    · have hsame := hashFull_memPut_of_sameWord (c := s.cfg) (m := s.mb) b (show (a + 1) / 2 = a / 2 by omega)
      rw [memPut_of_hashFull b' (hsame.trans h), memPut_of_hashFull b h]

theorem State.busWritten_busWrite (s : State) (addr : Addr) (bhe bus16 : Bool) (d : Word) :
    BusWritten s (s.busWrite addr bhe bus16 d) (busAddresses s.cfg addr bhe bus16) (addrOf s.cfg addr)
      (transferWidth addr bhe bus16).2 := by
  rcases transferWidth_cases addr bhe bus16 with hw | ⟨hw, heven⟩ | hw | hw
  · rw [State.busWrite_of_refresh d hw, hw]
    exact ⟨fun _ _ => rfl, by simp [busAddresses, hw], fun _ => rfl⟩
  · have heven' := (addrOf_parity s.cfg addr).trans heven
    obtain ⟨-, hnext⟩ := nextAddr_of_even (addrOf_lt s.cfg addr) heven'
    rw [State.busWrite_of_sixteen d hw heven, hw, busAddresses, hw]
    simp only [hnext]
    exact busWritten_busPut_two s _ _ heven'
  · rw [State.busWrite_of_high d hw, hw, busAddresses, hw]
    exact busWritten_busPut s _ _
  · rw [State.busWrite_of_low d hw, hw, busAddresses, hw]
    exact busWritten_busPut s _ _

/-- A byte put on the bus is read back, where it is stored. -/
theorem memGet_busPut_self {a : Nat} (b : Byte) (hv : s.mb.variant ≠ .null) (hf : hashFull s.cfg s.mb a = false)
    (hb : inBounds s.cfg s.mb a = true) : memGet s.cfg (s.busPut a b).mb a = b := by
  rw [State.busPut_mb]
  exact memGet_memPut_self b hv hb hf

/-- Both bytes of a word put on the bus are read back, each where it is in bounds. -/
theorem memGet_busPut_two {a : Nat} (b b' : Byte) (heven : a % 2 = 0) (hv : s.mb.variant ≠ .null)
    (hf : hashFull s.cfg s.mb a = false) :
    (inBounds s.cfg s.mb a = true → memGet s.cfg ((s.busPut a b).busPut (a + 1) b').mb a = b) ∧
    (inBounds s.cfg s.mb (a + 1) = true → memGet s.cfg ((s.busPut a b).busPut (a + 1) b').mb (a + 1) = b') := by
  have hsame := hashFull_memPut_of_sameWord (c := s.cfg) (m := s.mb) b (show (a + 1) / 2 = a / 2 by omega)
  simp only [State.busPut_mb, State.busPut_cfg]
  constructor
  · intro hb
    rw [memGet_memPut_of_ne b' (by omega), memGet_memPut_self b hv hb hf]
  · intro hb
    exact memGet_memPut_self b' (by simpa using hv) (by simpa using hb) (hsame.trans hf)

end BusWriteRules

/-- Settles O36: `BusWritten` for what is changed and what is left, and the bytes read back by the width. -/
theorem busWrite : Obligations.BusWrite := by
  intro addr bhe bus16 data s
  have hwritten := s.busWritten_busWrite addr bhe bus16 data
  have hcfg : (s.busWrite addr bhe bus16 data).cfg = s.cfg := by rw [State.busWrite_eq]
  refine ⟨_, addrOf s.cfg addr, (transferWidth addr bhe bus16).1, (transferWidth addr bhe bus16).2, rfl, rfl,
    exec_mbBusWrite addr bhe bus16 data s, ?frame, ?flags, ?others, ?range,
    ?refresh, ?full, hashFull_iff, hwritten.dropped, ?stored⟩
  case frame =>
    rw [State.busWrite_eq]
    rfl
  case flags => simp [hwritten.flags]
  case others =>
    intro x hx
    simpa [hcfg] using hwritten.others x hx
  case range => simp [hwritten.flags]
  case refresh =>
    intro hv
    rcases transferWidth_cases addr bhe bus16 with hw | ⟨hw, -⟩ | hw | hw
    · rw [State.busWrite_of_refresh data hw]
      exact ⟨rfl, rfl⟩
    all_goals
      rw [hw] at hv
      cases hv
  case full => simp [hwritten.flags]
  case stored =>
    intro hnull hroom
    simp only [State.withResp_cfg, State.withResp_mb, hcfg]
    rcases transferWidth_cases addr bhe bus16 with hw | ⟨hw, heven⟩ | hw | hw <;> rw [hw]
    · exact ⟨nofun, nofun, nofun⟩
    · rw [State.busWrite_of_sixteen data hw heven]
      exact ⟨fun _ _ => memGet_busPut_two _ _ ((addrOf_parity s.cfg addr).trans heven) hnull hroom, nofun, nofun⟩
    · rw [State.busWrite_of_high data hw]
      exact ⟨nofun, fun _ _ => memGet_busPut_self _ hnull hroom, nofun⟩
    · rw [State.busWrite_of_low data hw]
      exact ⟨nofun, nofun, fun _ _ => memGet_busPut_self _ hnull hroom⟩

/-! ### I/O -/

theorem exec_mbIoRead (addr : Addr) (w : BusWidth) (s : State) :
    exec (.mbIoRead addr (.width w)) s = .next { s with resp := { data := some (ioReadWord s.mb) } } := rfl

theorem ioReadWord_of_null {m : Memory} (h : m.variant = .null) : ioReadWord m = 0x0000 := by simp [ioReadWord, h]

theorem ioReadWord_of_not_null {m : Memory} (h : m.variant ≠ .null) : ioReadWord m = 0xFFFF := by
  cases hv : m.variant <;> simp_all [ioReadWord]

theorem exec_mbIoWrite (addr : Addr) (w : BusWidth) (d : Word) (s : State) :
    exec (.mbIoWrite addr (.width w) d) s = .next { s with resp := {} } := rfl

/-- Settles O37: the word read is `ioReadWord`, and the rest is by computation. -/
theorem ioPorts : Obligations.IoPorts := by
  intro addr data s
  refine ⟨fun w => ⟨fun h => ?_, fun h => ?_, exec_mbIoWrite addr w data s⟩, rfl, rfl⟩
  · rw [exec_mbIoRead, ioReadWord_of_null h]
  · rw [exec_mbIoRead, ioReadWord_of_not_null h]

/-! ### Erase, default and select -/

theorem exec_mbErase (s : State) : exec .mbErase s = .next { s with mb := memErase s.mb, resp := {} } := rfl

theorem exec_mbSetDefault_of_some {sel : BitVec 8} {g : Strategy} (seed : BitVec 32) (s : State)
    (h : strategyOf sel = some g) : exec (.mbSetDefault sel seed) s =
      .next { s with mb := { s.mb with strategy := g, seed := seed }, resp := {} } := by
  show execMbSetDefault sel seed s = _
  rw [execMbSetDefault, h]
  rfl

theorem exec_mbSetDefault_of_none {sel : BitVec 8} (seed : BitVec 32) (s : State) (h : strategyOf sel = none) :
    exec (.mbSetDefault sel seed) s = .next { s with resp := { ok := false } } := by
  show execMbSetDefault sel seed s = _
  rw [execMbSetDefault, h]
  rfl

theorem exec_mbSelect_of_some {sel : BitVec 8} {v : MbVariant} (s : State) (h : variantOf sel = some v) :
    exec (.mbSelect sel) s = .next { s with mb := memErase { s.mb with variant := v }, resp := {} } := by
  show execMbSelect sel s = _
  rw [execMbSelect, h]
  rfl

theorem exec_mbSelect_of_none {sel : BitVec 8} (s : State) (h : variantOf sel = none) :
    exec (.mbSelect sel) s = .next { s with resp := { ok := false } } := by
  show execMbSelect sel s = _
  rw [execMbSelect, h]
  rfl

theorem strategyOf_of_le {sel : BitVec 8} (h : 3 ≤ sel.toNat) : strategyOf sel = none := by
  unfold strategyOf
  split
  · omega
  · omega
  · omega
  · rfl

theorem variantOf_of_le {sel : BitVec 8} (h : 3 ≤ sel.toNat) : variantOf sel = none := by
  unfold variantOf
  split
  · omega
  · omega
  · omega
  · rfl

section EraseRules

variable (c : Config) (m : Memory)

theorem memErase_of_null {m : Memory} (h : m.variant = .null) : memErase m = m := by simp [memErase, h]

theorem memErase_of_flat {m : Memory} (h : m.variant = .flat) : memErase m = { m with flat := [] } := by
  simp [memErase, h]

theorem memErase_of_hash {m : Memory} (h : m.variant = .hash) : memErase m = { m with hash := [] } := by
  simp [memErase, h]

@[simp] theorem memErase_variant : (memErase m).variant = m.variant := by cases hv : m.variant <;> simp [memErase, hv]
@[simp] theorem memErase_strategy : (memErase m).strategy = m.strategy := by
  cases hv : m.variant <;> simp [memErase, hv]
@[simp] theorem memErase_seed : (memErase m).seed = m.seed := by cases hv : m.variant <;> simp [memErase, hv]

/-- The default depends on the strategy and the seed alone. -/
theorem defaultByte_congr {m m' : Memory} (hg : m'.strategy = m.strategy) (hs : m'.seed = m.seed) (a : Nat) :
    defaultByte c m' a = defaultByte c m a := by
  simp [defaultByte, defaultWord, hg, hs]

theorem memGet_of_null {m : Memory} (h : m.variant = .null) (a : Nat) : memGet c m a = 0 := by simp [memGet, h]

/-- An element of the flat array that is not written, or is not there, reads its default. -/
theorem memGet_of_flat_unwritten {m : Memory} {a : Nat} (h : m.variant = .flat)
    (hn : inBounds c m a = true → cellLookup (a - c.mbFlatBase) m.flat = none) : memGet c m a = defaultByte c m a := by
  simp only [memGet, h]
  split
  · rename_i hb
    rw [hn hb]
    rfl
  · rfl

/-- A word that is not allocated reads its default. -/
theorem memGet_of_hash_unwritten {m : Memory} {a : Nat} (h : m.variant = .hash)
    (hn : cellLookup (a / 2) m.hash = none) : memGet c m a = defaultByte c m a := by
  simp [memGet, h, hashWord, hn, defaultByte]

theorem memGet_memErase (a : Nat) :
    memGet c (memErase m) a = if m.variant = .null then 0 else defaultByte c m a := by
  rw [← defaultByte_congr c (memErase_strategy m) (memErase_seed m)]
  cases hv : m.variant with
  | null => exact memGet_of_null c (by simp [hv]) a
  | flat => exact memGet_of_flat_unwritten c (by simp [hv]) (by simp [memErase_of_flat hv, cellLookup])
  | hash => exact memGet_of_hash_unwritten c (by simp [hv]) (by simp [memErase_of_hash hv, cellLookup])

theorem defaultByte_of_zero {m : Memory} (h : m.strategy = .zero) (a : Nat) : defaultByte c m a = 0x00 := by
  simp only [defaultByte, defaultWord, h, byteOfWord]
  split <;> rfl

theorem defaultByte_of_ones {m : Memory} (h : m.strategy = .ones) (a : Nat) : defaultByte c m a = 0xFF := by
  simp only [defaultByte, defaultWord, h, byteOfWord]
  split <;> rfl

theorem defaultByte_of_random {m : Memory} (h : m.strategy = .random) (a : Nat) : defaultByte c m a =
    if a % 2 = 0 then lowLane (avalanche c m.seed (BitVec.ofNat 32 (a / 2)))
    else highLane (avalanche c m.seed (BitVec.ofNat 32 (a / 2))) := by
  simp only [defaultByte, defaultWord, h, byteOfWord]

end EraseRules

/-- Settles O38: an erased backend reads its default (`memGet_memErase`), and the default goes by the strategy. -/
theorem eraseDefaultAndSelect : Obligations.EraseDefaultAndSelect := by
  intro s
  refine ⟨⟨_, exec_mbErase s, rfl, memErase_variant s.mb, memErase_strategy s.mb, memErase_seed s.mb, memErase_of_null,
      memErase_of_flat, memErase_of_hash, memGet_memErase s.cfg s.mb⟩, ?setDefault,
    fun sel seed h => exec_mbSetDefault_of_none seed s (strategyOf_of_le h), ?select,
    fun sel h => exec_mbSelect_of_none s (variantOf_of_le h), fun a => ⟨fun h => defaultByte_of_zero s.cfg h a,
      fun h => defaultByte_of_ones s.cfg h a, fun h => defaultByte_of_random s.cfg h a, memGet_of_hash_unwritten s.cfg,
      memGet_of_flat_unwritten s.cfg, fun h => memGet_of_null s.cfg h a⟩⟩
  case setDefault =>
    rintro sel seed g (⟨rfl, rfl⟩ | ⟨rfl, rfl⟩ | ⟨rfl, rfl⟩)
    all_goals exact exec_mbSetDefault_of_some seed s rfl
  case select =>
    intro sel v hsel
    have hv : variantOf sel = some v := by rcases hsel with ⟨rfl, rfl⟩ | ⟨rfl, rfl⟩ | ⟨rfl, rfl⟩ <;> rfl
    exact ⟨_, exec_mbSelect_of_some s hv, rfl, memErase_of_null (m := { s.mb with variant := v }),
      memErase_of_flat (m := { s.mb with variant := v }), memErase_of_hash (m := { s.mb with variant := v }),
      memGet_memErase s.cfg { s.mb with variant := v }⟩

end Sys2Proof.Machine
end

section
/-! Proofs of family 45: the log (45_bus_log.md R290 to R296) and the accesses of the BusEmulator (R298, R300, R301). -/

namespace Sys2Proof.Machine

open Sys2Proof

/-! ### One rule for each operation of the log -/

section LogRules

variable {s : State} {k : BusStatus}

theorem State.appendLog_of_active (s : State) {o : BusOperation} (h : o.kind ≠ .passive) :
    s.appendLog o = { s with log := logAppended s.log o } := by
  rw [State.appendLog_eq, if_neg h]

theorem exec_logAppend_of_active (w : WidthCode) (addr : Addr) (d : Word) (s : State) (h : k ≠ .passive) :
    exec (.logAppend k w addr d) s = .next { s with
      log := logAppended s.log ⟨k, w, maskAddr s.cfg addr, d⟩
      resp := {} } := by
  show execLogAppend k w addr d s = _
  rw [execLogAppend, if_neg h, State.appendLog_of_active s h]
  rfl

theorem exec_logAppend_passive (w : WidthCode) (addr : Addr) (d : Word) (s : State) :
    exec (.logAppend .passive w addr d) s = .next { s with resp := { ok := false } } := rfl

theorem exec_logRead_of_some {addr : Addr} {e : BusOperation} (h : (logList s.log)[addr.toNat]? = some e) :
    exec (.logRead addr) s = .next { s with resp := { entry := some e } } := by
  rw [logList_getElem?] at h
  show execLogRead addr s = _
  rw [execLogRead, h]
  rfl

theorem exec_logRead_of_le {addr : Addr} (h : s.log.count ≤ addr.toNat) :
    exec (.logRead addr) s = .next { s with resp := { ok := false } } := by
  show execLogRead addr s = _
  rw [execLogRead, logEntry_eq, if_neg (Nat.not_lt.mpr h)]
  rfl

theorem exec_logClear (s : State) : exec .logClear s = .next { s with log := logCleared s.log, resp := {} } := rfl

theorem exec_logStatus (s : State) : exec .logStatus s = .next { s with
    resp := { count := some s.log.count, overflow := some s.log.overflow, hint := some s.log.farCallHint } } := rfl

theorem isWrite_iff : isWrite k = true ↔ k = .memWrite ∨ k = .ioWrite := by
  cases k <;> simp [isWrite]

end LogRules

/-- Settles O39: the entry appended is the last of the list (`logList_logAppended`), the counters by computation. -/
theorem logAppend : Obligations.LogAppend := by
  intro k w addr d s
  refine ⟨?_, fun hk hlog => ⟨_, exec_logAppend_of_active w addr d s hk, rfl, sameMemory_of_cfg_mb rfl rfl,
    logList_logAppended _ hlog.count_le, rfl, ?wr, ?overflow, ?run, rfl⟩⟩
  · rintro rfl
    exact exec_logAppend_passive w addr d s
  case wr => exact BitVec.toNat_add s.log.wr 1
  case overflow => rfl
  case run => simp [logAppended, nextWriteRun, isWrite_iff]

/-- Settles O40: the list of the log is the ring read from its oldest entry (`logIndex_toNat`). -/
theorem logReadStatusClear : Obligations.LogReadStatusClear := by
  intro addr s
  refine ⟨logList_length s.log, ?slot, fun e => exec_logRead_of_some, exec_logRead_of_le, exec_logStatus s,
    ⟨_, exec_logClear s, rfl, sameMemory_of_cfg_mb rfl rfl, logList_logCleared s.log, rfl⟩⟩
  case slot =>
    intro i hi
    have hidx := logIndex_toNat s.log i
    rw [logList_getElem?, logEntry_eq, if_pos hi, Vector.getElem?_eq_getElem (Nat.mod_lt _ (by decide)), logAt,
      Vector.get_eq_getElem]
    congr 2

/-! ### The log over a run of appends -/

/-- The writes that end a list of operations. -/
def endingWrites (l : List BusOperation) : Nat := (l.reverse.takeWhile fun o => isWrite o.kind).length

theorem endingWrites_concat (l : List BusOperation) (o : BusOperation) :
    endingWrites (l ++ [o]) = nextWriteRun o.kind (endingWrites l) := by
  unfold endingWrites nextWriteRun
  cases h : isWrite o.kind <;> simp [h]

theorem le_length_takeWhile_iff {α : Type} (p : α → Bool) (n : Nat) (l : List α) :
    n ≤ (l.takeWhile p).length ↔ n ≤ l.length ∧ ∀ x ∈ l.take n, p x = true := by
  induction l generalizing n with
  | nil => simp
  | cons a l ih =>
    cases n with
    | zero => simp
    | succ n =>
      cases h : p a
      · simp [h]
      · simp [h, ih]

theorem le_endingWrites_iff (n : Nat) (l : List BusOperation) :
    n ≤ endingWrites l ↔ n ≤ l.length ∧ ∀ o ∈ l.drop (l.length - n), o.kind = .memWrite ∨ o.kind = .ioWrite := by
  rw [endingWrites, le_length_takeWhile_iff, List.take_reverse]
  simp [isWrite_iff]

/-- What the log says when the operations `l` have been appended to an empty one. -/
structure LogHolds (g : BusLog) (l : List BusOperation) : Prop where
  list : logList g = l.drop (l.length - 256)
  overflow : g.overflow = decide (256 < l.length)
  writeRun : g.writeRun = endingWrites l
  hint : g.farCallHint = decide (3 ≤ endingWrites l)

theorem logHolds_logCleared (g : BusLog) : LogHolds (logCleared g) [] := ⟨rfl, rfl, rfl, rfl⟩

theorem LogHolds.count {g : BusLog} {l : List BusOperation} (h : LogHolds g l) : g.count = min l.length 256 := by
  rw [← logList_length, h.list, List.length_drop]
  omega

theorem LogHolds.append {g : BusLog} {l : List BusOperation} (h : LogHolds g l) (o : BusOperation) :
    LogHolds (logAppended g o) (l ++ [o]) where
  list := by
    have hcount := h.count
    rw [logList_logAppended o (by omega), h.list, List.tail_drop, List.length_append, List.length_singleton]
    by_cases hfull : 256 ≤ l.length
    · rw [if_pos (by omega), List.drop_append_of_le_length (by omega),
        show l.length + 1 - 256 = l.length - 256 + 1 by omega]
    · rw [if_neg (by omega), List.drop_append_of_le_length (by omega),
        show l.length + 1 - 256 = l.length - 256 by omega]
  overflow := by
    have hcount := h.count
    show (g.overflow || g.count == 256) = _
    rw [h.overflow, Bool.eq_iff_iff]
    simp only [Bool.or_eq_true, decide_eq_true_eq, beq_iff_eq, List.length_append, List.length_singleton]
    omega
  writeRun := by
    rw [endingWrites_concat, ← h.writeRun]
    rfl
  hint := by
    rw [endingWrites_concat, ← h.writeRun]
    rfl

theorem LogHolds.foldl {g : BusLog} {l : List BusOperation} (h : LogHolds g l) (os : List BusOperation) :
    LogHolds (os.foldl logAppended g) (l ++ os) := by
  induction os generalizing g l with
  | nil => simpa using h
  | cons o os ih => simpa using ih (h.append o)

/-- The entry LOG_APPEND makes of an operation: its address is reduced. -/
def masked (c : Config) (o : BusOperation) : BusOperation := { o with address := maskAddr c o.address }

/-- A run of appends from a state that answered nothing leaves each operation's entry in the log, one after the
other. -/
theorem runOperations_logAppend (l : List BusOperation) {s : State} (hresp : s.resp = {})
    (hl : ∀ o ∈ l, o.kind ≠ .passive) :
    ∃ rs, runOperations (l.map fun o => .logAppend o.kind o.width o.address o.data) s =
      some ({ s with log := (l.map (masked s.cfg)).foldl logAppended s.log, resp := {} }, rs) := by
  induction l generalizing s with
  | nil => exact ⟨[], by rw [← hresp]; rfl⟩
  | cons o l ih =>
    obtain ⟨ho, hl⟩ := List.forall_mem_cons.mp hl
    obtain ⟨rs, hrs⟩ := ih (s := { s with log := logAppended s.log (masked s.cfg o), resp := {} }) rfl hl
    rw [List.map_cons, runOperations_cons_of_next _ (exec_logAppend_of_active o.width o.address o.data s ho)]
    exact ⟨{} :: rs, congrArg (Option.map fun r => (r.1, {} :: r.2)) hrs⟩

/-- Settles O41: the cleared log holds nothing, and each append keeps the account of what was appended (`LogHolds`). -/
theorem logKeepsTheLast256 : Obligations.LogKeepsTheLast256 := by
  intro l s hl
  obtain ⟨rs, hrun⟩ :=
    runOperations_logAppend l (s := { s with log := logCleared s.log, resp := {} }) rfl hl
  have hholds := (logHolds_logCleared s.log).foldl (l.map (masked s.cfg))
  refine ⟨_, _, by rw [runOperations_cons_of_next _ (exec_logClear s), hrun]; rfl, rfl, ?list, ?overflow, ?hint⟩
  case list =>
    show logList ((l.map (masked s.cfg)).foldl logAppended (logCleared s.log)) = _
    rw [hholds.list, List.nil_append, List.length_map, ← List.map_drop]
    rfl
  case overflow => simpa using hholds.overflow
  case hint =>
    show ((l.map (masked s.cfg)).foldl logAppended (logCleared s.log)).farCallHint = true ↔ _
    rw [hholds.hint, decide_eq_true_eq, le_endingWrites_iff, List.nil_append, List.length_map, ← List.map_drop,
      List.forall_mem_map]
    rfl

/-! ### Accesses of the BusEmulator -/

section AccessRules

variable {k : BusStatus} {s : State} {addr : Addr} {bhe bus16 : Bool}

theorem exec_beRead_of_memoryRead (h : k = .code ∨ k = .memRead) : exec (.beRead k addr bhe bus16) s = .next { s with
    flags := if (busAddresses s.cfg addr bhe bus16).any (fun x => !inBounds s.cfg s.mb x) then
        { s.flags with mbRange := true } else s.flags
    freeCount := s.freeCount + 1
    log := logAppended s.log (accessEntry s.cfg k addr (transferWidth addr bhe bus16)
      (busReadWord s.cfg s.mb addr bhe bus16 (Config.freeLane s.freeCount)))
    resp := {
      data := some (busReadWord s.cfg s.mb addr bhe bus16 (Config.freeLane s.freeCount))
      width := some (transferWidth addr bhe bus16).1
      valid := some (transferWidth addr bhe bus16).2 } } := by
  rcases h with rfl | rfl <;>
  · simp only [exec, execBeRead, State.busRead]
    rw [State.flagIf_eq, State.appendLog_of_active _ (by nofun)]
    rfl

theorem exec_beRead_of_ioRead (h : k = .ioRead ∨ k = .irqAck) : exec (.beRead k addr bhe bus16) s = .next { s with
    log := logAppended s.log (accessEntry s.cfg k addr (transferWidth addr bhe bus16) (ioReadWord s.mb))
    resp := {
      data := some (ioReadWord s.mb)
      width := some (transferWidth addr bhe bus16).1
      valid := some (transferWidth addr bhe bus16).2 } } := by
  rcases h with rfl | rfl <;> rfl

theorem exec_beRead_of_noRead (h : k = .ioWrite ∨ k = .halt ∨ k = .memWrite ∨ k = .passive) :
    exec (.beRead k addr bhe bus16) s = .next { s with resp := { ok := false } } := by
  rcases h with rfl | rfl | rfl | rfl <;> rfl

theorem exec_beWrite_memWrite (d : Word) : exec (.beWrite .memWrite addr bhe bus16 d) s =
    .next { s.busWrite addr bhe bus16 d with
      log := logAppended (s.busWrite addr bhe bus16 d).log
        (accessEntry (s.busWrite addr bhe bus16 d).cfg .memWrite addr (transferWidth addr bhe bus16) d)
      resp := {} } := by
  have hcfg : (s.busWrite addr bhe bus16 d).cfg = s.cfg := by rw [State.busWrite_eq]
  rw [hcfg]
  rfl

theorem exec_beWrite_ioWrite (d : Word) : exec (.beWrite .ioWrite addr bhe bus16 d) s = .next { s with
    log := logAppended s.log (accessEntry s.cfg .ioWrite addr (transferWidth addr bhe bus16) d)
    resp := {} } := rfl

theorem exec_beWrite_of_noWrite (d : Word)
    (h : k = .irqAck ∨ k = .ioRead ∨ k = .halt ∨ k = .code ∨ k = .memRead ∨ k = .passive) :
    exec (.beWrite k addr bhe bus16 d) s = .next { s with resp := { ok := false } } := by
  rcases h with rfl | rfl | rfl | rfl | rfl | rfl <;> rfl

end AccessRules

/-- Settles O42: the rule of each kind of access against the rules of the backend operation and of LOG_APPEND. -/
theorem busEmulatorAccesses : Obligations.BusEmulatorAccesses := by
  intro k addr bhe bus16 data s
  refine ⟨(transferWidth addr bhe bus16).1, (transferWidth addr bhe bus16).2,
    loggedWidth (transferWidth addr bhe bus16).1 (transferWidth addr bhe bus16).2, rfl,
    fun hv => by rw [hv]; rfl, fun hv => by rw [hv]; rfl, ?memoryRead, ?ioRead, exec_beRead_of_noRead, ?memWrite,
    ?ioWrite, exec_beWrite_of_noWrite data⟩
  case memoryRead =>
    intro hk
    have hactive : k ≠ .passive := by rcases hk with rfl | rfl <;> nofun
    exact ⟨_, _, _, _, exec_beRead_of_memoryRead hk, exec_mbBusRead addr bhe bus16 s, rfl,
      exec_logAppend_of_active _ addr _ _ hactive, rfl⟩
  case ioRead =>
    intro hk
    have hactive : k ≠ .passive := by rcases hk with rfl | rfl <;> nofun
    exact ⟨_, _, _, _, exec_beRead_of_ioRead hk, exec_mbIoRead addr _ s, rfl,
      exec_logAppend_of_active _ addr _ _ hactive, rfl⟩
  case memWrite =>
    rintro rfl
    exact ⟨_, _, exec_beWrite_memWrite data, exec_mbBusWrite addr bhe bus16 data s,
      exec_logAppend_of_active _ addr data _ (by nofun)⟩
  case ioWrite =>
    rintro rfl
    exact ⟨_, exec_beWrite_ioWrite data, exec_logAppend_of_active _ addr data s (by nofun)⟩

end Sys2Proof.Machine
end

section
/-! Proofs of reset: power-on and SRV_RESET (10_state.md R45, 46_phase_sequencer.md R340, 70_reset_and_hazards.md R420,
R421). -/

namespace Sys2Proof.Machine

open Sys2Proof

/-- Settles O6: every field of the power-on state by computation. -/
theorem powerOnValues : Obligations.PowerOnValues := by
  intro c
  refine ⟨State.powerOn c, rfl, rfl, rfl, rfl, rfl, rfl, rfl, rfl, rfl, rfl, rfl, ?_, rfl, rfl, rfl, rfl, rfl, rfl⟩
  rintro rfl
  rfl

theorem exec_srvReset (b : Bool) (sel : BitVec 8) (s : State) : exec (.srvReset b sel) s =
    .next { s.hostReset b (sel.getLsbD 0) with resp := { state := some .reset } } := rfl

/-- Settles O7: SRV_RESET is `State.hostReset` with the phase in its response. -/
theorem hostReset : Obligations.HostReset := by
  intro b sel s
  refine ⟨_, exec_srvReset b sel s, rfl, rfl, rfl, rfl, fun h => ?_, fun e h => ?_, ?_, rfl, rfl, rfl, rfl, rfl, rfl,
    rfl, rfl, rfl, rfl, ?_⟩
  · simp [State.hostReset, endStrategyAtReset, h]
  · simp [State.hostReset, endStrategyAtReset, h]
  · cases b <;> rfl
  · exact fun a => rfl

theorem serverOk_powerOn {c : Config} (hb : c.bus16 = false) (hq : c.qsAvail = false) : ServerOk c Server.powerOn where
  budget := nofun
  nmi := nofun
  armed := nofun
  success := by simp [Server.powerOn]
  detected := ⟨hb.symm, hq.symm⟩
  vendor := fun _ => rfl
  smi := rfl
  stalled := nofun

theorem State.powerOn_inv {c : Config} (h : c.wellFormed = true) : (State.powerOn c).Inv where
  config := h
  queue := queueOk_powerOn .four
  program := ⟨Nat.zero_le _, Nat.zero_le _⟩
  memory := Memory.powerOn_wf c _
  log := logOk_powerOn
  busCycle := busCycleOk_powerOn _
  controller := controllerOk_powerOn
  server := serverOk_powerOn rfl rfl

/-- Settles O8: each part of the invariant at its power-on value. -/
theorem powerOnMeetsTheInvariant : Obligations.PowerOnMeetsTheInvariant :=
  ⟨fun _ h => State.powerOn_inv h, State.powerOn_inv (by decide)⟩

end Sys2Proof.Machine
end

section
/-! What each operation on a component keeps (10_state.md R42, 60_exceptions.md R381, R384, R385): the operations of
families 40 to 45 each change some components and the response alone, record what they raise, keep every anomaly flag
that is set, and keep each component's part of the invariant. -/

namespace Sys2Proof.Machine

open Sys2Proof

/-! ### Flags that are kept, answers that are recorded -/

/-- Every anomaly flag that is set stays set, and the last error stays. -/
def FlagsKept (f f' : Anomalies) : Prop :=
  (∀ a, anomalySet f a = true → anomalySet f' a = true) ∧ f'.lastError = f.lastError

theorem FlagsKept.refl (f : Anomalies) : FlagsKept f f := ⟨fun _ => id, rfl⟩

theorem FlagsKept.trans {f g h : Anomalies} (hf : FlagsKept f g) (hg : FlagsKept g h) : FlagsKept f h :=
  ⟨fun a ha => hg.1 a (hf.1 a ha), hg.2.trans hf.2⟩

theorem anomalySet_setAnomaly (f : Anomalies) (a b : Anomaly) :
    anomalySet (setAnomaly f b) a = (anomalySet f a || decide (a = b)) := by
  cases a <;> cases b <;> simp [anomalySet, setAnomaly]

theorem flagsKept_setAnomaly (f : Anomalies) (b : Anomaly) : FlagsKept f (setAnomaly f b) :=
  ⟨fun a ha => by rw [anomalySet_setAnomaly, ha, Bool.true_or], by cases b <;> rfl⟩

/-- The two flags of the backend are set where they were, or for a further reason. -/
theorem flagsKept_backend (f : Anomalies) (r m : Bool) :
    FlagsKept f { f with mbRange := f.mbRange || r, mbFull := f.mbFull || m } := by
  refine ⟨fun a ha => ?_, rfl⟩
  cases a
  case mbRange => exact Bool.or_eq_true_iff.mpr (.inl ha)
  case mbFull => exact Bool.or_eq_true_iff.mpr (.inl ha)
  all_goals exact ha

theorem FlagsKept.ite {f g : Anomalies} {b : Prop} [Decidable b] (h : FlagsKept f g) :
    FlagsKept f (if b then g else f) := by
  split
  · exact h
  · exact FlagsKept.refl f

/-- Errors are recorded, refusals change nothing, flags that are set stay set (60_exceptions.md R381, R384, R385). -/
structure Recorded (s t : State) : Prop where
  error : ∀ k, t.resp.err = some k → t.flags.lastError = some k ∧ t.resp.ok = false
  lastError : t.resp.err = none → t.flags.lastError = s.flags.lastError
  refusal : t.resp.err = none → t.resp.ok = false → t = { s with resp := t.resp, freeCount := t.freeCount }
  sticky : ∀ a, anomalySet s.flags a = true → anomalySet t.flags a = true
  legal : t.resp.illegal = false

/-- An operation that is done. -/
theorem recorded_done {s t : State} (hf : FlagsKept s.flags t.flags := by exact FlagsKept.refl _)
    (hok : t.resp.ok = true := by rfl) (herr : t.resp.err = none := by rfl) (hlegal : t.resp.illegal = false := by rfl) :
    Recorded s t where
  error k hk := by rw [herr] at hk; cases hk
  lastError _ := hf.2
  refusal _ h := by rw [hok] at h; cases h
  sticky := hf.1
  legal := hlegal

/-- An operation that is refused. -/
theorem recorded_refused {s t : State} (h : t = { s with resp := t.resp, freeCount := t.freeCount } := by rfl)
    (herr : t.resp.err = none := by rfl) (hlegal : t.resp.illegal = false := by rfl) : Recorded s t where
  error k hk := by rw [herr] at hk; cases hk
  lastError _ := by rw [h]
  refusal _ _ := h
  sticky a ha := by rw [h]; exact ha
  legal := hlegal

/-- An operation that raises an error in the state `u` it has come to. -/
theorem recorded_raised {s u : State} (k : ErrorKind) (hf : FlagsKept s.flags u.flags) : Recorded s (raised u k) where
  error k' hk := ⟨hk, rfl⟩
  lastError h := by cases h
  refusal h := by cases h
  sticky a ha := by
    have h := hf.1 a ha
    cases a <;> exact h
  legal := rfl

/-! ### The step of an operation on a component -/

/-- The operations of families 40 to 45. -/
def isComponentOperation : Instr → Bool
  | .engineTick _ _ _ | .srvReset _ _ | .srvLoad _ _ _ | .srvFinalize | .srvStore | .srvStoreall => false
  | _ => true

/-- What an operation on a component does: the components change alone, each keeping its part of the invariant; the
latches of the bus-cycle machine change by BCS_RESET and CYCLE_TICK; and the answer is recorded. -/
structure ComponentStep (i : Instr) (s t : State) : Prop where
  frame : t = { s with
    bcs := t.bcs, bc := t.bc, xcvr := t.xcvr, q := t.q, ip := t.ip, mb := t.mb, log := t.log, flags := t.flags
    resp := t.resp, freeCount := t.freeCount } := by rfl
  recorded : Recorded s t
  notReset : t.resp.err ≠ some .resetFailure := by nofun
  latches : t.bcs = s.bcs ∨ i = .bcsReset ∨ ∃ p l, i = .cycleTick p l ∧ t.bcs = tickBusCycle s.cfg s.bcs p l := by
    exact .inl rfl
  queue : QueueOk s.q → QueueOk t.q := by exact id
  program : ProgramOk s.cfg s.ip → ProgramOk s.cfg t.ip := by exact id
  memory : s.mb.wf s.cfg = true → t.mb.wf s.cfg = true := by exact id
  log : LogOk s.log → LogOk t.log := by exact id
  busCycle : BusCycleOk s.cfg s.bcs → BusCycleOk s.cfg t.bcs := by exact id
  controller : ControllerOk s.bc → ControllerOk t.bc := by exact id

section StepRules

variable (i : Instr) (s : State)

theorem componentStep_pure (r : Response) (hok : r.ok = true := by rfl) (herr : r.err = none := by rfl)
    (hlegal : r.illegal = false := by rfl) : ComponentStep i s { s with resp := r } where
  recorded := recorded_done (FlagsKept.refl _) hok herr hlegal
  notReset h := by rw [herr] at h; cases h

theorem componentStep_refused (n : Nat) (r : Response) (herr : r.err = none := by rfl)
    (hlegal : r.illegal = false := by rfl) : ComponentStep i s { s with freeCount := n, resp := r } where
  recorded := recorded_refused rfl herr hlegal
  notReset h := by rw [herr] at h; cases h

theorem componentStep_memoryRange : ComponentStep i s (raised s .memoryRange) where
  recorded := recorded_raised _ (FlagsKept.refl _)

end StepRules

/-- The operation `i` answers in `s`, and does what an operation on a component does. -/
def StepsComponent (i : Instr) (s : State) : Prop := ∃ t, exec i s = .next t ∧ ComponentStep i s t

/-! ### Families 40 and 41 -/

theorem stepsComponent_bcsReset (s : State) : StepsComponent .bcsReset s :=
  ⟨_, rfl, { recorded := recorded_done, latches := .inr (.inl rfl), busCycle := fun _ => busCycleOk_powerOn _ }⟩

theorem stepsComponent_cycleTick (p : Pins) (l : CmdLines) (s : State) : StepsComponent (.cycleTick p l) s :=
  ⟨_, exec_cycleTick p l s, {
    recorded := recorded_done (flagsKept_setAnomaly s.flags .statusReserved).ite
    latches := .inr (.inr ⟨p, l, rfl, rfl⟩)
    busCycle := busCycleOk_tick p l }⟩

theorem stepsComponent_xcvrSet (sel : BitVec 8) (w : WidthCode) (d : Word) (s : State) :
    StepsComponent (.xcvrSet sel w d) s := by
  cases w with
  | code3 => exact ⟨_, exec_xcvrSet_code3 sel d s, componentStep_refused _ s s.freeCount _⟩
  | width w => exact ⟨_, exec_xcvrSet_width sel w d s, { recorded := recorded_done }⟩

/-! ### Family 42 -/

theorem stepsComponent_qReset (sel : BitVec 8) (s : State) : StepsComponent (.qReset sel) s := by
  cases h : capacityOf sel with
  | none => exact ⟨_, exec_qReset_of_none s h, componentStep_refused _ s s.freeCount _⟩
  | some c => exact ⟨_, exec_qReset_of_some s h, { recorded := recorded_done, queue := fun _ => queueOk_reset s.q c }⟩

theorem stepsComponent_qHasRoom (w : WidthCode) (s : State) : StepsComponent (.qHasRoom w) s := by
  cases w with
  | code3 => exact ⟨_, exec_qHasRoom_code3 s, componentStep_refused _ s s.freeCount _⟩
  | width w => exact ⟨_, exec_qHasRoom w s, componentStep_pure _ s _⟩

theorem stepsComponent_qPush (d : Word) (g : Tag) (w : WidthCode) (s : State) : StepsComponent (.qPush d g w) s := by
  cases w with
  | code3 => exact ⟨_, exec_qPush_code3 d g s, componentStep_refused _ s s.freeCount _⟩
  | width w =>
    cases h : queuePush s.q d g w with
    | none => exact ⟨_, exec_qPush_of_none h, componentStep_refused _ s s.freeCount _⟩
    | some q => exact ⟨_, exec_qPush_of_some h, { recorded := recorded_done, queue := fun hq => queueOk_queuePush hq h }⟩

theorem queueOk_queuePop {q q' : Queue} {e : QueueEntry} (hq : QueueOk q) (h : queuePop q = some (e, q')) :
    QueueOk q' := by
  obtain ⟨-, hcap, hfront, hlen⟩ := queuePop_eq_some h
  have hle := hq.2
  refine ⟨hfront, ?_⟩
  rw [hcap]
  omega

theorem stepsComponent_qPop (s : State) : StepsComponent .qPop s := by
  cases h : queuePop s.q with
  | none => exact ⟨_, exec_qPop_of_none h, componentStep_refused _ s _ _⟩
  | some x =>
    obtain ⟨e, q⟩ := x
    exact ⟨_, exec_qPop_of_some h, { recorded := recorded_done, queue := fun hq => queueOk_queuePop hq h }⟩

theorem stepsComponent_qStatus_of_retires {qs : QueueStatus} {f : Bool} (hqs : Retires qs f) (s : State) :
    StepsComponent (.qStatus qs) s := by
  cases h : queuePop s.q with
  | none =>
    exact ⟨_, exec_qStatus_of_none hqs h, { recorded := recorded_done (flagsKept_setAnomaly s.flags .queueUnderflow) }⟩
  | some x =>
    obtain ⟨e, q⟩ := x
    exact ⟨_, exec_qStatus_of_some hqs h, { recorded := recorded_done, queue := fun hq => queueOk_queuePop hq h }⟩

theorem stepsComponent_qStatus (qs : QueueStatus) (s : State) : StepsComponent (.qStatus qs) s := by
  cases qs with
  | idle => exact ⟨_, exec_qStatus_idle s, componentStep_pure _ s _⟩
  | first => exact stepsComponent_qStatus_of_retires (.inl ⟨rfl, rfl⟩) s
  | flush => exact ⟨_, exec_qStatus_flush s, { recorded := recorded_done, queue := fun _ => queueOk_flush s.q }⟩
  | subsequent => exact stepsComponent_qStatus_of_retires (.inr ⟨rfl, rfl⟩) s

/-! ### Family 43 -/

theorem stepsComponent_ipSelect (n : ProgName) (l : List Byte) (d : Word) (a : Addr) (s : State) :
    StepsComponent (.ipSelect n l d a) s := by
  rcases Nat.lt_or_ge s.cfg.ipMaxLen l.length with h | h
  · exact ⟨_, exec_ipSelect_of_lt n d a h, componentStep_refused _ s s.freeCount _⟩
  · exact ⟨_, exec_ipSelect_of_le n d a h, { recorded := recorded_done, program := fun _ => ⟨Nat.zero_le _, h⟩ }⟩

theorem stepsComponent_ipReset (s : State) : StepsComponent .ipReset s :=
  ⟨_, exec_ipReset s, { recorded := recorded_done, program := fun h => ⟨Nat.zero_le _, h.2⟩ }⟩

theorem stepsComponent_ipRead (addr : Addr) (w : WidthCode) (s : State) : StepsComponent (.ipRead addr w) s := by
  cases w with
  | code3 => exact ⟨_, exec_ipRead_code3 addr s, componentStep_refused _ s s.freeCount _⟩
  | width w =>
    exact ⟨_, exec_ipRead addr w s, { recorded := recorded_done, program := fun h => ⟨Nat.min_le_right _ _, h.2⟩ }⟩

theorem stepsComponent_ipReadAt (base addr : Addr) (w : WidthCode) (s : State) :
    StepsComponent (.ipReadAt base addr w) s := by
  cases w with
  | code3 => exact ⟨_, exec_ipReadAt_code3 base addr s, componentStep_refused _ s s.freeCount _⟩
  | width w => exact ⟨_, exec_ipReadAt base addr w s, { recorded := recorded_done }⟩

theorem programOk_programPatch {c : Config} {p p' : ActiveProgram} {n : Nat} {v : Word} (hp : ProgramOk c p)
    (h : programPatch p n v = some p') : ProgramOk c p' := by
  obtain ⟨-, heq, hlen, -⟩ := programPatch_eq_some h
  have hcursor : p'.cursor = p.cursor := by rw [heq]
  rw [ProgramOk, hlen, hcursor]
  exact hp

theorem stepsComponent_ipPatchVector (v : Word) (s : State) : StepsComponent (.ipPatchVector v) s := by
  cases h : programPatch s.ip s.ip.vectorOffset v with
  | none => exact ⟨_, exec_ipPatchVector_of_none h, componentStep_refused _ s s.freeCount _⟩
  | some p =>
    exact ⟨_, exec_ipPatchVector_of_some h, { recorded := recorded_done, program := fun hp => programOk_programPatch hp h }⟩

theorem stepsComponent_ipPatchWord (addr : Addr) (v : Word) (s : State) : StepsComponent (.ipPatchWord addr v) s := by
  cases h : programPatch s.ip addr.toNat v with
  | none => exact ⟨_, exec_ipPatchWord_of_none h, componentStep_refused _ s s.freeCount _⟩
  | some p =>
    exact ⟨_, exec_ipPatchWord_of_some h, { recorded := recorded_done, program := fun hp => programOk_programPatch hp h }⟩

/-! ### Family 44 -/

theorem stepsComponent_mbRead8 (addr : Addr) (s : State) : StepsComponent (.mbRead8 addr) s := by
  cases h : inBounds s.cfg s.mb (addrOf s.cfg addr) with
  | false => exact ⟨_, exec_mbRead8_of_outOfBounds h, componentStep_memoryRange _ s⟩
  | true => exact ⟨_, exec_mbRead8_of_inBounds h, componentStep_pure _ s _⟩

theorem stepsComponent_mbRead16 (addr : Addr) (s : State) : StepsComponent (.mbRead16 addr) s := by
  cases h : inBounds s.cfg s.mb (addrOf s.cfg addr) with
  | false => exact ⟨_, exec_mbRead16_of_outOfBounds (.inl h), componentStep_memoryRange _ s⟩
  | true =>
    cases h' : inBounds s.cfg s.mb (nextAddr s.cfg (addrOf s.cfg addr)) with
    | false => exact ⟨_, exec_mbRead16_of_outOfBounds (.inr h'), componentStep_memoryRange _ s⟩
    | true => exact ⟨_, exec_mbRead16_of_inBounds h h', componentStep_pure _ s _⟩

theorem flagsKept_commandPuts (l : List Byte) (s : State) (a : Nat) : FlagsKept s.flags (s.commandPuts a l).1.flags := by
  induction l generalizing s a with
  | nil => exact FlagsKept.refl _
  | cons b l ih =>
    cases h : inBounds s.cfg s.mb a with
    | false =>
      rw [State.commandPuts_cons_of_outOfBounds b l h]
      exact FlagsKept.refl _
    | true =>
      rw [State.commandPuts_cons_of_inBounds b l h]
      refine FlagsKept.trans ?_ (ih _ _)
      rw [s.commandPut_flags_of_inBounds a b h]
      exact (flagsKept_setAnomaly s.flags .mbFull).ite

/-- A command's run of bytes, to its end or to the first byte out of bounds. -/
theorem componentStep_finishedPuts (i : Instr) (s : State) {a : Nat} (l : List Byte) (ha : a < addrSpace s.cfg) :
    ComponentStep i s (finishedPuts (s.commandPuts a l)) := by
  have hframe := s.commandPuts_eq a l
  have hflags := flagsKept_commandPuts l s a
  have hwf := fun h => s.commandPuts_wf a l h ha
  generalize s.commandPuts a l = p at hframe hflags hwf
  obtain ⟨t, done⟩ := p
  simp only at hframe hflags hwf
  rw [hframe]
  cases done with
  | false =>
    exact {
      recorded := recorded_raised (u := { s with mb := t.mb, flags := t.flags }) .memoryRange hflags
      memory := hwf }
  | true => exact { recorded := recorded_done hflags, memory := hwf }

theorem stepsComponent_mbWrite8 (addr : Addr) (d : Word) (s : State) : StepsComponent (.mbWrite8 addr d) s :=
  ⟨_, exec_mbWrite8 addr d s, componentStep_finishedPuts _ s _ (addrOf_lt s.cfg addr)⟩

theorem stepsComponent_mbWrite16 (addr : Addr) (d : Word) (s : State) : StepsComponent (.mbWrite16 addr d) s :=
  ⟨_, exec_mbWrite16 addr d s, componentStep_finishedPuts _ s _ (addrOf_lt s.cfg addr)⟩

theorem stepsComponent_mbSet (addr : Addr) (l : List Byte) (s : State) : StepsComponent (.mbSet addr l) s :=
  ⟨_, exec_mbSet addr l s, componentStep_finishedPuts _ s _ (addrOf_lt s.cfg addr)⟩

theorem stepsComponent_mbBusRead (addr : Addr) (bhe bus16 : Bool) (s : State) :
    StepsComponent (.mbBusRead addr bhe bus16) s :=
  ⟨_, exec_mbBusRead addr bhe bus16 s, { recorded := recorded_done (flagsKept_setAnomaly s.flags .mbRange).ite }⟩

theorem flagsKept_busWrite (s : State) (addr : Addr) (bhe bus16 : Bool) (d : Word) :
    FlagsKept s.flags (s.busWrite addr bhe bus16 d).flags := by
  rw [(s.busWritten_busWrite addr bhe bus16 d).flags]
  exact flagsKept_backend _ _ _

theorem stepsComponent_mbBusWrite (addr : Addr) (bhe bus16 : Bool) (d : Word) (s : State) :
    StepsComponent (.mbBusWrite addr bhe bus16 d) s := by
  refine ⟨_, exec_mbBusWrite addr bhe bus16 d s, ?_⟩
  have hflags := flagsKept_busWrite s addr bhe bus16 d
  have hwf := fun h => s.busWrite_wf addr bhe bus16 d h
  rw [State.busWrite_eq]
  exact { recorded := recorded_done hflags, memory := hwf }

theorem stepsComponent_mbIoRead (addr : Addr) (w : WidthCode) (s : State) : StepsComponent (.mbIoRead addr w) s := by
  cases w with
  | code3 => exact ⟨_, rfl, componentStep_refused _ s s.freeCount _⟩
  | width w => exact ⟨_, exec_mbIoRead addr w s, componentStep_pure _ s _⟩

theorem stepsComponent_mbIoWrite (addr : Addr) (w : WidthCode) (d : Word) (s : State) :
    StepsComponent (.mbIoWrite addr w d) s := by
  cases w with
  | code3 => exact ⟨_, rfl, componentStep_refused _ s s.freeCount _⟩
  | width w => exact ⟨_, exec_mbIoWrite addr w d s, componentStep_pure _ s _⟩

theorem stepsComponent_mbErase (s : State) : StepsComponent .mbErase s :=
  ⟨_, exec_mbErase s, { recorded := recorded_done, memory := memErase_wf }⟩

theorem stepsComponent_mbSetDefault (sel : BitVec 8) (seed : BitVec 32) (s : State) :
    StepsComponent (.mbSetDefault sel seed) s := by
  cases h : strategyOf sel with
  | none => exact ⟨_, exec_mbSetDefault_of_none seed s h, componentStep_refused _ s s.freeCount _⟩
  | some g => exact ⟨_, exec_mbSetDefault_of_some seed s h, { recorded := recorded_done }⟩

theorem stepsComponent_mbSelect (sel : BitVec 8) (s : State) : StepsComponent (.mbSelect sel) s := by
  cases h : variantOf sel with
  | none => exact ⟨_, exec_mbSelect_of_none s h, componentStep_refused _ s s.freeCount _⟩
  | some v =>
    exact ⟨_, exec_mbSelect_of_some s h, {
      recorded := recorded_done
      memory := fun hwf => memErase_wf ((Memory.wf_with v s.mb.strategy s.mb.seed).trans hwf) }⟩

/-! ### Family 45 -/

theorem stepsComponent_logClear (s : State) : StepsComponent .logClear s :=
  ⟨_, exec_logClear s, { recorded := recorded_done, log := fun _ => logOk_logCleared s.log }⟩

theorem stepsComponent_logAppend (k : BusStatus) (w : WidthCode) (addr : Addr) (d : Word) (s : State) :
    StepsComponent (.logAppend k w addr d) s := by
  by_cases h : k = .passive
  · subst h
    exact ⟨_, exec_logAppend_passive w addr d s, componentStep_refused _ s s.freeCount _⟩
  · exact ⟨_, exec_logAppend_of_active w addr d s h,
      { recorded := recorded_done, log := fun hlog => logOk_logAppended hlog h }⟩

theorem stepsComponent_logRead (addr : Addr) (s : State) : StepsComponent (.logRead addr) s := by
  cases h : (logList s.log)[addr.toNat]? with
  | none =>
    rw [List.getElem?_eq_none_iff, logList_length] at h
    exact ⟨_, exec_logRead_of_le h, componentStep_refused _ s s.freeCount _⟩
  | some e => exact ⟨_, exec_logRead_of_some h, componentStep_pure _ s _⟩

theorem stepsComponent_beRead (k : BusStatus) (addr : Addr) (bhe bus16 : Bool) (s : State) :
    StepsComponent (.beRead k addr bhe bus16) s := by
  have hmemory : k = .code ∨ k = .memRead → StepsComponent (.beRead k addr bhe bus16) s := fun h =>
    ⟨_, exec_beRead_of_memoryRead h, {
      recorded := recorded_done (flagsKept_setAnomaly s.flags .mbRange).ite
      log := fun hlog => logOk_logAppended hlog (by rcases h with rfl | rfl <;> nofun) }⟩
  have hio : k = .ioRead ∨ k = .irqAck → StepsComponent (.beRead k addr bhe bus16) s := fun h =>
    ⟨_, exec_beRead_of_ioRead h, {
      recorded := recorded_done
      log := fun hlog => logOk_logAppended hlog (by rcases h with rfl | rfl <;> nofun) }⟩
  have hrefused : k = .ioWrite ∨ k = .halt ∨ k = .memWrite ∨ k = .passive →
      StepsComponent (.beRead k addr bhe bus16) s := fun h =>
    ⟨_, exec_beRead_of_noRead h, componentStep_refused _ s s.freeCount _⟩
  cases k with
  | code => exact hmemory (.inl rfl)
  | memRead => exact hmemory (.inr rfl)
  | ioRead => exact hio (.inl rfl)
  | irqAck => exact hio (.inr rfl)
  | ioWrite => exact hrefused (.inl rfl)
  | halt => exact hrefused (.inr (.inl rfl))
  | memWrite => exact hrefused (.inr (.inr (.inl rfl)))
  | passive => exact hrefused (.inr (.inr (.inr rfl)))

theorem stepsComponent_beWrite_memWrite (addr : Addr) (bhe bus16 : Bool) (d : Word) (s : State) :
    StepsComponent (.beWrite .memWrite addr bhe bus16 d) s := by
  refine ⟨_, exec_beWrite_memWrite d, ?_⟩
  have hflags := flagsKept_busWrite s addr bhe bus16 d
  have hwf := fun h => s.busWrite_wf addr bhe bus16 d h
  rw [State.busWrite_eq]
  exact { recorded := recorded_done hflags, memory := hwf, log := fun h => logOk_logAppended h (by nofun) }

theorem stepsComponent_beWrite (k : BusStatus) (addr : Addr) (bhe bus16 : Bool) (d : Word) (s : State) :
    StepsComponent (.beWrite k addr bhe bus16 d) s := by
  by_cases hk : isWrite k = true
  · rcases isWrite_iff.mp hk with rfl | rfl
    · exact stepsComponent_beWrite_memWrite addr bhe bus16 d s
    · exact ⟨_, exec_beWrite_ioWrite d,
        { recorded := recorded_done, log := fun h => logOk_logAppended h (by nofun) }⟩
  · refine ⟨_, exec_beWrite_of_noWrite d ?_, componentStep_refused _ s s.freeCount _⟩
    cases k <;> simp [isWrite] at hk ⊢

/-! ### Every one of them -/

/-- Every operation of families 40 to 45 is an operation on a component. -/
theorem stepsComponent {i : Instr} (h : isComponentOperation i = true) (s : State) : StepsComponent i s := by
  cases i with
  | bcsReset => exact stepsComponent_bcsReset s
  | decodeStatus raw valid => exact ⟨_, exec_decodeStatus raw valid s, componentStep_pure _ s _⟩
  | xferDone lst l ready => exact ⟨_, exec_xferDone lst l ready s, componentStep_pure _ s _⟩
  | nextCycle cyc st lst done => exact ⟨_, exec_nextCycle cyc st lst done s, componentStep_pure _ s _⟩
  | busWidth addr bhe bus16 => exact ⟨_, exec_busWidth addr bhe bus16 s, componentStep_pure _ s _⟩
  | cycleTick p l => exact stepsComponent_cycleTick p l s
  | xcvrSet sel w d => exact stepsComponent_xcvrSet sel w d s
  | bcReset => exact ⟨_, rfl, { recorded := recorded_done, controller := fun _ => controllerOk_powerOn }⟩
  | bcTick st =>
    exact ⟨_, exec_bcTick st s, { recorded := recorded_done, controller := controllerOk_controllerTick s.bc st }⟩
  | bcTick2 st r =>
    exact ⟨_, exec_bcTick2 st r s, { recorded := recorded_done, controller := controllerOk_controllerTick2 s.bc st r }⟩
  | qReset sel => exact stepsComponent_qReset sel s
  | qHasRoom w => exact stepsComponent_qHasRoom w s
  | qPush d g w => exact stepsComponent_qPush d g w s
  | qPop => exact stepsComponent_qPop s
  | qFlush => exact ⟨_, exec_qFlush s, { recorded := recorded_done, queue := fun _ => queueOk_flush s.q }⟩
  | qLen => exact ⟨_, exec_qLen s, componentStep_pure _ s _⟩
  | qStatus qs => exact stepsComponent_qStatus qs s
  | ipSelect n l d a => exact stepsComponent_ipSelect n l d a s
  | ipReset => exact stepsComponent_ipReset s
  | ipRead addr w => exact stepsComponent_ipRead addr w s
  | ipReadAt base addr w => exact stepsComponent_ipReadAt base addr w s
  | ipPatchVector v => exact stepsComponent_ipPatchVector v s
  | ipPatchWord addr v => exact stepsComponent_ipPatchWord addr v s
  | mbRead8 addr => exact stepsComponent_mbRead8 addr s
  | mbWrite8 addr d => exact stepsComponent_mbWrite8 addr d s
  | mbRead16 addr => exact stepsComponent_mbRead16 addr s
  | mbWrite16 addr d => exact stepsComponent_mbWrite16 addr d s
  | mbBusRead addr bhe bus16 => exact stepsComponent_mbBusRead addr bhe bus16 s
  | mbBusWrite addr bhe bus16 d => exact stepsComponent_mbBusWrite addr bhe bus16 d s
  | mbIoRead addr w => exact stepsComponent_mbIoRead addr w s
  | mbIoWrite addr w d => exact stepsComponent_mbIoWrite addr w d s
  | mbSet addr l => exact stepsComponent_mbSet addr l s
  | mbErase => exact stepsComponent_mbErase s
  | mbSetDefault sel seed => exact stepsComponent_mbSetDefault sel seed s
  | mbSelect sel => exact stepsComponent_mbSelect sel s
  | logClear => exact stepsComponent_logClear s
  | logAppend k w addr d => exact stepsComponent_logAppend k w addr d s
  | logRead addr => exact stepsComponent_logRead addr s
  | logStatus => exact ⟨_, exec_logStatus s, componentStep_pure _ s _⟩
  | beRead k addr bhe bus16 => exact stepsComponent_beRead k addr bhe bus16 s
  | beWrite k addr bhe bus16 d => exact stepsComponent_beWrite k addr bhe bus16 d s
  | engineTick | srvReset | srvLoad | srvFinalize | srvStore | srvStoreall => cases h

theorem componentStep_of_exec {i : Instr} {s t : State} (hi : isComponentOperation i = true) (h : exec i s = .next t) :
    ComponentStep i s t := by
  obtain ⟨u, hu, hstep⟩ := stepsComponent hi s
  rw [h] at hu
  cases hu
  exact hstep

/-- A component operation leaves the configuration and the sequencer, so it keeps the whole invariant. -/
theorem ComponentStep.inv {i : Instr} {s t : State} (h : ComponentStep i s t) (hs : s.Inv) : t.Inv := by
  have hcfg : t.cfg = s.cfg := by rw [h.frame]
  have hsrv : t.srv = s.srv := by rw [h.frame]
  constructor
  case config => rw [hcfg]; exact hs.config
  case queue => exact h.queue hs.queue
  case program => rw [hcfg]; exact h.program hs.program
  case memory => rw [hcfg]; exact h.memory hs.memory
  case log => exact h.log hs.log
  case busCycle => rw [hcfg]; exact h.busCycle hs.busCycle
  case controller => exact h.controller hs.controller
  case server => rw [hcfg, hsrv]; exact hs.server

end Sys2Proof.Machine
end

section
/-! Proofs of the commands of family 46 (46_phase_sequencer.md R342 to R346): the program a phase selects, SRV_LOAD,
SRV_FINALIZE, SRV_STORE and SRV_STOREALL where they are legal and where they are not. -/

namespace Sys2Proof.Machine

open Sys2Proof

/-! ### The program a phase selects -/

theorem selectedImage_of_some {s : State} {n : ProgName} {i : Image} (h : imageOf n s.ipset = some i) :
    selectedImage s n = i := by
  simp [selectedImage, h]

theorem selectedImage_of_none {s : State} {n : ProgName} (h : imageOf n s.ipset = none) :
    selectedImage s n = { buf := [], fill := s.cfg.fillDefault, vectorOffset := 0 } := by
  simp [selectedImage, h]

section EnterRules

variable {s : State} {p : ServerState} {n : ProgName}

theorem State.enter_ip_of_image {i : Image} (h : programOf s.cfg s.srv.loadFormat s.srv.state p = some n)
    (hi : imageOf n s.ipset = some i) (hlen : i.buf.length ≤ s.cfg.ipMaxLen) :
    (s.enter p).ip = ⟨n, i.buf, 0, i.fill, i.vectorOffset⟩ := by
  rw [State.enter_ip, h]
  simp [selectedImage_of_some hi, programSelect_of_le hlen]

theorem State.enter_ip_of_absent (h : programOf s.cfg s.srv.loadFormat s.srv.state p = some n)
    (hi : imageOf n s.ipset = none) : (s.enter p).ip = ⟨n, [], 0, s.cfg.fillDefault, 0⟩ := by
  rw [State.enter_ip, h]
  simp [selectedImage_of_none hi, programSelect_of_le]

/-- An image that is too long is not selected: what the exit action left stays active. -/
theorem State.enter_ip_of_tooLong {i : Image} (h : programOf s.cfg s.srv.loadFormat s.srv.state p = some n)
    (hi : imageOf n s.ipset = some i) (hlen : s.cfg.ipMaxLen < i.buf.length) :
    (s.enter p).ip = (s.exitActions p).ip := by
  rw [State.enter_ip, h]
  simp [selectedImage_of_some hi, programSelect, hlen]

/-- Entering a phase selects the phase's program from the set. -/
theorem selectsProgram_enter (h : programOf s.cfg s.srv.loadFormat s.srv.state p = some n) :
    selectsProgram s (s.enter p) n :=
  ⟨fun _ => State.enter_ip_of_image h, State.enter_ip_of_absent h⟩

end EnterRules

/-! ### The vector of the active program -/

/-- The active program with a word patched in at its vector, where it has one. -/
def vectorPatched (p : ActiveProgram) (v : Word) : ActiveProgram := (programPatch p p.vectorOffset v).getD p

theorem State.patchVector_eq (s : State) (v : Word) : s.patchVector v = { s with ip := vectorPatched s.ip v } := by
  unfold State.patchVector vectorPatched
  cases programPatch s.ip s.ip.vectorOffset v <;> rfl

section PatchRules

variable {p : ActiveProgram} {v : Word}

theorem vectorPatched_of_le (h : p.vectorOffset + 2 ≤ p.buf.length) : vectorPatched p v =
    { p with buf := (p.buf.set p.vectorOffset (lowLane v)).set (p.vectorOffset + 1) (highLane v) } := by
  rw [vectorPatched, programPatch_of_le v h]
  rfl

theorem vectorPatched_of_lt (h : p.buf.length < p.vectorOffset + 2) : vectorPatched p v = p := by
  rw [vectorPatched, programPatch_eq_none.mpr h]
  rfl

/-- A patch writes bytes alone. -/
theorem vectorPatched_eq : vectorPatched p v = { p with buf := (vectorPatched p v).buf } := by
  rcases Nat.lt_or_ge p.buf.length (p.vectorOffset + 2) with h | h
  · rw [vectorPatched_of_lt h]
  · rw [vectorPatched_of_le h]

theorem programOk_vectorPatched {c : Config} (h : ProgramOk c p) : ProgramOk c (vectorPatched p v) := by
  unfold vectorPatched
  cases hp : programPatch p p.vectorOffset v with
  | none => exact h
  | some p' => exact programOk_programPatch h hp

end PatchRules

/-! ### One rule for each outcome of each command -/

/-- `t` is what a command leaves that enters the phase `p` in the state `u`: the program, the sequencer, and a response
that names the phase. -/
structure Entered (u : State) (p : ServerState) (t : State) : Prop where
  frame : t = { u with ip := t.ip, srv := t.srv, resp := { state := some p } }
  ip : t.ip = (u.enter p).ip
  srv : t.srv = (u.enter p).srv

theorem State.enter_frame (u : State) (p : ServerState) :
    u.enter p = { u with ip := (u.enter p).ip, srv := (u.enter p).srv } := by rw [State.enter_eq]

theorem entered_withResp (u : State) (p : ServerState) : Entered u p ((u.enter p).withResp { state := some p }) := by
  have hframe := u.enter_frame p
  refine ⟨?_, rfl, rfl⟩
  generalize u.enter p = v at hframe
  rw [hframe]
  rfl

theorem State.accept_enter (u : State) (p : ServerState) : ∃ t, (u.enter p).accept = .next t ∧ Entered u p t :=
  ⟨_, by rw [State.accept, State.enter_state, State.answer], entered_withResp u p⟩

theorem Entered.state {u t : State} {p : ServerState} (h : Entered u p t) : t.srv.state = p := by
  rw [h.srv, State.enter_state]

theorem Entered.selectsProgram {s u t : State} {p : ServerState} {n : ProgName} (h : Entered u p t)
    (hn : programOf u.cfg u.srv.loadFormat u.srv.state p = some n) (hcfg : u.cfg = s.cfg) (hset : u.ipset = s.ipset) :
    selectsProgram s t n := by
  have hsel := selectsProgram_enter hn
  rw [Machine.selectsProgram, hcfg, hset, ← h.ip] at hsel
  exact hsel

section CommandRules

variable {s : State} {sel : BitVec 8} {bytes : List Byte} {seg : Word} {f : LoadFormat}

theorem exec_srvLoad_of_badFormat (h : formatOf sel = none ∨ s.cfg.ipMaxLen < bytes.length) :
    exec (.srvLoad sel bytes seg) s = .next (raised s .invalidRegisterFormat) := by
  show execSrvLoad sel bytes seg s = _
  cases hf : formatOf sel with
  | none =>
    rw [execSrvLoad, hf]
    rfl
  | some f =>
    have hlong : s.cfg.ipMaxLen < bytes.length := by simpa [hf] using h
    simp only [execSrvLoad, hf, if_pos hlong]
    rfl

theorem exec_srvLoad_jumpVector (hf : formatOf sel = some f) (hlen : bytes.length ≤ s.cfg.ipMaxLen)
    (hstate : s.srv.state = .jumpVector) (hbudget : s.srv.budget = 0) : ∃ t,
      exec (.srvLoad sel bytes seg) s = .next { t with ip := vectorPatched t.ip seg } ∧
      Entered (s.startLoad f bytes) .jumpVector t := by
  refine ⟨_, ?_, entered_withResp _ _⟩
  show execSrvLoad sel bytes seg s = _
  simp only [execSrvLoad, hf, if_neg (Nat.not_lt.mpr hlen), if_pos (And.intro hstate hbudget)]
  rw [State.patchVector_eq, State.accept, State.enter_state]
  generalize (s.startLoad f bytes).enter .jumpVector = u
  rfl

theorem exec_srvLoad_storeDoneSmm (hf : formatOf sel = some .v3b) (hlen : bytes.length ≤ s.cfg.ipMaxLen)
    (hstate : s.srv.state = .storeDoneSmm) : ∃ t, exec (.srvLoad sel bytes seg) s = .next t ∧
      Entered (s.startLoad .v3b bytes) .loadSmm t := by
  have hexec : exec (.srvLoad sel bytes seg) s = ((s.startLoad .v3b bytes).enter .loadSmm).accept := by
    show execSrvLoad sel bytes seg s = _
    simp [execSrvLoad, hf, hlen, hstate]
  rw [hexec]
  exact State.accept_enter _ _

theorem exec_srvLoad_of_badPhase (hf : formatOf sel = some f) (hlen : bytes.length ≤ s.cfg.ipMaxLen)
    (hjump : ¬(s.srv.state = .jumpVector ∧ s.srv.budget = 0)) (hsmm : ¬(s.srv.state = .storeDoneSmm ∧ f = .v3b)) :
    exec (.srvLoad sel bytes seg) s = .next (raised s .invalidPhase) := by
  show execSrvLoad sel bytes seg s = _
  simp only [execSrvLoad, hf, if_neg (Nat.not_lt.mpr hlen), if_neg hjump, if_neg hsmm]
  rfl

theorem exec_srvFinalize_executeFinalize (hstate : s.srv.state = .executeFinalize) (hbudget : s.srv.budget = 0) :
    exec .srvFinalize s = .next { s with
      ip := if s.srv.stalled then { s.ip with cursor := 0 } else s.ip
      srv := { s.srv with budget := s.cfg.tFinalize, stalled := false }
      resp := { state := some .executeFinalize } } := by
  show execSrvFinalize s = _
  rw [execSrvFinalize, if_pos ⟨hstate, hbudget⟩, State.rewindStalled_eq]
  simp [State.accept, State.answer, State.withResp, State.withSrv, programReset, hstate]

theorem exec_srvFinalize_execute (hstate : s.srv.state = .execute) (hbudget : s.srv.budget = 0)
    (hnmi : s.cfg.endStrategy = .nmiVector) : exec .srvFinalize s = .next { s with
      ip := if s.srv.stalled then { s.ip with cursor := 0 } else s.ip
      srv := { s.srv with budget := s.cfg.tFinalize, nmiOut := true, stackArmed := true, stalled := false }
      resp := { state := some .execute } } := by
  show execSrvFinalize s = _
  rw [execSrvFinalize, if_neg (by simp [hstate]), if_pos ⟨hstate, hbudget, hnmi⟩, State.rewindStalled_eq]
  simp [State.accept, State.answer, State.withResp, State.withSrv, programReset, hstate]

theorem exec_srvFinalize_of_badPhase (h : ¬(s.srv.state = .executeFinalize ∧ s.srv.budget = 0))
    (h' : ¬(s.srv.state = .execute ∧ s.srv.budget = 0 ∧ s.cfg.endStrategy = .nmiVector)) :
    exec .srvFinalize s = .next (raised s .invalidPhase) := by
  show execSrvFinalize s = _
  rw [execSrvFinalize, if_neg h, if_neg h']
  rfl

theorem exec_srvStore_executeDone (hstate : s.srv.state = .executeDone) (hbudget : s.srv.budget = 0) :
    ∃ t, exec .srvStore s = .next t ∧ Entered (s.withSrv { s.srv with budget := s.cfg.tStore }) .store t := by
  have hexec : exec .srvStore s = ((s.withSrv { s.srv with budget := s.cfg.tStore }).enter .store).accept := by
    show execSrvStore s = _
    rw [execSrvStore, if_pos ⟨hstate, hbudget⟩]
  rw [hexec]
  exact State.accept_enter _ _

theorem exec_srvStore_of_badPhase (h : ¬(s.srv.state = .executeDone ∧ s.srv.budget = 0)) :
    exec .srvStore s = .next (raised s .invalidPhase) := by
  show execSrvStore s = _
  rw [execSrvStore, if_neg h]
  rfl

theorem exec_srvStoreall_executeDone (hstate : s.srv.state = .executeDone) (hbudget : s.srv.budget = 0)
    (hopt : s.cfg.pathOpts.storeall = true) :
    ∃ t, exec .srvStoreall s = .next t ∧ Entered (s.withSrv { s.srv with budget := s.cfg.tStoreAll }) .storeAll t := by
  have hexec : exec .srvStoreall s = ((s.withSrv { s.srv with budget := s.cfg.tStoreAll }).enter .storeAll).accept := by
    show execSrvStoreall s = _
    rw [execSrvStoreall, if_pos ⟨hstate, hbudget, hopt⟩]
  rw [hexec]
  exact State.accept_enter _ _

theorem exec_srvStoreall_of_badPhase
    (h : ¬(s.srv.state = .executeDone ∧ s.srv.budget = 0 ∧ s.cfg.pathOpts.storeall = true)) :
    exec .srvStoreall s = .next (raised s .invalidPhase) := by
  show execSrvStoreall s = _
  rw [execSrvStoreall, if_neg h]
  rfl

end CommandRules

/-- Settles O56: the refusing rule of each command. -/
theorem illegalCommandsRaiseInvalidPhase : Obligations.IllegalCommandsRaiseInvalidPhase := by
  rintro s u rfl
  refine ⟨fun h p d g => exec_engineTick_of_terminal s p d g h, exec_srvFinalize_of_badPhase, fun h =>
    ⟨exec_srvStore_of_badPhase h, exec_srvStoreall_of_badPhase fun hall => h ⟨hall.1, hall.2.1⟩⟩, fun h =>
    exec_srvStoreall_of_badPhase ?_⟩
  simp [h]

/-! ### SRV_FINALIZE, SRV_STORE and SRV_STOREALL -/

/-- Leaving ExecuteDone clears the checkpoints. -/
theorem State.enter_srv_of_executeDone {s : State} {p : ServerState} (hstate : s.srv.state = .executeDone)
    (hp : p ≠ .execute ∧ p ≠ .executeDone) : (s.enter p).srv = { s.srv with
      state := p
      nmiFetchCount := 0
      smiFetchCount := 0
      stackCaptureCursor := 0
      stalled := false } := by
  rw [State.enter_eq, State.exitActions_eq]
  simp [hstate, hp.1, hp.2]

/-- Settles O55: the accepting rule of each command, and what leaving ExecuteDone does. -/
theorem finalizeStoreAndStoreAll : Obligations.FinalizeStoreAndStoreAll := by
  intro s hbudget
  refine ⟨fun h => exec_srvFinalize_executeFinalize h hbudget, fun h => exec_srvFinalize_execute h hbudget, fun h => ?store,
    fun h hopt => ?storeAll⟩
  case store =>
    obtain ⟨t, hexec, ht⟩ := exec_srvStore_executeDone h hbudget
    have hframe : t = { s with ip := t.ip, srv := t.srv, resp := { state := some .store } } := ht.frame
    refine ⟨t, hexec, hframe, sameMemory_of_cfg_mb (by rw [hframe]) (by rw [hframe]), ?_, ht.selectsProgram rfl rfl rfl⟩
    rw [ht.srv]
    exact State.enter_srv_of_executeDone (s := s.withSrv { s.srv with budget := s.cfg.tStore }) h (by decide)
  case storeAll =>
    obtain ⟨t, hexec, ht⟩ := exec_srvStoreall_executeDone h hbudget hopt
    have hframe : t = { s with ip := t.ip, srv := t.srv, resp := { state := some .storeAll } } := ht.frame
    refine ⟨t, hexec, hframe, sameMemory_of_cfg_mb (by rw [hframe]) (by rw [hframe]), ?_, ht.selectsProgram rfl rfl rfl⟩
    rw [ht.srv]
    exact State.enter_srv_of_executeDone (s := s.withSrv { s.srv with budget := s.cfg.tStoreAll }) h (by decide)

/-! ### SRV_LOAD -/

section LoadRules

variable (s : State) (f : LoadFormat) (bytes : List Byte)

theorem State.startLoad_eq : s.startLoad f bytes = { s with
    ipset := setImage (loadProgram f) (loadedImage s.cfg (imageOf (loadProgram f) s.ipset) bytes) s.ipset
    srv := { s.srv with loadFormat := f, budget := s.cfg.tLoad } } := rfl

theorem imageOf_startLoad_of_ne {m : ProgName} (h : m ≠ loadProgram f) :
    imageOf m (s.startLoad f bytes).ipset = imageOf m s.ipset := by
  rw [State.startLoad_eq, imageOf_setImage, if_neg h]

theorem imageOf_startLoad_self : imageOf (loadProgram f) (s.startLoad f bytes).ipset =
    some (loadedImage s.cfg (imageOf (loadProgram f) s.ipset) bytes) := by
  rw [State.startLoad_eq, imageOf_setImage, if_pos rfl]

theorem loadProgram_ne_jump : ProgName.jump ≠ loadProgram f := by cases f <;> nofun

/-- The program the load segment starts from is the jump program of the set as it was. -/
theorem imageOf_jump_startLoad : imageOf .jump (s.startLoad f bytes).ipset = imageOf .jump s.ipset :=
  imageOf_startLoad_of_ne s f bytes (loadProgram_ne_jump f)

end LoadRules

/-- Settles O53: JumpVector entered again with the new image in the set, then the vector patched. -/
theorem loadStartsTheLoadSegment : Obligations.LoadStartsTheLoadSegment := by
  intro sel bytes seg s f n hstate hbudget hlen hsel
  have hf : formatOf sel = some f := by
    rcases hsel with ⟨rfl, rfl, -⟩ | ⟨rfl, rfl, -⟩ | ⟨rfl, rfl, -⟩ | ⟨rfl, rfl, -⟩ <;> rfl
  obtain rfl : n = loadProgram f := by
    rcases hsel with ⟨-, rfl, rfl⟩ | ⟨-, rfl, rfl⟩ | ⟨-, rfl, rfl⟩ | ⟨-, rfl, rfl⟩ <;> rfl
  have hjump : imageOf .jump (s.startLoad f bytes).ipset = imageOf .jump s.ipset := imageOf_jump_startLoad s f bytes
  have hprogram : programOf (s.startLoad f bytes).cfg (s.startLoad f bytes).srv.loadFormat
    (s.startLoad f bytes).srv.state .jumpVector = some .jump := rfl
  obtain ⟨t, hexec, ht⟩ := exec_srvLoad_jumpVector (seg := seg) hf hlen hstate hbudget
  have hframe : t = { s with
    ip := t.ip, ipset := (s.startLoad f bytes).ipset, srv := t.srv, resp := { state := some .jumpVector } } := ht.frame
  have hset : t.ipset = (s.startLoad f bytes).ipset := by rw [hframe]
  refine ⟨_, hexec, ?frame, ?memory, ?resp, ?srv, fun m hm => ?others, fun i hi => ?present,
    fun hi => ⟨s.cfg.ipMaxLen, ?absent, by omega⟩, fun i hi hle => ?jump, fun hi => ?noJump, fun i hi hlt => ?longJump⟩
  case frame => rw [hframe]
  case memory => exact sameMemory_of_cfg_mb (by rw [hframe]) (by rw [hframe])
  case resp => rw [hframe]
  case srv =>
    show t.srv = _
    rw [ht.srv, State.enter_srv_eq _ _ (by rw [State.startLoad_eq]; simp [hstate]) (by decide), State.startLoad_eq]
    simp [hstate]
  case others => exact (congrArg (imageOf m) hset).trans (imageOf_startLoad_of_ne s f bytes hm)
  case present => exact (congrArg _ hset).trans ((imageOf_startLoad_self s f bytes).trans (by rw [hi]; rfl))
  case absent => exact (congrArg _ hset).trans ((imageOf_startLoad_self s f bytes).trans (by rw [hi]; rfl))
  case jump =>
    simp only [ht.ip, State.enter_ip_of_image hprogram (hjump.trans hi) hle]
    exact ⟨vectorPatched_eq, fun h => by rw [vectorPatched_of_le h], fun h => by rw [vectorPatched_of_lt h]⟩
  case noJump =>
    simp only [ht.ip, State.enter_ip_of_absent hprogram (hjump.trans hi)]
    exact vectorPatched_of_lt (by simp)
  case longJump =>
    have hexit : ((s.startLoad f bytes).exitActions .jumpVector).ip = { s.ip with cursor := 0 } := by
      rw [State.exitActions_ip_eq, State.startLoad_eq]
      simp [hstate, ownsProgram, programOf, programReset]
    simp only [ht.ip, State.enter_ip_of_tooLong hprogram (hjump.trans hi) hlt, hexit]
    exact ⟨vectorPatched_eq, fun h => by rw [vectorPatched_of_le (by exact h)],
      fun h => by rw [vectorPatched_of_lt (by exact h)]⟩

theorem formatOf_of_le {sel : BitVec 8} (h : 4 ≤ sel.toNat) : formatOf sel = none := by
  unfold formatOf
  split
  · omega
  · omega
  · omega
  · omega
  · rfl

theorem formatOf_of_lt {sel : BitVec 8} (h : sel.toNat < 4) : ∃ f, formatOf sel = some f := by
  have hcodes : sel.toNat = 0 ∨ sel.toNat = 1 ∨ sel.toNat = 2 ∨ sel.toNat = 3 := by omega
  rcases hcodes with hs | hs | hs | hs
  all_goals
    rw [formatOf, hs]
    exact ⟨_, rfl⟩

theorem formatOf_eq_v3b {sel : BitVec 8} (h : formatOf sel = some .v3b) : sel = 3 := by
  unfold formatOf at h
  split at h <;> cases h
  apply BitVec.eq_of_toNat_eq
  assumption

/-- Settles O54: the refusing rules in the order of the checks, and LoadSmm entered with the new image selected. -/
theorem loadFromStoreDoneSmmAndErrors : Obligations.LoadFromStoreDoneSmmAndErrors := by
  intro sel bytes seg s
  refine ⟨fun h => exec_srvLoad_of_badFormat (h.imp_left formatOf_of_le), fun hsel hlen hjump hsmm => ?badPhase, ?smm⟩
  case badPhase =>
    obtain ⟨f, hf⟩ := formatOf_of_lt hsel
    refine exec_srvLoad_of_badPhase hf hlen hjump fun h => hsmm ⟨h.1, formatOf_eq_v3b ?_⟩
    rw [hf, h.2]
  case smm =>
    rintro rfl hlen hstate
    have himage := imageOf_startLoad_self s .v3b bytes
    have hprogram : programOf (s.startLoad .v3b bytes).cfg (s.startLoad .v3b bytes).srv.loadFormat
      (s.startLoad .v3b bytes).srv.state .loadSmm = some .loadSmm := rfl
    obtain ⟨t, hexec, ht⟩ := exec_srvLoad_storeDoneSmm (sel := 3) (seg := seg) rfl hlen hstate
    have hframe : t = { s with
      ip := t.ip, ipset := (s.startLoad .v3b bytes).ipset, srv := t.srv, resp := { state := some .loadSmm } } := ht.frame
    have hset : t.ipset = (s.startLoad .v3b bytes).ipset := by rw [hframe]
    refine ⟨t, hexec, by rw [hframe], sameMemory_of_cfg_mb (by rw [hframe]) (by rw [hframe]), by rw [hframe], ?srv,
      fun m hm => ?others, fun i hi => ?present, fun hi => ⟨s.cfg.ipMaxLen, by omega, ?absent⟩⟩
    case srv =>
      rw [ht.srv, State.enter_srv_eq _ _ (by rw [State.startLoad_eq]; simp [hstate]) (by decide), State.startLoad_eq]
      simp
    case others => exact (congrArg (imageOf m) hset).trans (imageOf_startLoad_of_ne s .v3b bytes hm)
    case present =>
      simp only [loadProgram, hi] at himage
      exact ⟨(congrArg _ hset).trans himage, ht.ip.trans (State.enter_ip_of_image hprogram himage hlen)⟩
    case absent =>
      simp only [loadProgram, hi] at himage
      exact ⟨(congrArg _ hset).trans himage, ht.ip.trans (State.enter_ip_of_image hprogram himage hlen)⟩

/-! ### What every accepted command keeps -/

/-- What an accepted command changes: the program, the program set and the sequencer, each keeping its part of the
invariant; the response names the phase. -/
structure AcceptedStep (s t : State) : Prop where
  frame : t = { s with ip := t.ip, ipset := t.ipset, srv := t.srv, resp := t.resp }
  resp : t.resp = { state := some t.srv.state }
  program : ProgramOk s.cfg s.ip → ProgramOk s.cfg t.ip
  server : s.cfg.wellFormed = true → ServerOk s.cfg s.srv → ServerOk s.cfg t.srv

theorem Config.wellFormed_tFinalize {c : Config} (h : c.wellFormed = true) : 0 < c.tFinalize := by
  simp only [Config.wellFormed, Bool.and_eq_true, decide_eq_true_eq] at h
  omega

/-- A segment that starts from a phase at rest keeps the sequencer's rule. -/
theorem serverOk_startSegment {c : Config} {v : Server} {u : State} {p : ServerState} {b : Nat} {f : LoadFormat}
    (hu : u.srv = { v with loadFormat := f, budget := b }) (hp : isSegmentPhase p = true) (hne : p ≠ .reset)
    (hfrom : v.state = .jumpVector ∨ v.state = .storeDoneSmm ∨ v.state = .executeDone) (h : ServerOk c v) :
    ServerOk c (u.enter p).srv := by
  have hnmi : v.nmiOut ≠ true := fun hn => by simp [(h.nmi hn).1] at hfrom
  have harmed : v.stackArmed ≠ true := fun ha => by
    rcases h.armed ha with hs | hs | hs <;> simp [hs] at hfrom
  have hsuccess : v.resetResult.success = true := h.success.mpr (by rcases hfrom with hs | hs | hs <;> simp [hs])
  have herror : p ≠ .error := by rintro rfl; cases hp
  apply serverOk_enter
  all_goals rw [hu]
  · exact fun _ => hp
  · exact fun hn => absurd hn hnmi
  · exact fun ha => absurd ha harmed
  · exact ⟨fun _ => ⟨hne, herror⟩, fun _ => hsuccess⟩
  · exact h.detected
  · exact h.vendor
  · exact h.smi

section AcceptedRules

variable {s : State}

/-- A segment started from a phase at rest, from a state `u` in which the program set and the sequencer are set up. -/
theorem acceptedStep_of_entered {u t : State} {p : ServerState} {b : Nat} {f : LoadFormat} (ht : Entered u p t)
    (hu : u = { s with ipset := u.ipset, srv := { s.srv with loadFormat := f, budget := b } })
    (hp : isSegmentPhase p = true) (hne : p ≠ .reset)
    (hfrom : s.srv.state = .jumpVector ∨ s.srv.state = .storeDoneSmm ∨ s.srv.state = .executeDone) :
    AcceptedStep s t := by
  have hcfg : u.cfg = s.cfg := by rw [hu]
  have hip : u.ip = s.ip := by rw [hu]
  have hsrv : u.srv = { s.srv with loadFormat := f, budget := b } := by rw [hu]
  constructor
  case frame => rw [ht.frame, hu]
  case resp => rw [ht.srv, State.enter_state, ht.frame]
  case program =>
    intro h
    rw [← hcfg, ← hip] at h
    rw [ht.ip, ← hcfg]
    exact State.enter_programOk p h
  case server =>
    rw [ht.srv]
    exact fun _ => serverOk_startSegment hsrv hp hne hfrom

theorem acceptedStep_jumpVector {t : State} {f : LoadFormat} {bytes : List Byte} (seg : Word)
    (hstate : s.srv.state = .jumpVector) (ht : Entered (s.startLoad f bytes) .jumpVector t) :
    AcceptedStep s { t with ip := vectorPatched t.ip seg } := by
  have hstep := acceptedStep_of_entered ht (State.startLoad_eq s f bytes) rfl (by decide) (.inl hstate)
  exact ⟨by rw [hstep.frame], hstep.resp, fun h => programOk_vectorPatched (hstep.program h), hstep.server⟩

theorem acceptedStep_loadSmm {t : State} {bytes : List Byte} (hstate : s.srv.state = .storeDoneSmm)
    (ht : Entered (s.startLoad .v3b bytes) .loadSmm t) : AcceptedStep s t :=
  acceptedStep_of_entered ht (State.startLoad_eq s .v3b bytes) rfl (by decide) (.inr (.inl hstate))

theorem acceptedStep_store {t : State} {b : Nat} {p : ServerState} (hp : isSegmentPhase p = true) (hne : p ≠ .reset)
    (hstate : s.srv.state = .executeDone) (ht : Entered (s.withSrv { s.srv with budget := b }) p t) :
    AcceptedStep s t :=
  acceptedStep_of_entered (f := s.srv.loadFormat) ht rfl hp hne (.inr (.inr hstate))

theorem programOk_rewound {c : Config} {p : ActiveProgram} {b : Bool} (h : ProgramOk c p) :
    ProgramOk c (if b then { p with cursor := 0 } else p) := by
  cases b
  · exact h
  · exact ⟨Nat.zero_le _, h.2⟩

theorem acceptedStep_executeFinalize (hstate : s.srv.state = .executeFinalize) : AcceptedStep s { s with
    ip := if s.srv.stalled then { s.ip with cursor := 0 } else s.ip
    srv := { s.srv with budget := s.cfg.tFinalize, stalled := false }
    resp := { state := some .executeFinalize } } where
  frame := rfl
  resp := by rw [hstate]
  program := programOk_rewound
  server _ h := {
    budget := fun _ => by rw [hstate]; rfl
    nmi := fun hn => by simp [(h.nmi hn).1] at hstate
    armed := h.armed
    success := h.success
    detected := h.detected
    vendor := h.vendor
    smi := h.smi
    stalled := nofun }

theorem acceptedStep_execute (hstate : s.srv.state = .execute) (hnmi : s.cfg.endStrategy = .nmiVector) :
    AcceptedStep s { s with
      ip := if s.srv.stalled then { s.ip with cursor := 0 } else s.ip
      srv := { s.srv with budget := s.cfg.tFinalize, nmiOut := true, stackArmed := true, stalled := false }
      resp := { state := some .execute } } where
  frame := rfl
  resp := by rw [hstate]
  program := programOk_rewound
  server hwf h := {
    budget := fun _ => by rw [hstate]; rfl
    nmi := fun _ => ⟨hstate, Config.wellFormed_tFinalize hwf, hnmi⟩
    armed := fun _ => .inl hstate
    success := h.success
    detected := h.detected
    vendor := h.vendor
    smi := h.smi
    stalled := nofun }

end AcceptedRules

/-! ### Every outcome of a command -/

/-- The phases a command goes from and to, with the budget it sets: the phase stays, or one of three edges is taken. -/
def CommandEdge (i : Instr) (s t : State) : Prop :=
  t.srv.state = s.srv.state ∧ s.srv.state ≠ .error ∨
  (∃ b d, i = .srvLoad 3 b d) ∧ s.srv.state = .storeDoneSmm ∧ t.srv.state = .loadSmm ∧ t.srv.budget = s.cfg.tLoad ∨
  i = .srvStore ∧ s.srv.state = .executeDone ∧ s.srv.budget = 0 ∧ t.srv.state = .store ∧
    t.srv.budget = s.cfg.tStore ∨
  i = .srvStoreall ∧ s.srv.state = .executeDone ∧ s.srv.budget = 0 ∧ s.cfg.pathOpts.storeall = true ∧
    t.srv.state = .storeAll ∧ t.srv.budget = s.cfg.tStoreAll

/-- The commands of the sequencer but for SRV_RESET. -/
def isCommand : Instr → Bool
  | .srvLoad _ _ _ | .srvFinalize | .srvStore | .srvStoreall => true
  | _ => false

/-- A command raises InvalidRegisterFormat or InvalidPhase, or is accepted along one of its edges. -/
def CommandStep (i : Instr) (s t : State) : Prop :=
  (∃ k, k ≠ .resetFailure ∧ t = raised s k) ∨ AcceptedStep s t ∧ CommandEdge i s t

theorem exec_srvLoad (sel : BitVec 8) (bytes : List Byte) (seg : Word) (s : State) :
    ∃ t, exec (.srvLoad sel bytes seg) s = .next t ∧ CommandStep (.srvLoad sel bytes seg) s t := by
  by_cases hbad : formatOf sel = none ∨ s.cfg.ipMaxLen < bytes.length
  · exact ⟨_, exec_srvLoad_of_badFormat hbad, .inl ⟨_, by decide, rfl⟩⟩
  · obtain ⟨hsome, hlen⟩ := not_or.mp hbad
    obtain ⟨f, hf⟩ := Option.ne_none_iff_exists'.mp hsome
    rw [Nat.not_lt] at hlen
    by_cases hjump : s.srv.state = .jumpVector ∧ s.srv.budget = 0
    · obtain ⟨t, hexec, ht⟩ := exec_srvLoad_jumpVector (seg := seg) hf hlen hjump.1 hjump.2
      refine ⟨_, hexec, .inr ⟨acceptedStep_jumpVector seg hjump.1 ht, .inl ⟨?_, by simp [hjump.1]⟩⟩⟩
      rw [ht.srv, State.enter_state, hjump.1]
    · by_cases hsmm : s.srv.state = .storeDoneSmm ∧ f = .v3b
      · obtain ⟨hstate, rfl⟩ := hsmm
        obtain ⟨t, hexec, ht⟩ := exec_srvLoad_storeDoneSmm (seg := seg) hf hlen hstate
        refine ⟨t, hexec, .inr ⟨acceptedStep_loadSmm hstate ht,
          .inr (.inl ⟨⟨bytes, seg, by rw [formatOf_eq_v3b hf]⟩, hstate, ht.state, ?_⟩)⟩⟩
        rw [ht.srv, State.enter_budget, State.startLoad_eq]
      · exact ⟨_, exec_srvLoad_of_badPhase hf hlen hjump hsmm, .inl ⟨_, by decide, rfl⟩⟩

theorem exec_srvFinalize (s : State) : ∃ t, exec .srvFinalize s = .next t ∧ CommandStep .srvFinalize s t := by
  by_cases h : s.srv.state = .executeFinalize ∧ s.srv.budget = 0
  · exact ⟨_, exec_srvFinalize_executeFinalize h.1 h.2,
      .inr ⟨acceptedStep_executeFinalize h.1, .inl ⟨rfl, by simp [h.1]⟩⟩⟩
  · by_cases h' : s.srv.state = .execute ∧ s.srv.budget = 0 ∧ s.cfg.endStrategy = .nmiVector
    · obtain ⟨hstate, hbudget, hnmi⟩ := h'
      exact ⟨_, exec_srvFinalize_execute hstate hbudget hnmi,
        .inr ⟨acceptedStep_execute hstate hnmi, .inl ⟨rfl, by simp [hstate]⟩⟩⟩
    · exact ⟨_, exec_srvFinalize_of_badPhase h h', .inl ⟨_, by decide, rfl⟩⟩

theorem exec_srvStore (s : State) : ∃ t, exec .srvStore s = .next t ∧ CommandStep .srvStore s t := by
  by_cases h : s.srv.state = .executeDone ∧ s.srv.budget = 0
  · obtain ⟨t, hexec, ht⟩ := exec_srvStore_executeDone h.1 h.2
    refine ⟨t, hexec, .inr ⟨acceptedStep_store rfl (by decide) h.1 ht, .inr (.inr (.inl ⟨rfl, h.1, h.2, ht.state, ?_⟩))⟩⟩
    rw [ht.srv, State.enter_budget, State.withSrv_srv]
  · exact ⟨_, exec_srvStore_of_badPhase h, .inl ⟨_, by decide, rfl⟩⟩

theorem exec_srvStoreall (s : State) : ∃ t, exec .srvStoreall s = .next t ∧ CommandStep .srvStoreall s t := by
  by_cases h : s.srv.state = .executeDone ∧ s.srv.budget = 0 ∧ s.cfg.pathOpts.storeall = true
  · obtain ⟨hstate, hbudget, hopt⟩ := h
    obtain ⟨t, hexec, ht⟩ := exec_srvStoreall_executeDone hstate hbudget hopt
    refine ⟨t, hexec, .inr ⟨acceptedStep_store rfl (by decide) hstate ht,
      .inr (.inr (.inr ⟨rfl, hstate, hbudget, hopt, ht.state, ?_⟩))⟩⟩
    rw [ht.srv, State.enter_budget, State.withSrv_srv]
  · exact ⟨_, exec_srvStoreall_of_badPhase h, .inl ⟨_, by decide, rfl⟩⟩

theorem exec_command {i : Instr} (h : isCommand i = true) (s : State) : ∃ t, exec i s = .next t ∧ CommandStep i s t := by
  cases i <;> try cases h
  case srvLoad sel bytes seg => exact exec_srvLoad sel bytes seg s
  case srvFinalize => exact exec_srvFinalize s
  case srvStore => exact exec_srvStore s
  case srvStoreall => exact exec_srvStoreall s

end Sys2Proof.Machine
end

section
/-! Rules of PHASE_STEP in a tick (46_phase_sequencer.md R320, R330, R338): which of its branches is taken, the error a
tick raises, and what the tick does to the phase, the budget and the active program. -/

namespace Sys2Proof.Machine

open Sys2Proof

/-! ### The branches of PHASE_STEP -/

theorem State.countIdCycle_eq (s : State) (r : CycleResult) : s.countIdCycle r = { s with srv := { s.srv with
    idCycles := s.srv.idCycles + if s.srv.state = .cpuId ∧ r.ended = true then 1 else 0 } } := by
  unfold State.countIdCycle
  split <;> rfl

/-- The edge of the NMI vector: the fetch is counted, NMI released, ExecuteFinalize entered (R335). -/
def State.takeNmiEdge (s : State) : State :=
  (s.withSrv { s.srv with nmiFetchCount := s.srv.nmiFetchCount + 1, nmiOut := false }).enter .executeFinalize

section Branches

variable {s : State} (pins : Pins) {r : CycleResult} {qr : QueueReport}

theorem nmiEdge_countIdCycle : nmiEdge (s.countIdCycle r) r = nmiEdge s r := by rw [State.countIdCycle_eq]; rfl

theorem State.phaseStep_of_storeDone (h : s.srv.state = .storeDone) :
    s.phaseStep pins r qr = ((s.countIdCycle r).enter .done, none) := by
  have hstate : (s.countIdCycle r).srv.state = .storeDone := by rw [State.countIdCycle_eq]; exact h
  simp only [State.phaseStep, hstate, if_true]

theorem State.phaseStep_of_queueTag (h : s.srv.state = .execute) (hq : queueTagEdge s.cfg qr = true) :
    s.phaseStep pins r qr = ((s.countIdCycle r).enter .executeFinalize, none) := by
  have hstate : (s.countIdCycle r).srv.state = .execute := by rw [State.countIdCycle_eq]; exact h
  have hcfg : (s.countIdCycle r).cfg = s.cfg := by rw [State.countIdCycle_eq]
  simp [State.phaseStep, hstate, hcfg, hq]

theorem State.phaseStep_of_nmi (h : s.srv.state = .execute) (hq : queueTagEdge s.cfg qr = false)
    (hn : nmiEdge s r = true) :
    s.phaseStep pins r qr = ((s.countIdCycle r).takeNmiEdge).runSegment .executeFinalize pins r := by
  have hstate : (s.countIdCycle r).srv.state = .execute := by rw [State.countIdCycle_eq]; exact h
  have hcfg : (s.countIdCycle r).cfg = s.cfg := by rw [State.countIdCycle_eq]
  simp [State.phaseStep, hstate, hcfg, hq, nmiEdge_countIdCycle, hn, State.takeNmiEdge]

theorem State.phaseStep_of_segment (h : s.srv.state ≠ .storeDone)
    (hq : s.srv.state = .execute → queueTagEdge s.cfg qr = false ∧ nmiEdge s r = false) :
    s.phaseStep pins r qr = (s.countIdCycle r).runSegment s.srv.state pins r := by
  have hstate : (s.countIdCycle r).srv.state = s.srv.state := by rw [State.countIdCycle_eq]
  have hcfg : (s.countIdCycle r).cfg = s.cfg := by rw [State.countIdCycle_eq]
  have hno : ¬(s.srv.state = .execute ∧ queueTagEdge s.cfg qr = true) := fun ⟨he, ht⟩ => by simp [(hq he).1] at ht
  have hno' : ¬(s.srv.state = .execute ∧ nmiEdge s r = true) := fun ⟨he, ht⟩ => by simp [(hq he).2] at ht
  simp only [State.phaseStep, hstate, hcfg, nmiEdge_countIdCycle, if_neg h, if_neg hno, if_neg hno']

/-- PHASE_STEP takes one of four branches. -/
theorem State.phaseStep_branches (s : State) (r : CycleResult) (qr : QueueReport) :
    s.srv.state = .storeDone ∨ s.srv.state = .execute ∧ queueTagEdge s.cfg qr = true ∨
    s.srv.state = .execute ∧ queueTagEdge s.cfg qr = false ∧ nmiEdge s r = true ∨
    s.srv.state ≠ .storeDone ∧ (s.srv.state = .execute → queueTagEdge s.cfg qr = false ∧ nmiEdge s r = false) := by
  by_cases hs : s.srv.state = .storeDone
  · exact .inl hs
  · by_cases he : s.srv.state = .execute
    · cases hq : queueTagEdge s.cfg qr with
      | true => exact .inr (.inl ⟨he, rfl⟩)
      | false =>
        cases hn : nmiEdge s r with
        | true => exact .inr (.inr (.inl ⟨he, rfl, rfl⟩))
        | false => exact .inr (.inr (.inr ⟨hs, fun _ => ⟨rfl, rfl⟩⟩))
    · exact .inr (.inr (.inr ⟨hs, fun h => absurd h he⟩))

end Branches

/-! ### The error of a tick -/

/-- Whether and how PHASE_STEP ended in an error, from the state `s` to the state `t`. -/
inductive PhaseError (s t : State) : Option ErrorKind → Prop
  | none (kept : t.flags.lastError = s.flags.lastError) (state : t.srv.state ≠ .error) : PhaseError s t none
  | resetFailure (spent : s.srv.budget = 1) (phase : isResetPhase s.srv.state = true)
      (recorded : t.flags.lastError = some .resetFailure) (state : t.srv.state = .error) (budget : t.srv.budget = 0)
      (nmi : t.srv.nmiOut = false) (success : t.srv.resetResult.success = false) : PhaseError s t (some .resetFailure)
  | phaseTimeout (spent : s.srv.budget = 1) (recorded : t.flags.lastError = some .phaseTimeout)
      (phase : isResetPhase t.srv.state = false) (state : t.srv.state ≠ .error) (budget : t.srv.budget = 0)
      (nmi : t.srv.nmiOut = false) : PhaseError s t (some .phaseTimeout)

/-- The error depends on the sequencer and the last error alone. -/
theorem PhaseError.congr {s s' t t' : State} {e : Option ErrorKind} (h : PhaseError s t e)
    (hbudget : s'.srv.budget = s.srv.budget)
    (hphase : isResetPhase s.srv.state = true → isResetPhase s'.srv.state = true)
    (herror : s'.flags.lastError = s.flags.lastError) (hsrv : t'.srv = t.srv)
    (herror' : t'.flags.lastError = t.flags.lastError) : PhaseError s' t' e := by
  cases h with
  | none kept state => exact .none (by rw [herror', kept, herror]) (by rwa [hsrv])
  | resetFailure spent phase recorded state budget nmi success =>
    refine .resetFailure (hbudget.trans spent) (hphase phase) (herror'.trans recorded) ?_ ?_ ?_ ?_
    all_goals rwa [hsrv]
  | phaseTimeout spent recorded phase state budget nmi =>
    refine .phaseTimeout (hbudget.trans spent) (herror'.trans recorded) ?_ ?_ ?_ ?_
    all_goals rwa [hsrv]

theorem successor_ne_error {c : Config} {f : LoadFormat} {p q : ServerState} {rest : Bool}
    (h : successor c f p = some (q, rest)) : q ≠ .error := (successor_spec h).2.1

theorem State.runSegment_error {s : State} {p : ServerState} (pins : Pins) (r : CycleResult) (hp : s.srv.state = p)
    (hne : p ≠ .error) : PhaseError s (s.runSegment p pins r).1 (s.runSegment p pins r).2 := by
  have hstate : ∀ q, q = p ∨ (∃ rest, successor s.cfg s.srv.loadFormat p = some (q, rest)) → q ≠ .error := by
    rintro q (rfl | ⟨rest, hq⟩)
    · exact hne
    · exact successor_ne_error hq
  rcases s.runSegment_cases p pins r hp with ⟨he, hf, -, -, hq, -⟩ | ⟨he, hb, hr, hq, hb', hn, hs, hf⟩ |
    ⟨he, hb, hb', hn, hr, hq, hf⟩
  · rw [he]
    exact .none (by rw [hf]) (hstate _ (hq.imp_right fun ⟨rest, h, _⟩ => ⟨rest, h⟩))
  · rw [he]
    exact .resetFailure hb (by rwa [hp]) (by rw [hf]) hq hb' hn hs
  · rw [he]
    exact .phaseTimeout hb (by rw [hf]) hr (hstate _ (hq.imp_right fun ⟨rest, h, _⟩ => ⟨rest, h⟩)) hb' hn

theorem State.phaseStep_error {s : State} (pins : Pins) (r : CycleResult) (qr : QueueReport)
    (hne : s.srv.state ≠ .error) : PhaseError s (s.phaseStep pins r qr).1 (s.phaseStep pins r qr).2 := by
  have hcount : (s.countIdCycle r).srv.state = s.srv.state ∧ (s.countIdCycle r).srv.budget = s.srv.budget ∧
      (s.countIdCycle r).flags = s.flags := by rw [State.countIdCycle_eq]; exact ⟨rfl, rfl, rfl⟩
  obtain ⟨hstate, hbudget, hflags⟩ := hcount
  rcases s.phaseStep_branches r qr with h | ⟨h, hq⟩ | ⟨h, hq, hn⟩ | ⟨h, hq⟩
  · rw [State.phaseStep_of_storeDone pins h]
    exact .none (by rw [State.enter_flags, hflags]) (by rw [State.enter_state]; decide)
  · rw [State.phaseStep_of_queueTag pins h hq]
    exact .none (by rw [State.enter_flags, hflags]) (by rw [State.enter_state]; decide)
  · rw [State.phaseStep_of_nmi pins h hq hn]
    have herror := State.runSegment_error (s := (s.countIdCycle r).takeNmiEdge) (p := .executeFinalize) pins r
      (State.enter_state _ _) (by decide)
    refine herror.congr ?_ ?_ ?_ rfl rfl
    · rw [State.takeNmiEdge, State.enter_budget, State.withSrv_srv, hbudget]
    · rw [State.takeNmiEdge, State.enter_state]
      nofun
    · rw [State.takeNmiEdge, State.enter_flags, State.withSrv_flags, hflags]
  · rw [State.phaseStep_of_segment pins h hq]
    refine (State.runSegment_error pins r hstate hne).congr hbudget.symm ?_ (by rw [hflags]) rfl rfl
    rw [hstate]
    exact id

/-! ### The state PHASE_STEP starts from -/

section AfterLog

variable (s : State) (p : Pins) (d : Word) (g : Tag)

@[simp] theorem afterLog_cfg : (afterLog s p d g).cfg = s.cfg := by
  obtain ⟨e, f, h⟩ := afterLog_eq s p d g
  rw [h]
  exact afterData_cfg s p d g

@[simp] theorem afterLog_ipset : (afterLog s p d g).ipset = s.ipset := by
  obtain ⟨e, f, h⟩ := afterLog_eq s p d g
  rw [h]
  simp only [afterData, State.dataStep_ipset, afterAdvance_eq]

theorem afterLog_bcs : (afterLog s p d g).bcs = (ticked s p d g).bcs := by
  obtain ⟨e, f, h⟩ := afterLog_eq s p d g
  rw [h, ticked_bcs]

theorem afterLog_lastError : (afterLog s p d g).flags.lastError = s.flags.lastError := by
  obtain ⟨e, f, h⟩ := afterLog_eq s p d g
  obtain ⟨a, b, c, hflags⟩ := afterData_flags s p d g
  rw [h]
  simp only [hflags]

/-- Steps 1 to 5 count the tick and, where they apply, the captured write and the end of the program. -/
theorem afterLog_srv : (afterLog s p d g).srv = { s.srv with
    tickCount := s.srv.tickCount + 1
    programEnded := (afterData s p d g).srv.programEnded
    stackCaptureCursor := s.srv.stackCaptureCursor +
      if (tickCycle s p).ended = true ∧ s.srv.stackArmed = true ∧ s.bcs.latchedStatus = .memWrite then 1 else 0 } := by
  obtain ⟨e, f, h⟩ := afterLog_eq s p d g
  obtain ⟨x, hx⟩ := afterData_srv s p d g
  have hsrv : (afterLog s p d g).srv = (afterData s p d g).srv := by rw [h]
  rw [hsrv, hx]

@[simp] theorem afterLog_state : (afterLog s p d g).srv.state = s.srv.state := by rw [afterLog_srv]
@[simp] theorem afterLog_budget : (afterLog s p d g).srv.budget = s.srv.budget := by rw [afterLog_srv]
@[simp] theorem afterLog_nmiOut : (afterLog s p d g).srv.nmiOut = s.srv.nmiOut := by rw [afterLog_srv]
@[simp] theorem afterLog_loadFormat : (afterLog s p d g).srv.loadFormat = s.srv.loadFormat := by rw [afterLog_srv]

/-- The NMI edge of a tick: a read enters T1 at the vector address while NMI is asserted. -/
theorem nmiEdge_afterLog_iff : nmiEdge (afterLog s p d g) (tickCycle s p) = true ↔
    s.srv.nmiOut = true ∧ (s.bcs.tcycle ≠ .t1 ∧ (ticked s p d g).bcs.tcycle = .t1) ∧
    isRead (ticked s p d g).bcs.latchedStatus = true ∧
    (ticked s p d g).bcs.addressLatch = maskAddr s.cfg s.cfg.nmiVectorAddr := by
  rw [← tickCycle_enteredT1_iff s p d g, ← afterLog_bcs]
  simp only [nmiEdge, afterLog_nmiOut, afterLog_cfg, Bool.and_eq_true, beq_iff_eq, and_assoc]

/-- The error of a processed tick. -/
theorem ticked_phaseError (hne : s.srv.state ≠ .error) :
    PhaseError s (ticked s p d g) (ticked s p d g).resp.err := by
  have herror := State.phaseStep_error (s := afterLog s p d g) p (tickCycle s p) (tickReport s p d g)
    (by rwa [afterLog_state])
  rw [← ticked_err] at herror
  refine herror.congr (by simp) (by simp) (afterLog_lastError s p d g).symm (ticked_srv s p d g) ?_
  show (engineTick s p d g).state.flags.lastError = _
  rw [engineTick_eq]

/-! ### The view of a tick -/

/-- The phase, the program and its flags as step 6 finds them. -/
def viewBefore (s t : State) : PhaseView := phaseView (stateBeforeEdge s t)

theorem phaseView_afterLog : phaseView (afterLog s p d g) = viewBefore s (ticked s p d g) := by
  have hview : phaseView (afterLog s p d g) = phaseView ((afterLog s p d g).countIdCycle (tickCycle s p)) := by
    rw [State.countIdCycle_eq]
    rfl
  rw [hview, afterLog_countIdCycle_eq s p d g (tickResponse (engineTick s p d g))]
  rfl

theorem viewBefore_eq (s t : State) : viewBefore s t = {
    phase := s.srv.state
    ip := programAfterFeed s t
    programEnded := s.srv.programEnded || fedInTick s t && servedFill s.bcs t.bcs.fedNprog s.srv.state
    stackArmed := s.srv.stackArmed } := rfl

theorem phaseView_ticked : phaseView (ticked s p d g) =
    phaseView ((afterLog s p d g).phaseStep p (tickCycle s p) (tickReport s p d g)).1 := by
  rw [phaseView, phaseView, ticked_srv, ticked_ip]

/-- Everything a processed tick can make of the phase, the program and the budget. -/
theorem ticked_view :
    (s.srv.state = .storeDone ∧ phaseView (ticked s p d g) =
        (viewBefore s (ticked s p d g)).enter s.cfg s.srv.loadFormat s.ipset .done ∧
      (ticked s p d g).srv.budget = s.srv.budget) ∨
    (s.srv.state = .execute ∧ queueTagEdge s.cfg (tickReport s p d g) = true ∧ phaseView (ticked s p d g) =
        (viewBefore s (ticked s p d g)).enter s.cfg s.srv.loadFormat s.ipset .executeFinalize ∧
      (ticked s p d g).srv.budget = s.srv.budget) ∨
    (s.srv.state = .execute ∧ nmiEdge (afterLog s p d g) (tickCycle s p) = true ∧
      SegmentResult s.cfg s.srv.loadFormat s.ipset
        ((viewBefore s (ticked s p d g)).enter s.cfg s.srv.loadFormat s.ipset .executeFinalize) s.srv.budget
        (phaseView (ticked s p d g)) (ticked s p d g).srv.budget) ∨
    (s.srv.state ≠ .storeDone ∧
      SegmentResult s.cfg s.srv.loadFormat s.ipset (viewBefore s (ticked s p d g)) s.srv.budget
        (phaseView (ticked s p d g)) (ticked s p d g).srv.budget) := by
  have h := (afterLog s p d g).phaseStep_view p (tickCycle s p) (tickReport s p d g)
  rw [← phaseView_ticked, ← ticked_srv, phaseView_afterLog, afterLog_cfg, afterLog_ipset, afterLog_state,
    afterLog_budget, afterLog_loadFormat] at h
  exact h

end AfterLog

end Sys2Proof.Machine
end

section
/-! Proofs of what holds of every operation: reserved codes (30_encoding.md R109), totality (00_scope.md R14), the
invariant (10_state.md R42), the latched status (R42 b), the edges of the sequencer (46_phase_sequencer.md R330), the
phase Error (R339, R347 d), and errors, refusals and anomalies (60_exceptions.md R381, R384, R385). -/

namespace Sys2Proof.Machine

open Sys2Proof

/-- An operation is one on a component, a command, a tick or the host reset. -/
theorem instr_cases (i : Instr) : isComponentOperation i = true ∨ isCommand i = true ∨
    (∃ p d g, i = .engineTick p d g) ∨ ∃ b sel, i = .srvReset b sel := by
  cases i
  case engineTick p d g => exact .inr (.inr (.inl ⟨p, d, g, rfl⟩))
  case srvReset b sel => exact .inr (.inr (.inr ⟨b, sel, rfl⟩))
  case srvLoad => exact .inr (.inl rfl)
  case srvFinalize => exact .inr (.inl rfl)
  case srvStore => exact .inr (.inl rfl)
  case srvStoreall => exact .inr (.inl rfl)
  all_goals exact .inl rfl

theorem commandStep_of_exec {i : Instr} {s t : State} (hi : isCommand i = true) (h : exec i s = .next t) :
    CommandStep i s t := by
  obtain ⟨u, hu, hstep⟩ := exec_command hi s
  rw [h] at hu
  cases hu
  exact hstep

theorem eq_hostReset {b : Bool} {sel : BitVec 8} {s t : State} (h : exec (.srvReset b sel) s = .next t) :
    t = { s.hostReset b (sel.getLsbD 0) with resp := { state := some .reset } } := by
  rw [exec_srvReset] at h
  cases h
  rfl

/-! ### Reserved codes -/

theorem isWidth_eq_false {w : WidthCode} (h : w.isWidth = false) : w = .code3 := by
  cases w
  · cases h
  · rfl

/-- An operand outside its type's codes makes the operation refuse (30_encoding.md R109). -/
theorem exec_of_illFormed {i : Instr} (s : State) (hwf : i.wellFormed = false)
    (hcycle : ∀ c st lst d, i ≠ .nextCycle c st lst d) (hload : ∀ sel b d, i ≠ .srvLoad sel b d) :
    exec i s = .next { s with resp := { ok := false } } := by
  cases i with
  | nextCycle c st lst d => exact absurd rfl (hcycle c st lst d)
  | srvLoad sel b d => exact absurd rfl (hload sel b d)
  | xcvrSet sel w d =>
    obtain rfl := isWidth_eq_false hwf
    exact exec_xcvrSet_code3 sel d s
  | qReset sel =>
    simp only [Instr.wellFormed, Bool.or_eq_false_iff, beq_eq_false_iff_ne] at hwf
    exact exec_qReset_of_none s (capacityOf_eq_none hwf.1 hwf.2)
  | qHasRoom w =>
    obtain rfl := isWidth_eq_false hwf
    exact exec_qHasRoom_code3 s
  | qPush d g w =>
    obtain rfl := isWidth_eq_false hwf
    exact exec_qPush_code3 d g s
  | ipRead addr w =>
    obtain rfl := isWidth_eq_false hwf
    exact exec_ipRead_code3 addr s
  | ipReadAt base addr w =>
    obtain rfl := isWidth_eq_false hwf
    exact exec_ipReadAt_code3 base addr s
  | mbIoRead addr w =>
    obtain rfl := isWidth_eq_false hwf
    rfl
  | mbIoWrite addr w d =>
    obtain rfl := isWidth_eq_false hwf
    rfl
  | mbSetDefault sel seed =>
    exact exec_mbSetDefault_of_none seed s (strategyOf_of_le (by simpa [Instr.wellFormed] using hwf))
  | mbSelect sel => exact exec_mbSelect_of_none s (variantOf_of_le (by simpa [Instr.wellFormed] using hwf))
  | logAppend k w addr d =>
    obtain rfl : k = .passive := by simpa [Instr.wellFormed] using hwf
    exact exec_logAppend_passive w addr d s
  | _ => cases hwf

/-- Settles O3: a code outside the map is read as no operation, and an ill-formed operand refuses. -/
theorem reservedCodesChangeNothing : Obligations.ReservedCodesChangeNothing := by
  refine ⟨fun s r l hs hcode => ?_, fun i s => exec_of_illFormed s⟩
  obtain ⟨e, he⟩ := decode_of_isReservedCode (r := r) hcode
  exact step_of_illegal hs he

/-! ### Totality -/

/-- Settles O5: each kind of operation answers, and only SRV_RESET writes the configuration. -/
theorem operationsAreTotal : Obligations.OperationsAreTotal := by
  intro i s
  rcases instr_cases i with hi | hi | ⟨p, d, g, rfl⟩ | ⟨b, sel, rfl⟩
  · obtain ⟨t, ht, hstep⟩ := stepsComponent hi s
    have hcfg : t.cfg = s.cfg := by rw [hstep.frame]
    exact ⟨t, ht, by rw [hstep.frame], by rw [hcfg], fun _ => hcfg⟩
  · obtain ⟨t, ht, ⟨k, -, rfl⟩ | ⟨hstep, -⟩⟩ := exec_command hi s
    · exact ⟨_, ht, rfl, rfl, fun _ => rfl⟩
    · have hcfg : t.cfg = s.cfg := by rw [hstep.frame]
      exact ⟨t, ht, by rw [hstep.frame], by rw [hcfg], fun _ => hcfg⟩
  · by_cases h : s.srv.state = .error ∨ s.srv.state = .shutdown
    · exact ⟨_, exec_engineTick_of_terminal s p d g h, rfl, rfl, fun _ => rfl⟩
    · obtain ⟨he, hs⟩ := not_or.mp h
      exact ⟨_, exec_engineTick_of_running s p d g he hs, ticked_host s p d g, by rw [ticked_cfg],
        fun _ => ticked_cfg s p d g⟩
  · exact ⟨_, exec_srvReset b sel s, rfl, rfl, fun h => absurd rfl (h b sel)⟩

/-! ### The latched status -/

section LatchedStatus

variable {c : Config} {b : BusCycle} {p : Pins} {l : CmdLines}

theorem nextCycle_eq_t1 {v : CycleVariant} {cyc : TCycle} {st lst : BusStatus} {done : Bool}
    (h : nextCycle v (.cycle cyc) st lst done = .t1) : st ≠ .passive ∨ cyc = .t1 := by
  cases v
  case fourState =>
    rw [nextCycle_fourState] at h
    cases done <;> cases cyc <;> simp_all [nextCycleFour]
  case twoState =>
    rw [nextCycle_twoState] at h
    cases done <;> cases cyc <;> simp_all [nextCycleTwo]

/-- T1 is entered on an active status alone. -/
theorem status_of_tickNext_t1 (hn : tickNext c b p l = .t1) (hb : b.tcycle ≠ .t1) :
    (decodeStatus c p.rawStatus p.statusValid).1 ≠ .passive :=
  (nextCycle_eq_t1 hn).resolve_right hb

/-- A tick changes the latched status where it enters T1 or Idle alone. -/
theorem tickBusCycle_latchedStatus (h : (tickBusCycle c b p l).latchedStatus ≠ b.latchedStatus) :
    (tickBusCycle c b p l).tcycle ≠ b.tcycle ∧
    ((tickBusCycle c b p l).tcycle = .t1 ∧
        (tickBusCycle c b p l).latchedStatus = (tickBusCycle c b p l).status ∧
        (tickBusCycle c b p l).latchedStatus ≠ .passive ∨
      (tickBusCycle c b p l).tcycle = .idle ∧ (tickBusCycle c b p l).latchedStatus = .passive) := by
  by_cases h1 : tickNext c b p l = .t1 ∧ b.tcycle ≠ .t1
  · rw [tickBusCycle_entersT1 h1.1 h1.2]
    exact ⟨h1.2.symm, .inl ⟨rfl, rfl, status_of_tickNext_t1 h1.1 h1.2⟩⟩
  · by_cases h2 : tickNext c b p l = .idle ∧ b.tcycle ≠ .idle
    · rw [tickBusCycle_entersIdle h2.1 h2.2]
      exact ⟨h2.2.symm, .inr ⟨rfl, rfl⟩⟩
    · rw [tickBusCycle_stays h1 h2] at h
      exact absurd rfl h

end LatchedStatus

/-- Settles O16: of the operations only the resets and the two ticks write the latches, and a tick writes the latched
status as `tickBusCycle_latchedStatus` says. -/
theorem latchedStatusIsFixed : Obligations.LatchedStatusIsFixed := by
  intro i s t h hne
  rcases instr_cases i with hi | hi | ⟨p, d, g, rfl⟩ | ⟨b, sel, rfl⟩
  · rcases (componentStep_of_exec hi h).latches with hbcs | hreset | ⟨p, l, rfl, hbcs⟩
    · rw [hbcs] at hne
      exact absurd rfl hne
    · exact .inl hreset
    · rw [hbcs] at hne ⊢
      exact .inr (.inr ⟨.inl ⟨p, l, rfl⟩, tickBusCycle_latchedStatus hne⟩)
  · have hbcs : t.bcs = s.bcs := by
      rcases commandStep_of_exec hi h with ⟨k, -, rfl⟩ | ⟨hstep, -⟩
      · rfl
      · rw [hstep.frame]
    rw [hbcs] at hne
    exact absurd rfl hne
  · rcases exec_engineTick_cases h with ⟨-, rfl⟩ | ⟨-, rfl⟩
    · exact absurd rfl hne
    · obtain ⟨w, n, f, hbcs⟩ := afterData_bcs s p d g
      rw [ticked_bcs, hbcs] at hne ⊢
      exact .inr (.inr ⟨.inr ⟨p, d, g, rfl⟩, tickBusCycle_latchedStatus hne⟩)
  · exact .inr (.inl ⟨b, sel, rfl⟩)

/-! ### The invariant -/

theorem programOk_programAfterFeed {c : Config} {s t : State} (h : ProgramOk c s.ip) :
    ProgramOk c (programAfterFeed s t) := by
  unfold programAfterFeed
  split
  · exact ⟨Nat.min_le_right _ _, h.2⟩
  · exact h

/-- Steps 1 to 3 keep the latches of the bus-cycle machine: a feed comes after T1. -/
theorem busCycleOk_afterData (s : State) (p : Pins) (d : Word) (g : Tag) (h : BusCycleOk s.cfg s.bcs) :
    BusCycleOk s.cfg (afterData s p d g).bcs := by
  have hadvance : (afterAdvance s p).bcs = tickBusCycle s.cfg s.bcs p (tickLines s.cfg s.bc p) := by rw [afterAdvance_eq]
  have htick := busCycleOk_tick p (tickLines s.cfg s.bc p) h
  rw [← hadvance] at htick
  unfold afterData
  rw [State.dataStep_bcs]
  split
  · rename_i hfeeds
    refine busCycleOk_fed htick _ _ ((State.feedData_nprog _ _ _ _ _).trans (validBytes_le _)) fun ht1 => ?_
    have hfed := htick.fed ht1
    rw [(afterAdvance_bcs_of_feeds s p hfeeds).2] at ht1
    simp only at ht1
    simp [feedsNow, entersData, ht1] at hfeeds
    split at hfeeds <;> simp at hfeeds
  · exact htick

theorem serverOk_afterLog (s : State) (p : Pins) (d : Word) (g : Tag) (h : ServerOk s.cfg s.srv) :
    ServerOk (afterLog s p d g).cfg (afterLog s p d g).srv := by
  rw [afterLog_cfg, afterLog_srv]
  exact ⟨h.budget, h.nmi, h.armed, h.success, h.detected, h.vendor, h.smi, h.stalled⟩

theorem ticked_inv {s : State} (p : Pins) (d : Word) (g : Tag) (h : s.Inv) : (ticked s p d g).Inv := by
  constructor
  case config => rw [ticked_cfg]; exact h.config
  case queue =>
    rw [ticked_q]
    exact State.queueStep_ok (afterData s p d g) s.bcs (tickCycle s p) p (by rw [afterData_q]; exact h.queue)
  case program =>
    have hip : (afterLog s p d g).ip = programAfterFeed s (ticked s p d g) :=
      congrArg PhaseView.ip (phaseView_afterLog s p d g)
    have hok := (PhaseFrame.phaseStep (afterLog s p d g) p (tickCycle s p) (tickReport s p d g)).program
    rw [hip, afterLog_cfg] at hok
    rw [ticked_cfg, ticked_ip]
    exact hok (programOk_programAfterFeed h.program)
  case memory =>
    have hwf := State.dataStep_wf (afterAdvance s p) s.bcs (tickCycle s p) p d g (by rw [afterAdvance_eq]; exact h.memory)
    rw [ticked_cfg, ticked_mb]
    rwa [show (afterAdvance s p).cfg = s.cfg by rw [afterAdvance_eq]] at hwf
  case log =>
    rw [ticked_log]
    split
    · rename_i hended
      exact logOk_logAppended h.log hended.2
    · exact h.log
  case busCycle =>
    rw [ticked_cfg, ticked_bcs]
    exact busCycleOk_afterData s p d g h.busCycle
  case controller =>
    rw [ticked_bc]
    exact controllerOk_controllerAfter _ _ _ _ h.controller
  case server =>
    rw [ticked_cfg, ticked_srv, ← afterLog_cfg s p d g]
    exact serverOk_phaseStep p (tickCycle s p) (tickReport s p d g) (serverOk_afterLog s p d g h.server)

/-- The error recorded last and the response have no part in the invariant. -/
theorem raised_inv {s : State} (k : ErrorKind) (h : s.Inv) : (raised s k).Inv :=
  ⟨h.config, h.queue, h.program, h.memory, h.log, h.busCycle, h.controller, h.server⟩

theorem AcceptedStep.inv {s t : State} (h : AcceptedStep s t) (hs : s.Inv) : t.Inv := by
  have hcfg : t.cfg = s.cfg := by rw [h.frame]
  have hmb : t.mb = s.mb := by rw [h.frame]
  have hbcs : t.bcs = s.bcs := by rw [h.frame]
  constructor
  case config => rw [hcfg]; exact hs.config
  case queue => rw [h.frame]; exact hs.queue
  case program => rw [hcfg]; exact h.program hs.program
  case memory => rw [hcfg, hmb]; exact hs.memory
  case log => rw [h.frame]; exact hs.log
  case busCycle => rw [hcfg, hbcs]; exact hs.busCycle
  case controller => rw [h.frame]; exact hs.controller
  case server => rw [hcfg]; exact h.server hs.config hs.server

theorem State.hostReset_inv {s : State} (b q : Bool) (h : s.Inv) : (s.hostReset b q).Inv where
  config := h.config
  queue := queueOk_powerOn _
  program := ⟨Nat.zero_le _, Nat.zero_le _⟩
  memory := h.memory
  log := logOk_logCleared s.log
  busCycle := busCycleOk_powerOn _
  controller := controllerOk_powerOn
  server := {
    budget := fun _ => rfl
    nmi := nofun
    armed := nofun
    success := by simp [State.hostReset, Server.powerOn]
    detected := ⟨rfl, rfl⟩
    vendor := fun _ => rfl
    smi := rfl
    stalled := nofun }

theorem exec_inv {i : Instr} {s t : State} (h : exec i s = .next t) (hs : s.Inv) : t.Inv := by
  rcases instr_cases i with hi | hi | ⟨p, d, g, rfl⟩ | ⟨b, sel, rfl⟩
  · exact (componentStep_of_exec hi h).inv hs
  · rcases commandStep_of_exec hi h with ⟨k, -, rfl⟩ | ⟨hstep, -⟩
    · exact raised_inv k hs
    · exact hstep.inv hs
  · rcases exec_engineTick_cases h with ⟨-, rfl⟩ | ⟨-, rfl⟩
    · exact raised_inv _ hs
    · exact ticked_inv p d g hs
  · obtain rfl := eq_hostReset h
    have hreset := State.hostReset_inv b (sel.getLsbD 0) hs
    exact ⟨hreset.config, hreset.queue, hreset.program, hreset.memory, hreset.log, hreset.busCycle, hreset.controller,
      hreset.server⟩

/-- Neither the host's list of events nor the response has a part in the invariant. -/
theorem State.Inv.withHost {s : State} (l : List HostEvent) (r : Response) (h : s.Inv) :
    { s with host := l, resp := r }.Inv :=
  ⟨h.config, h.queue, h.program, h.memory, h.log, h.busCycle, h.controller, h.server⟩

/-- Settles O9: the event is taken from the host, and every operation keeps the invariant (`exec_inv`). -/
theorem everyStepKeepsTheInvariant : Obligations.EveryStepKeepsTheInvariant := by
  intro s t hs h
  cases hhost : s.host with
  | nil =>
    rw [step_of_quiet hhost] at h
    cases h
    exact hs
  | cons e l =>
    cases e with
    | lateParameters =>
      rw [step_of_lateParameters hhost] at h
      cases h
      exact raised_inv .protocolTimeout (hs.withHost l s.resp)
    | request r =>
      cases hd : decode r with
      | error e =>
        rw [step_of_illegal hhost hd] at h
        cases h
        exact hs.withHost l _
      | ok i =>
        rw [step_of_request hhost hd] at h
        exact exec_inv h (hs.withHost l s.resp)

/-! ### Errors, refusals and anomalies -/

/-- A processed tick keeps every anomaly flag that is set. -/
theorem ticked_sticky (s : State) (p : Pins) (d : Word) (g : Tag) (a : Anomaly) (h : anomalySet s.flags a = true) :
    anomalySet (ticked s p d g).flags a = true := by
  obtain ⟨e, f, hstate⟩ := engineTick_state s p d g
  obtain ⟨x, y, z, hflags⟩ := afterData_flags s p d g
  show anomalySet (engineTick s p d g).state.flags a = true
  rw [hstate]
  simp only [hflags]
  cases a <;> exact Bool.or_eq_true_iff.mpr (.inl h)

theorem recorded_ticked (s : State) (p : Pins) (d : Word) (g : Tag) (hne : s.srv.state ≠ .error) :
    Recorded s (ticked s p d g) := by
  have herror := ticked_phaseError s p d g hne
  have hok : (ticked s p d g).resp.ok = (ticked s p d g).resp.err.isNone := rfl
  have hlegal : (ticked s p d g).resp.illegal = false := rfl
  have hsticky := ticked_sticky s p d g
  generalize ticked s p d g = t at herror hok hlegal hsticky
  generalize he : t.resp.err = e at herror hok
  cases herror with
  | none kept _ => exact recorded_done ⟨hsticky, kept⟩ hok he hlegal
  | resetFailure _ _ recorded =>
    refine ⟨fun k hk => ?_, fun hn => ?_, fun hn => ?_, hsticky, hlegal⟩
    · rw [he] at hk
      cases hk
      exact ⟨recorded, hok⟩
    · rw [he] at hn; cases hn
    · rw [he] at hn; cases hn
  | phaseTimeout _ recorded =>
    refine ⟨fun k hk => ?_, fun hn => ?_, fun hn => ?_, hsticky, hlegal⟩
    · rw [he] at hk
      cases hk
      exact ⟨recorded, hok⟩
    · rw [he] at hn; cases hn
    · rw [he] at hn; cases hn

theorem AcceptedStep.recorded {s t : State} (h : AcceptedStep s t) : Recorded s t := by
  refine recorded_done ?_ (by rw [h.resp]) (by rw [h.resp]) (by rw [h.resp])
  rw [h.frame]
  exact FlagsKept.refl _

/-- Settles O59: every kind of operation but SRV_RESET is `Recorded`. -/
theorem errorsRefusalsAndStickyFlags : Obligations.ErrorsRefusalsAndStickyFlags := by
  intro i s t h hreset
  have hrecorded : Recorded s t := by
    rcases instr_cases i with hi | hi | ⟨p, d, g, rfl⟩ | ⟨b, sel, rfl⟩
    · exact (componentStep_of_exec hi h).recorded
    · rcases commandStep_of_exec hi h with ⟨k, -, rfl⟩ | ⟨hstep, -⟩
      · exact recorded_raised k (FlagsKept.refl _)
      · exact hstep.recorded
    · rcases exec_engineTick_cases h with ⟨-, rfl⟩ | ⟨⟨hne, -⟩, rfl⟩
      · exact recorded_raised _ (FlagsKept.refl _)
      · exact recorded_ticked s p d g hne
    · exact absurd rfl (hreset b sel)
  exact ⟨hrecorded.error, hrecorded.lastError, hrecorded.refusal, hrecorded.sticky, hrecorded.legal⟩

/-! ### The phase Error -/

theorem isResetPhase_iff {p : ServerState} : isResetPhase p = true ↔ p = .reset ∨ p = .cpuId ∨ p = .cpuSetup := by
  cases p <;> simp [isResetPhase]

/-- What an operation other than SRV_RESET does with the phase Error and with a ResetFailure. -/
structure ErrorGuarded (s t : State) : Prop where
  entered : t.srv.state = .error → s.srv.state ≠ .error → t.resp.err = some .resetFailure ∧
    t.flags.lastError = some .resetFailure ∧ t.srv.resetResult.success = false ∧ t.srv.budget = 0 ∧
    t.srv.nmiOut = false ∧ (s.srv.state = .reset ∨ s.srv.state = .cpuId ∨ s.srv.state = .cpuSetup)
  kept : s.srv.state = .error → t.srv.state = .error
  failure : t.resp.err = some .resetFailure → t.srv.state = .error

/-- An operation that leaves the phase and raises no ResetFailure. -/
theorem errorGuarded_of_state_eq {s t : State} (h : t.srv.state = s.srv.state)
    (herr : t.resp.err ≠ some .resetFailure) : ErrorGuarded s t where
  entered ht hs := absurd (h.symm.trans ht) hs
  kept hs := h.trans hs
  failure hf := absurd hf herr

theorem errorGuarded_ticked (s : State) (p : Pins) (d : Word) (g : Tag) (hne : s.srv.state ≠ .error) :
    ErrorGuarded s (ticked s p d g) := by
  have herror := ticked_phaseError s p d g hne
  generalize ticked s p d g = t at herror
  generalize he : t.resp.err = e at herror
  refine ⟨fun ht _ => ?_, fun hs => absurd hs hne, fun hf => ?_⟩
  · cases herror with
    | none _ state => exact absurd ht state
    | resetFailure _ phase recorded _ budget nmi success =>
      exact ⟨he, recorded, success, budget, nmi, isResetPhase_iff.mp phase⟩
    | phaseTimeout _ _ _ state => exact absurd ht state
  · rw [he] at hf
    cases hf
    cases herror with
    | resetFailure _ _ _ state => exact state

theorem errorGuarded_command {i : Instr} {s t : State} (h : CommandStep i s t) : ErrorGuarded s t := by
  rcases h with ⟨k, hk, rfl⟩ | ⟨hstep, hedge⟩
  · exact errorGuarded_of_state_eq rfl fun hf => hk (Option.some.inj hf)
  · have herr : t.resp.err ≠ some .resetFailure := by
      rw [hstep.resp]
      nofun
    rcases hedge with ⟨hstate, -⟩ | ⟨-, hs, ht, -⟩ | ⟨-, hs, -, ht, -⟩ | ⟨-, hs, -, -, ht, -⟩
    · exact errorGuarded_of_state_eq hstate herr
    all_goals exact ⟨fun h => by simp [ht] at h, fun h => by simp [hs] at h, fun h => absurd h herr⟩

/-- Settles O58: every kind of operation but SRV_RESET is `ErrorGuarded`, and SRV_RESET enters Reset. -/
theorem errorIsEnteredAndLeftByReset : Obligations.ErrorIsEnteredAndLeftByReset := by
  intro i s t h
  have hguarded : ErrorGuarded s t ∨ ∃ b sel, i = .srvReset b sel := by
    rcases instr_cases i with hi | hi | ⟨p, d, g, rfl⟩ | hi
    · have hstep := componentStep_of_exec hi h
      exact .inl (errorGuarded_of_state_eq (by rw [hstep.frame]) hstep.notReset)
    · exact .inl (errorGuarded_command (commandStep_of_exec hi h))
    · rcases exec_engineTick_cases h with ⟨-, rfl⟩ | ⟨⟨hne, -⟩, rfl⟩
      · exact .inl (errorGuarded_of_state_eq rfl (by nofun))
      · exact .inl (errorGuarded_ticked s p d g hne)
    · exact .inr hi
  rcases hguarded with hguarded | ⟨b, sel, rfl⟩
  · exact ⟨hguarded.entered, fun hs ht => absurd (hguarded.kept hs) ht, hguarded.failure⟩
  · obtain rfl := eq_hostReset h
    exact ⟨nofun, fun _ _ => ⟨b, sel, rfl⟩, nofun⟩

/-! ### The edges of the sequencer -/

/-- The edges of a running segment that do not end it, each with its condition (46_phase_sequencer.md R330). -/
def innerEdges (o : PathOpts) (smm : Bool) : List (Bool × ServerState × ServerState) := [
  (o.cpuid, .reset, .cpuId), (!o.cpuid && o.cpusetup, .reset, .cpuSetup),
  (o.cpusetup, .cpuId, .cpuSetup), (!smm, .jumpVector, .load), (smm, .jumpVector, .loadSmm),
  (true, .load, .loadDone), (true, .loadSmm, .loadDone),
  (o.emu, .loadDone, .emuEnter), (!o.emu && o.prefetch, .loadDone, .prefetch), (o.prefetch, .emuEnter, .prefetch),
  (o.emu, .executeFinalize, .emuExit)]

/-- The edges of a running segment to a rest point, each with its condition. -/
def lastEdges (o : PathOpts) (smm : Bool) : List (Bool × ServerState × ServerState) := [
  (!o.cpuid && !o.cpusetup, .reset, .jumpVector), (!o.cpusetup, .cpuId, .jumpVector),
  (true, .cpuSetup, .jumpVector), (!o.emu && !o.prefetch, .loadDone, .execute),
  (!o.prefetch, .emuEnter, .execute), (true, .prefetch, .execute),
  (!o.emu, .executeFinalize, .executeDone), (true, .emuExit, .executeDone),
  (!smm, .store, .storeDone), (smm, .store, .storeDoneSmm), (true, .storeAll, .shutdown)]

/-- The successor of a phase is along an edge of the table. -/
theorem mem_edges_of_successor {c : Config} {f : LoadFormat} {p t : ServerState} {rest : Bool}
    (h : successor c f p = some (t, rest)) : (true, p, t) ∈
      if rest then lastEdges c.pathOpts (f == .v3b) else innerEdges c.pathOpts (f == .v3b) := by
  cases p <;> simp only [successor] at h
  all_goals (repeat' split at h)
  all_goals cases h
  all_goals simp_all [innerEdges, lastEdges]

/-- The edges of a tick, as the transition table lists them. -/
def TickEdge (s t : State) : Prop :=
  (true, s.srv.state, t.srv.state) ∈ innerEdges s.cfg.pathOpts (s.srv.loadFormat == .v3b) ∧
    t.srv.budget + 1 = s.srv.budget ∨
  (true, s.srv.state, t.srv.state) ∈ lastEdges s.cfg.pathOpts (s.srv.loadFormat == .v3b) ∧
    0 < s.srv.budget ∧ t.srv.budget = 0 ∨
  s.srv.state ∈ [.reset, .cpuId, .cpuSetup] ∧ t.srv.state = .error ∧ s.srv.budget = 1 ∧ t.srv.budget = 0 ∨
  s.srv.state = .storeDone ∧ t.srv.state = .done ∧ t.srv.budget = s.srv.budget ∨
  s.srv.state = .execute ∧ s.cfg.endStrategy = .queueTag ∧ t.srv.state = .executeFinalize ∧
    t.srv.budget = s.srv.budget ∨
  s.srv.state = .execute ∧ s.srv.nmiOut = true ∧ (
    t.srv.state = .executeFinalize ∧ t.srv.budget = s.srv.budget - 1 ∨
    s.cfg.pathOpts.emu = true ∧ t.srv.state = .emuExit ∧ t.srv.budget + 1 = s.srv.budget ∨
    s.cfg.pathOpts.emu = false ∧ t.srv.state = .executeDone ∧ 0 < s.srv.budget ∧ t.srv.budget = 0)

theorem endStrategy_of_queueTagEdge {c : Config} {qr : QueueReport} (h : queueTagEdge c qr = true) :
    c.endStrategy = .queueTag := by
  simp only [queueTagEdge, Bool.and_eq_true, beq_iff_eq] at h
  exact h.1.1.1

/-- A segment's tick that changes the phase takes an edge of the table or fails a reset phase. -/
theorem tickEdge_of_segment {s t : State} {ips : List (ProgName × Image)} {v : PhaseView} (hv : v.phase = s.srv.state)
    (h : SegmentResult s.cfg s.srv.loadFormat ips v s.srv.budget (phaseView t) t.srv.budget)
    (hne : t.srv.state ≠ s.srv.state) : TickEdge s t := by
  rcases h with ⟨hview, -⟩ | ⟨q, rest, hq, hview, hpos, hlast, hinner⟩ | ⟨hb, hr, hb', hview⟩
  · exact absurd ((congrArg PhaseView.phase hview).trans hv) hne
  · have hstate : t.srv.state = q := congrArg PhaseView.phase hview
    have hmem := mem_edges_of_successor hq
    rw [hv, ← hstate] at hmem
    cases rest with
    | false => exact .inl ⟨hmem, hinner rfl⟩
    | true => exact .inr (.inl ⟨hmem, hpos, hlast rfl⟩)
  · have hstate : t.srv.state = .error := by
      rcases hview with hview | ⟨q, rest, -, hview⟩
      · exact congrArg PhaseView.phase hview
      · exact congrArg PhaseView.phase hview
    rw [hv, isResetPhase_iff] at hr
    exact .inr (.inr (.inl ⟨by simpa using hr, hstate, hb, hb'⟩))

/-- The tick that sees the NMI vector leaves Execute, and may leave ExecuteFinalize at once. -/
theorem tickEdge_of_nmi {s t : State} {ips : List (ProgName × Image)} {v : PhaseView}
    (hv : v.phase = .executeFinalize) (hs : s.srv.state = .execute) (hnmi : s.srv.nmiOut = true)
    (h : SegmentResult s.cfg s.srv.loadFormat ips v s.srv.budget (phaseView t) t.srv.budget) : TickEdge s t := by
  refine .inr (.inr (.inr (.inr (.inr ⟨hs, hnmi, ?_⟩))))
  rcases h with ⟨hview, hb⟩ | ⟨q, rest, hq, hview, hpos, hlast, hinner⟩ | ⟨-, hr, -⟩
  · exact .inl ⟨(congrArg PhaseView.phase hview).trans hv, hb⟩
  · have hstate : t.srv.state = q := congrArg PhaseView.phase hview
    rw [hv] at hq
    simp only [successor] at hq
    split at hq
    · rename_i hemu
      cases hq
      exact .inr (.inl ⟨hemu, hstate, hinner rfl⟩)
    · rename_i hemu
      cases hq
      exact .inr (.inr ⟨by simpa using hemu, hstate, hpos, hlast rfl⟩)
  · rw [hv] at hr
    cases hr

theorem tickEdge_ticked (s : State) (p : Pins) (d : Word) (g : Tag)
    (hne : (ticked s p d g).srv.state ≠ s.srv.state) : TickEdge s (ticked s p d g) := by
  rcases ticked_view s p d g with ⟨hs, hview, hb⟩ | ⟨hs, hq, hview, hb⟩ | ⟨hs, hn, hview⟩ | ⟨-, hview⟩
  · exact .inr (.inr (.inr (.inl ⟨hs, congrArg PhaseView.phase hview, hb⟩)))
  · exact .inr (.inr (.inr (.inr (.inl ⟨hs, endStrategy_of_queueTagEdge hq, congrArg PhaseView.phase hview, hb⟩))))
  · exact tickEdge_of_nmi rfl hs ((nmiEdge_afterLog_iff s p d g).mp hn).1 hview
  · exact tickEdge_of_segment rfl hview hne

/-- Settles O57: a component operation keeps the phase, a command takes one of its edges, a tick one of the table's. -/
theorem noOtherPhaseEdge : Obligations.NoOtherPhaseEdge := by
  rintro i s t o smm h hne rfl rfl
  rcases instr_cases i with hi | hi | ⟨p, d, g, rfl⟩ | ⟨b, sel, rfl⟩
  · have hstep := componentStep_of_exec hi h
    exact absurd (by rw [hstep.frame]) hne
  · rcases commandStep_of_exec hi h with ⟨k, -, rfl⟩ | ⟨-, hedge⟩
    · exact absurd rfl hne
    · rcases hedge with ⟨hstate, -⟩ | hload | hstore | hstoreall
      · exact absurd hstate hne
      · exact .inr (.inr (.inl hload))
      · exact .inr (.inr (.inr (.inl hstore)))
      · exact .inr (.inr (.inr (.inr hstoreall)))
  · rcases exec_engineTick_cases h with ⟨-, rfl⟩ | ⟨-, rfl⟩
    · exact absurd rfl hne
    · exact .inr (.inl ⟨⟨p, d, g, rfl⟩, tickEdge_ticked s p d g hne⟩)
  · obtain rfl := eq_hostReset h
    exact .inl ⟨b, sel, rfl, rfl, rfl⟩

end Sys2Proof.Machine
end

section
/-! Rules of the stages of a processed tick: its flags, its queue, its log and the feed of a read cycle
(46_phase_sequencer.md R310 to R319), each from the state the tick starts from. -/

namespace Sys2Proof.Machine

open Sys2Proof

/-! ### The queue status -/

/-- Every First or Subsequent status pops what `queuePop` finds, or reports an underflow. -/
theorem State.retire_of_some {s : State} {e : QueueEntry} {q : Queue} (first : Bool)
    (h : queuePop s.q = some (e, q)) :
    s.retire first = (s.withQ q, { popped := true, first := first, entry := some e, flushed := false }) := by
  simp [State.retire, State.popQueue_of_some h, State.flagIf]

theorem State.retire_of_none {s : State} (first : Bool) (h : queuePop s.q = none) : s.retire first =
    ({ s with flags := { s.flags with queueUnderflow := true }, freeCount := s.freeCount + 1 },
      { popped := false, first := first, flushed := false,
        entry := some ⟨Config.freePopByte s.freeCount, Config.freePopTag s.freeCount⟩ }) := by
  simp [State.retire, State.popQueue_of_none h, State.flagIf, setAnomaly, State.drawn]

/-- The queue and its underflow flag follow from the queue and that flag alone. -/
theorem State.queueStatus_congr {u v : State} (qs : QueueStatus) (hq : u.q = v.q)
    (hf : u.flags.queueUnderflow = v.flags.queueUnderflow) :
    (u.queueStatus qs).1.q = (v.queueStatus qs).1.q ∧
      (u.queueStatus qs).1.flags.queueUnderflow = (v.queueStatus qs).1.flags.queueUnderflow := by
  have hretire : ∀ first, (u.retire first).1.q = (v.retire first).1.q ∧
      (u.retire first).1.flags.queueUnderflow = (v.retire first).1.flags.queueUnderflow := by
    intro first
    cases hp : queuePop v.q with
    | none =>
      rw [State.retire_of_none first hp, State.retire_of_none first (hq ▸ hp)]
      exact ⟨hq, rfl⟩
    | some x =>
      rw [State.retire_of_some first hp, State.retire_of_some first (hq ▸ hp)]
      exact ⟨rfl, hf⟩
  cases qs with
  | idle => exact ⟨hq, hf⟩
  | first => exact hretire true
  | flush => exact ⟨congrArg queueFlush hq, hf⟩
  | subsequent => exact hretire false

/-- The queue-tag end of execution, read off the queue the status finds (R334). -/
theorem queueTagEdge_queueStatus_iff (s : State) (qs : QueueStatus) :
    queueTagEdge s.cfg (s.queueStatus qs).2 = true ↔
      s.cfg.endStrategy = .queueTag ∧ qs = .first ∧ ∃ e l, queueList s.q = e :: l ∧ e.tag = .programEnd := by
  have hretire : ∀ first, queueTagEdge s.cfg (s.retire first).2 = true ↔
      s.cfg.endStrategy = .queueTag ∧ first = true ∧ ∃ e l, queueList s.q = e :: l ∧ e.tag = .programEnd := by
    intro first
    cases hp : queuePop s.q with
    | none =>
      have hnil : queueList s.q = [] := queueList_eq_nil.mpr (queuePop_eq_none.mp hp)
      rw [State.retire_of_none first hp]
      simp [queueTagEdge, hnil]
    | some x =>
      obtain ⟨e, q⟩ := x
      obtain ⟨hlist, -⟩ := queuePop_eq_some hp
      rw [State.retire_of_some first hp]
      simp [queueTagEdge, hlist, and_assoc]
  cases qs with
  | idle => simp [State.queueStatus, queueTagEdge, quietReport]
  | first => simpa [State.queueStatus] using hretire true
  | flush => simp [State.queueStatus, queueTagEdge, quietReport]
  | subsequent => simpa [State.queueStatus] using hretire false

section TickStages

variable (s : State) (p : Pins) (d : Word) (g : Tag)

/-! ### Flags -/

/-- Step 6 changes the last error alone, step 4 the flags of the queue. -/
theorem ticked_flags : (ticked s p d g).flags = { (afterData s p d g).flags with
    queueUnderflow := (afterQueue s p d g).flags.queueUnderflow
    queueOverflow := (afterQueue s p d g).flags.queueOverflow
    lastError := (ticked s p d g).flags.lastError } := by
  have hphase := (PhaseFrame.phaseStep (afterLog s p d g) p (tickCycle s p) (tickReport s p d g)).eq
  have hlog : (afterLog s p d g).flags = (afterQueue s p d g).flags := by
    rw [afterLog, State.logStep_eq]
  have hqueue : (afterQueue s p d g).flags = { (afterData s p d g).flags with
      queueUnderflow := (afterQueue s p d g).flags.queueUnderflow
      queueOverflow := (afterQueue s p d g).flags.queueOverflow } := by
    obtain ⟨e, f, h⟩ := (afterData s p d g).queueStep_eq s.bcs (tickCycle s p) p
    have hflags := congrArg State.flags h
    change (afterQueue s p d g).flags = _ at hflags
    rw [hflags]
  have hticked : (ticked s p d g).flags =
      ((afterLog s p d g).phaseStep p (tickCycle s p) (tickReport s p d g)).1.flags := by
    show (engineTick s p d g).state.flags = _
    rw [engineTick_eq]
  rw [hticked, congrArg State.flags hphase, hlog]
  rw [hqueue]

/-! ### Step 4 -/

theorem afterData_queueFlags : (afterData s p d g).flags.queueUnderflow = s.flags.queueUnderflow ∧
    (afterData s p d g).flags.queueOverflow = s.flags.queueOverflow := by
  obtain ⟨a, b, e, h⟩ := afterData_flags s p d g
  rw [h]
  exact ⟨rfl, rfl⟩

/-- The CPU's queue status finds in step 4 the queue the tick starts from. -/
theorem statusTaken_afterData : ((afterData s p d g).statusTaken p).q = (s.statusTaken p).q ∧
    ((afterData s p d g).statusTaken p).flags.queueUnderflow = (s.statusTaken p).flags.queueUnderflow ∧
    ((afterData s p d g).statusTaken p).flags.queueOverflow = s.flags.queueOverflow := by
  obtain ⟨hunder, hover⟩ := afterData_queueFlags s p d g
  obtain ⟨e, he⟩ := (afterData s p d g).statusTaken_eq p
  have hkept : ((afterData s p d g).statusTaken p).flags.queueOverflow = s.flags.queueOverflow := by
    rw [he]
    exact hover
  refine ⟨?_, ?_, hkept⟩ <;> unfold State.statusTaken <;> rw [afterData_cfg] <;> split
  · exact (State.queueStatus_congr _ (afterData_q s p d g) hunder).1
  · exact afterData_q s p d g
  · exact (State.queueStatus_congr _ (afterData_q s p d g) hunder).2
  · exact hunder

theorem pushesNow_iff : pushesNow s.bcs (tickCycle s p) = true ↔
    (ticked s p d g).resp.event.isSome = true ∧ s.bcs.latchedStatus = .code ∧ s.bcs.fed = true := by
  rw [ticked_event_isSome]
  simp [pushesNow, and_assoc]

/-- A tick that pushes nothing leaves the queue as the CPU's queue status does. -/
theorem ticked_q_of_noPush
    (h : pushesNow s.bcs (tickCycle s p) = false ∨ s.bcs.widthValid = false) :
    (ticked s p d g).q = (s.statusTaken p).q ∧
      (ticked s p d g).flags.queueOverflow = s.flags.queueOverflow := by
  obtain ⟨hq, -, hover⟩ := statusTaken_afterData s p d g
  rw [ticked_q, ticked_flags, afterQueue_q]
  unfold afterQueue
  rw [State.queueStep_fst]
  rcases h with h | h
  · simp only [h, Bool.false_eq_true, if_false]
    exact ⟨hq, hover⟩
  · have hflag : (((afterData s p d g).statusTaken p).pushFetch s.bcs).flags.queueOverflow =
        s.flags.queueOverflow := by
      rw [State.pushFetch_eq]
      simp [h, hover]
    rw [State.pushFetch_of_full (.inl h)]
    refine ⟨by split <;> exact hq, ?_⟩
    split
    · exact hflag
    · exact hover

/-- A fetch that finds no room is dropped whole and flagged. -/
theorem ticked_q_of_full (h : pushesNow s.bcs (tickCycle s p) = true) (hv : s.bcs.widthValid = true)
    (hfull : hasRoom (s.statusTaken p).q s.bcs.busWidth = false) :
    (ticked s p d g).q = (s.statusTaken p).q ∧ (ticked s p d g).flags.queueOverflow = true := by
  obtain ⟨hq, -, -⟩ := statusTaken_afterData s p d g
  rw [ticked_q, ticked_flags, afterQueue_q]
  unfold afterQueue
  rw [State.queueStep_fst, h, if_pos rfl, if_pos rfl, State.pushFetch_of_full (.inr (by rw [hq, hfull])),
    State.pushFetch_eq]
  simp [hq, hv, hfull]

/-- A fetch that finds room is appended byte by byte. -/
theorem ticked_q_of_room (h : pushesNow s.bcs (tickCycle s p) = true) (hv : s.bcs.widthValid = true)
    (hroom : hasRoom (s.statusTaken p).q s.bcs.busWidth = true) :
    queueList (ticked s p d g).q = queueList (s.statusTaken p).q ++ fetchedEntries s.bcs ∧
      (ticked s p d g).q.cap = (s.statusTaken p).q.cap ∧
      (ticked s p d g).flags.queueOverflow = s.flags.queueOverflow := by
  obtain ⟨hq, -, hover⟩ := statusTaken_afterData s p d g
  obtain ⟨q, hpush, hcap, -, hlist⟩ := State.pushFetch_of_room (s := (afterData s p d g).statusTaken p) hv
    (by rw [hq, hroom])
  rw [ticked_q, ticked_flags, afterQueue_q]
  unfold afterQueue
  rw [State.queueStep_fst, h, if_pos rfl, if_pos rfl, hpush]
  rw [hq] at hcap hlist
  exact ⟨hlist, hcap, hover⟩

end TickStages

/-- Q_STATUS leaves what the CPU's queue status of a tick does. -/
theorem exec_qStatus_eq_queueStatus (qs : QueueStatus) (s : State) : ∃ r : Response,
    exec (.qStatus qs) s = .next ((s.queueStatus qs).1.withResp r) := ⟨_, rfl⟩

/-! ### Obligations -/

/-- Settles O45: row by row. -/
theorem arbiterTable : Obligations.ArbiterTable := by
  intro c
  refine ⟨?image, ?byOption, ?atRest⟩
  case image => simp [arbiter]
  case byOption => simp +contextual [arbiter]
  case atRest => simp [arbiter]

/-- Settles O47: the record of the cycle that ended is the event, and `logAppended` is LOG_APPEND of it. -/
theorem completedCyclesAreLogged : Obligations.CompletedCyclesAreLogged := by
  intro p d g s t h he hs
  rw [eq_ticked h he hs]
  refine ⟨⟨_, exec_cycleTick p (tickLines s.cfg s.bc p) s, ?_⟩, ?none, ?some⟩
  · rw [ticked_event_isSome]
    exact ⟨fun h => Option.some.inj h, congrArg some⟩
  case none =>
    intro hnone
    have hended : (tickCycle s p).ended = false := by rw [← ticked_event_isSome s p d g, hnone]; rfl
    rw [ticked_log, hended]
    rfl
  case some =>
    intro e hevent
    have hended : (tickCycle s p).ended = true := by rw [← ticked_event_isSome s p d g, hevent]; rfl
    rw [ticked_event, hended, if_pos rfl] at hevent
    cases hevent
    refine ⟨rfl, rfl, rfl, fun hread => by simp [cycleRecord, hread], ?write, fun hhalt => ?halt, fun hactive hlt => ?log⟩
    case write =>
      intro hwrite
      have hread : isRead s.bcs.latchedStatus = false := by
        rcases isWrite_iff.mp hwrite with hk | hk <;> rw [hk] <;> rfl
      simp [cycleRecord, hread, hwrite]
    case halt => simp [cycleRecord, hhalt, isRead, isWrite]
    case log =>
      refine ⟨_, exec_logAppend_of_active _ _ _ s hactive, ?_⟩
      rw [ticked_log, hended, if_pos ⟨rfl, hactive⟩]
      show _ = logAppended s.log ⟨_, _, maskAddr s.cfg s.bcs.addressLatch, _⟩
      rw [maskAddr_of_lt hlt]
      rfl

/-- Settles O48: the queue status finds the queue before the tick (`statusTaken_afterData`); a push has room or none. -/
theorem queueUpdateOfATick : Obligations.QueueUpdateOfATick := by
  intro p d g s t h he hs
  rw [eq_ticked h he hs]
  have htaken : ∃ q : State, (s.cfg.qsAvail = true → exec (.qStatus (.ofBits p.qs)) s = .next q) ∧
      (s.cfg.qsAvail = false → q = s) ∧ q.q = (s.statusTaken p).q ∧
      q.flags.queueUnderflow = (s.statusTaken p).flags.queueUnderflow := by
    cases hav : s.cfg.qsAvail with
    | false => exact ⟨s, nofun, fun _ => rfl, by simp [State.statusTaken, hav], by simp [State.statusTaken, hav]⟩
    | true =>
      obtain ⟨r, hr⟩ := exec_qStatus_eq_queueStatus (.ofBits p.qs) s
      exact ⟨_, fun _ => hr, nofun, by simp [State.statusTaken, hav], by simp [State.statusTaken, hav]⟩
  obtain ⟨q, hexec, hsame, hq, hunder⟩ := htaken
  refine ⟨q, hexec, hsame, ?underflow, ?noPush, ?push⟩
  case underflow =>
    rw [hunder, ticked_flags]
    exact (afterQueue_underflow s p d g).trans (statusTaken_afterData s p d g).2.1
  case noPush =>
    intro hno
    rw [hq]
    refine ticked_q_of_noPush s p d g ?_
    rw [← Bool.not_eq_true, pushesNow_iff s p d g]
    rcases hno with hno | hno | hno | hno <;> simp [hno]
  case push =>
    intro hended hcode hfed hvalid
    have hpush := (pushesNow_iff s p d g).mpr ⟨hended, hcode, hfed⟩
    rw [hq, ← not_hasRoom_iff, ← hasRoom_iff]
    refine ⟨ticked_q_of_full s p d g hpush hvalid, fun hroom => ?_⟩
    obtain ⟨hlist, hcap, hover⟩ := ticked_q_of_room s p d g hpush hvalid hroom
    refine ⟨hover, hcap, fun hw => ?_, fun hw => ?_, fun hw hle => ?_⟩ <;> rw [hlist]
    · simp [fetchedEntries, hw, tagOf]
    · simp [fetchedEntries, hw, tagOf]
    · have hone : s.bcs.fedNprog = 1 ∨ 2 ≤ s.bcs.fedNprog ↔ 1 ≤ s.bcs.fedNprog := by omega
      have htwo : s.bcs.fedNprog = 2 ↔ 2 ≤ s.bcs.fedNprog := by omega
      simp [fetchedEntries, hw, tagOf, hone, htwo]

end Sys2Proof.Machine
end

section
/-! The feed of a read cycle (46_phase_sequencer.md R314) and the capture of a write cycle (R315), seen from the state
the tick starts from. -/

namespace Sys2Proof.Machine

open Sys2Proof

/-! ### The flags of a phase change -/

/-- Of the sequencer's two flags entering Execute clears `program_ended`, entering ExecuteDone disarms stack capture,
and nothing else changes either (R332, R333). -/
structure FlagsFollow (v w : PhaseView) : Prop where
  programEnded : w.programEnded = true ↔ v.programEnded = true ∧ (w.phase = .execute → v.phase = .execute)
  stackArmed : w.stackArmed = true ↔ v.stackArmed = true ∧ (w.phase = .executeDone → v.phase = .executeDone)

theorem FlagsFollow.refl (v : PhaseView) : FlagsFollow v v := ⟨by simp, by simp⟩

theorem flagsFollow_enter {v : PhaseView} (c : Config) (fmt : LoadFormat) (ips : List (ProgName × Image))
    {q : ServerState} (h : q ≠ v.phase) : FlagsFollow v (v.enter c fmt ips q) := by
  constructor
  · by_cases hq : q = .execute
    · simp [PhaseView.enter, hq, hq ▸ h.symm]
    · simp [PhaseView.enter, hq]
  · by_cases hq : q = .executeDone
    · simp [PhaseView.enter, hq, hq ▸ h.symm]
    · simp [PhaseView.enter, hq]

/-- A phase between can be left out when neither it nor the last one clears a flag. -/
theorem FlagsFollow.trans {v u w : PhaseView} (hv : FlagsFollow v u) (hw : FlagsFollow u w)
    (hu : u.phase ≠ .execute ∧ u.phase ≠ .executeDone) (hexec : w.phase ≠ .execute)
    (hdone : w.phase = .executeDone → v.phase ≠ .executeDone) : FlagsFollow v w where
  programEnded := by rw [hw.programEnded, hv.programEnded]; simp [hu.1, hexec]
  stackArmed := by
    rw [hw.stackArmed, hv.stackArmed]
    simp only [hu.2, false_implies, and_true, imp_false]
    exact and_congr_right fun _ => ⟨fun h he => absurd he h, fun h he => hdone he (h he)⟩

theorem SegmentResult.flagsFollow {c : Config} {fmt : LoadFormat} {ips : List (ProgName × Image)} {v w : PhaseView}
    {b b' : Nat} (h : SegmentResult c fmt ips v b w b') : FlagsFollow v w := by
  rcases h with ⟨rfl, -⟩ | ⟨q, rest, hq, rfl, -⟩ | ⟨-, hr, -, rfl | ⟨q, rest, hq, rfl⟩⟩
  · exact FlagsFollow.refl _
  · exact flagsFollow_enter c fmt ips (successor_ne hq)
  · exact flagsFollow_enter c fmt ips fun he => by rw [← he] at hr; cases hr
  · have hq' : (q ≠ .execute ∧ q ≠ .executeDone) ∧ q ≠ .error := by
      rw [isResetPhase_iff] at hr
      rcases hr with hr | hr | hr <;> rw [hr] at hq <;> simp only [successor] at hq <;> (repeat' split at hq) <;>
        cases hq <;> decide
    exact (flagsFollow_enter c fmt ips (successor_ne hq)).trans (flagsFollow_enter c fmt ips hq'.2.symm) hq'.1
      nofun nofun

/-- A segment's tick that stays in its phase keeps the view. -/
theorem SegmentResult.of_stays {c : Config} {f : LoadFormat} {ips : List (ProgName × Image)} {v w : PhaseView}
    {b b' : Nat} (h : SegmentResult c f ips v b w b') (hw : w.phase = v.phase) : w = v ∧ b' = b - 1 := by
  rcases h with h | ⟨q, rest, hq, rfl, -⟩ | ⟨-, hr, -, herror⟩
  · exact h
  · exact absurd hw (successor_ne hq)
  · have he : w.phase = .error := by rcases herror with rfl | ⟨q, rest, -, rfl⟩ <;> rfl
    rw [← hw, he] at hr
    cases hr

/-- A segment's tick in ExecuteFinalize stays there or leaves it for EmuExit or ExecuteDone. -/
theorem SegmentResult.of_finalize {c : Config} {fmt : LoadFormat} {ips : List (ProgName × Image)} {v w : PhaseView}
    {b b' : Nat} (h : SegmentResult c fmt ips v b w b') (hv : v.phase = .executeFinalize) :
    w = v ∨ 0 < b ∧ (w.phase = .emuExit ∧ c.pathOpts.emu = true ∨ w.phase = .executeDone ∧ c.pathOpts.emu = false) := by
  rcases h with ⟨hw, -⟩ | ⟨q, rest, hq, rfl, hb, -⟩ | ⟨-, hr, -⟩
  · exact .inl hw
  · rw [hv] at hq
    simp only [successor] at hq
    split at hq <;> rename_i hemu <;> cases hq
    · exact .inr ⟨hb, .inl ⟨rfl, hemu⟩⟩
    · exact .inr ⟨hb, .inr ⟨rfl, by simpa using hemu⟩⟩
  · rw [hv] at hr
    cases hr

section FeedRules

variable (s : State) (p : Pins) (d : Word) (g : Tag)

theorem ticked_flagsFollow : FlagsFollow (viewBefore s (ticked s p d g)) (phaseView (ticked s p d g)) := by
  have hview := ticked_view s p d g
  have hphase : (viewBefore s (ticked s p d g)).phase = s.srv.state := rfl
  generalize viewBefore s (ticked s p d g) = v at hphase hview ⊢
  generalize phaseView (ticked s p d g) = w at hview ⊢
  rcases hview with ⟨hs, rfl, -⟩ | ⟨hs, -, rfl, -⟩ | ⟨hs, -, hview⟩ | ⟨-, hview⟩
  · exact flagsFollow_enter _ _ _ (by simp [hphase, hs])
  · exact flagsFollow_enter _ _ _ (by simp [hphase, hs])
  · have hne : w.phase ≠ .execute := by
      rcases hview.of_finalize rfl with rfl | ⟨-, ⟨h, -⟩ | ⟨h, -⟩⟩
      · nofun
      · simp [h]
      · simp [h]
    exact (flagsFollow_enter _ _ _ (by simp [hphase, hs])).trans hview.flagsFollow (by simp [PhaseView.enter]) hne
      (by simp [hphase, hs])
  · exact hview.flagsFollow

/-- `program_ended` after a tick: set where it was or where a fetch was served with fill, cleared on entering Execute. -/
theorem ticked_programEnded_iff : (ticked s p d g).srv.programEnded = true ↔
    (s.srv.programEnded = true ∨ fedInTick s (ticked s p d g) = true ∧
      servedFill s.bcs (ticked s p d g).bcs.fedNprog s.srv.state = true) ∧
    ((ticked s p d g).srv.state = .execute → s.srv.state = .execute) := by
  have h := (ticked_flagsFollow s p d g).programEnded
  simpa [viewBefore_eq, phaseView] using h

/-! ### The feed -/

/-- The next tick of the bus-cycle machine enters the data phase. -/
def dataPhaseNext (s : State) : Prop :=
  s.cfg.cycleVariant = .fourState ∧ s.bcs.tcycle = .t2 ∨ s.cfg.cycleVariant = .twoState ∧ s.bcs.tcycle = .t1

/-- Where the data phase is next, the tick enters it, ends no cycle and keeps the latches. -/
theorem tickCycle_of_dataPhaseNext (h : dataPhaseNext s) :
    entersData s.cfg.cycleVariant s.bcs.tcycle (tickCycle s p).cyc = true ∧ (tickCycle s p).ended = false ∧
      (tickCycle s p).cyc ≠ .t1 ∧ (tickCycle s p).cyc ≠ .idle := by
  rcases h with ⟨hv, hc⟩ | ⟨hv, hc⟩ <;>
    simp [tickCycle, tickResult, tickNext, hv, hc, nextCycle, nextCycleFour, nextCycleTwo, entersData, cycleEnds]

theorem afterAdvance_of_dataPhaseNext (h : dataPhaseNext s) : (afterAdvance s p).bcs =
    { s.bcs with status := (decodeStatus s.cfg p.rawStatus p.statusValid).1, tcycle := (tickCycle s p).cyc } := by
  obtain ⟨-, -, h1, h2⟩ := tickCycle_of_dataPhaseNext s p h
  rw [afterAdvance_eq]
  exact tickBusCycle_stays (fun h => h1 h.1) (fun h => h2 h.1)

/-- A tick feeds exactly the unfed read cycle that enters its data phase. -/
theorem feedsNow_iff : feedsNow (afterAdvance s p) s.bcs (tickCycle s p) = true ↔
    dataPhaseNext s ∧ s.bcs.fed = false ∧ isRead s.bcs.latchedStatus = true := by
  have hcfg : (afterAdvance s p).cfg = s.cfg := by rw [afterAdvance_eq]
  constructor
  · intro h
    obtain ⟨hfed, hbcs⟩ := afterAdvance_bcs_of_feeds s p h
    simp only [feedsNow, hcfg, hbcs, Bool.and_eq_true] at h
    obtain ⟨⟨henters, -⟩, hread⟩ := h
    refine ⟨?_, hfed, hread⟩
    unfold entersData at henters
    split at henters <;> simp only [Bool.and_eq_true, beq_iff_eq] at henters
    · exact .inl ⟨‹_›, henters.1⟩
    · exact .inr ⟨‹_›, henters.1⟩
  · rintro ⟨hnext, hfed, hread⟩
    simp [feedsNow, hcfg, afterAdvance_of_dataPhaseNext s p hnext, (tickCycle_of_dataPhaseNext s p hnext).1, hfed,
      hread]

/-- Steps 1 and 2 change nothing that a feed reads. -/
theorem feedData_afterAdvance (src : DataSource) (h : dataPhaseNext s) :
    ((afterAdvance s p).feedData src p d g).2 = (s.feedData src p d g).2 := by
  have hbcs := afterAdvance_of_dataPhaseNext s p h
  have hsame : (afterAdvance s p).cfg = s.cfg ∧ (afterAdvance s p).mb = s.mb ∧ (afterAdvance s p).ip = s.ip ∧
      (afterAdvance s p).freeCount = s.freeCount := by rw [afterAdvance_eq]; exact ⟨rfl, rfl, rfl, rfl⟩
  obtain ⟨hcfg, hmb, hip, hfree⟩ := hsame
  generalize afterAdvance s p = u at hbcs hcfg hmb hip hfree
  cases src <;> simp only [State.feedData, State.readProgram, State.busRead, hbcs, hcfg, hmb, hip, hfree, bheOf,
    validBytes]
  · split <;> rfl
  · split <;> rfl

theorem State.busRead_mbRange (u : State) (addr : Addr) (bhe bus16 : Bool) :
    (u.busRead addr bhe bus16).1.flags.mbRange =
      (u.flags.mbRange || (busAddresses u.cfg addr bhe bus16).any fun a => !inBounds u.cfg u.mb a) := by
  simp only [State.busRead, State.flagIf_eq]
  show (if _ then _ else _ : Anomalies).mbRange = _
  split
  · rename_i h
    simp [h, setAnomaly]
  · rename_i h
    rw [Bool.not_eq_true] at h
    rw [h, Bool.or_false]

/-- What a tick that feeds leaves in the latches, the transceiver and `mb_range`. -/
theorem ticked_of_feed (hnext : dataPhaseNext s) (hfed : s.bcs.fed = false)
    (hread : isRead s.bcs.latchedStatus = true) :
    (ticked s p d g).bcs.fed = true ∧
    ((ticked s p d g).bcs.dataLatch, (ticked s p d g).bcs.fedNprog) =
      (s.feedData (arbiter s.cfg s.srv.state) p d g).2 ∧
    (ticked s p d g).xcvr = (if arbiter s.cfg s.srv.state = .nobody then s.xcvr
      else ⟨.output, s.bcs.busWidth, (ticked s p d g).bcs.dataLatch⟩) ∧
    (ticked s p d g).flags.mbRange =
      if arbiter s.cfg s.srv.state = .backend ∧ isMemoryRead s.bcs.latchedStatus = true then
        (s.busRead s.bcs.addressLatch (bheOf s.bcs) s.cfg.bus16).1.flags.mbRange
      else s.flags.mbRange := by
  have hfeeds := (feedsNow_iff s p).mpr ⟨hnext, hfed, hread⟩
  obtain ⟨-, hended, -⟩ := tickCycle_of_dataPhaseNext s p hnext
  have hdata := feedData_afterAdvance s p d g (arbiter s.cfg s.srv.state) hnext
  have hbcs := afterAdvance_of_dataPhaseNext s p hnext
  have hsame : (afterAdvance s p).cfg = s.cfg ∧ (afterAdvance s p).srv.state = s.srv.state ∧
      (afterAdvance s p).xcvr = s.xcvr := by rw [afterAdvance_eq]; exact ⟨rfl, rfl, rfl⟩
  obtain ⟨hcfg, hstate, hxcvr⟩ := hsame
  have hlatches : (ticked s p d g).bcs = { (afterAdvance s p).bcs with
      dataLatch := (s.feedData (arbiter s.cfg s.srv.state) p d g).2.1
      fedNprog := (s.feedData (arbiter s.cfg s.srv.state) p d g).2.2
      fed := true } := by
    rw [ticked_bcs, afterData, State.dataStep_bcs, if_pos hfeeds, hcfg, hstate, hdata]
  refine ⟨by rw [hlatches], by rw [hlatches], ?xcvr, ?mbRange⟩
  case xcvr =>
    have hrelease : releasesBus s.cfg.cycleVariant s.bcs.tcycle (tickCycle s p).ended = false := by
      rcases hnext with ⟨hv, hc⟩ | ⟨hv, hc⟩ <;> simp [releasesBus, hv, hc, hended]
    rw [ticked_xcvr, afterData_xcvr, hrelease, hfeeds, if_pos rfl, State.feed_eq, hlatches, hxcvr, hbcs, hdata]
    cases arbiter s.cfg s.srv.state <;> simp [xcvrSetTo]
  case mbRange =>
    have hstores : storesNow (afterAdvance s p) s.bcs (tickCycle s p) = false := by simp [storesNow, hended]
    have hkept : (afterAdvance s p).flags.mbRange = s.flags.mbRange ∧ (afterAdvance s p).mb = s.mb := by
      rw [afterAdvance_eq]
      exact ⟨by simp only; split <;> rfl, rfl⟩
    rw [ticked_flags]
    show (afterData s p d g).flags.mbRange = _
    rw [((afterData_mbFlags s p d g).2 hstores).2, if_pos hfeeds, State.feed_mbRange, hbcs,
      State.busRead_mbRange, State.busRead_mbRange, hcfg, hkept.1, hkept.2]
    rfl

end FeedRules

end Sys2Proof.Machine
end

section
/-! The data path of a tick: what a read cycle is fed (46_phase_sequencer.md R314) and what else of the block a tick
touches (R315, R319, R337). -/

namespace Sys2Proof.Machine

open Sys2Proof

/-! ### The word of a feed, source by source -/

section FeedData

variable (s : State) (p : Pins) (d : Word) (g : Tag)

theorem isMemoryRead_iff {k : BusStatus} : isMemoryRead k = true ↔ k = .code ∨ k = .memRead := by
  cases k <;> simp [isMemoryRead]

theorem feedData_inline (hk : s.bcs.latchedStatus = .code ∨ s.bcs.latchedStatus = .memRead)
    (hv : s.bcs.widthValid = true) : (s.feedData .inline p d g).2 =
      ((programAnswer s s.bcs.busWidth).data, (programAnswer s s.bcs.busWidth).nprog) := by
  rw [State.feedData, isMemoryRead_iff.mpr hk, hv]
  rfl

theorem feedData_inline_of_refused (h : ¬((s.bcs.latchedStatus = .code ∨ s.bcs.latchedStatus = .memRead) ∧
    s.bcs.widthValid = true)) : (s.feedData .inline p d g).2 = (0xFFFF, 0) := by
  rw [← isMemoryRead_iff, ← Bool.and_eq_true, Bool.not_eq_true] at h
  rw [State.feedData, h]
  rfl

theorem feedData_backend_of_memoryRead (hk : s.bcs.latchedStatus = .code ∨ s.bcs.latchedStatus = .memRead) :
    (s.feedData .backend p d g).2 = (busReadWord s.cfg s.mb s.bcs.addressLatch (bheOf s.bcs) s.cfg.bus16
      (Config.freeLane s.freeCount), validBytes s.bcs) := by
  rw [State.feedData, isMemoryRead_iff.mpr hk]
  rfl

theorem feedData_backend_of_ioRead (hk : s.bcs.latchedStatus = .ioRead ∨ s.bcs.latchedStatus = .irqAck) :
    (s.feedData .backend p d g).2 = (ioReadWord s.mb, validBytes s.bcs) := by
  rcases hk with hk | hk <;> rw [State.feedData, hk] <;> rfl

end FeedData

theorem servedFill_iff {b : BusCycle} {n : Nat} {q : ServerState} : servedFill b n q = true ↔
    b.latchedStatus = .code ∧ n < validBytes b ∧ (q = .prefetch ∨ q = .execute) := by
  simp [servedFill, and_assoc]

/-- Settles O44: `ticked_of_feed` with the word of the phase's source. -/
theorem readCyclesAreFed : Obligations.ReadCyclesAreFed := by
  rintro p d g s t k w v nv h he hs hnext hfed rfl hread rfl rfl rfl
  rw [eq_ticked h he hs]
  obtain ⟨hfed', hdata, hxcvr, hrange⟩ := ticked_of_feed s p d g hnext hfed hread
  have hended := ticked_programEnded_iff s p d g
  generalize ticked s p d g = t at hfed' hdata hxcvr hrange hended
  have hlatches : ∀ {a : Word} {n : Nat}, (s.feedData (arbiter s.cfg s.srv.state) p d g).2 = (a, n) →
      t.bcs.dataLatch = a ∧ t.bcs.fedNprog = n := by
    intro a n hsource
    rw [hsource, Prod.mk.injEq] at hdata
    exact hdata
  refine ⟨hfed', ?inline, ?inlineRefused, ?backend, ?range, ?backendIo, ?host, ?nobody, ?drives, ?ended⟩
  case inline =>
    intro hsrc hk hv
    rw [hsrc] at hlatches
    obtain ⟨hword, hprog⟩ := hlatches (feedData_inline s p d g hk hv)
    exact ⟨_, exec_ipRead s.bcs.addressLatch s.bcs.busWidth s, congrArg some hword, congrArg some hprog⟩
  case inlineRefused =>
    intro hsrc hk
    rw [hsrc] at hlatches
    refine hlatches (feedData_inline_of_refused s p d g ?_)
    rcases hk with hk | hk | hk <;> simp [hk]
  case backend =>
    intro hsrc hk
    rw [hsrc] at hlatches
    obtain ⟨hword, hprog⟩ := hlatches (feedData_backend_of_memoryRead s p d g hk)
    rw [if_pos ⟨hsrc, isMemoryRead_iff.mpr hk⟩] at hrange
    exact ⟨hprog, _, rfl, congrArg some hword, hrange⟩
  case range =>
    intro hno
    rw [← isMemoryRead_iff] at hno
    rw [hrange, if_neg hno]
  case backendIo =>
    intro hsrc hk
    rw [hsrc] at hlatches
    obtain ⟨hword, hprog⟩ := hlatches (feedData_backend_of_ioRead s p d g hk)
    exact ⟨hprog, _, exec_mbIoRead s.bcs.addressLatch s.bcs.busWidth s, congrArg some hword⟩
  case host =>
    intro hsrc
    rw [hsrc] at hlatches
    exact hlatches rfl
  case nobody =>
    intro hsrc
    rw [hsrc] at hlatches
    rw [if_pos hsrc] at hxcvr
    obtain ⟨hword, hprog⟩ := hlatches rfl
    exact ⟨hword, hprog, congrArg Transceiver.dir hxcvr⟩
  case drives =>
    intro hsrc
    rw [hxcvr, if_neg hsrc]
  case ended =>
    intro hkept
    rw [hended, and_iff_left hkept]
    simp only [fedInTick, hfed, hfed', servedFill_iff, Bool.not_false, Bool.and_self, true_and]
    rfl

/-! ### What else a tick touches -/

section TouchRules

variable (s : State) (p : Pins) (d : Word) (g : Tag)

theorem feedsNow_eq_fedInTick_ticked :
    feedsNow (afterAdvance s p) s.bcs (tickCycle s p) = fedInTick s (ticked s p d g) := by
  rw [feedsNow_eq_fedInTick s p d g, fedInTick, fedInTick, ticked_bcs]

theorem fedInTick_ticked_iff : fedInTick s (ticked s p d g) = true ↔
    dataPhaseNext s ∧ s.bcs.fed = false ∧ isRead s.bcs.latchedStatus = true := by
  rw [← feedsNow_eq_fedInTick_ticked, feedsNow_iff]

theorem fedInTick_iff {t : State} : fedInTick s t = true ↔ s.bcs.fed = false ∧ t.bcs.fed = true := by
  simp [fedInTick]

theorem storesNow_iff : storesNow (afterAdvance s p) s.bcs (tickCycle s p) = true ↔
    (ticked s p d g).resp.event.isSome = true ∧ s.bcs.latchedStatus = .memWrite ∧
      arbiter s.cfg s.srv.state = .backend := by
  have hsame : (afterAdvance s p).cfg = s.cfg ∧ (afterAdvance s p).srv.state = s.srv.state := by
    rw [afterAdvance_eq]
    exact ⟨rfl, rfl⟩
  rw [storesNow, hsame.1, hsame.2, ticked_event_isSome]
  simp only [Bool.and_eq_true, beq_iff_eq, and_assoc]
  exact and_congr_right fun _ => and_comm

/-- A tick that stays in its phase leaves the program as the feed does, and spends one tick of the budget. -/
theorem ticked_of_stays (h : (ticked s p d g).srv.state = s.srv.state) :
    phaseView (ticked s p d g) = viewBefore s (ticked s p d g) ∧
      (ticked s p d g).srv.budget = s.srv.budget - 1 := by
  have hview := ticked_view s p d g
  have hphase : (viewBefore s (ticked s p d g)).phase = s.srv.state := rfl
  change (phaseView (ticked s p d g)).phase = _ at h
  generalize viewBefore s (ticked s p d g) = v at hphase hview ⊢
  generalize phaseView (ticked s p d g) = w at h hview ⊢
  rcases hview with ⟨hs, rfl, -⟩ | ⟨hs, -, rfl, -⟩ | ⟨hs, -, hview⟩ | ⟨-, hview⟩
  · rw [hs] at h
    cases h
  · rw [hs] at h
    cases h
  · rw [hs] at h
    rcases hview.of_finalize rfl with rfl | ⟨-, ⟨hw, -⟩ | ⟨hw, -⟩⟩
    · cases h
    · rw [h] at hw
      cases hw
    · rw [h] at hw
      cases hw
  · exact hview.of_stays (h.trans hphase.symm)

theorem ticked_of_storeDone (h : s.srv.state = .storeDone) : (ticked s p d g).srv.state = .done := by
  have hstep := State.phaseStep_of_storeDone (s := afterLog s p d g) p (r := tickCycle s p)
    (qr := tickReport s p d g) (by rwa [afterLog_state])
  rw [ticked_srv, hstep, State.enter_state]

/-- The end of a cycle releases the transceiver (R319). -/
theorem ticked_xcvr_of_released
    (h : s.cfg.cycleVariant = .fourState ∧ s.bcs.tcycle = .t4 ∨
      s.cfg.cycleVariant = .twoState ∧ (ticked s p d g).resp.event.isSome = true) :
    (ticked s p d g).xcvr = { s.xcvr with dir := .input } := by
  rw [ticked_event_isSome] at h
  have hreleases : releasesBus s.cfg.cycleVariant s.bcs.tcycle (tickCycle s p).ended = true := by
    rcases h with ⟨hv, hc⟩ | ⟨hv, hc⟩ <;> simp [releasesBus, hv, hc]
  have hno : ¬feedsNow (afterAdvance s p) s.bcs (tickCycle s p) = true := by
    rw [feedsNow_iff]
    rintro ⟨hnext, -⟩
    have hended := (tickCycle_of_dataPhaseNext s p hnext).2.1
    rcases h with ⟨hv, hc⟩ | ⟨-, hc⟩
    · simp [dataPhaseNext, hv, hc] at hnext
    · rw [hended] at hc
      cases hc
  rw [ticked_xcvr, afterData_xcvr, hreleases, if_pos rfl, if_neg hno, afterAdvance_eq]

/-- Where no feed drives it and no cycle's end releases it the transceiver stays. -/
theorem ticked_xcvr_of_kept (h4 : ¬(s.cfg.cycleVariant = .fourState ∧ s.bcs.tcycle = .t4))
    (h2 : ¬(s.cfg.cycleVariant = .twoState ∧ (ticked s p d g).resp.event.isSome = true))
    (hfeed : ¬(s.bcs.fed = false ∧ (ticked s p d g).bcs.fed = true ∧ arbiter s.cfg s.srv.state ≠ .nobody)) :
    (ticked s p d g).xcvr = s.xcvr := by
  cases hfed : fedInTick s (ticked s p d g) with
  | true =>
    obtain ⟨hnext, hf, hread⟩ := (fedInTick_ticked_iff s p d g).mp hfed
    obtain ⟨hf', -, hxcvr, -⟩ := ticked_of_feed s p d g hnext hf hread
    have hsrc : arbiter s.cfg s.srv.state = .nobody := by
      by_contra hsrc
      exact hfeed ⟨hf, hf', hsrc⟩
    rw [hxcvr, if_pos hsrc]
  | false =>
    rw [ticked_event_isSome] at h2
    have hkeeps : releasesBus s.cfg.cycleVariant s.bcs.tcycle (tickCycle s p).ended = false := by
      cases hv : s.cfg.cycleVariant
      · simpa [releasesBus, hv] using h4
      · simpa [releasesBus, hv] using h2
    rw [ticked_xcvr, afterData_xcvr, hkeeps, feedsNow_eq_fedInTick_ticked s p d g, hfed, afterAdvance_eq]
    rfl

/-- A write cycle that ends while the backend serves is a bus write. -/
theorem ticked_of_stores (h : storesNow (afterAdvance s p) s.bcs (tickCycle s p) = true) :
    (ticked s p d g).mb = (s.busWrite s.bcs.addressLatch (bheOf s.bcs) s.cfg.bus16 p.dataIn).mb ∧
    (ticked s p d g).flags.mbRange =
      (s.busWrite s.bcs.addressLatch (bheOf s.bcs) s.cfg.bus16 p.dataIn).flags.mbRange ∧
    (ticked s p d g).flags.mbFull =
      (s.busWrite s.bcs.addressLatch (bheOf s.bcs) s.cfg.bus16 p.dataIn).flags.mbFull := by
  have hend := (storesNow_iff s p d g).mp h
  rw [ticked_event_isSome] at hend
  obtain ⟨hended, hk, hsrc⟩ := hend
  have hno : feedsNow (afterAdvance s p) s.bcs (tickCycle s p) = false := by
    rw [← Bool.not_eq_true, feedsNow_iff, hk]
    exact fun hfeed => nomatch hfeed.2.2
  obtain ⟨hrange, hfull⟩ := (afterData_mbFlags s p d g).1 h hno
  rw [ticked_mb, ticked_flags, afterData_mb, if_pos ⟨hended, hsrc, hk⟩]
  exact ⟨rfl, hrange, hfull⟩

theorem ticked_of_noStore (h : storesNow (afterAdvance s p) s.bcs (tickCycle s p) = false) :
    (ticked s p d g).mb = s.mb ∧ (ticked s p d g).flags.mbFull = s.flags.mbFull ∧
    (¬(fedInTick s (ticked s p d g) = true ∧ arbiter s.cfg s.srv.state = .backend ∧
      isMemoryRead s.bcs.latchedStatus = true) → (ticked s p d g).flags.mbRange = s.flags.mbRange) := by
  have hno : ¬((tickCycle s p).ended = true ∧ arbiter s.cfg s.srv.state = .backend ∧
      s.bcs.latchedStatus = .memWrite) := by
    rw [← Bool.not_eq_true, storesNow_iff s p d g, ticked_event_isSome] at h
    exact fun ⟨hended, hsrc, hk⟩ => h ⟨hended, hk, hsrc⟩
  obtain ⟨hfull, hrange⟩ := (afterData_mbFlags s p d g).2 h
  refine ⟨by rw [ticked_mb, afterData_mb, if_neg hno], by rw [ticked_flags]; exact hfull, fun hread => ?_⟩
  cases hfed : fedInTick s (ticked s p d g) with
  | true =>
    obtain ⟨hnext, hf, hr⟩ := (fedInTick_ticked_iff s p d g).mp hfed
    obtain ⟨-, -, -, hkept⟩ := ticked_of_feed s p d g hnext hf hr
    rw [hkept, if_neg fun hsrc => hread ⟨hfed, hsrc⟩]
  | false =>
    rw [ticked_flags]
    rw [feedsNow_eq_fedInTick_ticked s p d g, hfed] at hrange
    exact hrange

end TouchRules

/-- Settles O46: a bus write when `storesNow`, else nothing of the backend; program and transceiver by the feed. -/
theorem ticksTouchStoresOnlyToServe : Obligations.TicksTouchStoresOnlyToServe := by
  intro p d g s t h
  rcases exec_engineTick_cases h with ⟨hterm, rfl⟩ | ⟨⟨he, hs⟩, rfl⟩
  case inl =>
    refine ⟨nofun, fun _ => ⟨rfl, fun _ => rfl, rfl, fun _ => rfl⟩, fun _ => ⟨rfl, fun hne => absurd rfl hne⟩,
      fun he hs => absurd hterm (by simp [he, hs]), ?_⟩
    simp [raised]
  case inr =>
    refine ⟨?stores, ?keeps, ?program, fun _ _ => ⟨ticked_xcvr_of_released s p d g, ticked_xcvr_of_kept s p d g⟩,
      ?storeAddr⟩
    case stores =>
      intro hended hk hsrc
      obtain ⟨hmb, hrange, hfull⟩ := ticked_of_stores s p d g ((storesNow_iff s p d g).mpr ⟨hended, hk, hsrc⟩)
      refine ⟨_, exec_mbBusWrite _ _ _ _ s, hmb, hrange, hfull, fun a ha => ?_⟩
      rw [hmb, ticked_cfg]
      exact (s.busWritten_busWrite _ _ _ _).others a ha
    case keeps =>
      rw [← storesNow_iff, Bool.not_eq_true]
      intro hno
      obtain ⟨hmb, hfull, hrange⟩ := ticked_of_noStore s p d g hno
      refine ⟨hmb, sameMemory_of_cfg_mb (ticked_cfg s p d g) hmb, hfull, fun hread => hrange ?_⟩
      rw [fedInTick_iff]
      exact fun ⟨⟨hf, hf'⟩, hsrc, hk⟩ => hread ⟨hf, hf', hsrc, hk⟩
    case program =>
      intro hstays
      have hip : (ticked s p d g).ip = programAfterFeed s (ticked s p d g) :=
        congrArg PhaseView.ip (ticked_of_stays s p d g hstays).1
      rw [hip, programAfterFeed]
      split
      · rename_i hserved
        simp only [Bool.and_eq_true, beq_iff_eq, fedInTick_iff, isMemoryRead_iff] at hserved
        obtain ⟨⟨⟨⟨hf, hf'⟩, hsrc⟩, hk⟩, -⟩ := hserved
        exact ⟨rfl, fun _ => ⟨hsrc, hf', hf, hk, rfl⟩⟩
      · exact ⟨rfl, fun hne => absurd rfl hne⟩
    case storeAddr =>
      rw [ticked_flags, ticked_event_isSome]
      exact afterData_storeAddr s p d g

end Sys2Proof.Machine
end

section
/-! The sequencer in a tick: what it counts and keeps, the errors it raises and the budget it spends
(46_phase_sequencer.md R320, R335, R336, R338, R341). -/

namespace Sys2Proof.Machine

open Sys2Proof

/-- What the tick from `s` to `t` keeps and counts of the sequencer; `edge` says whether the fetch of the NMI vector was
seen (R335). -/
structure SequencerTicked (s t : State) (edge : Bool) : Prop where
  tickCount : t.srv.tickCount = s.srv.tickCount + 1
  loadFormat : t.srv.loadFormat = s.srv.loadFormat
  smiFetchCount : t.srv.smiFetchCount = s.srv.smiFetchCount
  nmiFetchCount : t.srv.nmiFetchCount = s.srv.nmiFetchCount + edge.toNat
  nmiKept : edge = false → t.resp.err = none → t.srv.nmiOut = s.srv.nmiOut
  nmiReleased : edge = true → t.srv.nmiOut = false
  idCycles : t.srv.idCycles = s.srv.idCycles +
    if s.srv.state = .cpuId ∧ t.resp.event.isSome = true then 1 else 0
  cpuVendor : s.srv.state ≠ .cpuId → t.srv.cpuVendor = s.srv.cpuVendor
  detected : t.srv.resetResult = { s.srv.resetResult with success := t.srv.resetResult.success }
  success : t.srv.resetResult.success = s.srv.resetResult.success ∨ t.srv.state = .error ∨
    s.srv.state = .reset ∧ 0 < s.srv.budget ∧ s.bcs.tcycle ≠ .t1 ∧ t.bcs.tcycle = .t1
  captured : t.srv.stackCaptureCursor = s.srv.stackCaptureCursor +
    if t.resp.event.isSome = true ∧ s.srv.stackArmed = true ∧ s.bcs.latchedStatus = .memWrite then 1 else 0
  stalled : t.srv.stalled = if t.resp.err = some .phaseTimeout then true
    else if t.srv.state = s.srv.state then s.srv.stalled else false

section SequencerRules

variable (s : State) (p : Pins) (d : Word) (g : Tag)

/-- The fetch of the NMI vector, and only that, is the edge of `SequencerTicked`. -/
theorem ticked_sequencer : ∃ edge : Bool, SequencerTicked s (ticked s p d g) edge ∧
    (edge = true → s.srv.state = .execute ∧ nmiEdge (afterLog s p d g) (tickCycle s p) = true) := by
  obtain ⟨edge, hedge, hnmi, hkept, hstalled⟩ :=
    (afterLog s p d g).phaseStep_kept p (tickCycle s p) (tickReport s p d g)
  have hframe := PhaseFrame.phaseStep (afterLog s p d g) p (tickCycle s p) (tickReport s p d g)
  have hcount := hframe.tickCount
  have hformat := hframe.loadFormat
  rw [← ticked_srv] at hedge hnmi hkept hstalled hcount hformat
  rw [← ticked_err] at hnmi hstalled
  rw [State.countIdCycle_eq] at hkept
  have hstalled' : (afterLog s p d g).srv.stalled = s.srv.stalled := by rw [afterLog_srv]
  rw [afterLog_state] at hedge hstalled
  rw [afterLog_nmiOut] at hnmi
  rw [hstalled'] at hstalled
  have hT1 := tickCycle_enteredT1_iff s p d g
  have hevent := ticked_event_isSome s p d g
  refine ⟨edge, {
    tickCount := by rw [hcount, afterLog_srv]
    loadFormat := hformat.trans (afterLog_loadFormat s p d g)
    smiFetchCount := by rw [hkept.smiFetchCount, afterLog_srv]
    nmiFetchCount := by rw [hkept.nmiFetchCount, afterLog_srv]
    nmiKept := hnmi
    nmiReleased := fun h => (hedge h).2.2
    idCycles := by rw [hkept.idCycles, afterLog_srv, hevent]
    cpuVendor := fun h => by rw [hkept.cpuVendor (by rwa [afterLog_state]), afterLog_srv]
    detected := by rw [hkept.detected, afterLog_srv]
    success := ?success
    captured := by rw [hkept.stackCaptureCursor, afterLog_srv, hevent]
    stalled := hstalled }, fun h => ⟨(hedge h).1, (hedge h).2.1⟩⟩
  have hsuccess := hkept.success
  rw [hT1, afterLog_srv] at hsuccess
  exact hsuccess

/-- A tick whose budget does not run out raises no error. -/
theorem ticked_err_of_budget (hne : s.srv.state ≠ .error) (hb : s.srv.budget ≠ 1) :
    (ticked s p d g).resp.err = none ∧ (ticked s p d g).flags.lastError = s.flags.lastError := by
  have herror := ticked_phaseError s p d g hne
  cases he : (ticked s p d g).resp.err with
  | none =>
    rw [he] at herror
    cases herror with
    | none kept _ => exact ⟨rfl, kept⟩
  | some k =>
    rw [he] at herror
    cases herror with
    | resetFailure spent => exact absurd spent hb
    | phaseTimeout spent => exact absurd spent hb

/-- A tick that feeds nothing leaves the bus-cycle machine as CYCLE_TICK does. -/
theorem ticked_bcs_of_noFeed (h : ¬(dataPhaseNext s ∧ s.bcs.fed = false ∧ isRead s.bcs.latchedStatus = true)) :
    (ticked s p d g).bcs = tickBusCycle s.cfg s.bcs p (tickLines s.cfg s.bc p) := by
  have hno : ¬feedsNow (afterAdvance s p) s.bcs (tickCycle s p) = true := by rwa [feedsNow_iff]
  rw [ticked_bcs, afterData, State.dataStep_bcs, if_neg hno, afterAdvance_eq]

end SequencerRules

theorem State.busWrite_settings (s : State) (addr : Addr) (bhe bus16 : Bool) (d : Word) :
    (s.busWrite addr bhe bus16 d).mb.variant = s.mb.variant ∧
    (s.busWrite addr bhe bus16 d).mb.strategy = s.mb.strategy ∧
    (s.busWrite addr bhe bus16 d).mb.seed = s.mb.seed := by
  unfold State.busWrite
  split <;> simp

theorem ticked_mbSettings (s : State) (p : Pins) (d : Word) (g : Tag) :
    (ticked s p d g).mb.variant = s.mb.variant ∧ (ticked s p d g).mb.strategy = s.mb.strategy ∧
    (ticked s p d g).mb.seed = s.mb.seed := by
  rw [ticked_mb, afterData_mb]
  split
  · exact s.busWrite_settings _ _ _ _
  · exact ⟨rfl, rfl, rfl⟩

theorem controllerAfter_of_8288 {c : Config} (b : BusController) (st : BusStatus) (r : Bool)
    (h : c.bcEmulated = true) (hv : c.bcVariant = .bc8288) : controllerAfter c b st r = controllerTick b st := by
  simp [controllerAfter, h, hv]

theorem controllerAfter_of_82288 {c : Config} (b : BusController) (st : BusStatus) (r : Bool)
    (h : c.bcEmulated = true) (hv : c.bcVariant = .bc82288) : controllerAfter c b st r = controllerTick2 b st r := by
  simp [controllerAfter, h, hv]

/-- Settles O43: the fields of the tick by the stage that writes each, the sequencer by `ticked_sequencer`. -/
theorem engineTickAdvances : Obligations.EngineTickAdvances := by
  intro p d g s he hs
  obtain ⟨edge, hseq, hedge⟩ := ticked_sequencer s p d g
  obtain ⟨hvariant, hstrategy, hseed⟩ := ticked_mbSettings s p d g
  have hended := ticked_programEnded_iff s p d g
  have harmed := (ticked_flagsFollow s p d g).stackArmed
  refine ⟨ticked s p d g, _, controllerAfter s.cfg s.bc (decodeStatus s.cfg p.rawStatus p.statusValid).1 p.ready,
    tickLines s.cfg s.bc p, _, exec_engineTick_of_running s p d g he hs, rfl, ?bc8288, ?bc82288, ?lines, ?pins,
    exec_cycleTick p (tickLines s.cfg s.bc p) s, ticked_bc s p d g, ?latches, ?reserved, hseq.tickCount, ticked_cfg s p d g,
    ticked_ipset s p d g, ticked_host s p d g, hvariant, hstrategy, hseed, ticked_resp s p d g, ?ok, ?noFeed,
    hseq.loadFormat, hseq.smiFetchCount, ?probe, hseq.detected, hseq.success, ?nmi, hseq.captured, ?armed⟩
  case bc8288 =>
    intro h hv
    exact ⟨_, exec_bcTick _ s, controllerAfter_of_8288 _ _ _ h hv⟩
  case bc82288 =>
    intro h hv
    exact ⟨_, exec_bcTick2 _ _ s, controllerAfter_of_82288 _ _ _ h hv⟩
  case lines =>
    intro h
    simp [tickLines, h, cmdLinesOf]
  case pins =>
    intro h
    simp [controllerAfter, tickLines, h, pinLines]
  case latches =>
    obtain ⟨w, n, f, h⟩ := afterData_bcs s p d g
    rw [ticked_bcs, h]
  case reserved =>
    obtain ⟨a, b, e, h⟩ := afterData_flags s p d g
    rw [ticked_flags]
    show (afterData s p d g).flags.statusReserved = _
    rw [h]
    cases (decodeStatus s.cfg p.rawStatus p.statusValid).2 <;> simp
  case ok =>
    intro hb
    obtain ⟨herr, hlast⟩ := ticked_err_of_budget s p d g he hb
    refine ⟨?_, hlast⟩
    rw [ticked_resp, herr]
    rfl
  case noFeed =>
    intro hno
    refine ⟨ticked_bcs_of_noFeed s p d g hno, ?_⟩
    have hfed : ¬fedInTick s (ticked s p d g) = true := by rwa [fedInTick_ticked_iff]
    rw [Bool.eq_iff_iff, hended]
    simp [hfed, Classical.or_iff_not_imp_left]
  case probe => exact fun h => ⟨hseq.cpuVendor h, by rw [hseq.idCycles]; simp [h]⟩
  case nmi =>
    cases edge with
    | false => exact .inl ⟨hseq.nmiFetchCount, hseq.nmiKept rfl⟩
    | true =>
      obtain ⟨hexec, hnmi⟩ := hedge rfl
      obtain ⟨hout, ⟨hne, hT1⟩, hread, haddr⟩ := (nmiEdge_afterLog_iff s p d g).mp hnmi
      refine .inr ⟨hseq.nmiFetchCount, hseq.nmiReleased rfl, hexec, hout, hne, hT1, hread, ?_⟩
      rw [haddr, maskAddr_toNat]
      rfl
  case armed =>
    change (ticked s p d g).srv.stackArmed = true ↔ s.srv.stackArmed = true ∧
      ((ticked s p d g).srv.state = .executeDone → s.srv.state = .executeDone) at harmed
    rw [Bool.eq_iff_iff, harmed]
    simp [Classical.or_iff_not_imp_left]

/-! ### CPU identification -/

theorem State.spendBudget_cpuVendor (s : State) : s.spendBudget.1.srv.cpuVendor = s.srv.cpuVendor := by
  rcases s.spendBudget_cases with ⟨-, h⟩ | ⟨-, h⟩ | ⟨-, -, h⟩ | ⟨-, -, h⟩ <;> rw [h]
  · rfl
  · rw [State.enterError, State.enter_cpuVendor]
    rfl
  · rfl

/-- The vendor is classified where CpuId is left for its successor, and nowhere else. -/
theorem State.runSegment_cpuVendor {s : State} (pins : Pins) (r : CycleResult) (hs : s.srv.state = .cpuId) :
    ((s.runSegment .cpuId pins r).1.srv.state = .cpuId →
      (s.runSegment .cpuId pins r).1.srv.cpuVendor = s.srv.cpuVendor) ∧
    ((s.runSegment .cpuId pins r).1.srv.state ≠ .cpuId → (s.runSegment .cpuId pins r).1.srv.state ≠ .error →
      (s.runSegment .cpuId pins r).1.srv.cpuVendor = classify s.cfg s.srv) := by
  unfold State.runSegment
  split
  · exact ⟨fun _ => rfl, fun h => absurd hs h⟩
  · rw [State.spendBudget_cpuVendor, State.spendBudget_state]
    rcases s.segmentEdge_cases .cpuId pins r with h | ⟨q, rest, hq, -, hstate, -, -, -, hvendor, -⟩
    · rw [h, hs]
      exact ⟨fun _ => rfl, by split <;> simp⟩
    · have hne : q ≠ .cpuId := successor_ne hq
      rw [hstate, hvendor, if_pos rfl]
      exact ⟨by split <;> simp [hne], fun _ _ => rfl⟩

/-! ### A tick is a segment's tick, from the state PHASE_DONE is asked of -/

section SegmentTick

variable (s : State) (p : Pins) (d : Word) (g : Tag)

theorem afterLog_countIdCycle : (afterLog s p d g).countIdCycle (tickCycle s p) = stateBeforeEdge s (ticked s p d g) :=
  afterLog_countIdCycle_eq s p d g (tickResponse (engineTick s p d g))

theorem tickCycle_eq_cycleOfTick : tickCycle s p = cycleOfTick s (ticked s p d g) := by
  unfold cycleOfTick
  rw [ticked_tcycle, ticked_event_isSome]
  rfl

theorem stateBeforeEdge_fields {s t : State} (hcfg : t.cfg = s.cfg) : (stateBeforeEdge s t).cfg = s.cfg ∧
    (stateBeforeEdge s t).srv.state = s.srv.state ∧ (stateBeforeEdge s t).srv.budget = s.srv.budget ∧
    (stateBeforeEdge s t).srv.loadFormat = s.srv.loadFormat := ⟨hcfg, rfl, rfl, rfl⟩

/-- Outside StoreDone and the two ends of execution PHASE_STEP is the tick of a segment. -/
theorem ticked_of_segment (h : s.srv.state ≠ .storeDone)
    (hq : s.srv.state = .execute → queueTagEdge s.cfg (tickReport s p d g) = false ∧
      nmiEdge (afterLog s p d g) (tickCycle s p) = false) :
    (ticked s p d g).srv = ((stateBeforeEdge s (ticked s p d g)).runSegment s.srv.state p
      (cycleOfTick s (ticked s p d g))).1.srv ∧
    (ticked s p d g).ip = ((stateBeforeEdge s (ticked s p d g)).runSegment s.srv.state p
      (cycleOfTick s (ticked s p d g))).1.ip ∧
    (ticked s p d g).resp.err = ((stateBeforeEdge s (ticked s p d g)).runSegment s.srv.state p
      (cycleOfTick s (ticked s p d g))).2 := by
  have hstep := State.phaseStep_of_segment (s := afterLog s p d g) p (r := tickCycle s p) (qr := tickReport s p d g)
    (by rwa [afterLog_state]) (by rwa [afterLog_state, afterLog_cfg])
  rw [afterLog_countIdCycle, afterLog_state, tickCycle_eq_cycleOfTick s p d g] at hstep
  rw [ticked_srv, ticked_ip, ticked_err, tickCycle_eq_cycleOfTick s p d g, hstep]
  exact ⟨rfl, rfl, rfl⟩

/-- The same where the phase has no end of its own. -/
theorem ticked_of_segment_phase (h : s.srv.state ≠ .storeDone) (h' : s.srv.state ≠ .execute) :
    (ticked s p d g).srv = ((stateBeforeEdge s (ticked s p d g)).runSegment s.srv.state p
      (cycleOfTick s (ticked s p d g))).1.srv := (ticked_of_segment s p d g h fun he => absurd he h').1

/-- At the fetch of the NMI vector PHASE_STEP is the tick of ExecuteFinalize, just entered (R335). -/
theorem ticked_of_nmi (h : s.srv.state = .execute) (hq : queueTagEdge s.cfg (tickReport s p d g) = false)
    (hn : nmiEdge (afterLog s p d g) (tickCycle s p) = true) :
    (ticked s p d g).srv = ((stateAfterNmiEdge s (ticked s p d g)).runSegment .executeFinalize p
      (cycleOfTick s (ticked s p d g))).1.srv ∧
    (ticked s p d g).ip = ((stateAfterNmiEdge s (ticked s p d g)).runSegment .executeFinalize p
      (cycleOfTick s (ticked s p d g))).1.ip ∧
    (ticked s p d g).resp.err = ((stateAfterNmiEdge s (ticked s p d g)).runSegment .executeFinalize p
      (cycleOfTick s (ticked s p d g))).2 := by
  have hstep := State.phaseStep_of_nmi (s := afterLog s p d g) p (r := tickCycle s p) (qr := tickReport s p d g)
    (by rwa [afterLog_state]) (by rwa [afterLog_cfg]) hn
  rw [afterLog_countIdCycle, tickCycle_eq_cycleOfTick s p d g] at hstep
  rw [ticked_srv, ticked_ip, ticked_err, tickCycle_eq_cycleOfTick s p d g, hstep]
  exact ⟨rfl, rfl, rfl⟩

end SegmentTick

/-- Settles O51: the edge out of CpuId classifies by the count of the tick itself. -/
theorem cpuIdentification : Obligations.CpuIdentification := by
  rintro p d g s t n hs h rfl
  obtain rfl := eq_ticked h (by simp [hs]) (by simp [hs])
  obtain ⟨edge, hseq, -⟩ := ticked_sequencer s p d g
  have hid := hseq.idCycles
  simp only [hs, true_and] at hid
  have hsegment := ticked_of_segment_phase s p d g (by simp [hs]) (by simp [hs])
  obtain ⟨hcfg, hstate, -⟩ := stateBeforeEdge_fields (ticked_cfg s p d g)
  rw [hs] at hsegment hstate
  obtain ⟨hstays, hleaves⟩ := State.runSegment_cpuVendor p (cycleOfTick s (ticked s p d g)) hstate
  rw [← hsegment] at hstays hleaves
  change _ → _ → _ = if (stateBeforeEdge s (ticked s p d g)).cfg.bus16 then s.srv.cpuVendor
    else if Config.cpuidThreshold < (ticked s p d g).srv.idCycles then .nec else .intel at hleaves
  rw [hcfg, hid] at hleaves
  refine ⟨hid, hstays, fun hne herr => ?_⟩
  rw [hleaves hne herr]
  refine ⟨fun h16 hlt => ?_, fun h16 hle => ?_, fun h16 => ?_⟩
  · simp [h16, Config.cpuidThreshold, hlt]
  · have hno : ¬Config.cpuidThreshold < s.srv.idCycles + if (ticked s p d g).resp.event.isSome then 1 else 0 :=
      Nat.not_lt.mpr hle
    rw [if_neg hno, h16]
    rfl
  · simp [h16]

end Sys2Proof.Machine
end

section
/-! The errors of a tick and the budget it spends (46_phase_sequencer.md R320, R338, R341; 60_exceptions.md R382). -/

namespace Sys2Proof.Machine

open Sys2Proof

/-- The phases a segment comes to rest in, and Done (R330). -/
def restPoints : List ServerState :=
  [.jumpVector, .execute, .executeDone, .storeDone, .storeDoneSmm, .done, .shutdown]

theorem successor_rest_iff {c : Config} {f : LoadFormat} {p q : ServerState} {rest : Bool}
    (h : successor c f p = some (q, rest)) : rest = true ↔ q ∈ restPoints := by
  cases p <;> simp only [successor] at h <;> (repeat' split at h) <;> cases h <;> decide

/-! ### The last tick of a segment -/

theorem State.spendBudget_err (s : State) : s.spendBudget.2 = none ↔ s.srv.budget ≠ 1 := by
  rcases s.spendBudget_cases with ⟨hb, h⟩ | ⟨hb, h⟩ | ⟨hb, -, h⟩ | ⟨hb, -, h⟩ <;> rw [h] <;> simp <;> omega

theorem State.spendBudget_of_ne_one {s : State} (h : s.srv.budget ≠ 1) :
    s.spendBudget.1.srv = { s.srv with budget := s.srv.budget - 1 } := by
  rcases s.spendBudget_cases with ⟨hb, hs⟩ | ⟨hb, hs⟩ | ⟨hb, -⟩ | ⟨hb, -⟩
  · have hsame : s.srv.budget - 1 = s.srv.budget := by omega
    rw [hs, hsame]
  · rw [hs]
    rfl
  · exact absurd hb h
  · exact absurd hb h

/-- The phase after a segment's tick. -/
theorem State.runSegment_state {s : State} {p : ServerState} (pins : Pins) (r : CycleResult) (hp : s.srv.state = p) :
    (s.runSegment p pins r).1.srv.state = p ∨ (s.runSegment p pins r).1.srv.state = .error ∨
      ∃ rest, successor s.cfg s.srv.loadFormat p = some ((s.runSegment p pins r).1.srv.state, rest) := by
  rcases s.runSegment_cases p pins r hp with ⟨-, -, -, -, h | ⟨rest, h, -⟩, -⟩ | ⟨-, -, -, h, -⟩ |
    ⟨-, -, -, -, -, h | ⟨rest, h, -⟩, -⟩
  · exact .inl h
  · exact .inr (.inr ⟨rest, h⟩)
  · exact .inr (.inl h)
  · exact .inl h
  · exact .inr (.inr ⟨rest, h⟩)

theorem error_not_mem_restPoints : ServerState.error ∉ restPoints := by decide

theorem resetPhase_of_restPoint : ∀ q ∈ restPoints, isResetPhase q = false := by decide

theorem innerPhase_not_mem_restPoints :
    ∀ q ∈ [ServerState.load, .loadSmm, .loadDone, .emuEnter, .prefetch, .emuExit], q ∉ restPoints := by decide

/-- A segment's tick raises no error unless it is the last and comes to no rest point. -/
theorem State.runSegment_err_iff {s : State} {p : ServerState} (pins : Pins) (r : CycleResult) (hp : s.srv.state = p) :
    (s.runSegment p pins r).2 = none ↔
      s.srv.budget ≠ 1 ∨ (s.runSegment p pins r).1.srv.state ≠ p ∧ (s.runSegment p pins r).1.srv.state ∈ restPoints := by
  unfold State.runSegment
  split
  · rename_i hb
    exact ⟨fun _ => .inl (by omega), fun _ => rfl⟩
  · rename_i hb
    rw [State.spendBudget_err, State.spendBudget_state]
    rcases s.segmentEdge_cases p pins r with h | ⟨q, rest, hq, -, hstate, hbudget, -⟩
    · rw [h, hp]
      by_cases h1 : s.srv.budget = 1 <;> simp only [h1, ne_eq, not_true, true_and, false_or, not_false_iff, true_or,
        false_iff]
      split <;> simp [error_not_mem_restPoints]
    · have hne := successor_ne hq
      have hrest := successor_rest_iff hq
      rw [hstate, hbudget]
      cases rest with
      | true => simp [hne, hrest.mp rfl]
      | false =>
        have hno : q ∉ restPoints := fun h => nomatch hrest.mpr h
        simp only [Bool.false_eq_true, if_false]
        by_cases h1 : s.srv.budget = 1
        · simp only [h1, true_and, ne_eq, not_true, false_or, false_iff]
          split <;> simp [error_not_mem_restPoints, hno]
        · simp [h1]

/-! ### The edges of Reset -/

/-- Reset waits for T1, or fails on its last tick (R341). -/
theorem State.runSegment_reset_of_noT1 {s : State} (pins : Pins) {r : CycleResult} (hs : s.srv.state = .reset)
    (h : r.enteredT1 = false) :
    (s.runSegment .reset pins r).1.srv.state = if s.srv.budget = 1 then .error else .reset := by
  unfold State.runSegment
  split
  · rename_i hb
    simp [hb, hs]
  · have hedge : s.segmentEdge .reset pins r = s := by simp [State.segmentEdge, h]
    rw [hedge, State.spendBudget_state, hs]
    simp [isResetPhase]

theorem successor_reset (c : Config) (f : LoadFormat) : successor c f .reset = some
    (if c.pathOpts.cpuid then .cpuId else if c.pathOpts.cpusetup then .cpuSetup else .jumpVector,
      !c.pathOpts.cpuid && !c.pathOpts.cpusetup) := by
  cases hc : c.pathOpts.cpuid <;> cases hp : c.pathOpts.cpusetup <;> simp [successor, hc, hp]

/-- T1 seen in time moves a running Reset on (R341). -/
theorem State.runSegment_reset_of_T1 {s : State} (pins : Pins) {r : CycleResult} (h : r.enteredT1 = true)
    (hb : 1 < s.srv.budget ∨ s.srv.budget = 1 ∧ s.cfg.pathOpts.cpuid = false ∧ s.cfg.pathOpts.cpusetup = false) :
    (s.runSegment .reset pins r).1.srv.resetResult = { s.srv.resetResult with success := true } ∧
    (s.runSegment .reset pins r).1.srv.state =
      if s.cfg.pathOpts.cpuid then .cpuId else if s.cfg.pathOpts.cpusetup then .cpuSetup else .jumpVector := by
  have hpos : s.srv.budget ≠ 0 := by omega
  unfold State.runSegment
  rw [if_neg hpos, State.segmentEdge, if_pos h]
  rcases State.advancePhase_cases (s.withSrv { s.srv with resetResult := { s.srv.resetResult with success := true } })
    .reset with ⟨hnone, -⟩ | ⟨q, rest, hq, hstate, hbudget, -, hresult, -⟩
  · rw [State.withSrv_cfg, successor_reset] at hnone
    cases hnone
  · rw [State.withSrv_cfg, successor_reset, Option.some.injEq, Prod.mk.injEq] at hq
    obtain ⟨hq, hrest⟩ := hq
    have hone : (State.advancePhase (s.withSrv { s.srv with
        resetResult := { s.srv.resetResult with success := true } }) .reset).srv.budget ≠ 1 := by
      rw [hbudget, ← hrest]
      rcases hb with hb | ⟨hb, hcpuid, hcpusetup⟩
      · split
        · decide
        · exact Nat.ne_of_gt hb
      · simp [hcpuid, hcpusetup]
    rw [State.spendBudget_of_ne_one hone]
    exact ⟨hresult, hstate.trans hq.symm⟩

theorem SegmentResult.budget_of_spent {c : Config} {f : LoadFormat} {ips : List (ProgName × Image)} {v w : PhaseView}
    {b b' : Nat} (h : SegmentResult c f ips v b w b') (hb : b = 0) : b' = 0 := by
  rcases h with ⟨-, hb'⟩ | ⟨-, -, -, -, hpos, -⟩ | ⟨-, -, hb', -⟩ <;> omega

section Ticks

variable (s : State) (p : Pins) (d : Word) (g : Tag)

theorem stateBeforeEdge_ipset : (stateBeforeEdge s (ticked s p d g)).ipset = s.ipset := ticked_ipset s p d g

/-- The queue-tag end of execution enters ExecuteFinalize and raises no error (R334). -/
theorem ticked_of_queueTag (h : s.srv.state = .execute) (hq : queueTagEdge s.cfg (tickReport s p d g) = true) :
    phaseView (ticked s p d g) =
      (viewBefore s (ticked s p d g)).enter s.cfg s.srv.loadFormat s.ipset .executeFinalize ∧
    (ticked s p d g).srv.budget = s.srv.budget ∧ (ticked s p d g).resp.err = none := by
  have hstep := State.phaseStep_of_queueTag (s := afterLog s p d g) p (r := tickCycle s p)
    (qr := tickReport s p d g) (by rwa [afterLog_state]) (by rwa [afterLog_cfg])
  refine ⟨?_, ?_, by rw [ticked_err, hstep]⟩
  · rw [phaseView_ticked, hstep, phaseView_enter, afterLog_countIdCycle, stateBeforeEdge_ipset,
      (stateBeforeEdge_fields (ticked_cfg s p d g)).1]
    rfl
  · rw [ticked_srv, hstep, State.enter_budget, afterLog_countIdCycle]
    rfl

/-- A tick raises no error unless the budget runs out and it neither comes to a rest point nor ends execution by the
queue tag. -/
theorem ticked_err_iff : (ticked s p d g).resp.err = none ↔ s.srv.budget ≠ 1 ∨
    (ticked s p d g).srv.state ≠ s.srv.state ∧ (ticked s p d g).srv.state ∈ restPoints ∨
    s.srv.state = .execute ∧ queueTagEdge s.cfg (tickReport s p d g) = true := by
  rcases (afterLog s p d g).phaseStep_branches (tickCycle s p) (tickReport s p d g) with h | ⟨h, hq⟩ | ⟨h, hq, hn⟩ |
    ⟨h, hq⟩
  all_goals simp only [afterLog_state, afterLog_cfg] at *
  · have hstep := State.phaseStep_of_storeDone (s := afterLog s p d g) p (r := tickCycle s p)
      (qr := tickReport s p d g) (by rwa [afterLog_state])
    have herr : (ticked s p d g).resp.err = none := by rw [ticked_err, hstep]
    simp [herr, ticked_of_storeDone s p d g h, h, restPoints]
  · obtain ⟨-, -, herr⟩ := ticked_of_queueTag s p d g h hq
    simp [herr, h, hq]
  · obtain ⟨hsrv, -, herr⟩ := ticked_of_nmi s p d g h hq hn
    have hphase : (stateAfterNmiEdge s (ticked s p d g)).srv.state = .executeFinalize := State.enter_state _ _
    have hbudget : (stateAfterNmiEdge s (ticked s p d g)).srv.budget = s.srv.budget := State.enter_budget _ _
    have hiff := State.runSegment_err_iff p (cycleOfTick s (ticked s p d g)) hphase
    have hstate := State.runSegment_state p (cycleOfTick s (ticked s p d g)) hphase
    rw [← hsrv] at hiff hstate
    rw [← herr, hbudget] at hiff
    have hleft : (ticked s p d g).srv.state ≠ .execute := by
      rcases hstate with hstate | hstate | ⟨rest, hstate⟩
      · simp [hstate]
      · simp [hstate]
      · intro he
        rw [he, successor] at hstate
        split at hstate <;> cases hstate
    have hfinalize : (ticked s p d g).srv.state ∈ restPoints → (ticked s p d g).srv.state ≠ .executeFinalize := by
      rintro hmem he
      rw [he] at hmem
      exact absurd hmem (by decide)
    rw [hiff, h, hq]
    simp only [hleft, ne_eq, not_false_iff, true_and, Bool.false_eq_true, and_false, or_false]
    exact or_congr_right ⟨And.right, fun hmem => ⟨hfinalize hmem, hmem⟩⟩
  · obtain ⟨hsrv, -, herr⟩ := ticked_of_segment s p d g h hq
    have hiff := State.runSegment_err_iff p (cycleOfTick s (ticked s p d g))
      (stateBeforeEdge_fields (ticked_cfg s p d g)).2.1
    rw [← hsrv, ← herr] at hiff
    have hno : ¬(s.srv.state = .execute ∧ queueTagEdge s.cfg (tickReport s p d g) = true) := fun ⟨he, ht⟩ => by
      rw [(hq he).1] at ht
      cases ht
    rw [hiff, or_iff_left hno]
    rfl

/-! ### Budgets -/

/-- A budget that has run out stays out (R320). -/
theorem ticked_budget_of_spent (h : s.srv.budget = 0) : (ticked s p d g).srv.budget = 0 := by
  rcases ticked_view s p d g with ⟨-, -, hb⟩ | ⟨-, -, -, hb⟩ | ⟨-, -, hview⟩ | ⟨-, hview⟩
  · exact hb.trans h
  · exact hb.trans h
  · exact hview.budget_of_spent h
  · exact hview.budget_of_spent h

end Ticks

/-- A reset phase is followed by a reset phase, by JumpVector or by Error. -/
theorem ticked_state_of_resetPhase (s : State) (p : Pins) (d : Word) (g : Tag) (h : isResetPhase s.srv.state = true) :
    isResetPhase (ticked s p d g).srv.state = true ∨ (ticked s p d g).srv.state = .error ∨
      (ticked s p d g).srv.state = .jumpVector := by
  have hphase := isResetPhase_iff.mp h
  have hsrv := ticked_of_segment_phase s p d g (by rcases hphase with h | h | h <;> simp [h])
    (by rcases hphase with h | h | h <;> simp [h])
  have hstate := State.runSegment_state p (cycleOfTick s (ticked s p d g))
    (stateBeforeEdge_fields (ticked_cfg s p d g)).2.1
  rw [← hsrv] at hstate
  rcases hstate with hstate | hstate | ⟨rest, hstate⟩
  · exact .inl (hstate ▸ h)
  · exact .inr (.inl hstate)
  · generalize (ticked s p d g).srv.state = q at hstate
    rcases hphase with h | h | h <;> rw [h] at hstate <;> simp only [successor] at hstate <;>
      (repeat' split at hstate) <;> cases hstate <;> simp [isResetPhase]

/-- Reset stays, or fails on its last tick, while T1 is not entered (R341). -/
theorem ticked_of_reset_noT1 (s : State) (p : Pins) (d : Word) (g : Tag) (hr : s.srv.state = .reset)
    (h : (cycleOfTick s (ticked s p d g)).enteredT1 = false) :
    (ticked s p d g).srv.state = if s.srv.budget = 1 then .error else .reset := by
  have hsrv := ticked_of_segment_phase s p d g (by simp [hr]) (by simp [hr])
  have hstate := State.runSegment_reset_of_noT1 (s := stateBeforeEdge s (ticked s p d g)) p hr h
  rw [hr] at hsrv
  rw [← hsrv] at hstate
  exact hstate

/-- The last tick of a reset phase that does not come to JumpVector fails (R338). -/
theorem resetFailure_of_lastTick (s : State) (p : Pins) (d : Word) (g : Tag) (hb : s.srv.budget = 1)
    (h : isResetPhase s.srv.state = true) (hne : (ticked s p d g).srv.state ≠ .jumpVector) :
    (ticked s p d g).resp.err = some .resetFailure := by
  have herror := ticked_phaseError s p d g (by intro he; rw [he] at h; cases h)
  have hiff := ticked_err_iff s p d g
  have hphase := ticked_state_of_resetPhase s p d g h
  generalize ticked s p d g = t at *
  cases he : t.resp.err with
  | none =>
    rcases hiff.mp he with hb' | ⟨-, hmem⟩ | ⟨hexec, -⟩
    · exact absurd hb hb'
    · rcases hphase with hr | hr | hr
      · rw [resetPhase_of_restPoint _ hmem] at hr
        cases hr
      · rw [hr] at hmem
        exact absurd hmem (by decide)
      · exact absurd hr hne
    · rw [hexec] at h
      cases h
  | some k =>
    rw [he] at herror
    cases herror with
    | resetFailure => rfl
    | phaseTimeout _ _ hphase' hstate => simp [hphase', hstate, hne] at hphase

/-- Settles O52: the error of a tick (`ticked_phaseError`), when it is raised (`ticked_err_iff`), the edges of Reset and
the budget. -/
theorem timeouts : Obligations.Timeouts := by
  intro p d g s t h he hs
  obtain rfl := eq_ticked h he hs
  have herror := ticked_phaseError s p d g he
  obtain ⟨edge, hseq, -⟩ := ticked_sequencer s p d g
  have hresp := ticked_resp s p d g
  refine ⟨?error, ?timeout, ?failure, ?resetPhase, ?otherPhase, ?rest, ?reset, ?entersT1, ?stays,
    ticked_budget_of_spent s p d g, hseq.stalled⟩
  case error =>
    intro k hk
    rw [hk] at herror hresp
    rw [hresp]
    cases herror with
    | resetFailure spent _ recorded _ budget nmi _ => exact ⟨.inr rfl, spent, budget, nmi, recorded, rfl, rfl⟩
    | phaseTimeout spent recorded _ _ budget nmi => exact ⟨.inl rfl, spent, budget, nmi, recorded, rfl, rfl⟩
  case timeout =>
    intro hk
    rw [hk] at herror
    cases herror with
    | phaseTimeout _ _ phase state =>
      refine ⟨?_, ?_, ?_, state⟩ <;> intro hq <;> rw [hq] at phase <;> cases phase
  case failure =>
    intro hk
    rw [hk] at herror
    cases herror with
    | resetFailure _ _ _ state _ _ success => exact ⟨state, success⟩
  case resetPhase =>
    intro hb hphase
    exact resetFailure_of_lastTick s p d g hb (isResetPhase_iff.mpr hphase)
  case otherPhase =>
    intro hb h1 h2 h3 hstate
    have hsome : (ticked s p d g).resp.err ≠ none := by
      rw [ne_eq, ticked_err_iff]
      rintro (hb' | ⟨hne, hmem⟩ | ⟨hexec, hq⟩)
      · exact hb' hb
      · rcases hstate with hstate | hstate | ⟨hstate, -⟩
        · exact hne hstate
        · exact innerPhase_not_mem_restPoints _ hstate hmem
        · rw [hstate] at hmem
          exact absurd hmem (by decide)
      · have hfinalize := congrArg PhaseView.phase (ticked_of_queueTag s p d g hexec hq).1
        change (ticked s p d g).srv.state = .executeFinalize at hfinalize
        rw [hfinalize, hexec, endStrategy_of_queueTagEdge hq] at hstate
        revert hstate
        decide
    cases hk : (ticked s p d g).resp.err with
    | none => exact absurd hk hsome
    | some k =>
      rw [hk] at herror
      cases herror with
      | resetFailure _ phase =>
        rw [isResetPhase_iff] at phase
        simp [h1, h2, h3] at phase
      | phaseTimeout => rfl
  case rest =>
    intro hne hmem
    exact (ticked_err_iff s p d g).mpr (.inr (.inl ⟨hne, hmem⟩))
  case reset =>
    intro hr hb hno
    refine resetFailure_of_lastTick s p d g hb (by rw [hr]; rfl) ?_
    have hstate := ticked_of_reset_noT1 s p d g hr (by
      rw [← Bool.not_eq_true, ← tickCycle_eq_cycleOfTick, tickCycle_enteredT1_iff s p d g]
      exact hno)
    rw [hstate, if_pos hb]
    decide
  case entersT1 =>
    intro hr hne hT1 hb
    have henters : (cycleOfTick s (ticked s p d g)).enteredT1 = true := by
      rw [← tickCycle_eq_cycleOfTick, tickCycle_enteredT1_iff s p d g]
      exact ⟨hne, hT1⟩
    have hsrv := ticked_of_segment_phase s p d g (by simp [hr]) (by simp [hr])
    have hcfg := (stateBeforeEdge_fields (ticked_cfg s p d g)).1
    have hedge := State.runSegment_reset_of_T1 (s := stateBeforeEdge s (ticked s p d g)) p henters
      (by rw [hcfg]; exact hb)
    rw [hr] at hsrv
    rw [← hsrv, hcfg] at hedge
    exact hedge
  case stays =>
    intro hb hstays
    have hspends := (ticked_of_stays s p d g hstays).2
    omega

end Sys2Proof.Machine
end

section
/-! The end of execution (46_phase_sequencer.md R334, R335). -/

namespace Sys2Proof.Machine

open Sys2Proof

/-- Entering a phase selects the phase's program from the set, seen on the view. -/
theorem selectsProgram_of_view {s t : State} {v : PhaseView} {q : ServerState} {n : ProgName}
    (h : programOf s.cfg s.srv.loadFormat v.phase q = some n)
    (ht : t.ip = (v.enter s.cfg s.srv.loadFormat s.ipset q).ip) : selectsProgram s t n := by
  rw [PhaseView.enter, h] at ht
  constructor
  · intro i hi hlen
    rw [ht]
    simp [hi, programSelect_of_le hlen]
  · intro hi
    rw [ht]
    simp [hi, programSelect_of_le]

section ExecuteTicks

variable (s : State) (p : Pins) (d : Word) (g : Tag)

theorem ofBits_eq_first_iff (b : BitVec 2) : QueueStatus.ofBits b = .first ↔ b = 1 := by
  revert b
  decide

/-- The queue-tag end of execution, from the queue and the pins before the tick. -/
theorem queueTagEdge_tickReport_iff : queueTagEdge s.cfg (tickReport s p d g) = true ↔
    s.cfg.qsAvail = true ∧ s.cfg.endStrategy = .queueTag ∧ p.qs = 1 ∧
      ∃ e l, queueList s.q = e :: l ∧ e.tag = .programEnd := by
  have hreport : tickReport s p d g = if s.cfg.qsAvail then
      ((afterData s p d g).queueStatus (.ofBits p.qs)).2 else quietReport := by
    rw [tickReport, State.queueStep, afterData_cfg]
    cases s.cfg.qsAvail <;> rfl
  have hiff := queueTagEdge_queueStatus_iff (afterData s p d g) (.ofBits p.qs)
  rw [afterData_cfg, afterData_q, ofBits_eq_first_iff] at hiff
  rw [hreport]
  cases hav : s.cfg.qsAvail
  · simp [queueTagEdge, quietReport]
  · simpa using hiff

/-- Without an end of execution Execute stays. -/
theorem ticked_execute_stays (h : s.srv.state = .execute)
    (hq : queueTagEdge s.cfg (tickReport s p d g) = false)
    (hn : nmiEdge (afterLog s p d g) (tickCycle s p) = false) : (ticked s p d g).srv.state = .execute := by
  obtain ⟨hsrv, -⟩ := ticked_of_segment s p d g (by simp [h]) fun _ => ⟨hq, hn⟩
  have hstate : (stateBeforeEdge s (ticked s p d g)).srv.state = .execute := h
  rw [hsrv, h]
  generalize stateBeforeEdge s (ticked s p d g) = u at hstate
  unfold State.runSegment
  split
  · exact hstate
  · rw [State.segmentEdge, State.spendBudget_state, hstate]
    simp [isResetPhase]

theorem stateAfterNmiEdge_fields (h : s.srv.state = .execute) :
    (stateAfterNmiEdge s (ticked s p d g)).cfg = s.cfg ∧
    (stateAfterNmiEdge s (ticked s p d g)).srv.state = .executeFinalize ∧
    (stateAfterNmiEdge s (ticked s p d g)).srv.budget = s.srv.budget ∧
    (stateAfterNmiEdge s (ticked s p d g)).srv.loadFormat = s.srv.loadFormat ∧
    (stateAfterNmiEdge s (ticked s p d g)).ipset = s.ipset ∧
    (stateAfterNmiEdge s (ticked s p d g)).srv.nmiFetchCount = s.srv.nmiFetchCount + 1 ∧
    (stateAfterNmiEdge s (ticked s p d g)).srv.nmiOut = false ∧
    phaseView (stateAfterNmiEdge s (ticked s p d g)) =
      (viewBefore s (ticked s p d g)).enter s.cfg s.srv.loadFormat s.ipset .executeFinalize := by
  have hcfg := (stateBeforeEdge_fields (ticked_cfg s p d g)).1
  have hipset := stateBeforeEdge_ipset s p d g
  unfold stateAfterNmiEdge
  have hframe := State.enter_frame ((stateBeforeEdge s (ticked s p d g)).withSrv
    { (stateBeforeEdge s (ticked s p d g)).srv with nmiFetchCount := s.srv.nmiFetchCount + 1, nmiOut := false })
    .executeFinalize
  have hsrv := State.enter_srv_eq ((stateBeforeEdge s (ticked s p d g)).withSrv
    { (stateBeforeEdge s (ticked s p d g)).srv with nmiFetchCount := s.srv.nmiFetchCount + 1, nmiOut := false })
    .executeFinalize (by show s.srv.state ≠ _; simp [h]) (by decide)
  refine ⟨?_, by rw [hsrv], by rw [hsrv]; rfl, by rw [hsrv]; rfl, ?_, by rw [hsrv]; rfl, by rw [hsrv]; rfl, ?_⟩
  · rw [State.enter_cfg]
    exact hcfg
  · rw [hframe]
    exact hipset
  · rw [phaseView_enter, State.withSrv_cfg, hcfg, State.withSrv_ipset, hipset]
    rfl

/-- The fetch of the NMI vector: it is counted, NMI released and ExecuteFinalize entered, which may end at once. -/
theorem ticked_of_nmiEdge (h : s.srv.state = .execute) (hq : queueTagEdge s.cfg (tickReport s p d g) = false)
    (hn : nmiEdge (afterLog s p d g) (tickCycle s p) = true) :
    (ticked s p d g).srv.nmiFetchCount = s.srv.nmiFetchCount + 1 ∧ (ticked s p d g).srv.nmiOut = false ∧
    SegmentResult s.cfg s.srv.loadFormat s.ipset
      ((viewBefore s (ticked s p d g)).enter s.cfg s.srv.loadFormat s.ipset .executeFinalize) s.srv.budget
      (phaseView (ticked s p d g)) (ticked s p d g).srv.budget := by
  obtain ⟨hsrv, hip, -⟩ := ticked_of_nmi s p d g h hq hn
  obtain ⟨hcfg, hstate, hbudget, hformat, hipset, hcount, hnmi, hview⟩ := stateAfterNmiEdge_fields s p d g h
  have hkept := (State.runSegment_kept _ _ p (cycleOfTick s (ticked s p d g)) hstate).1
  have hcases := State.runSegment_cases _ _ p (cycleOfTick s (ticked s p d g)) hstate
  have hsegment := State.runSegment_view _ _ p (cycleOfTick s (ticked s p d g)) hstate
  have hviews : phaseView (ticked s p d g) = phaseView ((stateAfterNmiEdge s (ticked s p d g)).runSegment
      .executeFinalize p (cycleOfTick s (ticked s p d g))).1 := by
    rw [phaseView, phaseView, hsrv, hip]
  rw [← hviews, ← hsrv, hview, hcfg, hformat, hipset, hbudget] at hsegment
  refine ⟨?_, ?_, hsegment⟩
  · rw [hsrv, hkept.nmiFetchCount, hcount]
  · rw [hsrv]
    rcases hcases with ⟨-, -, hout, -⟩ | ⟨-, -, -, -, -, hout, -⟩ | ⟨-, -, -, hout, -⟩
    · exact hout.trans hnmi
    · exact hout
    · exact hout

end ExecuteTicks

/-- Settles O50: the two ends of execution, and `ticked_execute_stays` where neither is seen. -/
theorem endOfExecution : Obligations.EndOfExecution := by
  rintro p d g s t v hs h rfl
  obtain rfl := eq_ticked h (by simp [hs]) (by simp [hs])
  have htag := queueTagEdge_tickReport_iff s p d g
  have hnmi := nmiEdge_afterLog_iff s p d g
  have hvector : (ticked s p d g).bcs.addressLatch = maskAddr s.cfg s.cfg.nmiVectorAddr ↔
      (ticked s p d g).bcs.addressLatch.toNat = s.cfg.nmiVectorAddr.toNat % addrSpace s.cfg := by
    rw [← BitVec.toNat_inj, maskAddr_toNat]
    rfl
  have hnoTag : s.cfg.endStrategy = .nmiVector → queueTagEdge s.cfg (tickReport s p d g) = false := by
    intro hend
    rw [← Bool.not_eq_true, htag, hend]
    exact fun htag => nomatch htag.2.1
  refine ⟨?queueTag, ?stays, ?nmi, ?noFetch⟩
  case queueTag =>
    intro hend hav hqs hlist
    obtain ⟨hview, hbudget, -⟩ := ticked_of_queueTag s p d g hs (htag.mpr ⟨hav, hend, hqs, hlist⟩)
    exact ⟨congrArg PhaseView.phase hview, hbudget,
      selectsProgram_of_view (by simp [programOf, hend]) (congrArg PhaseView.ip hview)⟩
  case stays =>
    intro hout hno
    refine ticked_execute_stays s p d g hs ?_ ?_
    · rw [← Bool.not_eq_true, htag]
      rintro ⟨hav, hend, hqs, e, l, hlist, he⟩
      rcases hno with hno | hno | hno | hno | ⟨e', l', hno, he'⟩
      · rw [hno] at hend
        cases hend
      · rw [hno] at hav
        cases hav
      · exact hno hqs
      · rw [hno] at hlist
        cases hlist
      · rw [hno] at hlist
        cases hlist
        rw [he] at he'
        cases he'
    · rw [← Bool.not_eq_true, hnmi, hout]
      exact fun hn => nomatch hn.1
  case nmi =>
    intro hend hout hne hT1 hread haddr
    obtain ⟨hcount, hreleased, hsegment⟩ := ticked_of_nmiEdge s p d g hs (hnoTag hend)
      (hnmi.mpr ⟨hout, ⟨hne, hT1⟩, hread, hvector.mpr haddr⟩)
    refine ⟨hcount, hreleased, ?_⟩
    rcases hsegment.of_finalize rfl with hview | ⟨-, hleaves⟩
    · exact .inl ⟨congrArg PhaseView.phase hview,
        selectsProgram_of_view (by simp [programOf, hend]) (congrArg PhaseView.ip hview)⟩
    · exact .inr hleaves
  case noFetch =>
    intro hout hend hno
    have hfalse : nmiEdge (afterLog s p d g) (tickCycle s p) = false := by
      rw [← Bool.not_eq_true, hnmi, hvector]
      rintro ⟨-, ⟨hne, hT1⟩, hread, haddr⟩
      rcases hno with hno | hno | hno | hno
      · exact hne hno
      · exact hno hT1
      · rw [hread] at hno
        cases hno
      · exact hno haddr
    refine ⟨ticked_execute_stays s p d g hs (hnoTag hend) hfalse, fun hb => ?_⟩
    obtain ⟨edge, hseq, hedge⟩ := ticked_sequencer s p d g
    have hedge' : edge = false := by
      rw [← Bool.not_eq_true]
      intro he
      rw [(hedge he).2] at hfalse
      cases hfalse
    rw [hseq.nmiKept hedge' (ticked_err_of_budget s p d g (by simp [hs]) hb).1, hout]

end Sys2Proof.Machine
end

section
/-! What a tick that changes the phase does to the active program, and what PHASE_DONE decides (46_phase_sequencer.md
R320, R330 to R333). -/

namespace Sys2Proof.Machine

open Sys2Proof

/-! ### The program of the phase entered -/

/-- The exit action rewinds the program of the phase left where the phase entered selects none (R333). -/
theorem PhaseView.enter_ip_of_rewind {c : Config} {f : LoadFormat} {ips : List (ProgName × Image)} {v : PhaseView}
    {q : ServerState} (hnone : programOf c f v.phase q = none) (howns : ownsProgram c f v.phase = true)
    (hq : v.phase ≠ .prefetch) : (v.enter c f ips q).ip = programReset v.ip := by
  simp [PhaseView.enter, hnone, PhaseView.exitProgram, howns, hq]

/-- Prefetch hands its program on to Execute as it stands (R332). -/
theorem PhaseView.enter_ip_of_handOn {c : Config} {f : LoadFormat} {ips : List (ProgName × Image)} {v : PhaseView}
    (hv : v.phase = .prefetch) : (v.enter c f ips .execute).ip = v.ip := by
  simp [PhaseView.enter, programOf, hv, PhaseView.exitProgram]

theorem programReset_programAfterFeed (s t : State) :
    programReset (programAfterFeed s t) = { s.ip with cursor := 0 } := by
  unfold programAfterFeed
  split <;> rfl

/-- The rest points that select no program are entered from phases that own one. -/
theorem ownsProgram_of_successor {c : Config} {f : LoadFormat} {p q : ServerState} {rest : Bool}
    (h : successor c f p = some (q, rest))
    (hq : q = .storeDone ∨ q = .storeDoneSmm ∨ q = .shutdown ∨ q = .executeDone) : ownsProgram c f p = true := by
  cases p <;> simp only [successor] at h <;> (repeat' split at h) <;> cases h <;> simp at hq <;>
    simp [ownsProgram, programOf]
  cases c.endStrategy <;> rfl

theorem ownsProgram_of_loadDone {c : Config} {f : LoadFormat} {p : ServerState} {rest : Bool}
    (h : successor c f p = some (.loadDone, rest)) (hf : p = .loadSmm ∨ f ≠ .v3b) : ownsProgram c f p = true := by
  cases p <;> simp only [successor] at h <;> (repeat' split at h) <;> cases h
  · cases f <;> simp_all [ownsProgram, programOf]
  · rfl

theorem ownsProgram_of_resetPhase {c : Config} {f : LoadFormat} {p : ServerState} (h : isResetPhase p = true)
    (hp : p ≠ .reset) : ownsProgram c f p = true ∧ p ≠ .prefetch := by
  rcases isResetPhase_iff.mp h with rfl | rfl | rfl
  · exact absurd rfl hp
  · exact ⟨rfl, by decide⟩
  · exact ⟨rfl, by decide⟩

theorem ownsProgram_of_resetSuccessor {c : Config} {f : LoadFormat} {p q : ServerState} {rest : Bool}
    (h : isResetPhase p = true) (hp : p ≠ .reset) (hq : successor c f p = some (q, rest)) :
    ownsProgram c f q = true ∧ q ≠ .prefetch := by
  rcases isResetPhase_iff.mp h with rfl | rfl | rfl
  · exact absurd rfl hp
  · simp only [successor] at hq
    split at hq <;> cases hq <;> exact ⟨rfl, by decide⟩
  · cases hq
    exact ⟨rfl, by decide⟩

/-! ### The tick that changes the phase -/

/-- From which view the phase of a tick is entered. -/
inductive EntersFrom (s t : State) (v : PhaseView) : Prop
  | stored (state : s.srv.state = .storeDone) (done : t.srv.state = .done) (view : v = viewBefore s t)
  | tagged (state : s.srv.state = .execute) (finalize : t.srv.state = .executeFinalize) (view : v = viewBefore s t)
  | finalized (state : s.srv.state = .execute) (target : t.srv.state = .emuExit ∨ t.srv.state = .executeDone)
  | advanced (rest : Bool) (edge : successor s.cfg s.srv.loadFormat s.srv.state = some (t.srv.state, rest))
      (view : v = viewBefore s t)
  | failed (phase : isResetPhase s.srv.state = true) (error : t.srv.state = .error)
      (owns : s.srv.state ≠ .reset → ownsProgram s.cfg s.srv.loadFormat v.phase = true ∧ v.phase ≠ .prefetch)

/-- A tick that changes the phase enters the new one. -/
theorem ticked_enters (s : State) (p : Pins) (d : Word) (g : Tag) (hne : (ticked s p d g).srv.state ≠ s.srv.state) :
    ∃ v, phaseView (ticked s p d g) = v.enter s.cfg s.srv.loadFormat s.ipset (ticked s p d g).srv.state ∧
      EntersFrom s (ticked s p d g) v := by
  have hview := ticked_view s p d g
  generalize ticked s p d g = t at hne hview ⊢
  have hstate : ∀ w, phaseView t = w → t.srv.state = w.phase := fun w h => congrArg PhaseView.phase h
  have hphase : (viewBefore s t).phase = s.srv.state := rfl
  rcases hview with ⟨hs, hview, -⟩ | ⟨hs, -, hview, -⟩ | ⟨hs, -, hview⟩ | ⟨-, hview⟩
  · have ht : t.srv.state = .done := hstate _ hview
    exact ⟨_, by rw [ht]; exact hview, .stored hs ht rfl⟩
  · have ht : t.srv.state = .executeFinalize := hstate _ hview
    exact ⟨_, by rw [ht]; exact hview, .tagged hs ht rfl⟩
  · rcases hview with ⟨hview, -⟩ | ⟨q, rest, hq, hview, -⟩ | ⟨-, hr, -⟩
    · have ht : t.srv.state = .executeFinalize := hstate _ hview
      exact ⟨_, by rw [ht]; exact hview, .tagged hs ht rfl⟩
    · have ht : t.srv.state = q := hstate _ hview
      refine ⟨_, by rw [ht]; exact hview, .finalized hs ?_⟩
      rw [ht]
      simp only [PhaseView.enter, successor] at hq
      split at hq <;> cases hq
      · exact .inl rfl
      · exact .inr rfl
    · cases hr
  · rcases hview with ⟨hview, -⟩ | ⟨q, rest, hq, hview, -⟩ | ⟨-, hr, -, hview | ⟨q, rest, hq, hview⟩⟩
    · exact absurd (hstate _ hview) hne
    · have ht : t.srv.state = q := hstate _ hview
      exact ⟨_, by rw [ht]; exact hview, .advanced rest (by rw [ht]; exact hq) rfl⟩
    · have ht : t.srv.state = .error := hstate _ hview
      exact ⟨_, by rw [ht]; exact hview, .failed hr ht fun hp => ownsProgram_of_resetPhase hr hp⟩
    · have ht : t.srv.state = .error := hstate _ hview
      exact ⟨_, by rw [ht]; exact hview, .failed hr ht fun hp => ownsProgram_of_resetSuccessor hr hp hq⟩

/-- Every other phase is entered along an edge of the table. -/
theorem EntersFrom.edge {s t : State} {v : PhaseView} (h : EntersFrom s t v)
    (ht : t.srv.state ∉ [ServerState.done, .executeFinalize, .emuExit, .executeDone, .error]) :
    v = viewBefore s t ∧ ∃ rest, successor s.cfg s.srv.loadFormat s.srv.state = some (t.srv.state, rest) := by
  cases h with
  | stored _ hq _ => simp [hq] at ht
  | tagged _ hq _ => simp [hq] at ht
  | finalized _ hq => rcases hq with hq | hq <;> simp [hq] at ht
  | advanced rest edge view => exact ⟨view, rest, edge⟩
  | failed _ hq _ => simp [hq] at ht

/-- A phase that selects no program is entered from one that owned its program, so the cursor is rewound. -/
theorem ip_of_rewind {s t : State} {v : PhaseView} {q : ServerState} (hv : v = viewBefore s t)
    (hip : t.ip = (v.enter s.cfg s.srv.loadFormat s.ipset q).ip)
    (hnone : programOf s.cfg s.srv.loadFormat s.srv.state q = none)
    (howns : ownsProgram s.cfg s.srv.loadFormat s.srv.state = true) (hs : s.srv.state ≠ .prefetch) :
    t.ip = { s.ip with cursor := 0 } := by
  subst hv
  rw [hip, PhaseView.enter_ip_of_rewind (v := viewBefore s t) hnone howns hs]
  exact programReset_programAfterFeed s t

/-! ### PHASE_DONE -/

section SuccessorRows

variable (c : Config) (f : LoadFormat)

theorem successor_jumpVector : successor c f .jumpVector = some (if f = .v3b then .loadSmm else .load, false) := by
  cases f <;> rfl

theorem successor_emuEnter : successor c f .emuEnter =
    some (if c.pathOpts.prefetch then .prefetch else .execute, !c.pathOpts.prefetch) := by
  cases h : c.pathOpts.prefetch <;> simp [successor, h]

theorem successor_executeFinalize : successor c f .executeFinalize =
    some (if c.pathOpts.emu then .emuExit else .executeDone, !c.pathOpts.emu) := by
  cases h : c.pathOpts.emu <;> simp [successor, h]

theorem successor_store : successor c f .store = some (if f = .v3b then .storeDoneSmm else .storeDone, true) := by
  cases f <;> rfl

end SuccessorRows

section PhaseDoneRules

variable (s : State) (p : Pins) (d : Word) (g : Tag)

/-- In a phase that ends on PHASE_DONE a tick leaves for the successor or stays, as PHASE_DONE answers; a reset phase
fails on its last tick unless it comes to rest. -/
theorem ticked_of_awaits {q : ServerState} {rest : Bool} (ha : awaitsPhaseDone s.srv.state = true)
    (hb : 0 < s.srv.budget) (hq : successor s.cfg s.srv.loadFormat s.srv.state = some (q, rest)) :
    (ticked s p d g).srv.state =
      if phaseDone s.srv.state (stateBeforeEdge s (ticked s p d g)) p (cycleOfTick s (ticked s p d g)) = true then
        (if rest = false ∧ s.srv.budget = 1 ∧ isResetPhase q = true then .error else q)
      else if s.srv.budget = 1 ∧ isResetPhase s.srv.state = true then .error else s.srv.state := by
  have hsrv := ticked_of_segment_phase s p d g (by intro h; rw [h] at ha; cases ha)
    (by intro h; rw [h] at ha; cases ha)
  obtain ⟨hcfg, hstate, hbudget, hformat⟩ := stateBeforeEdge_fields (ticked_cfg s p d g)
  have hdone := State.runSegment_phaseDone (s := stateBeforeEdge s (ticked s p d g)) p
    (cycleOfTick s (ticked s p d g)) hstate (by rwa [hbudget]) ha (by rw [hcfg, hformat]; exact hq)
  rw [← hsrv, hbudget] at hdone
  exact hdone

/-- An idle phase stays. -/
theorem ticked_of_idle (h : s.srv.state ≠ .storeDone) (h' : s.srv.state ≠ .execute) (hb : s.srv.budget = 0) :
    (ticked s p d g).srv.state = s.srv.state := by
  have hsrv := ticked_of_segment_phase s p d g h h'
  have hbudget : (stateBeforeEdge s (ticked s p d g)).srv.budget = 0 := hb
  rw [hsrv, State.runSegment, if_pos hbudget]
  rfl

theorem ticked_of_loadDone (h : s.srv.state = .loadDone) (hb : 0 < s.srv.budget) :
    (ticked s p d g).srv.state ≠ .loadDone := by
  have hsrv := ticked_of_segment_phase s p d g (by simp [h]) (by simp [h])
  obtain ⟨hcfg, -, hbudget, hformat⟩ := stateBeforeEdge_fields (ticked_cfg s p d g)
  have hsuccessor : ∃ q rest, successor s.cfg s.srv.loadFormat .loadDone = some (q, rest) := by
    simp only [successor]
    split
    · exact ⟨_, _, rfl⟩
    · split <;> exact ⟨_, _, rfl⟩
  obtain ⟨q, rest, hq⟩ := hsuccessor
  have hstate := State.advancePhase_spend_state (s := stateBeforeEdge s (ticked s p d g)) (p := .loadDone)
    (by rw [hcfg, hformat]; exact hq)
  rw [hsrv, h, State.runSegment, if_neg (by omega), State.segmentEdge, hstate]
  split
  · decide
  · exact successor_ne hq

theorem successor_of_awaits {c : Config} {f : LoadFormat} {q : ServerState} (h : awaitsPhaseDone q = true) :
    ∃ r rest, successor c f q = some (r, rest) := by
  cases q <;> cases h <;> simp only [successor] <;> (repeat' split) <;> exact ⟨_, _, rfl⟩

/-- A queue-tag end of execution counts no fetch of the NMI vector. -/
theorem nmiFetchCount_of_queueTag (h : s.srv.state = .execute)
    (hq : queueTagEdge s.cfg (tickReport s p d g) = true) :
    (ticked s p d g).srv.nmiFetchCount = s.srv.nmiFetchCount := by
  have hstep := State.phaseStep_of_queueTag (s := afterLog s p d g) p (r := tickCycle s p)
    (qr := tickReport s p d g) (by rwa [afterLog_state]) (by rwa [afterLog_cfg])
  rw [ticked_srv, hstep, afterLog_countIdCycle,
    (State.enter_counters _ .executeFinalize (by show s.srv.state ≠ _; simp [h]) (by decide)).1]
  rfl

/-- The tick that sees the NMI vector asks PHASE_DONE of ExecuteFinalize, just entered. -/
theorem ticked_of_nmi_phaseDone (h : s.srv.state = .execute)
    (hcount : (ticked s p d g).srv.nmiFetchCount ≠ s.srv.nmiFetchCount) :
    (ticked s p d g).srv.state = if 0 < s.srv.budget ∧
        phaseDone .executeFinalize (stateAfterNmiEdge s (ticked s p d g)) p (cycleOfTick s (ticked s p d g)) = true then
      (if s.cfg.pathOpts.emu then .emuExit else .executeDone) else .executeFinalize := by
  obtain ⟨edge, hseq, hedge⟩ := ticked_sequencer s p d g
  have hq : queueTagEdge s.cfg (tickReport s p d g) = false := by
    rw [← Bool.not_eq_true]
    exact fun hq => hcount (nmiFetchCount_of_queueTag s p d g h hq)
  have hn : nmiEdge (afterLog s p d g) (tickCycle s p) = true := by
    cases edge with
    | true => exact (hedge rfl).2
    | false => exact absurd hseq.nmiFetchCount hcount
  obtain ⟨hsrv, -⟩ := ticked_of_nmi s p d g h hq hn
  obtain ⟨hcfg, hstate, hbudget, hformat, -⟩ := stateAfterNmiEdge_fields s p d g h
  rw [hsrv]
  by_cases hb : 0 < s.srv.budget
  · rw [State.runSegment_phaseDone (s := stateAfterNmiEdge s (ticked s p d g)) p _ hstate (by rwa [hbudget]) rfl
      (by rw [hcfg, hformat, successor_executeFinalize])]
    cases s.cfg.pathOpts.emu <;> simp [hb, isResetPhase]
  · have hb0 : (stateAfterNmiEdge s (ticked s p d g)).srv.budget = 0 := by omega
    rw [State.runSegment, if_pos hb0, if_neg fun hpos => hb hpos.1, hstate]

end PhaseDoneRules

/-- Settles O60: `ticked_enters` for the program of a phase entered, `ticked_of_awaits` for what PHASE_DONE decides. -/
theorem phaseEntryAndExit : Obligations.PhaseEntryAndExit := by
  intro p d g s t h
  rcases exec_engineTick_cases h with ⟨hterm, rfl⟩ | ⟨⟨he, hs⟩, rfl⟩
  case inl => rcases hterm with hterm | hterm <;> simp [raised, hterm]
  case inr =>
    refine ⟨ticked_of_loadDone s p d g, ticked_of_storeDone s p d g, ?entry, ?done, ?notDone,
      ticked_of_reset_noT1 s p d g, ticked_of_nmi_phaseDone s p d g⟩
    case entry =>
      intro hne
      obtain ⟨v, hview, hfrom⟩ := ticked_enters s p d g hne
      generalize ticked s p d g = t at hne hview hfrom ⊢
      have hip := congrArg PhaseView.ip hview
      have hselects : ∀ {n}, programOf s.cfg s.srv.loadFormat v.phase t.srv.state = some n → selectsProgram s t n :=
        fun hn => selectsProgram_of_view hn hip
      refine ⟨?_, ?_, ?_, ?load, ?_, ?_, ?_, ?finalize, ?opened, ?ended, ?handOn, ?loadDone, ?store, ?executeDone,
        ?error⟩
      case load =>
        intro hq
        exact ⟨fun hf => hselects (by simp [programOf, hq, hf]), fun hf => hselects (by simp [programOf, hq, hf]),
          fun hf => hselects (by simp [programOf, hq, hf])⟩
      case finalize =>
        intro hq
        exact ⟨fun hend => hselects (by simp [programOf, hq, hend]), fun hend => hselects (by simp [programOf, hq, hend])⟩
      case opened =>
        intro hq
        obtain ⟨hv, -⟩ := hfrom.edge (by rcases hq with hq | ⟨hq, -⟩ <;> simp [hq])
        have hs' : s.srv.state ≠ .prefetch := by
          rcases hq with hq | ⟨-, hq⟩
          · rw [← hq]
            exact hne.symm
          · exact hq
        have hv' : v.phase = s.srv.state := congrArg PhaseView.phase hv
        constructor
        · intro hsrc
          refine hselects ?_
          rcases hq with hq | ⟨hq, -⟩ <;> simp [programOf, hq, hsrc, hv', hs']
        · intro hsrc hemu
          refine ip_of_rewind hv hip ?_ (by rw [hemu]; rfl) hs'
          rcases hq with hq | ⟨hq, -⟩ <;> simp [programOf, hq, hsrc]
      case ended =>
        intro hq
        have hended := congrArg PhaseView.programEnded hview
        rw [hq] at hended
        exact hended
      case handOn =>
        intro hq hprefetch
        obtain ⟨rfl, -⟩ := hfrom.edge (by simp [hq])
        rw [hq, PhaseView.enter_ip_of_handOn (v := viewBefore s t) hprefetch] at hip
        change t.ip = programAfterFeed s t at hip
        rw [hip, programAfterFeed]
        split
        · rename_i hserved
          simp only [Bool.and_eq_true, fedInTick_iff] at hserved
          exact ⟨rfl, .inr ⟨hserved.1.1.1.1, hserved.1.1.1.2, rfl⟩⟩
        · exact ⟨rfl, .inl rfl⟩
      case loadDone =>
        intro hq howns
        obtain ⟨hv, rest, hedge⟩ := hfrom.edge (by simp [hq])
        rw [hq] at hip hedge
        exact ip_of_rewind hv hip rfl (ownsProgram_of_loadDone hedge howns) (by rintro hp; rw [hp] at hedge; cases hedge)
      case store =>
        intro hq
        obtain ⟨hv, rest, hedge⟩ := hfrom.edge (by rcases hq with hq | hq | hq <;> simp [hq])
        have howns := ownsProgram_of_successor hedge (by rcases hq with hq | hq | hq <;> simp [hq])
        refine ip_of_rewind hv hip (by rcases hq with hq | hq | hq <;> rw [hq] <;> rfl) howns ?_
        intro hp
        rw [hp, successor, Option.some.injEq, Prod.mk.injEq] at hedge
        simp [← hedge.1] at hq
      case executeDone =>
        intro hq
        have harmed := congrArg PhaseView.stackArmed hview
        rw [hq] at harmed hip
        refine ⟨harmed, fun hs' => ?_⟩
        cases hfrom with
        | stored _ done _ => simp [done] at hq
        | tagged state _ _ => exact absurd state hs'
        | finalized state _ => exact absurd state hs'
        | failed _ error _ => simp [error] at hq
        | advanced rest edge view =>
          rw [hq] at edge
          exact ip_of_rewind view hip rfl (ownsProgram_of_successor edge (by simp))
            (by intro hp; rw [hp] at edge; cases edge)
      case error =>
        intro hq hr
        rw [hq] at hip
        cases hfrom with
        | stored _ done _ => simp [done] at hq
        | tagged _ finalize _ => simp [finalize] at hq
        | finalized _ target => simp [hq] at target
        | advanced rest edge _ => exact absurd hq (successor_ne_error edge)
        | failed _ _ owns =>
          obtain ⟨howns, hv⟩ := owns hr
          have hrewound := PhaseView.enter_ip_of_rewind (ips := s.ipset) (q := .error) rfl howns hv
          exact congrArg ActiveProgram.cursor (hip.trans hrewound)
      all_goals exact fun hq => hselects (by rw [hq]; rfl)
    case done =>
      intro hb hdone
      have hleaves : ∀ {q rest}, awaitsPhaseDone s.srv.state = true →
          successor s.cfg s.srv.loadFormat s.srv.state = some (q, rest) → (ticked s p d g).srv.state =
            if rest = false ∧ s.srv.budget = 1 ∧ isResetPhase q = true then .error else q := by
        intro q rest ha hq
        rw [ticked_of_awaits s p d g ha hb hq, if_pos hdone]
      have hstays : ∀ {q rest}, awaitsPhaseDone s.srv.state = true →
          successor s.cfg s.srv.loadFormat s.srv.state = some (q, rest) → isResetPhase q = false →
            (ticked s p d g).srv.state = q := by
        intro q rest ha hq hno
        rw [hleaves ha hq, hno, if_neg fun h => nomatch h.2.2]
      refine ⟨?cpuId, ?_, ?jumpVector, ?load, ?emuEnter, ?_, ?executeFinalize, ?_, ?store, ?_⟩
      case cpuId =>
        intro hq
        cases hc : s.cfg.pathOpts.cpusetup with
        | true =>
          rw [hleaves (q := .cpuSetup) (rest := false) (by rw [hq]; rfl) (by simp [hq, successor, hc])]
          simp [isResetPhase]
        | false => exact hstays (rest := true) (by rw [hq]; rfl) (by simp [hq, successor, hc]) rfl
      case load =>
        rintro (hq | hq) <;> exact hstays (rest := false) (by rw [hq]; rfl) (by rw [hq]; rfl) rfl
      case jumpVector =>
        exact fun hq => hstays (by rw [hq]; rfl) (by rw [hq, successor_jumpVector]) (by split <;> rfl)
      case emuEnter =>
        exact fun hq => hstays (by rw [hq]; rfl) (by rw [hq, successor_emuEnter]) (by split <;> rfl)
      case executeFinalize =>
        exact fun hq => hstays (by rw [hq]; rfl) (by rw [hq, successor_executeFinalize]) (by split <;> rfl)
      case store =>
        exact fun hq => hstays (by rw [hq]; rfl) (by rw [hq, successor_store]) (by split <;> rfl)
      all_goals exact fun hq => hstays (rest := true) (by rw [hq]; rfl) (by rw [hq]; rfl) rfl
    case notDone =>
      intro hdone hmem
      have ha : awaitsPhaseDone s.srv.state = true ∧ s.srv.state ≠ .storeDone ∧ s.srv.state ≠ .execute ∧
          s.srv.state ≠ .reset := by
        revert hmem
        generalize s.srv.state = q
        revert q
        decide
      obtain ⟨hawaits, hstored, hexec, hreset⟩ := ha
      have hphase : isResetPhase s.srv.state = true ↔ s.srv.state = .cpuId ∨ s.srv.state = .cpuSetup := by
        simp [isResetPhase_iff, hreset]
      by_cases hb : 0 < s.srv.budget
      · obtain ⟨q, rest, hq⟩ := successor_of_awaits (c := s.cfg) (f := s.srv.loadFormat) hawaits
        rw [ticked_of_awaits s p d g hawaits hb hq, hdone, if_neg Bool.false_ne_true]
        simp only [hphase]
      · have hb0 : s.srv.budget = 0 := by omega
        rw [ticked_of_idle s p d g hstored hexec hb0, if_neg (by omega)]

end Sys2Proof.Machine
end

section
/-! A code fetch served by an inline program, tick by tick (46_phase_sequencer.md R348). -/

namespace Sys2Proof.Machine

open Sys2Proof

/-! ### The configuration of the worked fetch -/

/-- An eight-bit bus with the S3 status code, four T-cycles and an emulated 8288, no queue status, at rest in
JumpVector. -/
structure Fetching (s : State) : Prop where
  status : s.cfg.statusVariant = .s3
  cycle : s.cfg.cycleVariant = .fourState
  emulated : s.cfg.bcEmulated = true
  controller : s.cfg.bcVariant = .bc8288
  lines : s.cfg.cmdLinesAvail = true
  bus8 : s.cfg.bus16 = false
  noStatus : s.cfg.qsAvail = false
  phase : s.srv.state = .jumpVector
  rest : s.srv.budget = 0

/-- What a tick leaves alone in this configuration. -/
structure QuietTick (s t : State) : Prop where
  cfg : t.cfg = s.cfg
  ipset : t.ipset = s.ipset
  mb : t.mb = s.mb
  flags : t.flags = s.flags
  srv : t.srv = { s.srv with tickCount := s.srv.tickCount + 1 }
  ok : t.resp.ok = true
  cyc : t.resp.cyc = some t.bcs.tcycle

section FetchTicks

variable {s : State} (p : Pins) (d : Word) (g : Tag)

theorem Fetching.decode (h : Fetching s) (raw : BitVec 4) (v : Bool) :
    decodeStatus s.cfg raw v = (.ofBits (raw.extractLsb' 0 3), false) := by
  simp [decodeStatus, statusEntry, h.status]

theorem Fetching.of_quiet {t : State} (h : Fetching s) (hq : QuietTick s t) : Fetching t where
  status := by rw [hq.cfg]; exact h.status
  cycle := by rw [hq.cfg]; exact h.cycle
  emulated := by rw [hq.cfg]; exact h.emulated
  controller := by rw [hq.cfg]; exact h.controller
  lines := by rw [hq.cfg]; exact h.lines
  bus8 := by rw [hq.cfg]; exact h.bus8
  noStatus := by rw [hq.cfg]; exact h.noStatus
  phase := by rw [hq.srv]; exact h.phase
  rest := by rw [hq.srv]; exact h.rest

/-- At rest in JumpVector a tick runs no segment. -/
theorem Fetching.ticked_srv (h : Fetching s) : (ticked s p d g).srv = (stateBeforeEdge s (ticked s p d g)).srv ∧
    (ticked s p d g).ip = programAfterFeed s (ticked s p d g) ∧ (ticked s p d g).resp.err = none := by
  obtain ⟨hsrv, hip, herr⟩ := ticked_of_segment s p d g (by simp [h.phase]) (by simp [h.phase])
  have hrest : (stateBeforeEdge s (ticked s p d g)).srv.budget = 0 := h.rest
  have hnone : (stateBeforeEdge s (ticked s p d g)).runSegment s.srv.state p (cycleOfTick s (ticked s p d g)) =
      (stateBeforeEdge s (ticked s p d g), none) := by rw [State.runSegment, if_pos hrest]
  rw [hnone] at hsrv hip herr
  exact ⟨hsrv, hip, herr⟩

theorem Fetching.quiet (h : Fetching s) (hwrite : s.bcs.latchedStatus = .memWrite → (ticked s p d g).resp.event = none)
    (hover : (ticked s p d g).flags.queueOverflow = s.flags.queueOverflow) : QuietTick s (ticked s p d g) := by
  obtain ⟨hsrv, -, herr⟩ := h.ticked_srv p d g
  obtain ⟨edge, hseq, -⟩ := ticked_sequencer s p d g
  have harbiter : arbiter s.cfg s.srv.state = .inline := by rw [h.phase]; rfl
  have hstores : storesNow (afterAdvance s p) s.bcs (tickCycle s p) = false := by
    rw [← Bool.not_eq_true, storesNow_iff s p d g, harbiter]
    exact fun hs => nomatch hs.2.2
  obtain ⟨hmb, hfull, hrange⟩ := ticked_of_noStore s p d g hstores
  have hlast := (ticked_err_of_budget s p d g (by simp [h.phase]) (by simp [h.rest])).2
  refine ⟨ticked_cfg s p d g, ticked_ipset s p d g, hmb, ?flags, ?srv, by rw [ticked_resp, herr]; rfl, rfl⟩
  case flags =>
    have hreserved : (ticked s p d g).flags.statusReserved = s.flags.statusReserved := by
      obtain ⟨a, b, e, hflags⟩ := afterData_flags s p d g
      rw [ticked_flags]
      show (afterData s p d g).flags.statusReserved = _
      rw [hflags, h.decode]
      exact Bool.or_false _
    have hstore : (ticked s p d g).flags.storeAddr = s.flags.storeAddr := by
      rw [ticked_flags]
      show (afterData s p d g).flags.storeAddr = _
      rw [afterData_storeAddr, h.phase]
      simp
    have hunder : (ticked s p d g).flags.queueUnderflow = s.flags.queueUnderflow := by
      rw [ticked_flags]
      show (afterQueue s p d g).flags.queueUnderflow = _
      rw [afterQueue_underflow, (statusTaken_afterData s p d g).2.1, State.statusTaken, h.noStatus]
      rfl
    have hrange' := hrange fun hr => by rw [harbiter] at hr; cases hr.2.1
    generalize (ticked s p d g).flags = f at *
    generalize s.flags = f' at *
    cases f
    cases f'
    simp_all
  case srv =>
    have hcycles : (ticked s p d g).srv.idCycles = s.srv.idCycles := by
      rw [hseq.idCycles, h.phase]
      rfl
    have hcaptured : (ticked s p d g).srv.stackCaptureCursor = s.srv.stackCaptureCursor := by
      rw [hseq.captured, if_neg]
      · rfl
      · rintro ⟨hevent, -, hk⟩
        rw [hwrite hk] at hevent
        cases hevent
    rw [hsrv]
    simp [stateBeforeEdge, hcycles, hcaptured, h.phase, servedFill]

/-- A tick that ends no cycle leaves the queue and the log too. -/
theorem Fetching.of_noEnd (h : Fetching s) (hended : (tickCycle s p).ended = false) :
    QuietTick s (ticked s p d g) ∧ (ticked s p d g).resp.event = none ∧ (ticked s p d g).q = s.q ∧
      (ticked s p d g).log = s.log := by
  have hevent : (ticked s p d g).resp.event = none := by
    rw [ticked_event, hended]
    rfl
  obtain ⟨hq, hover⟩ := ticked_q_of_noPush s p d g (.inl (by simp [pushesNow, hended]))
  rw [State.statusTaken, h.noStatus] at hq
  exact ⟨h.quiet p d g (fun _ => hevent) hover, hevent, hq, by rw [ticked_log, hended]; rfl⟩

theorem Fetching.decode_code (h : Fetching s) (hraw : p.rawStatus = 0b100) :
    decodeStatus s.cfg p.rawStatus p.statusValid = (.code, false) := by
  rw [h.decode, hraw]
  rfl

theorem Fetching.decode_passive (h : Fetching s) (hraw : p.rawStatus = 0b111) :
    decodeStatus s.cfg p.rawStatus p.statusValid = (.passive, false) := by
  rw [h.decode, hraw]
  rfl

variable {st : BusStatus} (hst : decodeStatus s.cfg p.rawStatus p.statusValid = (st, false))

include hst in
theorem Fetching.ticked_bc (h : Fetching s) : (ticked s p d g).bc = controllerTick s.bc st := by
  rw [Machine.ticked_bc, hst, controllerAfter_of_8288 _ _ _ h.emulated h.controller]

include hst in
/-- The bus-cycle machine follows the four-state table on the lines the controller has just set. -/
theorem Fetching.tickCycle_cyc (h : Fetching s) : (tickCycle s p).cyc =
    nextCycleFour (.cycle s.bcs.tcycle) st s.bcs.latchedStatus
      (xferDone s.cfg s.bcs.latchedStatus (cmdLinesOf (controllerTick s.bc st).lines) p.ready) := by
  simp only [tickCycle, tickResult, tickNext, tickDone, tickLines, h.cycle, h.emulated, if_true, hst,
    controllerAfter_of_8288 _ _ _ h.emulated h.controller]
  rfl

theorem Fetching.tickCycle_ended (h : Fetching s) :
    (tickCycle s p).ended = ((tickCycle s p).cyc == .t4 && s.bcs.tcycle != .t4) := by
  show cycleEnds s.cfg.cycleVariant _ _ = _
  rw [h.cycle]
  rfl

end FetchTicks

/-! ### The T-cycles of the fetch -/

/-- The controller in each T-cycle of a code fetch. -/
def fetchController : TCycle → BusController
  | .t1 => ⟨.passive, .code, .code, .t1, ⟨true, false, false, false, false, false, false⟩⟩
  | .t2 => ⟨.code, .code, .code, .t2, ⟨false, true, false, false, false, false, false⟩⟩
  | .t3 => ⟨.code, .passive, .code, .t3, ⟨false, true, false, false, false, false, false⟩⟩
  | .t4 => ⟨.passive, .passive, .code, .t4, ⟨false, false, false, false, false, false, false⟩⟩
  | .idle | .wait => ⟨.passive, .passive, .code, .idle, ⟨false, false, false, false, false, false, false⟩⟩

/-- The fetch at the address `a` is in the T-cycle `c`. -/
structure FetchCycle (a : Addr) (c : TCycle) (s : State) : Prop where
  bc : s.bc = fetchController c
  tcycle : s.bcs.tcycle = c
  status : s.bcs.latchedStatus = .code
  address : s.bcs.addressLatch = maskAddr s.cfg a
  width : s.bcs.busWidth = .eightLow
  valid : s.bcs.widthValid = true

section FetchSteps

variable {s : State} {p : Pins} (d : Word) (g : Tag) {a : Addr}

/-- T1 is entered on the Code status, from Idle. -/
theorem Fetching.entersT1 (h : Fetching s) (hidle : s.bcs.tcycle = .idle) (hbc : s.bc = .powerOn)
    (hraw : p.rawStatus = 0b100) :
    QuietTick s (ticked s p d g) ∧ FetchCycle p.addr .t1 (ticked s p d g) ∧ (ticked s p d g).bcs.fed = false ∧
    (ticked s p d g).resp.event = none ∧ (ticked s p d g).q = s.q ∧ (ticked s p d g).log = s.log ∧
    (ticked s p d g).ip = s.ip := by
  have hst := h.decode_code p hraw
  have hcyc : (tickCycle s p).cyc = .t1 := by
    rw [h.tickCycle_cyc p hst, hidle]
    rfl
  have hended : (tickCycle s p).ended = false := by
    rw [h.tickCycle_ended, hcyc]
    rfl
  have hno : ¬(dataPhaseNext s ∧ s.bcs.fed = false ∧ isRead s.bcs.latchedStatus = true) := by
    simp [dataPhaseNext, h.cycle, hidle]
  have hbcs := ticked_bcs_of_noFeed s p d g hno
  rw [tickBusCycle_entersT1 hcyc (by simp [hidle]), hst, transferWidth_eq, h.bus8] at hbcs
  obtain ⟨hquiet, hevent, hq, hlog⟩ := h.of_noEnd p d g hended
  refine ⟨hquiet, ⟨?_, by rw [hbcs], by rw [hbcs], by rw [hbcs, ticked_cfg], by rw [hbcs]; rfl, by rw [hbcs]; rfl⟩,
    by rw [hbcs], hevent, hq, hlog, ?_⟩
  · rw [h.ticked_bc p d g hst, hbc]
    rfl
  · rw [(h.ticked_srv p d g).2.1, programAfterFeed, fedInTick, hbcs]
    simp

/-- Between T1 and the end of the cycle a tick keeps the latches. -/
theorem FetchCycle.next (h : Fetching s) {c n : TCycle} (hc : FetchCycle a c s) {st : BusStatus}
    (hst : decodeStatus s.cfg p.rawStatus p.statusValid = (st, false)) (hcyc : (tickCycle s p).cyc = n)
    (hn : n ≠ .t1 ∧ n ≠ .idle) (hbc : controllerTick (fetchController c) st = fetchController n) :
    FetchCycle a n (ticked s p d g) := by
  have hlatches := tickBusCycle_stays (c := s.cfg) (b := s.bcs) (p := p) (l := tickLines s.cfg s.bc p)
    (fun hT1 => hn.1 (hcyc.symm.trans hT1.1)) (fun hidle => hn.2 (hcyc.symm.trans hidle.1))
  obtain ⟨w, m, f, hbcs⟩ := afterData_bcs s p d g
  rw [← ticked_bcs, hlatches] at hbcs
  refine ⟨?_, ?_, ?_, ?_, ?_, ?_⟩
  · rw [h.ticked_bc p d g hst, hc.bc, hbc]
  · rw [hbcs]
    exact hcyc
  · rw [hbcs, ← hc.status]
  · rw [hbcs, ticked_cfg, ← hc.address]
  · rw [hbcs, ← hc.width]
  · rw [hbcs, ← hc.valid]

/-- T1 goes to T2. -/
theorem FetchCycle.entersT2 (h : Fetching s) (hc : FetchCycle a .t1 s) (hfed : s.bcs.fed = false)
    (hraw : p.rawStatus = 0b100) :
    QuietTick s (ticked s p d g) ∧ FetchCycle a .t2 (ticked s p d g) ∧ (ticked s p d g).bcs.fed = false ∧
    (ticked s p d g).resp.event = none ∧ (ticked s p d g).q = s.q ∧ (ticked s p d g).log = s.log ∧
    (ticked s p d g).ip = s.ip := by
  have hst := h.decode_code p hraw
  have hcyc : (tickCycle s p).cyc = .t2 := by
    rw [h.tickCycle_cyc p hst, hc.tcycle]
    rfl
  have hended : (tickCycle s p).ended = false := by
    rw [h.tickCycle_ended, hcyc]
    rfl
  have hno : fedInTick s (ticked s p d g) = false := by
    rw [← Bool.not_eq_true, fedInTick_ticked_iff]
    simp [dataPhaseNext, h.cycle, hc.tcycle]
  obtain ⟨hquiet, hevent, hq, hlog⟩ := h.of_noEnd p d g hended
  refine ⟨hquiet, hc.next d g h hst hcyc (by decide) rfl, ?_, hevent, hq, hlog, ?_⟩
  · simpa [fedInTick, hfed] using hno
  · rw [(h.ticked_srv p d g).2.1, programAfterFeed, hno]
    rfl

theorem programAnswer_eightLow {b : Byte} (hb : s.ip.buf[s.ip.cursor]? = some b) :
    lowLane (programAnswer s .eightLow).data = b ∧ (programAnswer s .eightLow).nprog = 1 := by
  obtain ⟨hlt, -⟩ := List.getElem?_eq_some_iff.mp hb
  rw [programAnswer, programRead_inside .eightLow _ hlt]
  refine ⟨?_, ?_⟩
  · simp only [programWord, lowLane_joinLanes, byteOrFill_nat, hb, Option.getD_some]
  · simp only [widthBytes]
    omega

/-- T2 goes to T3, and the inline program serves the fetch. -/
theorem FetchCycle.entersT3 (h : Fetching s) (hc : FetchCycle a .t2 s) (hfed : s.bcs.fed = false)
    (hraw : p.rawStatus = 0b111) {b : Byte} (hb : s.ip.buf[s.ip.cursor]? = some b) :
    QuietTick s (ticked s p d g) ∧ FetchCycle a .t3 (ticked s p d g) ∧ (ticked s p d g).bcs.fed = true ∧
    lowLane (ticked s p d g).bcs.dataLatch = b ∧ (ticked s p d g).bcs.fedNprog = 1 ∧
    (ticked s p d g).resp.event = none ∧ (ticked s p d g).q = s.q ∧ (ticked s p d g).log = s.log ∧
    (ticked s p d g).ip = { s.ip with cursor := s.ip.cursor + 1 } := by
  have hst := h.decode_passive p hraw
  have hcyc : (tickCycle s p).cyc = .t3 := by
    rw [h.tickCycle_cyc p hst, hc.tcycle]
    rfl
  have hended : (tickCycle s p).ended = false := by
    rw [h.tickCycle_ended, hcyc]
    rfl
  have hsrc : arbiter s.cfg s.srv.state = .inline := by rw [h.phase]; rfl
  obtain ⟨hfed', hdata, -⟩ := ticked_of_feed s p d g (.inl ⟨h.cycle, hc.tcycle⟩) hfed (by rw [hc.status]; rfl)
  rw [hsrc, feedData_inline s p d g (.inl hc.status) hc.valid, hc.width, Prod.mk.injEq] at hdata
  obtain ⟨hlane, hprog⟩ := programAnswer_eightLow hb
  obtain ⟨hquiet, hevent, hq, hlog⟩ := h.of_noEnd p d g hended
  refine ⟨hquiet, hc.next d g h hst hcyc (by decide) rfl, hfed', by rw [hdata.1, hlane], by rw [hdata.2, hprog], hevent,
    hq, hlog, ?_⟩
  have hserved : fedInTick s (ticked s p d g) = true := (fedInTick_iff s).mpr ⟨hfed, hfed'⟩
  have hmin : min (s.ip.cursor + 1) s.ip.buf.length = s.ip.cursor + 1 := by
    obtain ⟨hlt, -⟩ := List.getElem?_eq_some_iff.mp hb
    omega
  rw [(h.ticked_srv p d g).2.1, programAfterFeed, hserved, hsrc, hc.status, hc.valid, hc.width]
  simp [isMemoryRead, widthBytes, hmin]

/-- T3 goes to T4 as the command line falls: the cycle ends, its byte is queued and its record logged. -/
theorem FetchCycle.entersT4 (h : Fetching s) (hc : FetchCycle a .t3 s) (hfed : s.bcs.fed = true)
    (hprog : s.bcs.fedNprog = 1) (hraw : p.rawStatus = 0b111) (hroom : s.q.len < capSize s.q.cap) :
    QuietTick s (ticked s p d g) ∧ FetchCycle a .t4 (ticked s p d g) ∧
    (ticked s p d g).resp.event = some ⟨.code, .width .eightLow, maskAddr s.cfg a, s.bcs.dataLatch⟩ ∧
    queueList (ticked s p d g).q = queueList s.q ++ [⟨lowLane s.bcs.dataLatch, .program⟩] ∧
    (ticked s p d g).log = logAppended s.log ⟨.code, .width .eightLow, maskAddr s.cfg a, s.bcs.dataLatch⟩ ∧
    (ticked s p d g).ip = s.ip := by
  have hst := h.decode_passive p hraw
  have hcyc : (tickCycle s p).cyc = .t4 := by
    rw [h.tickCycle_cyc p hst, hc.tcycle, hc.status, hc.bc, xferDone, if_pos h.lines]
    rfl
  have hended : (tickCycle s p).ended = true := by
    rw [h.tickCycle_ended, hcyc, hc.tcycle]
    rfl
  have hrecord : cycleRecord s.bcs p.dataIn = ⟨.code, .width .eightLow, maskAddr s.cfg a, s.bcs.dataLatch⟩ := by
    simp [cycleRecord, hc.status, hc.width, hc.valid, hc.address, loggedWidth, isRead]
  have hpush : pushesNow s.bcs (tickCycle s p) = true := by simp [pushesNow, hended, hc.status, hfed]
  have htaken : s.statusTaken p = s := by simp [State.statusTaken, h.noStatus]
  have hfits : hasRoom (s.statusTaken p).q s.bcs.busWidth = true := by
    rw [htaken, hc.width, hasRoom_iff]
    exact hroom
  obtain ⟨hq, -, hover⟩ := ticked_q_of_room s p d g hpush hc.valid hfits
  have hno : fedInTick s (ticked s p d g) = false := by simp [fedInTick, hfed]
  refine ⟨h.quiet p d g (by rw [hc.status]; nofun) hover, hc.next d g h hst hcyc (by decide) rfl, ?_, ?_, ?_, ?_⟩
  · rw [ticked_event, hended, hrecord]
    rfl
  · rw [hq, htaken]
    simp [fetchedEntries, hc.width, hprog, tagOf]
  · rw [ticked_log, hended, hrecord, if_pos ⟨rfl, by rw [hc.status]; decide⟩]
  · rw [(h.ticked_srv p d g).2.1, programAfterFeed, hno]
    rfl

/-- T4 goes to Idle: both machines rest and the bus is released. -/
theorem FetchCycle.entersIdle (h : Fetching s) (hc : FetchCycle a .t4 s) (hraw : p.rawStatus = 0b111) :
    QuietTick s (ticked s p d g) ∧ (ticked s p d g).bc = fetchController .idle ∧
    (ticked s p d g).bcs.tcycle = .idle ∧ (ticked s p d g).bcs.latchedStatus = .passive ∧
    (ticked s p d g).xcvr.dir = .input ∧ (ticked s p d g).resp.event = none ∧ (ticked s p d g).q = s.q ∧
    (ticked s p d g).log = s.log ∧ (ticked s p d g).ip = s.ip := by
  have hst := h.decode_passive p hraw
  have hcyc : (tickCycle s p).cyc = .idle := by
    rw [h.tickCycle_cyc p hst, hc.tcycle]
    rfl
  have hended : (tickCycle s p).ended = false := by
    rw [h.tickCycle_ended, hcyc]
    rfl
  have hnext : ¬dataPhaseNext s := by simp [dataPhaseNext, h.cycle, hc.tcycle]
  have hno : fedInTick s (ticked s p d g) = false := by
    rw [← Bool.not_eq_true, fedInTick_ticked_iff]
    exact fun hfed => hnext hfed.1
  have hbcs := ticked_bcs_of_noFeed s p d g fun hfed => hnext hfed.1
  rw [tickBusCycle_entersIdle hcyc (by simp [hc.tcycle])] at hbcs
  obtain ⟨hquiet, hevent, hq, hlog⟩ := h.of_noEnd p d g hended
  refine ⟨hquiet, ?_, by rw [hbcs], by rw [hbcs], ?_, hevent, hq, hlog, ?_⟩
  · rw [h.ticked_bc p d g hst, hc.bc]
    rfl
  · rw [ticked_xcvr_of_released s p d g (.inl ⟨h.cycle, hc.tcycle⟩)]
  · rw [(h.ticked_srv p d g).2.1, programAfterFeed, hno]
    rfl

end FetchSteps

theorem Fetching.exec {s : State} (h : Fetching s) (p : Pins) (d : Word) (g : Tag) :
    exec (.engineTick p d g) s = .next (ticked s p d g) :=
  exec_engineTick_of_running s p d g (by simp [h.phase]) (by simp [h.phase])

/-- Settles O49: T1, T2, T3, T4 and Idle in turn. -/
theorem codeFetchOfAnInlineProgram : Obligations.CodeFetchOfAnInlineProgram := by
  intro s b p1 p2 p3 p4 p5 d g hst hcycle hem hvar hlines hbus hqs hphase hrest hidle hbc hb hroom hr1 hr2 hr3 hr4 hr5
  have h0 : Fetching s := ⟨hst, hcycle, hem, hvar, hlines, hbus, hqs, hphase, hrest⟩
  have hrun1 := h0.exec p1 d g
  obtain ⟨q1, hc1, hfed1, he1, hq1, hl1, hip1⟩ := h0.entersT1 (p := p1) d g hidle hbc hr1
  generalize ticked s p1 d g = s1 at *
  have h1 := h0.of_quiet q1
  have hrun2 := h1.exec p2 d g
  obtain ⟨q2, hc2, hfed2, he2, hq2, hl2, hip2⟩ := hc1.entersT2 (p := p2) d g h1 hfed1 hr2
  generalize ticked s1 p2 d g = s2 at *
  have h2 := h1.of_quiet q2
  have hrun3 := h2.exec p3 d g
  obtain ⟨q3, hc3, hfed3, hlane, hprog, he3, hq3, hl3, hip3⟩ := hc2.entersT3 (p := p3) d g h2 hfed2 hr3
    (by rw [hip2, hip1]; exact hb)
  generalize ticked s2 p3 d g = s3 at *
  have h3 := h2.of_quiet q3
  have hrun4 := h3.exec p4 d g
  obtain ⟨q4, hc4, he4, hq4, hl4, hip4⟩ := hc3.entersT4 (p := p4) d g h3 hfed3 hprog hr4
    (by rw [hq3, hq2, hq1]; exact hroom)
  generalize ticked s3 p4 d g = s4 at *
  have h4 := h3.of_quiet q4
  have hrun5 := h4.exec p5 d g
  obtain ⟨q5, hbc5, hcyc5, hlatched5, hdir5, he5, hq5, hl5, hip5⟩ := hc4.entersIdle (p := p5) d g h4 hr5
  generalize ticked s4 p5 d g = s5 at *
  have hcfg3 : s3.cfg = s.cfg := by rw [q3.cfg, q2.cfg, q1.cfg]
  have hcfg : s5.cfg = s.cfg := by rw [q5.cfg, q4.cfg, hcfg3]
  have hmb : s5.mb = s.mb := by rw [q5.mb, q4.mb, q3.mb, q2.mb, q1.mb]
  have hrun : runOperations ([p1, p2, p3, p4, p5].map fun p => .engineTick p d g) s =
      some (s5, [s1.resp, s2.resp, s3.resp, s4.resp, s5.resp]) := by
    simp only [List.map_cons, List.map_nil]
    rw [runOperations_cons_of_next _ hrun1, runOperations_cons_of_next _ hrun2, runOperations_cons_of_next _ hrun3,
      runOperations_cons_of_next _ hrun4, runOperations_cons_of_next _ hrun5]
    rfl
  rw [hcfg3] at he4 hl4
  have haddr : (maskAddr s.cfg p1.addr).toNat = p1.addr.toNat % addrSpace s.cfg := maskAddr_toNat s.cfg p1.addr
  have hmasked : maskAddr s.cfg (maskAddr s.cfg p1.addr) = maskAddr s.cfg p1.addr :=
    maskAddr_of_lt (by rw [maskAddr_toNat]; exact addrOf_lt s.cfg p1.addr)
  refine ⟨s5, _, ⟨.code, .width .eightLow, maskAddr s.cfg p1.addr, s3.bcs.dataLatch⟩, _, hrun, ?responses, rfl, rfl,
    haddr, hlane, exec_logAppend_of_active _ _ _ s (by nofun), ?log, ?queue, ?program, by rw [hbc5]; rfl,
    by rw [hbc5]; rfl, hcyc5, hlatched5, hdir5, ?server, hmb, ?images, hcfg, ?flags, sameMemory_of_cfg_mb hcfg hmb⟩
  case responses =>
    simp only [List.map_cons, List.map_nil, q1.ok, q2.ok, q3.ok, q4.ok, q5.ok, q1.cyc, q2.cyc, q3.cyc, q4.cyc, q5.cyc,
      he1, he2, he3, he4, he5, hc1.tcycle, hc2.tcycle, hc3.tcycle, hc4.tcycle, hcyc5]
  case log => rw [hl5, hl4, hl3, hl2, hl1, hmasked]
  case queue => rw [hq5, hq4, hq3, hq2, hq1, hlane]
  case program => rw [hip5, hip4, hip3, hip2, hip1]
  case server => rw [q5.srv, q4.srv, q3.srv, q2.srv, q1.srv]
  case images => rw [q5.ipset, q4.ipset, q3.ipset, q2.ipset, q1.ipset]
  case flags => rw [q5.flags, q4.flags, q3.flags, q2.flags, q1.flags]

end Sys2Proof.Machine
end
